-- ==== Sys2Proof/Word.lean ====
section
/-! DEFINITION. The engine's two cell sizes: the 32-bit register, command word or binary32 cell (R23, R45, R90) and the
8-bit buffer byte (R44). -/

namespace Sys2Proof

/-- A register, a command word, or the bit pattern of a binary32 value (R23, R61, R90). -/
abbrev Word := BitVec 32

/-- One byte of HASH, PIXIN or PIXOUT (R44). -/
abbrev Byte := BitVec 8

end Sys2Proof
end

