-- ==== Sys2Proof/Config.lean ====
section
/-! DEFINITION. What the spec leaves open: the parameters of R7 and the values it calls unspecified. Each is an opaque
constant without a body, so a claim about the engine holds for every value of it. -/

namespace Sys2Proof

/-- R138: how `round` treats a value exactly half way between two integers. -/
inductive Tie where
  | halfEven
  | halfAway
deriving DecidableEq, Repr, Inhabited

namespace Config

/-- Parameter TIE of R7 and R138, open in the spec (log entry 3). -/
opaque tie : Tie

/-- Parameter ASPECT_CLAMP of R7 and R236, open in the spec (log entry 4). -/
opaque aspectClamp : Bool

/-- Parameter COS of R7 and R136 before the three facts R136 states of it are imposed (log entry 2);
`Machine.Binary32.cosf` imposes them. -/
opaque cosRaw : Word → Word

/-- Parameter BASE of R7 and R60, counted in windows of 512 KiB (log entry 5). -/
opaque windowIndex : Nat

/-- R60: the byte address of the engine's window, a multiple of 0x80000. -/
def base : Nat := windowIndex * 0x80000

/-- FREE VALUE (R48, R50, R340; U6, U7): what the byte at a window offset holds after a given number of resets, until
something writes it (log entry 6). -/
opaque unwrittenByte : Nat → Nat → Byte

/-- FREE VALUE (R72, U8): what a host read of anything but STATUS, ID and IE returns while BUSY = 1, at a given draw
(log entry 10). -/
opaque busyRead : Nat → Word

/-- FREE VALUE: the result of a binary32 operation that IEEE 754 calls a NaN. R141 shows that no run meets one, and the
spec states no canonical NaN (log entry 7). -/
opaque nanResult : Word → Word → Word

/-- FREE VALUE: `rnd` of a value R138 does not define it for (negative, infinite or NaN); no run meets one
(log entry 7). -/
opaque unstatedInt : Word → Nat

/-- FREE VALUE: `trunc_u8` of a value outside the range 0 to 255 that R140 defines it on; no run meets one
(log entry 7). -/
opaque unstatedByte : Word → Byte

end Config
end Sys2Proof
end

