-- ==== Sys2Proof/Machine/Numerics.lean ====
section
/-! DEFINITION. The arithmetic the formulas are written in (R130), and rounding to integers on exact rationals (R138, R145).
Every command takes it as an argument; the engine's is `Binary32.numerics` (R131), the idealisation of R132 is in Exact.lean.
-/

namespace Sys2Proof.Machine

/-- R130: what the parameter NUM supplies, over the carrier `F`; with it the two conversions to integers of R138 and R140,
which are functions of the carrier too. -/
structure Numerics (F : Type) where
  fadd : F → F → F
  fsub : F → F → F
  fmul : F → F → F
  fdiv : F → F → F
  /-- R133. -/
  i2f : Nat → F
  /-- R10, R133: `lit n d` is the literal n/d; every one the rules write is exact in binary32. -/
  lit : Nat → Nat → F
  /-- R136. -/
  cosf : F → F
  /-- R134. -/
  pi : F
  /-- R135. -/
  twoThirds : F
  flt : F → F → Bool
  fgt : F → F → Bool
  /-- R137. -/
  fabs : F → F
  /-- R138, with the parameter TIE. -/
  rnd : F → Nat
  /-- R140. -/
  truncU8 : F → Byte
  /-- R130: the pattern a host read returns. -/
  bits32 : F → Word
  /-- R237: the carrier has the infinity that a positive number divided by zero is. -/
  infinite : Bool

/-- R138, R145: the integer nearest to the rational n/d; `tie` decides at exact halves. -/
def rndRatio (tie : Tie) (n d : Nat) : Nat :=
  if 2 * (n % d) < d then n / d
  else if d < 2 * (n % d) then n / d + 1
  else match tie with
    | .halfEven => n / d + (n / d) % 2
    | .halfAway => n / d + 1

/-- R139: the largest value of an n-bit field bounds what is stored in it. -/
def sat (bits n : Nat) : Nat := min n (2 ^ bits - 1)

namespace Numerics
variable {F : Type} (N : Numerics F)

/-- The literal 0.0. -/
def zero : F := N.lit 0 1

/-- The literal 1.0. -/
def one : F := N.lit 1 1

/-- R137. -/
def clamp01 (v : F) : F :=
  if N.flt v N.zero then N.zero else if N.fgt v N.one then N.one else v

/-- `quant_N` of R202: 0 for a negative value, else the saturated rounding (R138, R139). -/
def quant (bits : Nat) (v : F) : BitVec bits :=
  BitVec.ofNat bits (if N.flt v N.zero then 0 else sat bits (N.rnd v))

/-- R172: the pixel conversion, truncating (C8). -/
def toU8 (v : F) : Byte := N.truncU8 (N.fmul (N.lit 255 1) (N.clamp01 v))

end Numerics
end Sys2Proof.Machine
end

