-- ==== Sys2Proof/Machine/Binary32.lean ====
section
/-! DEFINITION. IEEE 754 binary32 (R131): every operation computes the exact result and rounds it once to nearest, ties to
even; subnormals are kept. A finite value is a whole number of units of 2^-149, the least positive value. -/

namespace Sys2Proof.Machine.Binary32

/-- Sign bit, bit 31 (R61). -/
def sign (w : Word) : Bool := w.msb

/-- Bits 30 down to 0: exponent and fraction (R61). -/
def magnitude (w : Word) : Nat := w.toNat % 2 ^ 31

/-- The pattern of infinity without its sign. -/
def infMagnitude : Nat := 0x7F800000

def isNaN (w : Word) : Bool := infMagnitude < magnitude w

def isInf (w : Word) : Bool := magnitude w == infMagnitude

def isFinite (w : Word) : Bool := magnitude w < infMagnitude

/-- The magnitude of a finite value in units of 2^-149: the fraction, with its leading one unless the exponent field is 0. -/
def units (w : Word) : Nat :=
  let e := magnitude w / 2 ^ 23
  let f := magnitude w % 2 ^ 23
  if e = 0 then f else (2 ^ 23 + f) * 2 ^ (e - 1)

/-- A finite value in units of 2^-149. -/
def signedUnits (w : Word) : Int := if sign w then -(units w : Int) else units w

/-- The integer nearest to n/d, ties to even. -/
def nearestEven (n d : Nat) : Nat := rndRatio .halfEven n d

/-- The magnitude pattern of the binary32 value nearest to n/d units, ties to even. Values below 2^24 units have steps of
one unit; those of `k` more binary digits have steps of 2^k, and the pattern is `k * 2^23` plus the rounded number of
steps, also when that rounds up to the next power of two. Too large a value is infinity. -/
def roundUnits (n d : Nat) : Nat :=
  let k := Nat.log2 (n / d) - 23
  min (k * 2 ^ 23 + nearestEven n (d * 2 ^ k)) infMagnitude

/-- A pattern from its sign and magnitude. -/
def ofParts (negative : Bool) (mag : Nat) : Word :=
  BitVec.ofNat 32 (if negative then 2 ^ 31 + mag else mag)

/-- The binary32 value nearest to n/d. -/
def ofRatio (n d : Nat) : Word := ofParts false (roundUnits (n * 2 ^ 149) d)

/-- Change of sign. -/
def neg (w : Word) : Word := w ^^^ 0x80000000

/-- Addition. An exact sum of zero is +0.0 unless both operands are -0.0. -/
def fadd (a b : Word) : Word :=
  if isNaN a || isNaN b then Config.nanResult a b
  else if isInf a then (if isInf b && sign a != sign b then Config.nanResult a b else a)
  else if isInf b then b
  else
    let s := signedUnits a + signedUnits b
    if s = 0 then ofParts (sign a && sign b) 0
    else ofParts (decide (s < 0)) (roundUnits s.natAbs 1)

/-- Subtraction is the addition of the value of opposite sign. -/
def fsub (a b : Word) : Word := fadd a (neg b)

/-- Multiplication. -/
def fmul (a b : Word) : Word :=
  if isNaN a || isNaN b then Config.nanResult a b
  else if isInf a || isInf b then
    (if magnitude a = 0 || magnitude b = 0 then Config.nanResult a b
     else ofParts (sign a != sign b) infMagnitude)
  else ofParts (sign a != sign b) (roundUnits (units a * units b) (2 ^ 149))

/-- Division; a non-zero finite value over zero is an infinity (R237). -/
def fdiv (a b : Word) : Word :=
  if isNaN a || isNaN b then Config.nanResult a b
  else if isInf a then (if isInf b then Config.nanResult a b else ofParts (sign a != sign b) infMagnitude)
  else if isInf b then ofParts (sign a != sign b) 0
  else if magnitude b = 0 then
    (if magnitude a = 0 then Config.nanResult a b else ofParts (sign a != sign b) infMagnitude)
  else ofParts (sign a != sign b) (roundUnits (units a * 2 ^ 149) (units b))

/-- R133: exact for the integers the rules convert. -/
def i2f (n : Nat) : Word := ofRatio n 1

/-- R137: clears the sign. -/
def fabs (w : Word) : Word := w &&& 0x7FFFFFFF

/-- Patterns in the order of their values; the two zeros are equal. -/
def orderKey (w : Word) : Int := if sign w then -(magnitude w : Int) else magnitude w

/-- R131: -0.0 and +0.0 compare equal; a NaN compares with nothing. -/
def flt (a b : Word) : Bool := !isNaN a && !isNaN b && decide (orderKey a < orderKey b)

/-- R130: the converse of `flt`. -/
def fgt (a b : Word) : Bool := flt b a

/-- R134. -/
def pi : Word := 0x40490FDB

/-- R135: 2/3 as one binary32 division. -/
def twoThirds : Word := fdiv (i2f 2) (i2f 3)

/-- Bit pattern of 1.0. -/
def one : Word := 0x3F800000

/-- A value in [-1, 1]. -/
def inUnitRange (w : Word) : Bool := magnitude w ≤ 0x3F800000

/-- R136: the parameter COS with what the spec assumes of it: 1.0 at both zeros, and in [-1, 1] for every finite
argument. A parameter that meets both is `cosf` itself (log entry 2). -/
def cosf (a : Word) : Word :=
  if magnitude a = 0 then one
  else if isFinite a && !inUnitRange (Config.cosRaw a) then one
  else Config.cosRaw a

/-- R138 for a finite value that is not negative; free for any other (log entry 7). -/
def rnd (w : Word) : Nat :=
  if isFinite w && (!sign w || magnitude w == 0) then rndRatio Config.tie (units w) (2 ^ 149)
  else Config.unstatedInt w

/-- R140 for a value from 0 to 255; free for any other (log entry 7). -/
def truncU8 (w : Word) : Byte :=
  if isFinite w && (!sign w || magnitude w == 0) && decide (units w ≤ 255 * 2 ^ 149) then
    BitVec.ofNat 8 (units w / 2 ^ 149)
  else Config.unstatedByte w

/-- NUM = binary32 (R131), the engine's arithmetic and the default (log entry 1). -/
def numerics : Numerics Word where
  fadd := fadd
  fsub := fsub
  fmul := fmul
  fdiv := fdiv
  i2f := i2f
  lit := ofRatio
  cosf := cosf
  pi := pi
  twoThirds := twoThirds
  flt := flt
  fgt := fgt
  fabs := fabs
  rnd := rnd
  truncU8 := truncU8
  bits32 := id
  infinite := true

end Sys2Proof.Machine.Binary32
end

