-- ==== Sys2Proof/Syntax.lean ====
section
/-! DEFINITION. The engine's commands (R91), and the host's program: the accesses it performs on the slave interface, with
the turns of the other two agents between them (R5, R70, R340). -/

namespace Sys2Proof

/-- The 17 commands of R91 and spec/opcode_table.json. A command word carries no operand field (R90). -/
inductive Instr where
  /-- CLR, 0x01 (R281). -/
  | clr
  /-- SRST, 0x02 (R282). -/
  | srst
  /-- CT.FWD, 0x10 (R160). -/
  | ctFwd
  /-- GRID.ENC, 0x11 (R230). -/
  | gridEnc
  /-- DCT.FWD, 0x12 (R182). -/
  | dctFwd
  /-- PACK, 0x13 (R200). -/
  | pack
  /-- UNPACK.HDR, 0x20 (R210). -/
  | unpackHdr
  /-- GRID.DEC, 0x21 (R235). -/
  | gridDec
  /-- UNPACK.AC, 0x22 (R215). -/
  | unpackAc
  /-- DCT.INV, 0x23 (R184). -/
  | dctInv
  /-- CT.INV, 0x24 (R170). -/
  | ctInv
  /-- SCAN.CNT, 0x30 (R186). -/
  | scanCnt
  /-- SCAN.NTH, 0x31 (R187). -/
  | scanNth
  /-- ENCODE, 0x40 (R250). -/
  | encode
  /-- DECODE, 0x41 (R255). -/
  | decode
  /-- AVGCOLOR, 0x42 (R270). -/
  | avgColor
  /-- ASPECT, 0x43 (R273). -/
  | aspect
deriving DecidableEq, Repr

/-- One bus access of the host: the byte offset from BASE, the width in bytes and, for a write, the data (R9, R62, R64).
Any offset and width may be asked for; R63, R65 and R66 say which are accepted. -/
inductive HostAccess where
  | read (offset width : Nat)
  | write (offset width : Nat) (data : Word)
deriving DecidableEq, Repr

/-- Who moves next (log entry 8): the host performs an access (R70), the engine completes the running command (R27), or
the reset input is asserted and released (R340). -/
inductive Event where
  | access (a : HostAccess)
  | engine
  | reset
deriving DecidableEq, Repr

end Sys2Proof
end

