-- ==== Sys2Proof/WellFormed.lean ====
section
/-! DEFINITION. Well-formedness. An `Instr` has no operand, so each constructor is well formed; what can be ill formed is a
command word, by one of the two checks of R92. -/

namespace Sys2Proof

/-- No command has an operand field that could be out of range (R90). -/
def Instr.wellFormed : Instr → Bool
  | .clr | .srst | .ctFwd | .gridEnc | .dctFwd | .pack | .unpackHdr | .gridDec | .unpackAc | .dctInv | .ctInv
  | .scanCnt | .scanNth | .encode | .decode | .avgColor | .aspect => true

namespace CommandWord

/-- R90: the field RSV, bits 31 down to 8, must be zero. -/
def rsvZero (w : Word) : Bool := w.extractLsb' 8 24 == 0

/-- R91: the 17 assigned opcodes. -/
def opcodes : List (BitVec 8) :=
  [0x01, 0x02, 0x10, 0x11, 0x12, 0x13, 0x20, 0x21, 0x22, 0x23, 0x24, 0x30, 0x31, 0x40, 0x41, 0x42, 0x43]

/-- R91: the field OPC, bits 7 down to 0, is an assigned opcode. -/
def opcAssigned (w : Word) : Bool := opcodes.contains (w.extractLsb' 0 8)

/-- R92: the word is one of the 17 command words. -/
def wellFormed (w : Word) : Bool := rsvZero w && opcAssigned w

end CommandWord
end Sys2Proof
end

