-- ==== Sys2Proof/Decode.lean ====
section
/-! DEFINITION. Decoding and encoding of command words (R90 to R93). -/

namespace Sys2Proof

/-- Why a word is no command (R92); both end as the fault E_ILLCMD. -/
inductive DecodeError where
  /-- Bits 31 down to 8 are not all zero. -/
  | reservedNotZero
  /-- Bits 7 down to 0 are none of the 17 opcodes. -/
  | opcodeUnassigned
deriving DecidableEq, Repr

/-- R91: the command an opcode selects. -/
def commandOf (opc : Nat) : Option Instr :=
  match opc with
  | 0x01 => some .clr
  | 0x02 => some .srst
  | 0x10 => some .ctFwd
  | 0x11 => some .gridEnc
  | 0x12 => some .dctFwd
  | 0x13 => some .pack
  | 0x20 => some .unpackHdr
  | 0x21 => some .gridDec
  | 0x22 => some .unpackAc
  | 0x23 => some .dctInv
  | 0x24 => some .ctInv
  | 0x30 => some .scanCnt
  | 0x31 => some .scanNth
  | 0x40 => some .encode
  | 0x41 => some .decode
  | 0x42 => some .avgColor
  | 0x43 => some .aspect
  | _ => none

/-- R93 (1): decode a command word; every other word is refused by name (R92). -/
def decode (w : Word) : Except DecodeError Instr :=
  if w.extractLsb' 8 24 = 0 then
    match commandOf (w.extractLsb' 0 8).toNat with
    | some i => .ok i
    | none => .error .opcodeUnassigned
  else .error .reservedNotZero

/-- R91: the opcode of a command. -/
def Instr.opcode : Instr → BitVec 8
  | .clr => 0x01
  | .srst => 0x02
  | .ctFwd => 0x10
  | .gridEnc => 0x11
  | .dctFwd => 0x12
  | .pack => 0x13
  | .unpackHdr => 0x20
  | .gridDec => 0x21
  | .unpackAc => 0x22
  | .dctInv => 0x23
  | .ctInv => 0x24
  | .scanCnt => 0x30
  | .scanNth => 0x31
  | .encode => 0x40
  | .decode => 0x41
  | .avgColor => 0x42
  | .aspect => 0x43

/-- R90: the command word, RSV zero and OPC the opcode. -/
def encode (i : Instr) : Word := (0 : BitVec 24) ++ i.opcode

/-- The instruction the decoder reads from a table row's `nbits` bits `w`; a command is one 32-bit word (R90), so bits at
32 and above refuse. -/
def decodeTableWord (nbits w : Nat) : Option Instr :=
  if w % 2 ^ nbits < 2 ^ 32 then (decode (BitVec.ofNat 32 (w % 2 ^ nbits))).toOption else none

end Sys2Proof
end

