-- ==== Sys2Proof/Machine/State.lean ====
section
/-! DEFINITION. The state of the engine (R20) as plain data, the reasons a step can stop, and the state after reset
(R48, R340). The operations on it are in Machine/Ops.lean. -/

namespace Sys2Proof.Machine

/-- R11: the four channels, in their order. -/
inductive Channel where
  | L
  | P
  | Q
  | A
deriving DecidableEq, Repr

/-- The stored 32-bit registers of R43, each under its own name: all but ID (a constant), CMD (holds no value) and STATUS
(`Status`). -/
inductive Reg where
  /-- R29. -/
  | ie
  /-- R30. -/
  | cause
  /-- R31. -/
  | finfo
  /-- R32. -/
  | imgW
  /-- R32. -/
  | imgH
  /-- R32. -/
  | pixinLen
  /-- R33. -/
  | hashCap
  /-- R33. -/
  | hashLen
  /-- R33. -/
  | pixoutCap
  /-- R34. -/
  | scanNx
  /-- R34. -/
  | scanNy
  /-- R34. -/
  | scanIdx
  /-- R35. -/
  | plW
  /-- R35. -/
  | plH
  /-- R35. -/
  | hasAlpha
  /-- R35. -/
  | isLandscape
  /-- R35. -/
  | lx
  /-- R35. -/
  | ly
  /-- R35. -/
  | lfield
  /-- R35, binary32. -/
  | ratio
  /-- NX_c, R36. -/
  | nx (c : Channel)
  /-- NY_c, R36. -/
  | ny (c : Channel)
  /-- NAC_c, R36. -/
  | nac (c : Channel)
  /-- R36. -/
  | nacTotal
  /-- R36. -/
  | hdrLen
  /-- R36. -/
  | reqLen
  /-- R36. -/
  | nibcur
  /-- R37. -/
  | hdr24
  /-- R37. -/
  | hdr16
  /-- R37. -/
  | hdrA
  /-- DC_c, R38, binary32. -/
  | dc (c : Channel)
  /-- SC_c, R38, binary32. -/
  | sc (c : Channel)
  /-- R39, binary32. -/
  | bgR
  /-- R39, binary32. -/
  | bgG
  /-- R39, binary32. -/
  | bgB
  /-- R39, binary32. -/
  | alphaSum
  /-- R40, binary32. -/
  | avgR
  /-- R40, binary32. -/
  | avgG
  /-- R40, binary32. -/
  | avgB
  /-- R40, binary32. -/
  | avgA
  /-- ASPECT, R40, binary32. -/
  | aspectRatio
  /-- R41. -/
  | outW
  /-- R41. -/
  | outH
  /-- R41. -/
  | pixoutLen
  /-- R42. -/
  | scanCnt
  /-- R42. -/
  | scanCx
  /-- R42. -/
  | scanCy
deriving DecidableEq, Repr

/-- The place of a channel in a bank of four (R11). -/
def Channel.index : Channel → Fin 4
  | .L => 0
  | .P => 1
  | .Q => 2
  | .A => 3

/-- The slot of a register in `State.regs`. It follows R43's order; nothing but `State.reg` and `State.setReg` uses it. -/
def Reg.index : Reg → Fin 62
  | .ie => 0
  | .cause => 1
  | .finfo => 2
  | .imgW => 3
  | .imgH => 4
  | .pixinLen => 5
  | .hashCap => 6
  | .hashLen => 7
  | .pixoutCap => 8
  | .scanNx => 9
  | .scanNy => 10
  | .scanIdx => 11
  | .plW => 12
  | .plH => 13
  | .hasAlpha => 14
  | .isLandscape => 15
  | .lx => 16
  | .ly => 17
  | .lfield => 18
  | .ratio => 19
  | .nx .L => 20
  | .ny .L => 21
  | .nx .P => 22
  | .ny .P => 23
  | .nx .Q => 24
  | .ny .Q => 25
  | .nx .A => 26
  | .ny .A => 27
  | .nac .L => 28
  | .nac .P => 29
  | .nac .Q => 30
  | .nac .A => 31
  | .nacTotal => 32
  | .hdrLen => 33
  | .reqLen => 34
  | .nibcur => 35
  | .hdr24 => 36
  | .hdr16 => 37
  | .hdrA => 38
  | .dc .L => 39
  | .dc .P => 40
  | .dc .Q => 41
  | .dc .A => 42
  | .sc .L => 43
  | .sc .P => 44
  | .sc .Q => 45
  | .sc .A => 46
  | .bgR => 47
  | .bgG => 48
  | .bgB => 49
  | .alphaSum => 50
  | .avgR => 51
  | .avgG => 52
  | .avgB => 53
  | .avgA => 54
  | .aspectRatio => 55
  | .outW => 56
  | .outH => 57
  | .pixoutLen => 58
  | .scanCnt => 59
  | .scanCx => 60
  | .scanCy => 61

/-- A register as the host addresses it (R43). -/
inductive RegName where
  /-- R24. -/
  | id
  /-- R25. -/
  | cmd
  /-- R26. -/
  | status
  /-- One of the stored registers. -/
  | stored (r : Reg)
deriving DecidableEq, Repr

/-- R23: the access classes. -/
inductive RegAccess where
  | ro
  | rw
  | wo
deriving DecidableEq, Repr

/-- R28: the values of STATUS.PHASE; the codes 10 to 15 never occur and have no constructor (log entry 18). -/
inductive Phase where
  /-- 0 NONE. -/
  | none
  /-- 1 EPLANES. -/
  | ePlanes
  /-- 2 EGRID. -/
  | eGrid
  /-- 3 ECOEF. -/
  | eCoef
  /-- 4 EHASH. -/
  | eHash
  /-- 5 DHDR. -/
  | dHdr
  /-- 6 DGRID. -/
  | dGrid
  /-- 7 DCOEF. -/
  | dCoef
  /-- 8 DPLANES. -/
  | dPlanes
  /-- 9 DPIX. -/
  | dPix
deriving DecidableEq, Repr

/-- R26: the stored fields of STATUS. The host cannot write STATUS and its reserved bits read 0, so the word is a view
(`State.statusWord`); BUSY is the view of `State.inflight`. -/
structure Status where
  done : Bool
  fault : Bool
  ovr : Bool
  phase : Phase
deriving DecidableEq, Repr

/-- The engine's byte-addressed buffers, keyed by window offset (R60): HASH, COEF, PIXOUT, PIXIN and PLANE. An offset that is
not listed has not been written since reset (log entry 6). -/
abbrev Memory := List Host.Cell

/-- The regions of R60. -/
inductive Region where
  | registers
  | hash
  | coef
  | pixout
  | pixin
  | plane
  | hole
deriving DecidableEq, Repr

/-- What the slave interface answered in the last step (log entry 12): nothing, a write taken, read data, or the bus error
of R65. -/
inductive Reply where
  | idle
  | written
  | data (v : Word)
  | busError
deriving DecidableEq, Repr

/-- R300: the nine fault codes of the engine. Raising one is a next state (R304), never a stop of the model. -/
inductive FaultCode where
  | eDim
  | ePixLen
  | eHashCap
  | eHashLen
  | ePixCap
  | eTrunc
  | eSeq
  | eIllCmd
  | eOperand
deriving DecidableEq, Repr

/-- `raise <Fault>(info)` of R9: a code and the value FINFO records. -/
structure EngineFault where
  code : FaultCode
  info : Word
deriving DecidableEq, Repr

/-- R20: the state of the engine, with the command in flight that R27 implies and four fields of the model's own
(`host`, `reply`, `draws`, `resets`). -/
structure State where
  /-- STATUS (R26). -/
  status : Status
  /-- The word that CMD accepted and whose completion step is still to come; BUSY = 1 exactly when there is one (R27). -/
  inflight : Option Word
  /-- The stored registers (R43), read and written by name through `State.reg` and `State.setReg`. -/
  regs : Vector Word 62
  /-- The five memories (R44 to R46). -/
  mem : Memory
  /-- The model's own: the events still to come (R5, R70; log entry 8). -/
  host : List Event
  /-- The model's own: the answer to the last access (log entry 12). -/
  reply : Reply
  /-- The model's own: how many steps have drawn, so that the values R72 leaves open in two steps are apart (log entry
  17). -/
  draws : Nat
  /-- The model's own: how often the reset input was applied; it selects what the bytes that nothing has written since then
  hold (R340; log entry 6). -/
  resets : Nat
deriving DecidableEq, Repr

/-- Why the model stops. -/
inductive Fault where
  /-- Raised by a host access at an offset at or beyond 0x80000, which is "outside the window and not the engine's" (R66).
  Safe: the platform answers it, the model says nothing of it. -/
  | outsideWindow (offset : Nat)
deriving DecidableEq, Repr

/-- Why the model has no meaning for an instruction. -/
inductive Refusal where
  /-- Raised by an arm of `exec` whose instruction has no meaning yet. Safe. No arm does. -/
  | notModelled (mnemonic : String)
deriving DecidableEq, Repr

/-- What the slave interface makes of one access. -/
inductive BusResult where
  /-- The offset is not the engine's. -/
  | outside (offset : Nat)
  /-- The access is over. -/
  | done (s : State)
  /-- A command that acts in the step of the CMD write (R27 (d)). -/
  | run (i : Instr) (s : State)

/-- R48: the stored registers after reset and after SRST: HASH_CAP 32, PIXOUT_CAP 8192, every other one 0. -/
def resetRegs : Vector Word 62 :=
  ((Vector.replicate 62 0).set (Reg.hashCap.index) 32).set (Reg.pixoutCap.index) 8192

/-- R48, R340: right after reset: idle, PHASE NONE, no command in flight, nothing written in the memories, and no event to
come (log entries 8, 12, 17 and 6 for the last four fields). -/
def State.reset : State where
  status := { done := false, fault := false, ovr := false, phase := .none }
  inflight := Option.none
  regs := resetRegs
  mem := []
  host := []
  reply := .idle
  draws := 0
  resets := 0

end Sys2Proof.Machine
end

