-- ==== Sys2Proof/Machine/Ops.lean ====
section
/-! DEFINITION. The named operations on the state: registers, the memories and their layout (R60, R61), and taking and
acknowledging a fault (R304, R305). -/

namespace Sys2Proof.Machine

/-! ### Registers -/

/-- R23: a stored register's value. -/
def State.reg (s : State) (r : Reg) : Word := s.regs.get r.index

/-- Replace one stored register. -/
def State.setReg (s : State) (r : Reg) (v : Word) : State := { s with regs := s.regs.set r.index v }

/-- Replace several stored registers, in order. -/
def State.setRegs (s : State) (l : List (Reg × Word)) : State := l.foldl (fun t p => t.setReg p.1 p.2) s

/-- A register's unsigned value (R144). -/
def State.nat (s : State) (r : Reg) : Nat := (s.reg r).toNat

/-- A small count or size as a register value (R23: zero-extended). -/
def natWord (n : Nat) : Word := BitVec.ofNat 32 n

/-- A flag as a register value, 0 or 1 (R23, R35). -/
def boolWord (b : Bool) : Word := if b then 1 else 0

/-- R26: replace STATUS.PHASE. -/
def State.setPhase (s : State) (p : Phase) : State := { s with status := { s.status with phase := p } }

/-- R25, R72: note an ignored access in STATUS.OVR. -/
def State.setOvr (s : State) : State := { s with status := { s.status with ovr := true } }

/-- Record the answer to an access. -/
def State.withReply (s : State) (r : Reply) : State := { s with reply := r }

/-! ### The address map and the memories -/

/-- R60: the region of a window offset. -/
def regionOf (a : Nat) : Region :=
  if a < 0x200 then .registers
  else if a < 0x220 then .hash
  else if a < 0x400 then .hole
  else if a < 0x600 then .coef
  else if a < 0x2000 then .hole
  else if a < 0x4000 then .pixout
  else if a < 0x10000 then .hole
  else if a < 0x19C40 then .pixin
  else if a < 0x40000 then .hole
  else if a < 0x80000 ∧ a % 0x10000 < 0x9C40 then .plane
  else .hole

/-- The offset is one of a memory's bytes. -/
def mappedByte (a : Nat) : Bool :=
  match regionOf a with
  | .hash | .coef | .pixout | .pixin | .plane => true
  | .registers | .hole => false

/-- R60: HASH[0]. -/
def hashBase : Nat := 0x200

/-- R60: COEF[c][0]. -/
def coefBase (c : Channel) : Nat := 0x400 + 0x80 * c.index

/-- R60: PIXOUT[0]. -/
def pixoutBase : Nat := 0x2000

/-- R60: PIXIN[0]. -/
def pixinBase : Nat := 0x10000

/-- R60: PLANE[c][0]. -/
def planeBase (c : Channel) : Nat := 0x40000 + 0x10000 * c.index

/-- The written byte at an offset, if any. -/
def Memory.read (m : Memory) (a : Nat) : Option Byte := m.lookup a

/-- The cells of consecutive bytes. -/
def Memory.block : Nat → List Byte → Memory
  | _, [] => []
  | a, b :: bs => (a, b) :: Memory.block (a + 1) bs

/-- Replace the bytes from offset `a` on, keeping the cells in rising order. -/
def Memory.write (m : Memory) (a : Nat) (bs : List Byte) : Memory :=
  m.filter (fun c => c.1 < a) ++ Memory.block a bs ++ m.filter (fun c => a + bs.length ≤ c.1)

/-- The canonical form of a memory: offsets strictly rising, and only bytes of a memory listed. No value is excluded: an
unlisted byte holds a free value (log entry 6). -/
abbrev Memory.wf (m : Memory) : Prop :=
  m.Pairwise (fun x y => x.1 < y.1) ∧ ∀ c ∈ m, mappedByte c.1 = true

/-- What a byte holds: the byte written since the last reset, else the arbitrary byte it holds since then (R48, R62, R67,
R340; log entry 6). -/
def State.byteAt (s : State) (a : Nat) : Byte := (s.mem.read a).getD (Config.unwrittenByte s.resets a)

/-- R61: four bytes as a word, the lowest address the lowest byte. -/
def wordOfBytes (b0 b1 b2 b3 : Byte) : Word := b3 ++ b2 ++ b1 ++ b0

/-- R61: a word's bytes, the lowest first. -/
def bytesOfWord (w : Word) : List Byte :=
  [w.extractLsb' 0 8, w.extractLsb' 8 8, w.extractLsb' 16 8, w.extractLsb' 24 8]

/-- R61, R62: the word at an offset. -/
def State.wordAt (s : State) (a : Nat) : Word :=
  wordOfBytes (s.byteAt a) (s.byteAt (a + 1)) (s.byteAt (a + 2)) (s.byteAt (a + 3))

/-- Replace the bytes from an offset on. -/
def State.writeBytes (s : State) (a : Nat) (bs : List Byte) : State := { s with mem := s.mem.write a bs }

/-- HASH[i] (R44). -/
def State.hash (s : State) (i : Nat) : Byte := s.byteAt (hashBase + i)

/-- PIXIN[i] (R44). -/
def State.pixin (s : State) (i : Nat) : Byte := s.byteAt (pixinBase + i)

/-- COEF[c][j] (R46). -/
def State.coef (s : State) (c : Channel) (j : Nat) : Word := s.wordAt (coefBase c + 4 * j)

/-- PLANE[c][i] (R45). -/
def State.plane (s : State) (c : Channel) (i : Nat) : Word := s.wordAt (planeBase c + 4 * i)

/-- HASH[i ..] <- bs; HASH ends at index 31 (R44; log entry 14). -/
def State.writeHash (s : State) (i : Nat) (bs : List Byte) : State :=
  s.writeBytes (hashBase + i) (bs.take (32 - i))

/-- PIXOUT[0 ..] <- bs; PIXOUT ends at index 8191 (R44; log entry 14). -/
def State.writePixout (s : State) (bs : List Byte) : State := s.writeBytes pixoutBase (bs.take 8192)

/-- COEF[c][0 ..] <- cells; a channel ends at cell 31 (R46; log entry 14). -/
def State.writeCoef (s : State) (c : Channel) (cells : List Word) : State :=
  s.writeBytes (coefBase c) ((cells.take 32).flatMap bytesOfWord)

/-- PLANE[c][0 ..] <- cells; a channel ends at cell 9999 (R45; log entry 14). -/
def State.writePlane (s : State) (c : Channel) (cells : List Word) : State :=
  s.writeBytes (planeBase c) ((cells.take 10000).flatMap bytesOfWord)

/-- All four planes, in channel order (R49: CT.FWD and DCT.INV write all of them). -/
def State.writePlanes (s : State) (cells : Channel → List Word) : State :=
  (((s.writePlane .L (cells .L)).writePlane .P (cells .P)).writePlane .Q (cells .Q)).writePlane .A (cells .A)

/-! ### Commands: start, completion, faults -/

/-- R300: the numbers of the fault codes. -/
def FaultCode.number : FaultCode → BitVec 8
  | .eDim => 1
  | .ePixLen => 2
  | .eHashCap => 3
  | .eHashLen => 4
  | .ePixCap => 5
  | .eTrunc => 6
  | .eSeq => 7
  | .eIllCmd => 8
  | .eOperand => 9

/-- R30, R302: the word CAUSE records. -/
def causeWord (op : BitVec 8) (code : FaultCode) : Word := (0 : BitVec 16) ++ op ++ code.number

/-- R27 (a): the CMD write starts the command `w`: BUSY <- 1, DONE <- 0. -/
def State.start (s : State) (w : Word) : State :=
  { s with inflight := some w, status := { s.status with done := false } }

/-- R27 (b): success: BUSY <- 0, DONE <- 1. -/
def State.complete (s : State) : State :=
  { s with inflight := none, status := { s.status with done := true } }

/-- TAKING A FAULT (R304): BUSY <- 0, FAULT <- 1, CAUSE and FINFO; nothing else. `op` is bits 7 down to 0 of the command
word. -/
def State.takeFault (s : State) (op : BitVec 8) (f : EngineFault) : State :=
  ({ s with inflight := none, status := { s.status with fault := true } }.setReg .cause (causeWord op f.code)).setReg
    .finfo f.info

/-- RETURN FROM A FAULT (R305, R281): DONE, FAULT and OVR <- 0, CAUSE and FINFO <- 0; nothing else. -/
def State.acknowledge (s : State) : State :=
  ({ s with status := { s.status with done := false, fault := false, ovr := false } }.setReg .cause 0).setReg .finfo 0

/-- R282, R340: every register at its reset value, no command in flight. -/
def State.resetRegisters (s : State) : State :=
  { s with status := State.reset.status, inflight := none, regs := resetRegs }

/-- R340: the reset input. The registers take their reset values, a running command is abandoned, and what the memories
hold is unspecified: a new arbitrary value for every byte. The host's further accesses are not the engine's state. -/
def State.hardReset (s : State) : State :=
  { State.reset with host := s.host, draws := s.draws, resets := s.resets + 1 }

/-- R92, R93 (1): a started word that is no command ends as E_ILLCMD, FINFO the word. -/
def State.illegalCommand (s : State) (w : Word) : State :=
  s.takeFault (w.extractLsb' 0 8) { code := .eIllCmd, info := w }

/-- One event is used up and the values R72 leaves open are drawn afresh; the answer of the last access goes. -/
def State.tick (s : State) : State :=
  { s with host := s.host.tail, reply := .idle, draws := s.draws + 1 }

end Sys2Proof.Machine
end

