-- ==== Sys2Proof/Machine/Flags.lean ====
section
/-! DEFINITION. STATUS and what is computed from it: the status word (R26), the interrupt line (R310), the phase codes (R28),
and the phase test (R308). -/

namespace Sys2Proof.Machine

/-- R28: the code of STATUS.PHASE. -/
def Phase.code : Phase → BitVec 4
  | .none => 0
  | .ePlanes => 1
  | .eGrid => 2
  | .eCoef => 3
  | .eHash => 4
  | .dHdr => 5
  | .dGrid => 6
  | .dCoef => 7
  | .dPlanes => 8
  | .dPix => 9

/-- R26, R27: STATUS.BUSY. -/
def State.busy (s : State) : Bool := s.inflight.isSome

/-- R26: the word a read of STATUS returns: BUSY bit 0, DONE bit 1, FAULT bit 2, OVR bit 3, PHASE bits 11 to 8, the others
0. -/
def State.statusWord (s : State) : Word :=
  (0 : BitVec 20) ++ s.status.phase.code ++ (0 : BitVec 4) ++ BitVec.ofBool s.status.ovr ++ BitVec.ofBool s.status.fault
    ++ BitVec.ofBool s.status.done ++ BitVec.ofBool s.busy

/-- R310: the interrupt line, from STATUS and IE (DONE_IE bit 1, FAULT_IE bit 2, R29). -/
def State.irq (s : State) : Bool :=
  (s.status.done && (s.reg .ie).getLsbD 1) || (s.status.fault && (s.reg .ie).getLsbD 2)

/-- R308: the phases a command is accepted in. -/
def accepts : Instr → Phase → Bool
  | .clr, _ | .srst, _ | .ctFwd, _ | .unpackHdr, _ | .scanCnt, _ | .scanNth, _ | .encode, _ | .decode, _
  | .avgColor, _ | .aspect, _ => true
  | .gridEnc, p => p == .ePlanes || p == .eGrid || p == .eCoef || p == .eHash
  | .dctFwd, p => p == .eGrid || p == .eCoef || p == .eHash
  | .pack, p => p == .eCoef || p == .eHash
  | .gridDec, p => p == .dHdr || p == .dGrid || p == .dCoef || p == .dPlanes || p == .dPix
  | .unpackAc, p => p == .dGrid || p == .dCoef || p == .dPlanes || p == .dPix
  | .dctInv, p => p == .dCoef || p == .dPlanes || p == .dPix
  | .ctInv, p => p == .dPlanes || p == .dPix

/-- R27 (d): the commands that act in the step of the CMD write. -/
def immediate : Instr → Bool
  | .clr | .srst => true
  | .ctFwd | .gridEnc | .dctFwd | .pack | .unpackHdr | .gridDec | .unpackAc | .dctInv | .ctInv | .scanCnt | .scanNth
  | .encode | .decode | .avgColor | .aspect => false

/-- R300: the fault E_SEQ, FINFO = STATUS.PHASE. -/
def seqFault (s : State) : EngineFault :=
  { code := .eSeq, info := s.status.phase.code.setWidth 32 }

/-- A command with no test of its own. -/
def noCheck (_ : State) : Option EngineFault := none

end Sys2Proof.Machine
end

