-- ==== Sys2Proof/Machine/Engine.lean ====
section
/-! DEFINITION. The parameter NUM as an argument of the machine (R7, R130): what a command reads and writes over a carrier `F`,
the frame every started command has in common, and the instance NUM = binary32, which is the engine's (R131). The instance
NUM = exact is in Exact.lean. -/

namespace Sys2Proof.Machine

/-- What a command reads: the state, and the float registers and cells as values of the carrier (R45, R46, R69, R130). -/
structure View (F : Type) where
  state : State
  value : Reg → F
  plane : Channel → Nat → F
  coef : Channel → Nat → F

/-- One write of a command (R49). -/
inductive Write (F : Type) where
  /-- An integer register. -/
  | word (r : Reg) (v : Word)
  /-- A float register. -/
  | value (r : Reg) (v : F)
  /-- RATIO or ASPECT; none is the +infinity of R237 over a carrier that has none. -/
  | ratio (r : Reg) (v : Option F)
  /-- PLANE[c][0 ..]. -/
  | plane (c : Channel) (cells : List F)
  /-- COEF[c][0 ..]. -/
  | coef (c : Channel) (cells : List F)
  /-- HASH[i ..]. -/
  | hash (i : Nat) (bytes : List Byte)
  /-- PIXOUT[0 ..]. -/
  | pixout (bytes : List Byte)
  /-- STATUS.PHASE. -/
  | phase (p : Phase)

/-- Writes of integer registers. -/
def wordWrites {F : Type} (l : List (Reg × Word)) : List (Write F) := l.map (fun p => .word p.1 p.2)

/-- All four planes, in channel order (R49: CT.FWD and DCT.INV write all of them). -/
def planeWrites {F : Type} (cells : Channel → List F) : List (Write F) :=
  [.plane .L (cells .L), .plane .P (cells .P), .plane .Q (cells .Q), .plane .A (cells .A)]

/-- One write, as the host reads it: a float by its pattern `bits` (R69). -/
def State.apply {F : Type} (bits : F → Word) (s : State) : Write F → State
  | .word r v => s.setReg r v
  | .value r v => s.setReg r (bits v)
  | .ratio r v => s.setReg r ((v.map bits).getD 0x7F800000)
  | .plane c cells => s.writePlane c (cells.map bits)
  | .coef c cells => s.writeCoef c (cells.map bits)
  | .hash i bytes => s.writeHash i bytes
  | .pixout bytes => s.writePixout bytes
  | .phase p => s.setPhase p

/-- The writes of a command, in order. -/
def State.commit {F : Type} (bits : F → Word) (s : State) (l : List (Write F)) : State := l.foldl (State.apply bits) s

/-- An engine whose arithmetic is `num` over the carrier `F` and whose states are of type `σ`. -/
structure Engine (F σ : Type) where
  /-- The parameter NUM (R7). -/
  num : Numerics F
  /-- The state as the host sees it. -/
  state : σ → State
  setState : σ → State → σ
  view : σ → View F
  commit : σ → List (Write F) → σ
  /-- R282: the float registers become 0.0; the cells stay. -/
  clearValues : σ → σ
  /-- R340: what the cells hold is forgotten too. -/
  forget : σ → σ

namespace Engine
variable {F σ : Type} (M : Engine F σ)

/-- The writes of one unit, from what the state holds. -/
def stage (writes : Numerics F → View F → List (Write F)) (x : σ) : σ := M.commit x (writes M.num (M.view x))

/-- A change of the state that touches no float. -/
def onState (f : State → State) (x : σ) : σ := M.setState x (f (M.state x))

/-- The completion step of a started command (R27 (b), R93, R303): the phase test, then the command's own tests, `check`,
then its writes, `effect`. The first failing test is the fault; it writes nothing else. -/
def run (i : Instr) (check : State → Option EngineFault) (effect : σ → σ) (x : σ) : Host.Outcome σ Fault Refusal :=
  if accepts i (M.state x).status.phase then
    match check (M.state x) with
    | some f => .next (M.onState (fun s => s.takeFault i.opcode f) x)
    | none => .next (M.onState State.complete (effect x))
  else .next (M.onState (fun s => s.takeFault i.opcode (seqFault s)) x)

end Engine

/-- NUM = binary32 (R131), the engine's arithmetic and the default (log entry 1). -/
abbrev num : Numerics Word := Binary32.numerics

/-- Under binary32 registers and cells hold the patterns themselves (R69). -/
def State.view (s : State) : View Word where
  state := s
  value := s.reg
  plane := s.plane
  coef := s.coef

/-- The engine: NUM = binary32, the default of R7; its state is plain data. -/
def binary32 : Engine Word State where
  num := num
  state := fun s => s
  setState := fun _ s => s
  view := State.view
  commit := State.commit num.bits32
  clearValues := fun s => s
  forget := fun s => s

end Sys2Proof.Machine
end

