-- ==== Sys2Proof/Machine/Bus.lean ====
section
/-! DEFINITION. The slave interface: the register map (R43), which accesses it accepts (R63, R65, R66), what a read returns
(R62, R66, R72), what a write does (R25, R64, R72, R287), and the engine's turn (R27 (b)). -/

namespace Sys2Proof.Machine

/-- R24. -/
def idWord : Word := 0x54480100

/-- A row of R43: offset, register, access class, reset value. -/
abbrev RegisterRow := Nat × RegName × RegAccess × Word

/-- The control and operand registers (R24 to R34). -/
def controlRows : List RegisterRow :=
  [(0x000, .id, .ro, 0x54480100), (0x004, .cmd, .wo, 0), (0x008, .status, .ro, 0),
   (0x00C, .stored .ie, .rw, 0), (0x010, .stored .cause, .ro, 0), (0x014, .stored .finfo, .ro, 0),
   (0x020, .stored .imgW, .rw, 0), (0x024, .stored .imgH, .rw, 0), (0x028, .stored .pixinLen, .rw, 0),
   (0x02C, .stored .hashCap, .rw, 32), (0x030, .stored .hashLen, .rw, 0), (0x034, .stored .pixoutCap, .rw, 8192),
   (0x038, .stored .scanNx, .rw, 0), (0x03C, .stored .scanNy, .rw, 0), (0x040, .stored .scanIdx, .rw, 0)]

/-- The image, grid and header registers (R35 to R37). -/
def gridRows : List RegisterRow :=
  [(0x050, .stored .plW, .ro, 0), (0x054, .stored .plH, .ro, 0), (0x058, .stored .hasAlpha, .ro, 0),
   (0x05C, .stored .isLandscape, .ro, 0), (0x060, .stored .lx, .ro, 0), (0x064, .stored .ly, .ro, 0),
   (0x068, .stored .lfield, .ro, 0), (0x06C, .stored .ratio, .ro, 0),
   (0x070, .stored (.nx .L), .ro, 0), (0x074, .stored (.ny .L), .ro, 0), (0x078, .stored (.nx .P), .ro, 0),
   (0x07C, .stored (.ny .P), .ro, 0), (0x080, .stored (.nx .Q), .ro, 0), (0x084, .stored (.ny .Q), .ro, 0),
   (0x088, .stored (.nx .A), .ro, 0), (0x08C, .stored (.ny .A), .ro, 0),
   (0x090, .stored (.nac .L), .ro, 0), (0x094, .stored (.nac .P), .ro, 0), (0x098, .stored (.nac .Q), .ro, 0),
   (0x09C, .stored (.nac .A), .ro, 0), (0x0A0, .stored .nacTotal, .ro, 0), (0x0A4, .stored .hdrLen, .ro, 0),
   (0x0A8, .stored .reqLen, .ro, 0), (0x0AC, .stored .nibcur, .ro, 0),
   (0x0B0, .stored .hdr24, .ro, 0), (0x0B4, .stored .hdr16, .ro, 0), (0x0B8, .stored .hdrA, .ro, 0)]

/-- The channel, colour, raster and scan results (R38 to R42). -/
def floatRows : List RegisterRow :=
  [(0x0C0, .stored (.dc .L), .ro, 0), (0x0C4, .stored (.dc .P), .ro, 0), (0x0C8, .stored (.dc .Q), .ro, 0),
   (0x0CC, .stored (.dc .A), .ro, 0), (0x0D0, .stored (.sc .L), .ro, 0), (0x0D4, .stored (.sc .P), .ro, 0),
   (0x0D8, .stored (.sc .Q), .ro, 0), (0x0DC, .stored (.sc .A), .ro, 0),
   (0x0E0, .stored .bgR, .ro, 0), (0x0E4, .stored .bgG, .ro, 0), (0x0E8, .stored .bgB, .ro, 0),
   (0x0EC, .stored .alphaSum, .ro, 0), (0x0F0, .stored .avgR, .ro, 0), (0x0F4, .stored .avgG, .ro, 0),
   (0x0F8, .stored .avgB, .ro, 0), (0x0FC, .stored .avgA, .ro, 0), (0x100, .stored .aspectRatio, .ro, 0),
   (0x104, .stored .outW, .ro, 0), (0x108, .stored .outH, .ro, 0), (0x10C, .stored .pixoutLen, .ro, 0),
   (0x110, .stored .scanCnt, .ro, 0), (0x114, .stored .scanCx, .ro, 0), (0x118, .stored .scanCy, .ro, 0)]

/-- R43: the register map. Offsets below 0x200 that no row names are reserved (R23). -/
def registerMap : List RegisterRow := controlRows ++ gridRows ++ floatRows

/-- The register at an offset and its access class; none at a reserved offset. -/
def registerAt (off : Nat) : Option (RegName × RegAccess) :=
  (registerMap.find? (fun row => row.1 == off)).map (fun row => (row.2.1, row.2.2.1))

/-- R63, R65, R66: the access has a width and alignment its region accepts. Any other is refused. -/
def acceptedAccess (off width : Nat) : Bool :=
  match regionOf off with
  | .registers | .coef | .plane => width == 4 && off % 4 == 0
  | .hash | .pixout | .pixin | .hole => width == 1 || (width == 4 && off % 4 == 0)

/-- R23 to R26: what a register reads as. -/
def State.readRegister (s : State) : RegName → Word
  | .id => idWord
  | .cmd => 0
  | .status => s.statusWord
  | .stored r => s.reg r

/-- R23, R62, R66: an accepted read while BUSY = 0. Reserved offsets and holes read 0. -/
def State.idleRead (s : State) (off width : Nat) : Word :=
  match regionOf off with
  | .registers =>
    match registerAt off with
    | some (n, _) => s.readRegister n
    | none => 0
  | .coef | .plane => s.wordAt off
  | .hash | .pixout | .pixin => if width = 1 then (s.byteAt off).setWidth 32 else s.wordAt off
  | .hole => 0

/-- R72, R345: an accepted read while BUSY = 1: STATUS, ID and IE have their value, anything else is unspecified (log
entry 10). -/
def State.busyReadValue (s : State) (off width : Nat) : Word :=
  match registerAt off with
  | some (.id, _) => idWord
  | some (.status, _) => s.statusWord
  | some (.stored .ie, _) => s.reg .ie
  | _ => if width = 1 then ((Config.busyRead s.draws).setWidth 8).setWidth 32 else Config.busyRead s.draws

/-- R62, R72: the data of an accepted read. -/
def State.readData (s : State) (off width : Nat) : Word :=
  if s.busy then s.busyReadValue off width else s.idleRead off width

/-- R23, R29, R64: an idle write to a register: RW replaces, IE keeps bits 1 and 2, RO is ignored; CMD is `cmdWrite`. -/
def State.writeRegister (s : State) (n : RegName) (access : RegAccess) (v : Word) : State :=
  match n, access with
  | .stored .ie, .rw => s.setReg .ie (v &&& 6)
  | .stored r, .rw => s.setReg r v
  | _, _ => s

/-- R64, R66: an accepted write while BUSY = 0, other than to CMD. -/
def State.idleWrite (s : State) (off width : Nat) (v : Word) : State :=
  match regionOf off with
  | .registers =>
    match registerAt off with
    | some (n, access) => s.writeRegister n access v
    | none => s
  | .coef | .plane | .hole => s
  | .hash | .pixout | .pixin => s.writeBytes off ((bytesOfWord v).take width)

/-- The offset of CMD (R25). -/
def cmdOffset : Nat := 0x004

/-- R25, R287: a write to CMD while BUSY = 0. CLR and SRST act at once, with and without a recorded fault; with FAULT = 1
any other word is ignored and sets OVR; else the word starts a command, legal or not. -/
def cmdWrite (s : State) (v : Word) : BusResult :=
  match (decode v).toOption.filter immediate with
  | some i => .run i s
  | none => if s.status.fault then .done s.setOvr else .done (s.start v)

/-- One access (R62 to R66, R72): not the engine's; refused, with no change; or performed. A write while BUSY = 1 is dropped
and sets OVR. -/
def busAccess (a : HostAccess) (s : State) : BusResult :=
  match a with
  | .read off width =>
    if 0x80000 ≤ off then .outside off
    else if acceptedAccess off width then .done (s.withReply (.data (s.readData off width)))
    else .done (s.withReply .busError)
  | .write off width v =>
    if 0x80000 ≤ off then .outside off
    else if acceptedAccess off width then
      if s.busy then .done (s.setOvr.withReply .written)
      else if off = cmdOffset then cmdWrite (s.withReply .written) v
      else .done ((s.idleWrite off width v).withReply .written)
    else .done (s.withReply .busError)

/-- R60: the window offset of a byte address of the host's address space, if the window holds it. -/
def windowOffset (addr : Nat) : Option Nat :=
  if Config.base ≤ addr ∧ addr < Config.base + 0x80000 then some (addr - Config.base) else none

/-! ### An access and the engine's turn, under any NUM; `run` gives the commands' meanings -/

namespace Engine
variable {F σ : Type} (M : Engine F σ)

/-- R27 (b), R93: the engine completes the command `w`: a legal word runs by `run`, an illegal one ends as E_ILLCMD. -/
def runWord (run : Instr → σ → Host.Outcome σ Fault Refusal) (w : Word) (x : σ) : Host.Outcome σ Fault Refusal :=
  match Sys2Proof.decode w with
  | .ok i => run i x
  | .error _ => .next (M.onState (fun s => s.illegalCommand w) x)

/-- The engine's turn: it completes the running command; idle, it does nothing (R286). -/
def turn (run : Instr → σ → Host.Outcome σ Fault Refusal) (x : σ) : Host.Outcome σ Fault Refusal :=
  match (M.state x).inflight with
  | some w => M.runWord run w x
  | none => .next x

/-- The outcome of an access (R62 to R66, R72). -/
def access (run : Instr → σ → Host.Outcome σ Fault Refusal) (a : HostAccess) (x : σ) : Host.Outcome σ Fault Refusal :=
  match busAccess a (M.state x) with
  | .outside off => .fault (.outsideWindow off)
  | .done s => .next (M.setState x s)
  | .run i s => run i (M.setState x s)

end Engine
end Sys2Proof.Machine
end

