-- ==== Sys2Proof/Machine/Operands.lean ====
section
/-! DEFINITION. What commands read: pixels (R44, R76), the hash's header words, fields and nibbles (R77, R99 to R104), the
parameters of a channel, and the operand tests several commands share (R163, R210, R256). -/

namespace Sys2Proof.Machine

/-! ### Flags held in registers -/

/-- The test `REG.HAS_ALPHA == 1` (R35). -/
def State.hasAlpha (s : State) : Bool := s.reg .hasAlpha == 1

/-- The test `REG.IS_LANDSCAPE == 1` (R35). -/
def State.landscape (s : State) : Bool := s.reg .isLandscape == 1

/-- R11: the channels present, in order: L, P, Q, then A with alpha. -/
def channels (ha : Bool) : List Channel := if ha then [.L, .P, .Q, .A] else [.L, .P, .Q]

/-! ### Pixels -/

/-- R44: one RGBA8 pixel. -/
structure Pixel where
  r : Byte
  g : Byte
  b : Byte
  a : Byte
deriving DecidableEq, Repr

/-- R76: the pixel at index i = y*w + x. -/
def State.pixel (s : State) (i : Nat) : Pixel where
  r := s.pixin (4 * i)
  g := s.pixin (4 * i + 1)
  b := s.pixin (4 * i + 2)
  a := s.pixin (4 * i + 3)

/-- The first n pixels of PIXIN, row by row. -/
def State.pixels (s : State) (n : Nat) : List Pixel := (List.range n).map s.pixel

/-- R165: some pixel has A < 255. -/
def anyTransparent (px : List Pixel) : Bool := px.any (fun p => p.a.toNat < 255)

/-! ### The hash -/

/-- R99: HASH[0] | HASH[1] << 8 | HASH[2] << 16. -/
def State.hashHdr24 (s : State) : BitVec 24 := s.hash 2 ++ s.hash 1 ++ s.hash 0

/-- R99: HASH[3] | HASH[4] << 8. -/
def State.hashHdr16 (s : State) : BitVec 16 := s.hash 4 ++ s.hash 3

/-- R100: the fields of the 24-bit header word. -/
def lDcField (h : BitVec 24) : BitVec 6 := h.extractLsb' 0 6

def pDcField (h : BitVec 24) : BitVec 6 := h.extractLsb' 6 6

def qDcField (h : BitVec 24) : BitVec 6 := h.extractLsb' 12 6

def lScaleField (h : BitVec 24) : BitVec 5 := h.extractLsb' 18 5

def hasAlphaField (h : BitVec 24) : Bool := h.getLsbD 23

/-- R101: the fields of the 16-bit header word. -/
def lfieldField (h : BitVec 16) : BitVec 3 := h.extractLsb' 0 3

def pScaleField (h : BitVec 16) : BitVec 6 := h.extractLsb' 3 6

def qScaleField (h : BitVec 16) : BitVec 6 := h.extractLsb' 9 6

def landscapeField (h : BitVec 16) : Bool := h.getLsbD 15

/-- R102: the fields of the alpha header byte. -/
def aDcField (h : Byte) : BitVec 4 := h.extractLsb' 0 4

def aScaleField (h : Byte) : BitVec 4 := h.extractLsb' 4 4

/-- R77, R104: nibble k of the payload after a header of `hdrLen` bytes: the low nibble for even k, the high for odd. -/
def State.nibble (s : State) (hdrLen k : Nat) : BitVec 4 :=
  (s.hash (hdrLen + k / 2)).extractLsb' (4 * (k % 2)) 4

/-! ### Shared operand tests -/

/-- R163: the image operands: IMG_W, IMG_H, PIXIN_LEN, in that order. -/
def checkImage (s : State) : Option EngineFault :=
  if s.nat .imgW < 1 ∨ 100 < s.nat .imgW then some { code := .eDim, info := 0x020 }
  else if s.nat .imgH < 1 ∨ 100 < s.nat .imgH then some { code := .eDim, info := 0x024 }
  else if s.nat .pixinLen ≠ 4 * s.nat .imgW * s.nat .imgH then
    some { code := .ePixLen, info := natWord (4 * s.nat .imgW * s.nat .imgH) }
  else none

/-- R210, R256, R270: at least 5 bytes; with header bit 23 set, at least 6. The first test reads no byte of HASH. -/
def checkHeaderLength (s : State) : Option EngineFault :=
  if s.nat .hashLen < 5 then some { code := .eHashLen, info := 5 }
  else if hasAlphaField s.hashHdr24 = true ∧ s.nat .hashLen < 6 then some { code := .eHashLen, info := 6 }
  else none

/-- R33, R205 (a): HASH_CAP; more than the 32 bytes of HASH means 32. -/
def State.hashCapacity (s : State) : Nat := min (s.nat .hashCap) 32

/-- R33: PIXOUT_CAP; more than the 8192 bytes of PIXOUT means 8192. -/
def State.pixoutCapacity (s : State) : Nat := min (s.nat .pixoutCap) 8192

/-- R186, R187: SCAN_NX then SCAN_NY in 1..7. -/
def checkScanGrid (s : State) : Option EngineFault :=
  if s.nat .scanNx < 1 ∨ 7 < s.nat .scanNx then some { code := .eOperand, info := 0x038 }
  else if s.nat .scanNy < 1 ∨ 7 < s.nat .scanNy then some { code := .eOperand, info := 0x03C }
  else none

end Sys2Proof.Machine
end

