-- ==== Sys2Proof/Machine/BitPack.lean ====
section
/-! DEFINITION. The bit packer and unpacker: PACK (R200 to R205), UNPACK.HDR (R210 to R214), UNPACK.AC (R215 to R217). -/

namespace Sys2Proof.Machine

/-! ### PACK -/

section
variable {F : Type} (N : Numerics F)

/-- R202: the quantised header fields. -/
def quantLDc (v : F) : BitVec 6 := N.quant 6 (N.fmul (N.lit 63 1) v)

def quantPqDc (v : F) : BitVec 6 := N.quant 6 (N.fadd (N.lit 63 2) (N.fmul (N.lit 63 2) v))

def quantLScale (v : F) : BitVec 5 := N.quant 5 (N.fmul (N.lit 31 1) v)

def quantPqScale (v : F) : BitVec 6 := N.quant 6 (N.fmul (N.lit 63 1) v)

def quantA (v : F) : BitVec 4 := N.quant 4 (N.fmul (N.lit 15 1) v)

/-- R204: the nibble of a normalised coefficient. -/
def quantNibble (v : F) : BitVec 4 := N.quant 4 (N.fmul (N.lit 15 1) v)

end

section
variable {F : Type} (N : Numerics F) (v : View F)

/-- R202: h24 = L_DC | P_DC << 6 | Q_DC << 12 | L_SCALE << 18 | HAS_ALPHA << 23. -/
def packHdr24 : BitVec 24 :=
  BitVec.ofBool v.state.hasAlpha ++ quantLScale N (v.value (.sc .L)) ++ quantPqDc N (v.value (.dc .Q)) ++
    quantPqDc N (v.value (.dc .P)) ++ quantLDc N (v.value (.dc .L))

/-- R202: h16 = LFIELD | P_SCALE << 3 | Q_SCALE << 9 | IS_LANDSCAPE << 15. -/
def packHdr16 : BitVec 16 :=
  BitVec.ofBool v.state.landscape ++ quantPqScale N (v.value (.sc .Q)) ++ quantPqScale N (v.value (.sc .P)) ++
    (v.state.reg .lfield).extractLsb' 0 3

/-- R202: hA = A_DC | A_SCALE << 4 with alpha, else 0. -/
def packHdrA : Byte :=
  if v.state.hasAlpha then quantA N (v.value (.sc .A)) ++ quantA N (v.value (.dc .A)) else 0

/-- R200: the header bytes: five, and HASH[5] with alpha. -/
def packHeader : List Byte :=
  [(packHdr24 N v).extractLsb' 0 8, (packHdr24 N v).extractLsb' 8 8, (packHdr24 N v).extractLsb' 16 8,
    (packHdr16 N v).extractLsb' 0 8, (packHdr16 N v).extractLsb' 8 8] ++
    (if v.state.hasAlpha then [packHdrA N v] else [])

/-- R204: the nibbles of one channel, in scan order. -/
def packChannel (c : Channel) : List (BitVec 4) :=
  (List.range (v.state.nat (.nac c))).map (fun j => quantNibble N (v.coef c j))

/-- R104, R204: the nibbles of all channels present, without padding between them. -/
def packNibbles : List (BitVec 4) := (channels v.state.hasAlpha).flatMap (packChannel N v)

end

/-- R104, R106: two nibbles a byte, the first in the low half; a last odd one has a high half of 0. -/
def pairNibbles : List (BitVec 4) → List Byte
  | [] => []
  | [n] => [(0 : BitVec 4) ++ n]
  | n0 :: n1 :: rest => (n1 ++ n0) :: pairNibbles rest

/-- R200, R205: the capacity test of PACK. -/
def checkHashCap (s : State) : Option EngineFault :=
  if s.hashCapacity < s.nat .reqLen then some { code := .eHashCap, info := s.reg .reqLen } else none

/-- The writes of PACK on success (R200, R49). -/
def packStage {F : Type} (N : Numerics F) (v : View F) : List (Write F) :=
  [.hash 0 (packHeader N v), .hash (v.state.nat .hdrLen) (pairNibbles (packNibbles N v))] ++
    wordWrites
      [(.hdr24, (packHdr24 N v).setWidth 32), (.hdr16, (packHdr16 N v).setWidth 32),
       (.hdrA, (packHdrA N v).setWidth 32), (.nibcur, natWord (packNibbles N v).length),
       (.hashLen, v.state.reg .reqLen)] ++ [.phase .eHash]

/-- PACK (R200) under any NUM. -/
def Engine.pack {F σ : Type} (M : Engine F σ) (x : σ) : Host.Outcome σ Fault Refusal :=
  M.run .pack checkHashCap (M.stage packStage) x

/-- PACK (R200). -/
def execPack (s : State) : Host.Outcome State Fault Refusal := binary32.pack s

/-! ### UNPACK.HDR -/

section
variable {F : Type} (N : Numerics F)

/-- R211: field / 63.0. -/
def dequantLDc (f : BitVec 6) : F := N.fdiv (N.i2f f.toNat) (N.lit 63 1)

/-- R211: field / 31.5 - 1.0. -/
def dequantPqDc (f : BitVec 6) : F := N.fsub (N.fdiv (N.i2f f.toNat) (N.lit 63 2)) N.one

/-- R211: field / 31.0. -/
def dequantLScale (f : BitVec 5) : F := N.fdiv (N.i2f f.toNat) (N.lit 31 1)

/-- R211: field / 63.0. -/
def dequantPqScale (f : BitVec 6) : F := N.fdiv (N.i2f f.toNat) (N.lit 63 1)

/-- R211: field / 15.0. -/
def dequantA (f : BitVec 4) : F := N.fdiv (N.i2f f.toNat) (N.lit 15 1)

end

/-- R210: the alpha header byte, 0 when the header has no alpha. -/
def State.unpackHdrA (s : State) : Byte := if hasAlphaField s.hashHdr24 then s.hash 5 else 0

/-- R211: `dequant_header`; DC_A = SC_A = 1.0 without alpha. -/
def dequantHeader {F : Type} (N : Numerics F) (h24 : BitVec 24) (h16 : BitVec 16) (hA : Byte) : List (Reg × F) :=
  [(.dc .L, dequantLDc N (lDcField h24)), (.dc .P, dequantPqDc N (pDcField h24)),
   (.dc .Q, dequantPqDc N (qDcField h24)), (.sc .L, dequantLScale N (lScaleField h24)),
   (.sc .P, dequantPqScale N (pScaleField h16)), (.sc .Q, dequantPqScale N (qScaleField h16)),
   (.dc .A, if hasAlphaField h24 then dequantA N (aDcField hA) else N.one),
   (.sc .A, if hasAlphaField h24 then dequantA N (aScaleField hA) else N.one)]

/-- R210: the header words and what their bits say. -/
def State.headerWords (s : State) : List (Reg × Word) :=
  [(.hdr24, s.hashHdr24.setWidth 32), (.hdr16, s.hashHdr16.setWidth 32), (.hdrA, s.unpackHdrA.setWidth 32),
    (.hasAlpha, boolWord (hasAlphaField s.hashHdr24)), (.isLandscape, boolWord (landscapeField s.hashHdr16)),
    (.lfield, (lfieldField s.hashHdr16).setWidth 32), (.hdrLen, if hasAlphaField s.hashHdr24 then 6 else 5)]

/-- The writes of UNPACK.HDR on success (R210, R49). -/
def unpackHdrStage {F : Type} (N : Numerics F) (v : View F) : List (Write F) :=
  wordWrites v.state.headerWords ++
    (dequantHeader N v.state.hashHdr24 v.state.hashHdr16 v.state.unpackHdrA).map (fun p => .value p.1 p.2) ++
    [.phase .dHdr]

/-- UNPACK.HDR (R210) under any NUM. -/
def Engine.unpackHdr {F σ : Type} (M : Engine F σ) (x : σ) : Host.Outcome σ Fault Refusal :=
  M.run .unpackHdr checkHeaderLength (M.stage unpackHdrStage) x

/-- UNPACK.HDR (R210). -/
def execUnpackHdr (s : State) : Host.Outcome State Fault Refusal := binary32.unpackHdr s

/-! ### UNPACK.AC -/

/-- R216: (nibble/7.5 - 1.0) * scale. -/
def dequantNibble {F : Type} (N : Numerics F) (n : BitVec 4) (scale : F) : F :=
  N.fmul (N.fsub (N.fdiv (N.i2f n.toNat) (N.lit 15 2)) N.one) scale

/-- R215, R216: the scale of a channel: P and Q are boosted by 1.25, L and A are not. -/
def boostedScale {F : Type} (N : Numerics F) (c : Channel) (v : F) : F :=
  match c with
  | .P | .Q => N.fmul v (N.lit 5 4)
  | .L | .A => v

section
variable {F : Type} (N : Numerics F) (v : View F)

/-- R215: the coefficients of channel c from nibble k on. -/
def unpackChannel (c : Channel) (k : Nat) : List F :=
  (List.range (v.state.nat (.nac c))).map
    (fun j => dequantNibble N (v.state.nibble (v.state.nat .hdrLen) (k + j)) (boostedScale N c (v.value (.sc c))))

/-- R215: the channels one after the other, from nibble k on: the cells of each, and the cursor moved past its nibbles; it is
not reset between channels, and NIBCUR is its last value. -/
def unpackFrom : List Channel → Nat → List (Write F)
  | [], k => [.word .nibcur (natWord k)]
  | c :: cs, k => .coef c (unpackChannel N v c k) :: unpackFrom cs (k + v.state.nat (.nac c))

/-- The writes of UNPACK.AC on success (R215, R49). -/
def unpackAcStage : List (Write F) := unpackFrom N v (channels v.state.hasAlpha) 0 ++ [.phase .dCoef]

end

/-- R215: the length test of UNPACK.AC. -/
def checkTruncated (s : State) : Option EngineFault :=
  if s.nat .hashLen < s.nat .reqLen then some { code := .eTrunc, info := s.reg .reqLen } else none

/-- UNPACK.AC (R215) under any NUM. -/
def Engine.unpackAc {F σ : Type} (M : Engine F σ) (x : σ) : Host.Outcome σ Fault Refusal :=
  M.run .unpackAc checkTruncated (M.stage unpackAcStage) x

/-- UNPACK.AC (R215). -/
def execUnpackAc (s : State) : Host.Outcome State Fault Refusal := binary32.unpackAc s

end Sys2Proof.Machine
end

