-- ==== Sys2Proof/Machine/Color.lean ====
section
/-! DEFINITION. The colour-space converter: CT.FWD (R160 to R167) and CT.INV (R170 to R174). The formulas are over any
numerics (R130); the commands use NUM. -/

namespace Sys2Proof.Machine

/-- Three colour components. -/
structure Rgb (F : Type) where
  r : F
  g : F
  b : F

/-- One LPQA sample (R45). -/
structure Lpqa (F : Type) where
  l : F
  p : F
  q : F
  a : F

/-- The component of a sample that belongs to a channel's plane. -/
def Lpqa.get {F : Type} (v : Lpqa F) : Channel → F
  | .L => v.l
  | .P => v.p
  | .Q => v.q
  | .A => v.a

/-- The sums of R164. -/
structure ColorSums (F : Type) where
  sr : F
  sg : F
  sb : F
  sa : F

section
variable {F : Type} (N : Numerics F)

/-- `alpha(i)` of R164. -/
def alphaOf (a : Byte) : F := N.fdiv (N.i2f a.toNat) (N.lit 255 1)

/-- `pm(X, i)` of R164. -/
def premultiplied (x a : Byte) : F := N.fdiv (N.fmul (N.i2f x.toNat) (alphaOf N a)) (N.lit 255 1)

/-- R164: one pixel added to the sums. -/
def addPixel (t : ColorSums F) (p : Pixel) : ColorSums F where
  sr := N.fadd t.sr (premultiplied N p.r p.a)
  sg := N.fadd t.sg (premultiplied N p.g p.a)
  sb := N.fadd t.sb (premultiplied N p.b p.a)
  sa := N.fadd t.sa (alphaOf N p.a)

/-- R164, R143: the sums in row-major order from +0.0. -/
def colorSums (px : List Pixel) : ColorSums F :=
  px.foldl (addPixel N) { sr := N.zero, sg := N.zero, sb := N.zero, sa := N.zero }

/-- R164: the alpha-weighted average colour; 0 where the total alpha is 0. -/
def averageColor (t : ColorSums F) : Rgb F :=
  if N.fgt t.sa N.zero then { r := N.fdiv t.sr t.sa, g := N.fdiv t.sg t.sa, b := N.fdiv t.sb t.sa }
  else { r := N.zero, g := N.zero, b := N.zero }

/-- R166: one channel composited over the average. -/
def composite (bg : F) (x a : Byte) : F :=
  N.fadd (N.fmul bg (N.fsub N.one (alphaOf N a))) (premultiplied N x a)

/-- The l, p, q formulas of R166. -/
def lpqOfRgb (c : Rgb F) (a : F) : Lpqa F where
  l := N.fdiv (N.fadd (N.fadd c.r c.g) c.b) (N.lit 3 1)
  p := N.fsub (N.fdiv (N.fadd c.r c.g) (N.lit 2 1)) c.b
  q := N.fsub c.r c.g
  a := a

/-- R166: the sample of one pixel. -/
def lpqaOfPixel (bg : Rgb F) (p : Pixel) : Lpqa F :=
  lpqOfRgb N { r := composite N bg.r p.r p.a, g := composite N bg.g p.g p.a, b := composite N bg.b p.b p.a }
    (alphaOf N p.a)

/-- R171. -/
def lpqToRgb (l p q : F) : Rgb F :=
  let b := N.fsub l (N.fmul N.twoThirds p)
  let r := N.fdiv (N.fadd (N.fsub (N.fmul (N.lit 3 1) l) b) q) (N.lit 2 1)
  { r := r, g := N.fsub r q, b := b }

/-- R170, R172, R173: the four bytes of an output pixel. -/
def pixelBytes (v : Lpqa F) : List Byte :=
  let c := lpqToRgb N v.l v.p v.q
  [N.toU8 c.r, N.toU8 c.g, N.toU8 c.b, N.toU8 v.a]

end

/-- The image of CT.FWD: IMG_W by IMG_H pixels of PIXIN, row by row (R160). -/
def State.image (s : State) : List Pixel := s.pixels (s.nat .imgW * s.nat .imgH)

/-- The writes of CT.FWD on success (R160, R49). -/
def ctFwdStage {F : Type} (N : Numerics F) (v : View F) : List (Write F) :=
  let px := v.state.image
  let sums := colorSums N px
  let bg := averageColor N sums
  let samples := px.map (lpqaOfPixel N bg)
  planeWrites (fun c => samples.map (fun p => p.get c)) ++
    [.word .plW (v.state.reg .imgW), .word .plH (v.state.reg .imgH), .word .hasAlpha (boolWord (anyTransparent px)),
     .value .bgR bg.r, .value .bgG bg.g, .value .bgB bg.b, .value .alphaSum sums.sa, .phase .ePlanes]

/-- CT.FWD (R160) under any NUM. -/
def Engine.ctFwd {F σ : Type} (M : Engine F σ) (x : σ) : Host.Outcome σ Fault Refusal :=
  M.run .ctFwd checkImage (M.stage ctFwdStage) x

/-- CT.FWD (R160). -/
def execCtFwd (s : State) : Host.Outcome State Fault Refusal := binary32.ctFwd s

/-- R170: the capacity test of CT.INV. -/
def checkPixoutCap (s : State) : Option EngineFault :=
  if s.pixoutCapacity < s.nat .pixoutLen then some { code := .ePixCap, info := s.reg .pixoutLen } else none

/-- The sample at index i of the planes. -/
def View.sample {F : Type} (v : View F) (i : Nat) : Lpqa F where
  l := v.plane .L i
  p := v.plane .P i
  q := v.plane .Q i
  a := v.plane .A i

/-- The writes of CT.INV on success (R170, R49). -/
def ctInvStage {F : Type} (N : Numerics F) (v : View F) : List (Write F) :=
  [.pixout ((List.range (v.state.nat .plW * v.state.nat .plH)).flatMap (fun i => pixelBytes N (v.sample i))),
   .phase .dPix]

/-- CT.INV (R170) under any NUM. -/
def Engine.ctInv {F σ : Type} (M : Engine F σ) (x : σ) : Host.Outcome σ Fault Refusal :=
  M.run .ctInv checkPixoutCap (M.stage ctInvStage) x

/-- CT.INV (R170). -/
def execCtInv (s : State) : Host.Outcome State Fault Refusal := binary32.ctInv s

end Sys2Proof.Machine
end

