-- ==== Sys2Proof/Machine/Dct.lean ====
section
/-! DEFINITION. The DCT-II unit: the triangular scan (R180, R181), DCT.FWD (R182, R183), DCT.INV (R184, R185), SCAN.CNT
(R186) and SCAN.NTH (R187). -/

namespace Sys2Proof.Machine

/-- R180: the pairs of row cy: cx from 0, or from 1 in row 0, while cx*ny < nx*(ny-cy). The bound keeps cx below nx. -/
def scanRow (nx ny cy : Nat) : List (Nat × Nat) :=
  (((List.range nx).drop (if cy = 0 then 1 else 0)).takeWhile (fun cx => cx * ny < nx * (ny - cy))).map
    (fun cx => (cx, cy))

/-- R180: the frequency pairs (cx, cy) of a grid, in order, without (0, 0). -/
def scan (nx ny : Nat) : List (Nat × Nat) := (List.range ny).flatMap (scanRow nx ny)

/-- R181: `count(nx, ny)`. -/
def scanCount (nx ny : Nat) : Nat := (scan nx ny).length

/-- R183: the channel encoding result. -/
structure ChannelResult (F : Type) where
  dc : F
  scale : F
  ac : List F

section
variable {F : Type} (N : Numerics F)

/-- R183, R142: cos(pi/n * freq * (pos + 0.5)), multiplied in the forward order. -/
def fwdCos (n freq pos : Nat) : F :=
  N.cosf (N.fmul (N.fmul (N.fdiv N.pi (N.i2f n)) (N.i2f freq)) (N.fadd (N.i2f pos) (N.lit 1 2)))

/-- R185, R142: cos(pi/n * (pos + 0.5) * freq), multiplied in the inverse order. -/
def invCos (n freq pos : Nat) : F :=
  N.cosf (N.fmul (N.fmul (N.fdiv N.pi (N.i2f n)) (N.fadd (N.i2f pos) (N.lit 1 2))) (N.i2f freq))

/-- F(cx, cy) of R183; the sum runs y outermost, x innermost, from +0.0 (R143). -/
def fwdTerm (plane : Nat → F) (w h cx cy : Nat) : F :=
  N.fmul (N.fdiv N.one (N.i2f (w * h)))
    ((List.range h).foldl
      (fun s y => (List.range w).foldl
        (fun s x => N.fadd s (N.fmul (N.fmul (plane (y * w + x)) (fwdCos N w cx x)) (fwdCos N h cy y))) s)
      N.zero)

/-- R183: the largest magnitude of the raw AC terms. -/
def maxMagnitude (raw : List F) : F :=
  raw.foldl (fun m v => if N.fgt (N.fabs v) m then N.fabs v else m) N.zero

/-- R183: 0.5 + 0.5*term/scale where scale > 0; else the raw terms. -/
def normalise (scale : F) (raw : List F) : List F :=
  if N.fgt scale N.zero then raw.map (fun v => N.fadd (N.lit 1 2) (N.fdiv (N.fmul (N.lit 1 2) v) scale))
  else raw

/-- `fwd_channel` of R183. -/
def fwdChannel (plane : Nat → F) (w h nx ny : Nat) : ChannelResult F :=
  let raw := (scan nx ny).map (fun f => fwdTerm N plane w h f.1 f.2)
  { dc := fwdTerm N plane w h 0 0, scale := maxMagnitude N raw, ac := normalise N (maxMagnitude N raw) raw }

/-- `inv_sample` of R185: from dc, one term per coefficient in scan order. -/
def invSample (dc : F) (coef : Nat → F) (nx ny w h x y : Nat) : F :=
  (scan nx ny).zipIdx.foldl
    (fun v t => N.fadd v
      (N.fmul (N.fmul (coef t.2) (invCos N w t.1.1 x)) (N.fmul (N.lit 2 1) (invCos N h t.1.2 y))))
    dc

end

section
variable {F : Type} (N : Numerics F) (v : View F)

/-- `fwd_channel` of channel c, on the planes and the grid in the registers. -/
def fwdResult (c : Channel) : ChannelResult F :=
  fwdChannel N (v.plane c) (v.state.nat .plW) (v.state.nat .plH) (v.state.nat (.nx c)) (v.state.nat (.ny c))

/-- R182: the results of one channel: DC_c, SC_c and COEF[c][0 .. NAC_c - 1]. -/
def fwdStage (c : Channel) : List (Write F) :=
  [.coef c ((fwdResult N v c).ac.take (v.state.nat (.nac c))), .value (.dc c) (fwdResult N v c).dc,
   .value (.sc c) (fwdResult N v c).scale]

/-- The writes of DCT.FWD on success (R182, R49). Without alpha, A is fixed at dc = 1, scale = 1, and no COEF[3] cell is
written. -/
def dctFwdStage : List (Write F) :=
  (channels v.state.hasAlpha).flatMap (fwdStage N v) ++
    (if v.state.hasAlpha then [] else [.value (.dc .A) N.one, .value (.sc .A) N.one]) ++ [.phase .eCoef]

/-- R184: the reconstructed sample i = y*W + x of channel c; A is 1.0 without an alpha channel. -/
def invCell (c : Channel) (i : Nat) : F :=
  if c = .A ∧ v.state.hasAlpha = false then N.one
  else invSample N (v.value (.dc c)) (v.coef c) (v.state.nat (.nx c)) (v.state.nat (.ny c)) (v.state.nat .outW)
    (v.state.nat .outH) (i % v.state.nat .outW) (i / v.state.nat .outW)

/-- The reconstructed plane of channel c, row by row. -/
def invPlane (c : Channel) : List F := (List.range (v.state.nat .outW * v.state.nat .outH)).map (invCell N v c)

/-- The writes of DCT.INV on success (R184, R49). -/
def dctInvStage : List (Write F) :=
  planeWrites (invPlane N v) ++
    [.word .plW (v.state.reg .outW), .word .plH (v.state.reg .outH), .phase .dPlanes]

end

/-- DCT.FWD (R182) under any NUM. -/
def Engine.dctFwd {F σ : Type} (M : Engine F σ) (x : σ) : Host.Outcome σ Fault Refusal :=
  M.run .dctFwd noCheck (M.stage dctFwdStage) x

/-- DCT.FWD (R182). -/
def execDctFwd (s : State) : Host.Outcome State Fault Refusal := binary32.dctFwd s

/-- DCT.INV (R184) under any NUM. -/
def Engine.dctInv {F σ : Type} (M : Engine F σ) (x : σ) : Host.Outcome σ Fault Refusal :=
  M.run .dctInv noCheck (M.stage dctInvStage) x

/-- DCT.INV (R184). -/
def execDctInv (s : State) : Host.Outcome State Fault Refusal := binary32.dctInv s

/-- The write of SCAN.CNT on success (R186); no float is involved. -/
def scanCntStage {F : Type} (_ : Numerics F) (v : View F) : List (Write F) :=
  [.word .scanCnt (natWord (scanCount (v.state.nat .scanNx) (v.state.nat .scanNy)))]

/-- SCAN.CNT (R186) under any NUM. -/
def Engine.scanCnt {F σ : Type} (M : Engine F σ) (x : σ) : Host.Outcome σ Fault Refusal :=
  M.run .scanCnt checkScanGrid (M.stage scanCntStage) x

/-- SCAN.CNT (R186). -/
def execScanCnt (s : State) : Host.Outcome State Fault Refusal := binary32.scanCnt s

/-- R187: the grid, then the index below the count. -/
def checkScanIndex (s : State) : Option EngineFault :=
  match checkScanGrid s with
  | some f => some f
  | none =>
    if scanCount (s.nat .scanNx) (s.nat .scanNy) ≤ s.nat .scanIdx then some { code := .eOperand, info := 0x040 }
    else none

/-- R187: entry SCAN_IDX of the scan list, counted from 0. -/
def State.scanEntry (s : State) : Nat × Nat := (scan (s.nat .scanNx) (s.nat .scanNy)).getD (s.nat .scanIdx) (0, 0)

/-- The writes of SCAN.NTH on success (R187); no float is involved. -/
def scanNthStage {F : Type} (_ : Numerics F) (v : View F) : List (Write F) :=
  wordWrites
    [(.scanCnt, natWord (scanCount (v.state.nat .scanNx) (v.state.nat .scanNy))),
     (.scanCx, natWord v.state.scanEntry.1), (.scanCy, natWord v.state.scanEntry.2)]

/-- SCAN.NTH (R187) under any NUM. -/
def Engine.scanNth {F σ : Type} (M : Engine F σ) (x : σ) : Host.Outcome σ Fault Refusal :=
  M.run .scanNth checkScanIndex (M.stage scanNthStage) x

/-- SCAN.NTH (R187). -/
def execScanNth (s : State) : Host.Outcome State Fault Refusal := binary32.scanNth s

end Sys2Proof.Machine
end

