-- ==== Sys2Proof/Machine/Grid.lean ====
section
/-! DEFINITION. The coefficient grid-size unit: GRID.ENC (R230 to R234) and GRID.DEC (R235 to R241), and the ratio it shares
with ASPECT (R236, R237). -/

namespace Sys2Proof.Machine

/-- R231, R235: the luminance limit: 5 with alpha, 7 without. -/
def lLimit (ha : Bool) : Nat := if ha then 5 else 7

/-- R36: 5, or 6 with alpha. -/
def headerLength (ha : Bool) : Nat := if ha then 6 else 5

/-- R36, R230, R235: the AC terms of the alpha channel. -/
def alphaCount (ha : Bool) : Nat := if ha then 14 else 0

/-- R230, R235: NAC_TOTAL for a luminance grid. -/
def totalCount (ha : Bool) (nx ny : Nat) : Nat := scanCount nx ny + 5 + 5 + alphaCount ha

/-- R232: REQ_LEN. -/
def requiredLength (ha : Bool) (nx ny : Nat) : Nat := headerLength ha + (totalCount ha nx ny + 1) / 2

/-- R230, R235: the grid, count and length registers for a luminance grid. -/
def gridRegs (ha : Bool) (nx ny : Nat) : List (Reg × Word) :=
  [(.nx .L, natWord nx), (.ny .L, natWord ny), (.nx .P, 3), (.ny .P, 3), (.nx .Q, 3), (.ny .Q, 3),
   (.nx .A, if ha then 5 else 0), (.ny .A, if ha then 5 else 0),
   (.nac .L, natWord (scanCount nx ny)), (.nac .P, 5), (.nac .Q, 5), (.nac .A, natWord (alphaCount ha)),
   (.nacTotal, natWord (totalCount ha nx ny)), (.hdrLen, natWord (headerLength ha)),
   (.reqLen, natWord (requiredLength ha nx ny))]

/-! ### Encode side -/

/-- R231, R145: lx for size = w, ly for size = h, on exact rationals. -/
def encSide (tie : Tie) (ha : Bool) (size w h : Nat) : Nat := max (rndRatio tie (lLimit ha * size) (max w h)) 1

/-- R231: `enc_l(w, h, ha)`. -/
def encL (tie : Tie) (w h : Nat) (ha : Bool) : Nat × Nat := (encSide tie ha w w h, encSide tie ha h w h)

/-- R230: the encoder's luminance grid. -/
def encGrid (w h : Nat) (ha : Bool) : Nat × Nat :=
  (max (encL Config.tie w h ha).1 3, max (encL Config.tie w h ha).2 3)

/-- R230, R251: the REQ_LEN that GRID.ENC computes. -/
def encRequiredLength (w h : Nat) (ha : Bool) : Nat :=
  requiredLength ha (encGrid w h ha).1 (encGrid w h ha).2

/-- The registers GRID.ENC writes for planes of w by h samples (R230). -/
def encRegs (w h : Nat) (ha : Bool) : List (Reg × Word) :=
  let l := encL Config.tie w h ha
  let g := encGrid w h ha
  [(.lx, natWord l.1), (.ly, natWord l.2), (.isLandscape, boolWord (decide (h < w))),
    (.lfield, natWord (if h < w then l.2 else l.1))] ++ gridRegs ha g.1 g.2

/-- The writes of GRID.ENC on success (R230, R49); no float is involved (R145). -/
def gridEncStage {F : Type} (_ : Numerics F) (v : View F) : List (Write F) :=
  wordWrites (encRegs (v.state.nat .plW) (v.state.nat .plH) v.state.hasAlpha) ++ [.phase .eGrid]

/-- GRID.ENC (R230) under any NUM. -/
def Engine.gridEnc {F σ : Type} (M : Engine F σ) (x : σ) : Host.Outcome σ Fault Refusal :=
  M.run .gridEnc noCheck (M.stage gridEncStage) x

/-- GRID.ENC (R230). -/
def execGridEnc (s : State) : Host.Outcome State Fault Refusal := binary32.gridEnc s

/-! ### Decode side -/

/-- R237: the unclamped sides (rx, ry). -/
def rawGrid (ha land : Bool) (f : Nat) : Nat × Nat := (if land then lLimit ha else f, if land then f else lLimit ha)

/-- R235: the clamped sides (lx, ly), the decoder's luminance grid. -/
def decGrid (ha land : Bool) (f : Nat) : Nat × Nat := (max 3 (rawGrid ha land f).1, max 3 (rawGrid ha land f).2)

section
variable {F : Type} (N : Numerics F)

/-- `aspect(ha, land, f)`, R236 with `clamp`, R237 without. None is the infinite ratio that R237 stipulates where the divisor
is 0 and the carrier has no infinity of its own. -/
def aspectOf (clamp ha land : Bool) (f : Nat) : Option F :=
  let g := if clamp then decGrid ha land f else rawGrid ha land f
  if g.2 = 0 ∧ N.infinite = false then none else some (N.fdiv (N.i2f g.1) (N.i2f g.2))

/-- What RATIO and ASPECT read as (R130, R237). -/
def ratioWord (ratio : Option F) : Word := (ratio.map N.bits32).getD 0x7F800000

/-- R235: OUT_W and OUT_H: one side 32, the other from the ratio; 32 over the infinite ratio is 0 (R237). -/
def rasterSize (land : Bool) (ratio : Option F) : Nat × Nat :=
  match ratio with
  | some a => if land then (32, N.rnd (N.fdiv (N.lit 32 1) a)) else (N.rnd (N.fmul (N.lit 32 1) a), 32)
  | none => if land then (32, 0) else (Config.unstatedInt 0x7F800000, 32)

/-- The ratio of a header as its register shows it, its raster and PIXOUT_LEN (R235), under NUM and ASPECT_CLAMP. -/
def ratioOf (ha land : Bool) (f : Nat) : Word := ratioWord N (aspectOf N Config.aspectClamp ha land f)

def rasterOf (ha land : Bool) (f : Nat) : Nat × Nat := rasterSize N land (aspectOf N Config.aspectClamp ha land f)

def pixoutLenOf (ha land : Bool) (f : Nat) : Nat := (rasterOf N ha land f).1 * (rasterOf N ha land f).2 * 4

end

/-- The same under NUM = binary32. -/
def decRatio (ha land : Bool) (f : Nat) : Word := ratioOf num ha land f

def decRaster (ha land : Bool) (f : Nat) : Nat × Nat := rasterOf num ha land f

def decPixoutLen (ha land : Bool) (f : Nat) : Nat := pixoutLenOf num ha land f

/-- R235: the REQ_LEN that GRID.DEC computes. -/
def decRequiredLength (ha land : Bool) (f : Nat) : Nat :=
  requiredLength ha (decGrid ha land f).1 (decGrid ha land f).2

/-- R235: the grid, count and length registers GRID.DEC writes for a header. -/
def decGridRegs (ha land : Bool) (f : Nat) : List (Reg × Word) :=
  [(.lx, natWord (decGrid ha land f).1), (.ly, natWord (decGrid ha land f).2)] ++
    gridRegs ha (decGrid ha land f).1 (decGrid ha land f).2

/-- R235: the raster registers GRID.DEC writes for a header. -/
def decRasterRegs {F : Type} (N : Numerics F) (ha land : Bool) (f : Nat) : List (Reg × Word) :=
  [(.outW, natWord (rasterOf N ha land f).1), (.outH, natWord (rasterOf N ha land f).2),
    (.pixoutLen, natWord (pixoutLenOf N ha land f))]

/-- All registers GRID.DEC writes, as they read under NUM = binary32. -/
def decRegs (ha land : Bool) (f : Nat) : List (Reg × Word) :=
  decGridRegs ha land f ++ (.ratio, decRatio ha land f) :: decRasterRegs num ha land f

/-- The writes of GRID.DEC on success (R235, R49). -/
def gridDecStage {F : Type} (N : Numerics F) (v : View F) : List (Write F) :=
  let ha := v.state.hasAlpha
  let land := v.state.landscape
  let f := v.state.nat .lfield
  wordWrites (decGridRegs ha land f) ++ [Write.ratio .ratio (aspectOf N Config.aspectClamp ha land f)] ++
    wordWrites (decRasterRegs N ha land f) ++ [.phase .dGrid]

/-- GRID.DEC (R235) under any NUM. -/
def Engine.gridDec {F σ : Type} (M : Engine F σ) (x : σ) : Host.Outcome σ Fault Refusal :=
  M.run .gridDec noCheck (M.stage gridDecStage) x

/-- GRID.DEC (R235). -/
def execGridDec (s : State) : Host.Outcome State Fault Refusal := binary32.gridDec s

end Sys2Proof.Machine
end

