-- ==== Sys2Proof/Machine/Codec.lean ====
section
/-! DEFINITION. The composite commands: ENCODE (R250 to R253) and DECODE (R255 to R259): all validation first, then the
writes of the unit commands in order. -/

namespace Sys2Proof.Machine

/-- R251: `validate_encode()`: the image tests, then HASH_CAP against the length the hash will have. -/
def checkEncode (s : State) : Option EngineFault :=
  match checkImage s with
  | some f => some f
  | none =>
    let ha := anyTransparent s.image
    let req := encRequiredLength (s.nat .imgW) (s.nat .imgH) ha
    if s.hashCapacity < req then some { code := .eHashCap, info := natWord req } else none

/-- R250: CT.FWD, GRID.ENC, DCT.FWD, PACK without their tests; PACK leaves PHASE = 4. -/
def Engine.encodeStages {F σ : Type} (M : Engine F σ) (x : σ) : σ :=
  M.stage packStage (M.stage dctFwdStage (M.stage gridEncStage (M.stage ctFwdStage x)))

/-- ENCODE (R250) under any NUM. -/
def Engine.encode {F σ : Type} (M : Engine F σ) (x : σ) : Host.Outcome σ Fault Refusal :=
  M.run .encode checkEncode M.encodeStages x

/-- ENCODE (R250). -/
def execEncode (s : State) : Host.Outcome State Fault Refusal := binary32.encode s

/-- R256: `validate_decode()`: E_HASHLEN(5), E_HASHLEN(6), E_PIXCAP, E_TRUNC (C12). -/
def checkDecode {F : Type} (N : Numerics F) (s : State) : Option EngineFault :=
  match checkHeaderLength s with
  | some f => some f
  | none =>
    let ha := hasAlphaField s.hashHdr24
    let land := landscapeField s.hashHdr16
    let f := (lfieldField s.hashHdr16).toNat
    if s.pixoutCapacity < pixoutLenOf N ha land f then
      some { code := .ePixCap, info := natWord (pixoutLenOf N ha land f) }
    else if s.nat .hashLen < decRequiredLength ha land f then
      some { code := .eTrunc, info := natWord (decRequiredLength ha land f) }
    else none

/-- R255: UNPACK.HDR, GRID.DEC, UNPACK.AC, DCT.INV, CT.INV without their tests; CT.INV leaves PHASE = 9. -/
def Engine.decodeStages {F σ : Type} (M : Engine F σ) (x : σ) : σ :=
  M.stage ctInvStage (M.stage dctInvStage (M.stage unpackAcStage (M.stage gridDecStage (M.stage unpackHdrStage x))))

/-- DECODE (R255) under any NUM. -/
def Engine.decode {F σ : Type} (M : Engine F σ) (x : σ) : Host.Outcome σ Fault Refusal :=
  M.run .decode (checkDecode M.num) M.decodeStages x

/-- DECODE (R255). -/
def execDecode (s : State) : Host.Outcome State Fault Refusal := binary32.decode s

end Sys2Proof.Machine
end

