-- ==== Sys2Proof/Machine/Extract.lean ====
section
/-! DEFINITION. The header extractors: AVGCOLOR (R270, R271) and ASPECT (R273, R274). They leave PHASE alone. -/

namespace Sys2Proof.Machine

/-- R270: the unclamped colour of a header's DC fields. -/
def headerColor {F : Type} (N : Numerics F) (h24 : BitVec 24) : Rgb F :=
  lpqToRgb N (dequantLDc N (lDcField h24)) (dequantPqDc N (pDcField h24)) (dequantPqDc N (qDcField h24))

/-- The writes of AVGCOLOR on success (R270, R49). -/
def avgColorStage {F : Type} (N : Numerics F) (v : View F) : List (Write F) :=
  let h24 := v.state.hashHdr24
  [.value .avgR (N.clamp01 (headerColor N h24).r), .value .avgG (N.clamp01 (headerColor N h24).g),
    .value .avgB (N.clamp01 (headerColor N h24).b),
    .value .avgA (if hasAlphaField h24 then dequantA N (aDcField (v.state.hash 5)) else N.one)]

/-- AVGCOLOR (R270) under any NUM. -/
def Engine.avgColor {F σ : Type} (M : Engine F σ) (x : σ) : Host.Outcome σ Fault Refusal :=
  M.run .avgColor checkHeaderLength (M.stage avgColorStage) x

/-- AVGCOLOR (R270). -/
def execAvgColor (s : State) : Host.Outcome State Fault Refusal := binary32.avgColor s

/-- R273: 5 bytes suffice also for an alpha header. -/
def checkAspectLength (s : State) : Option EngineFault :=
  if s.nat .hashLen < 5 then some { code := .eHashLen, info := 5 } else none

/-- The write of ASPECT on success (R273, R49). -/
def aspectStage {F : Type} (N : Numerics F) (v : View F) : List (Write F) :=
  [.ratio .aspectRatio (aspectOf N Config.aspectClamp (hasAlphaField v.state.hashHdr24)
    (landscapeField v.state.hashHdr16) (lfieldField v.state.hashHdr16).toNat)]

/-- ASPECT (R273) under any NUM. -/
def Engine.aspect {F σ : Type} (M : Engine F σ) (x : σ) : Host.Outcome σ Fault Refusal :=
  M.run .aspect checkAspectLength (M.stage aspectStage) x

/-- ASPECT (R273). -/
def execAspect (s : State) : Host.Outcome State Fault Refusal := binary32.aspect s

end Sys2Proof.Machine
end

