-- ==== Sys2Proof/Machine/System.lean ====
section
/-! DEFINITION. The system commands CLR (R281) and SRST (R282). They act in the step of the CMD write (R27 (d)), in every
phase and also while FAULT = 1, and have no test. -/

namespace Sys2Proof.Machine

/-- CLR (R281) under any NUM. -/
def Engine.clr {F σ : Type} (M : Engine F σ) (x : σ) : Host.Outcome σ Fault Refusal :=
  .next (M.onState State.acknowledge x)

/-- CLR (R281). -/
def execClr (s : State) : Host.Outcome State Fault Refusal := binary32.clr s

/-- SRST (R282) under any NUM: the memories keep what they hold. -/
def Engine.srst {F σ : Type} (M : Engine F σ) (x : σ) : Host.Outcome σ Fault Refusal :=
  .next (M.onState State.resetRegisters (M.clearValues x))

/-- SRST (R282). -/
def execSrst (s : State) : Host.Outcome State Fault Refusal := binary32.srst s

end Sys2Proof.Machine
end

