-- ==== Sys2Proof/Machine/Dispatch.lean ====
section
/-! DEFINITION. One arm per command: its meaning. For a started command the meaning is its completion step (R27 (b)); for CLR
and SRST it is the effect in the step of the CMD write (R27 (d)). -/

namespace Sys2Proof.Machine

def exec (i : Instr) (s : State) : Host.Outcome State Fault Refusal :=
  match i with
  | .clr => Sys2Proof.Machine.execClr s
  | .srst => Sys2Proof.Machine.execSrst s
  | .ctFwd => Sys2Proof.Machine.execCtFwd s
  | .gridEnc => Sys2Proof.Machine.execGridEnc s
  | .dctFwd => Sys2Proof.Machine.execDctFwd s
  | .pack => Sys2Proof.Machine.execPack s
  | .unpackHdr => Sys2Proof.Machine.execUnpackHdr s
  | .gridDec => Sys2Proof.Machine.execGridDec s
  | .unpackAc => Sys2Proof.Machine.execUnpackAc s
  | .dctInv => Sys2Proof.Machine.execDctInv s
  | .ctInv => Sys2Proof.Machine.execCtInv s
  | .scanCnt => Sys2Proof.Machine.execScanCnt s
  | .scanNth => Sys2Proof.Machine.execScanNth s
  | .encode => Sys2Proof.Machine.execEncode s
  | .decode => Sys2Proof.Machine.execDecode s
  | .avgColor => Sys2Proof.Machine.execAvgColor s
  | .aspect => Sys2Proof.Machine.execAspect s

end Sys2Proof.Machine
end

