-- ==== Sys2Proof/Machine/Step.lean ====
section
/-! DEFINITION. One step of the system: the next event, or, with no event left, the completion of the running command; and
the machine under any NUM. -/

namespace Sys2Proof.Machine

namespace Engine
variable {F σ : Type} (M : Engine F σ)

/-- The 17 commands under any NUM. -/
def exec : Instr → σ → Host.Outcome σ Fault Refusal
  | .clr => M.clr
  | .srst => M.srst
  | .ctFwd => M.ctFwd
  | .gridEnc => M.gridEnc
  | .dctFwd => M.dctFwd
  | .pack => M.pack
  | .unpackHdr => M.unpackHdr
  | .gridDec => M.gridDec
  | .unpackAc => M.unpackAc
  | .dctInv => M.dctInv
  | .ctInv => M.ctInv
  | .scanCnt => M.scanCnt
  | .scanNth => M.scanNth
  | .encode => M.encode
  | .decode => M.decode
  | .avgColor => M.avgColor
  | .aspect => M.aspect

/-- R5, R27, R70, R340: one step, with the commands' meanings `run`. With no event left a running command completes (R352),
and an idle engine stays as it is. -/
def step (run : Instr → σ → Host.Outcome σ Fault Refusal) (x : σ) : Host.Outcome σ Fault Refusal :=
  match (M.state x).host with
  | [] => if (M.state x).busy then M.turn run (M.onState State.tick x) else .next x
  | .engine :: _ => M.turn run (M.onState State.tick x)
  | .reset :: _ => .next (M.onState State.hardReset (M.forget (M.onState State.tick x)))
  | .access a :: _ => M.access run a (M.onState State.tick x)

end Engine

/-- One step of the engine, NUM = binary32. -/
def step (s : State) : Host.Outcome State Fault Refusal := binary32.step exec s

/-- The state whose very next step runs the command word: for CLR and SRST, which act in the step of the CMD write, the host
is about to write the word to CMD and the engine is idle; any other word is in flight, as its CMD write leaves it, and the
engine is about to move (log entry 8). -/
def State.withFetchWord (s : State) (nbits w : Nat) : State :=
  let word : Word := BitVec.ofNat 32 (w % 2 ^ nbits)
  match (decode word).toOption.filter immediate with
  | some _ => { s with inflight := none, host := .access (.write cmdOffset 4 word) :: s.host }
  | none =>
    { s with inflight := some word, status := { s.status with done := false, fault := false },
             host := .engine :: s.host }

end Sys2Proof.Machine
end

