-- ==== Sys2Proof/Machine/Exact.lean ====
section
/-! DEFINITION. NUM = exact (R132), "an idealisation, not a hardware option": the same machine over the real numbers. Its state
holds real values beside the patterns that the host reads (R69), so it is no plain data and is not the engine's state (log
entry 1). -/

namespace Sys2Proof.Machine.Exact

/-- R138 over the reals, for v >= 0. -/
noncomputable def roundTie (tie : Tie) (v : ℝ) : ℕ :=
  if v - ⌊v⌋₊ < 1 / 2 then ⌊v⌋₊
  else if 1 / 2 < v - ⌊v⌋₊ then ⌊v⌋₊ + 1
  else match tie with
    | .halfEven => ⌊v⌋₊ + ⌊v⌋₊ % 2
    | .halfAway => ⌊v⌋₊ + 1

/-- R132: the magnitude pattern of the binary32 value nearest to v >= 0, ties to even; values past the largest finite one
are infinity. It is the rounding of `Binary32.roundUnits`, read over the reals. -/
noncomputable def nearestMagnitude (v : ℝ) : ℕ :=
  let k := Nat.log2 ⌊v * 2 ^ 149⌋₊ - 23
  min (k * 2 ^ 23 + roundTie .halfEven (v * 2 ^ 149 / 2 ^ k)) 0x7F800000

/-- R132: `bits32`. -/
noncomputable def bits32 (v : ℝ) : Word :=
  BitVec.ofNat 32 ((if v < 0 then 2 ^ 31 else 0) + nearestMagnitude |v|)

open Classical in
/-- NUM = exact (R132); `rnd` and `trunc_u8` are free outside the range R138 and R140 define them on. -/
noncomputable def numerics : Numerics ℝ where
  fadd := fun a b => a + b
  fsub := fun a b => a - b
  fmul := fun a b => a * b
  fdiv := fun a b => a / b
  i2f := fun n => n
  lit := fun n d => (n : ℝ) / d
  cosf := Real.cos
  pi := Real.pi
  twoThirds := 2 / 3
  flt := fun a b => decide (a < b)
  fgt := fun a b => decide (b < a)
  fabs := fun a => |a|
  rnd := fun v => if 0 ≤ v then roundTie Config.tie v else Config.unstatedInt (bits32 v)
  truncU8 := fun v => if 0 ≤ v ∧ v ≤ 255 then BitVec.ofNat 8 ⌊v⌋₊ else Config.unstatedByte (bits32 v)
  bits32 := bits32
  infinite := false

/-- The real value of a finite pattern. -/
noncomputable def realOf (w : Word) : ℝ := (Binary32.signedUnits w : ℝ) / 2 ^ 149

/-- The state under NUM = exact: beside the host's view the values of the float registers and of the cells, the latest write
first: real numbers, and for RATIO and ASPECT also the +infinity of R237 (`⊤`). What was never written holds the value of its
pattern. -/
structure System where
  state : State
  values : List (Reg × WithTop ℝ)
  cells : List (Nat × ℝ)

/-- R69: the value of a float register. -/
noncomputable def System.value (x : System) (r : Reg) : WithTop ℝ :=
  (x.values.lookup r).getD (realOf (x.state.reg r) : ℝ)

/-- R69: the value of the cell at a window offset. -/
noncomputable def System.cell (x : System) (a : Nat) : ℝ := (x.cells.lookup a).getD (realOf (x.state.wordAt a))

/-- The cells of a bank that ends at cell `size - 1`. -/
def bankCells (base size : Nat) (vs : List ℝ) : List (Nat × ℝ) :=
  (vs.take size).zipIdx.map (fun p => (base + 4 * p.2, p.1))

/-- The value of a ratio, the infinite one of R237 included. -/
def ratioValue : Option ℝ → WithTop ℝ
  | some v => v
  | none => ⊤

/-- One write, its real values kept. -/
def System.keep (x : System) : Write ℝ → System
  | .value r v => { x with values := (r, (v : WithTop ℝ)) :: x.values }
  | .ratio r v => { x with values := (r, ratioValue v) :: x.values }
  | .plane c vs => { x with cells := bankCells (planeBase c) 10000 vs ++ x.cells }
  | .coef c vs => { x with cells := bankCells (coefBase c) 32 vs ++ x.cells }
  | .word _ _ | .hash _ _ | .pixout _ | .phase _ => x

/-- NUM = exact (R132). No command reads RATIO or ASPECT, the two registers that can be infinite (R69), so the number their
view has for +infinity is of no account. -/
noncomputable def engine : Engine ℝ System where
  num := numerics
  state := System.state
  setState := fun x s => { x with state := s }
  view := fun x =>
    { state := x.state, value := fun r => (x.value r).untopD 0, plane := fun c i => x.cell (planeBase c + 4 * i),
      coef := fun c j => x.cell (coefBase c + 4 * j) }
  commit := fun x l => { l.foldl System.keep x with state := x.state.commit bits32 l }
  clearValues := fun x => { x with values := [] }
  forget := fun x => { x with values := [], cells := [] }

/-- After reset. -/
def System.reset : System := { state := State.reset, values := [], cells := [] }

/-- A command under NUM = exact. -/
noncomputable def exec (i : Instr) (x : System) : Host.Outcome System Fault Refusal := engine.exec i x

/-- One step under NUM = exact. -/
noncomputable def step (x : System) : Host.Outcome System Fault Refusal := engine.step exec x

end Sys2Proof.Machine.Exact
end

