-- ==== Sys2Proof/Machine/Script.lean ====
section
/-! DEFINITION. The host-script notation (R94, R95): each statement expands to the events it stands for. The host's own
control flow, and EXPECT, which is no access, are outside the engine. -/

namespace Sys2Proof.Machine

/-- The memories a script names by byte. -/
inductive ByteMemory where
  | pixin
  | hash
  | pixout
deriving DecidableEq, Repr

/-- The memories a script names by cell. -/
inductive CellMemory where
  | coef
  | plane
deriving DecidableEq, Repr

/-- R94, R95: the statements. `polls` is how often WAIT reads STATUS with BUSY = 1 before the command completes; the spec
leaves it open (R352; log entry 16). -/
inductive Stmt where
  | wr (r : RegName) (v : Word)
  | wrb (m : ByteMemory) (i : Nat) (b : Byte)
  | rd (r : RegName)
  | rdb (m : ByteMemory) (i : Nat)
  | rdw (m : CellMemory) (c : Channel) (i : Nat)
  | cmd (i : Instr)
  | wait (polls : Nat)
  | run (i : Instr) (polls : Nat)
  | loadPix (w h : Nat) (bytes : List Byte)
  | loadHash (bytes : List Byte)
deriving DecidableEq, Repr

/-- R94: `offset(REG)`, from R43. -/
def registerOffset (n : RegName) : Nat := ((registerMap.find? (fun row => row.2.1 == n)).map (fun row => row.1)).getD 0

/-- The offset of byte i of a memory (R60). -/
def byteOffset : ByteMemory → Nat → Nat
  | .pixin, i => pixinBase + i
  | .hash, i => hashBase + i
  | .pixout, i => pixoutBase + i

/-- The offset of cell i of a channel (R60). -/
def cellOffset : CellMemory → Channel → Nat → Nat
  | .coef, c, i => coefBase c + 4 * i
  | .plane, c, i => planeBase c + 4 * i

/-- R94: `WR REG, value`. -/
def wrEvent (n : RegName) (v : Word) : Event := .access (.write (registerOffset n) 4 v)

/-- R94: `WRB MEM[i], byte`. -/
def wrbEvent (m : ByteMemory) (i : Nat) (b : Byte) : Event := .access (.write (byteOffset m i) 1 (b.setWidth 32))

/-- R94: `RD REG`. -/
def rdEvent (n : RegName) : Event := .access (.read (registerOffset n) 4)

/-- R94: `WRB MEM[i], bytes[i]` for every i in ascending order. -/
def wrbAll (m : ByteMemory) (bytes : List Byte) : List Event := bytes.zipIdx.map (fun p => wrbEvent m p.2 p.1)

/-- R94: `CMD <mnemonic>`. -/
def cmdEvent (i : Instr) : Event := wrEvent .cmd (encode i)

/-- R94: `WAIT`: reads of STATUS while the command runs, its completion, and the read that finds BUSY = 0. -/
def waitEvents (polls : Nat) : List Event := List.replicate polls (rdEvent .status) ++ [.engine, rdEvent .status]

/-- R94, R95: the events of a statement. -/
def Stmt.expand : Stmt → List Event
  | .wr r v => [wrEvent r v]
  | .wrb m i b => [wrbEvent m i b]
  | .rd r => [rdEvent r]
  | .rdb m i => [.access (.read (byteOffset m i) 1)]
  | .rdw m c i => [.access (.read (cellOffset m c i) 4)]
  | .cmd i => [cmdEvent i]
  | .wait polls => waitEvents polls
  | .run i polls => cmdEvent i :: waitEvents polls
  | .loadPix w h bytes =>
    [wrEvent (.stored .imgW) (natWord w), wrEvent (.stored .imgH) (natWord h),
      wrEvent (.stored .pixinLen) (natWord (4 * w * h))] ++ wrbAll .pixin bytes
  | .loadHash bytes => wrbAll .hash bytes ++ [wrEvent (.stored .hashLen) (natWord bytes.length)]

/-- A host program: its statements' events in order. -/
def script (p : List Stmt) : List Event := p.flatMap Stmt.expand

/-- An access by a byte address of the host's address space (R60), if the engine's window holds it. -/
def busAddressEvent (addr width : Nat) (write : Option Word) : Option Event :=
  (windowOffset addr).map (fun off =>
    match write with
    | some v => .access (.write off width v)
    | none => .access (.read off width))

end Sys2Proof.Machine
end

