-- ==== Sys2Proof/Safety.lean ====
section
/-! DEFINITION. The terms in which claims about the engine are stated: frames, completions and faults, the writers table of
R49, runs of several steps, and the two invariants. -/

namespace Sys2Proof.Machine

/-! ### What a step leaves alone -/

/-- No byte. -/
def noBytes : Nat → Prop := fun _ => False

/-- The `n` bytes from offset `a` on. -/
def bytesFrom (a n : Nat) : Nat → Prop := fun x => a ≤ x ∧ x < a + n

/-- PLANE[c][0 .. n-1] of all four channels (R60). -/
def planeBytes (n : Nat) : Nat → Prop := fun x => ∃ c, bytesFrom (planeBase c) (4 * n) x

/-- COEF[c][0 .. NAC_c - 1] of every channel present, as the registers of `t` count them (R49). -/
def coefBytes (t : State) : Nat → Prop :=
  fun x => ∃ c ∈ channels t.hasAlpha, bytesFrom (coefBase c) (4 * t.nat (.nac c)) x

/-- From `s` to `t` only the registers `written` and the bytes `stored` may change; of STATUS only BUSY, DONE and PHASE. The
bytes are compared as written or not; with `resets` unchanged an unchanged byte holds the same value in both. -/
structure Frame (s t : State) (written : List Reg) (stored : Nat → Prop) : Prop where
  regs : ∀ r, r ∉ written → t.reg r = s.reg r
  bytes : ∀ a, ¬ stored a → t.mem.read a = s.mem.read a
  fault : t.status.fault = s.status.fault
  ovr : t.status.ovr = s.status.ovr
  host : t.host = s.host
  reply : t.reply = s.reply
  draws : t.draws = s.draws
  resets : t.resets = s.resets

/-- R27 (b): success: BUSY 0, DONE 1, PHASE `p`, and the frame. -/
structure Completed (s t : State) (p : Phase) (written : List Reg) (stored : Nat → Prop) : Prop where
  idle : t.inflight = none
  done : t.status.done = true
  phase : t.status.phase = p
  frame : Frame s t written stored

/-- R304: fault number `code` of the command whose word has low byte `op`: BUSY 0, FAULT 1, CAUSE = OP << 8 | CODE, FINFO,
and nothing else. -/
structure Faulted (s t : State) (op : BitVec 8) (code : Nat) (info : Word) : Prop where
  /-- R300: there are nine codes. -/
  codes : 1 ≤ code ∧ code ≤ 9
  idle : t.inflight = none
  status : t.status = { s.status with fault := true }
  cause : t.reg .cause = BitVec.ofNat 32 (256 * op.toNat + code)
  finfo : t.reg .finfo = info
  regs : ∀ r, r ≠ .cause → r ≠ .finfo → t.reg r = s.reg r
  mem : t.mem = s.mem
  host : t.host = s.host
  reply : t.reply = s.reply
  draws : t.draws = s.draws
  resets : t.resets = s.resets

/-! ### The writers table (R49) -/

/-- The registers CT.FWD writes. -/
def ctFwdWrites : List Reg := [.plW, .plH, .hasAlpha, .bgR, .bgG, .bgB, .alphaSum]

/-- The grid registers, which GRID.ENC and GRID.DEC both write. -/
def gridWrites : List Reg :=
  [.lx, .ly, .nx .L, .ny .L, .nx .P, .ny .P, .nx .Q, .ny .Q, .nx .A, .ny .A, .nac .L, .nac .P, .nac .Q, .nac .A, .nacTotal,
   .hdrLen, .reqLen]

/-- The registers GRID.ENC writes. -/
def gridEncWrites : List Reg := Reg.isLandscape :: Reg.lfield :: gridWrites

/-- DC_c and SC_c of all four channels. -/
def channelWrites : List Reg := [.dc .L, .dc .P, .dc .Q, .dc .A, .sc .L, .sc .P, .sc .Q, .sc .A]

/-- The registers PACK writes. -/
def packWrites : List Reg := [.hdr24, .hdr16, .hdrA, .hashLen, .nibcur]

/-- The registers UNPACK.HDR writes. -/
def unpackHdrWrites : List Reg := ([.hdr24, .hdr16, .hdrA, .hasAlpha, .isLandscape, .lfield, .hdrLen] : List Reg) ++ channelWrites

/-- The registers GRID.DEC writes. -/
def gridDecWrites : List Reg := gridWrites ++ ([.ratio, .outW, .outH, .pixoutLen] : List Reg)

/-- The register column of R49; CLR and SRST have statements of their own. -/
def writesOf : Instr → List Reg
  | .clr => [.cause, .finfo]
  | .srst => []
  | .ctFwd => ctFwdWrites
  | .gridEnc => gridEncWrites
  | .dctFwd => channelWrites
  | .pack => packWrites
  | .unpackHdr => unpackHdrWrites
  | .gridDec => gridDecWrites
  | .unpackAc => [.nibcur]
  | .dctInv => [.plW, .plH]
  | .ctInv => []
  | .scanCnt => [.scanCnt]
  | .scanNth => [.scanCnt, .scanCx, .scanCy]
  | .encode => ctFwdWrites ++ gridEncWrites ++ channelWrites ++ packWrites
  | .decode => unpackHdrWrites ++ gridDecWrites ++ ([.nibcur, .plW, .plH] : List Reg)
  | .avgColor => [.avgR, .avgG, .avgB, .avgA]
  | .aspect => [.aspectRatio]

/-- The memory column of R49; the extents are those the registers of the state after it, `t`, name. -/
def storesOf (i : Instr) (t : State) : Nat → Prop :=
  match i with
  | .ctFwd => planeBytes (t.nat .plW * t.nat .plH)
  | .dctFwd => coefBytes t
  | .pack => bytesFrom hashBase (t.nat .reqLen)
  | .unpackAc => coefBytes t
  | .dctInv => planeBytes (t.nat .outW * t.nat .outH)
  | .ctInv => bytesFrom pixoutBase (t.nat .pixoutLen)
  | .encode =>
    fun x => planeBytes (t.nat .plW * t.nat .plH) x ∨ coefBytes t x ∨ bytesFrom hashBase (t.nat .reqLen) x
  | .decode =>
    fun x => coefBytes t x ∨ planeBytes (t.nat .outW * t.nat .outH) x ∨ bytesFrom pixoutBase (t.nat .pixoutLen) x
  | .clr | .srst | .gridEnc | .unpackHdr | .gridDec | .scanCnt | .scanNth | .avgColor | .aspect => noBytes

/-! ### The register map (R43), as claims read it -/

/-- The control and operand registers that are stored (R29 to R34). -/
def controlOffsets : List (Nat × Reg) :=
  [(0x00C, .ie), (0x010, .cause), (0x014, .finfo), (0x020, .imgW), (0x024, .imgH), (0x028, .pixinLen), (0x02C, .hashCap),
   (0x030, .hashLen), (0x034, .pixoutCap), (0x038, .scanNx), (0x03C, .scanNy), (0x040, .scanIdx)]

/-- The image, grid and header registers (R35 to R37). -/
def gridOffsets : List (Nat × Reg) :=
  [(0x050, .plW), (0x054, .plH), (0x058, .hasAlpha), (0x05C, .isLandscape), (0x060, .lx), (0x064, .ly), (0x068, .lfield),
   (0x06C, .ratio), (0x070, .nx .L), (0x074, .ny .L), (0x078, .nx .P), (0x07C, .ny .P), (0x080, .nx .Q),
   (0x084, .ny .Q), (0x088, .nx .A), (0x08C, .ny .A), (0x090, .nac .L), (0x094, .nac .P), (0x098, .nac .Q),
   (0x09C, .nac .A), (0x0A0, .nacTotal), (0x0A4, .hdrLen), (0x0A8, .reqLen), (0x0AC, .nibcur), (0x0B0, .hdr24),
   (0x0B4, .hdr16), (0x0B8, .hdrA)]

/-- The channel, colour, raster and scan results (R38 to R42). -/
def floatOffsets : List (Nat × Reg) :=
  [(0x0C0, .dc .L), (0x0C4, .dc .P), (0x0C8, .dc .Q), (0x0CC, .dc .A), (0x0D0, .sc .L), (0x0D4, .sc .P),
   (0x0D8, .sc .Q), (0x0DC, .sc .A), (0x0E0, .bgR), (0x0E4, .bgG), (0x0E8, .bgB), (0x0EC, .alphaSum), (0x0F0, .avgR),
   (0x0F4, .avgG), (0x0F8, .avgB), (0x0FC, .avgA), (0x100, .aspectRatio), (0x104, .outW), (0x108, .outH),
   (0x10C, .pixoutLen), (0x110, .scanCnt), (0x114, .scanCx), (0x118, .scanCy)]

/-! ### Operands -/

/-- R163: the image operands are valid. -/
def ImageValid (s : State) : Prop :=
  1 ≤ s.nat .imgW ∧ s.nat .imgW ≤ 100 ∧ 1 ≤ s.nat .imgH ∧ s.nat .imgH ≤ 100 ∧
    s.nat .pixinLen = 4 * s.nat .imgW * s.nat .imgH

/-- R210: the header is present: 5 bytes, or 6 where its bit 23 says alpha. -/
def HeaderPresent (s : State) : Prop :=
  5 ≤ s.nat .hashLen ∧ (s.hashHdr24.getLsbD 23 = true → 6 ≤ s.nat .hashLen)

/-- R104: the number of the first nibble of a channel. -/
def payloadStart (s : State) : Channel → Nat
  | .L => 0
  | .P => s.nat (.nac .L)
  | .Q => s.nat (.nac .L) + s.nat (.nac .P)
  | .A => s.nat (.nac .L) + s.nat (.nac .P) + s.nat (.nac .Q)

/-! ### Runs -/

/-- `n` steps, if each answers a next state. -/
def run : Nat → State → Option State
  | 0, s => some s
  | n + 1, s =>
    match step s with
    | .next t => run n t
    | .fault _ => none
    | .refused _ => none

/-- The state right before the host program `p` runs. -/
def State.load (s : State) (p : List Stmt) : State := { s with host := script p }

/-- The number of steps of `RUN` with `polls` reads of STATUS that find BUSY = 1: the CMD write, those reads, the completion,
and the read that finds BUSY = 0 (R94, R95). -/
def runSteps (polls : Nat) : Nat := polls + 3

/-! ### Rounding -/

/-- The value of a finite binary32 pattern (R61, R131). -/
def valueOf (w : Word) : ℚ := (Binary32.signedUnits w : ℚ) / 2 ^ 149

/-- R131: `r` is the exact result `x`, rounded once to nearest, ties to even: no finite value is nearer, and of two equally
near ones the pattern is even; from half way between the largest finite value and 2^128 on, it is the infinity of x's sign. -/
def RoundsTo (x : ℚ) (r : Word) : Prop :=
  (|x| < 2 ^ 128 - 2 ^ 103 ∧ Binary32.isFinite r = true ∧
    ∀ w, Binary32.isFinite w = true → |valueOf r - x| ≤ |valueOf w - x| ∧
      (|valueOf r - x| = |valueOf w - x| → valueOf w = valueOf r ∨ r.getLsbD 0 = false)) ∨
    (2 ^ 128 - 2 ^ 103 ≤ |x| ∧ Binary32.isInf r = true ∧ Binary32.sign r = decide (x < 0))

/-! ### Invariants -/

/-- What holds of the registers and memories in every phase. -/
structure Inv (s : State) : Prop where
  /-- The canonical form of the memories. -/
  mem : Memory.wf s.mem
  /-- R26: at most one of BUSY, DONE, FAULT is 1. -/
  busyAlone : s.busy = true → s.status.done = false ∧ s.status.fault = false
  doneAlone : ¬ (s.status.done = true ∧ s.status.fault = true)
  /-- R27 (d): CLR and SRST are never in flight. -/
  started : ∀ w, s.inflight = some w → w ≠ 0x00000001 ∧ w ≠ 0x00000002
  /-- R29: the reserved bits of IE are 0. -/
  ie : s.reg .ie &&& 6 = s.reg .ie
  /-- R30, R31: no fault, no cause. -/
  noCause : s.status.fault = false → s.reg .cause = 0 ∧ s.reg .finfo = 0
  /-- R30, R300: a fault has one of the codes 1 to 9, and bits 31 to 16 of CAUSE are 0. -/
  cause : s.status.fault = true →
    s.nat .cause < 0x10000 ∧ 1 ≤ s.nat .cause % 0x100 ∧ s.nat .cause % 0x100 ≤ 9
  /-- R35, R37: the ranges of the small result registers. -/
  hasAlpha : s.nat .hasAlpha ≤ 1
  isLandscape : s.nat .isLandscape ≤ 1
  lfield : s.nat .lfield ≤ 7
  hdr24 : s.nat .hdr24 < 2 ^ 24
  hdr16 : s.nat .hdr16 < 2 ^ 16
  hdrA : s.nat .hdrA < 2 ^ 8

/-- The planes are those of a valid image (R28: EPLANES). -/
def PlanesOfImage (s : State) : Prop :=
  1 ≤ s.nat .plW ∧ s.nat .plW ≤ 100 ∧ 1 ≤ s.nat .plH ∧ s.nat .plH ≤ 100

/-- The grid registers are the encoder's for the planes (R28: EGRID; R230). -/
def EncoderGrid (s : State) : Prop :=
  (∀ p ∈ gridRegs s.hasAlpha (encGrid (s.nat .plW) (s.nat .plH) s.hasAlpha).1
      (encGrid (s.nat .plW) (s.nat .plH) s.hasAlpha).2, s.reg p.1 = p.2) ∧
    s.landscape = decide (s.nat .plH < s.nat .plW) ∧
    s.nat .lx = (encL Config.tie (s.nat .plW) (s.nat .plH) s.hasAlpha).1 ∧
    s.nat .ly = (encL Config.tie (s.nat .plW) (s.nat .plH) s.hasAlpha).2 ∧
    s.nat .lfield = if s.landscape then s.nat .ly else s.nat .lx

/-- R38: without alpha DC_A = SC_A = 1.0. -/
def AlphaFixed (s : State) : Prop :=
  s.hasAlpha = false → s.reg (.dc .A) = 0x3F800000 ∧ s.reg (.sc .A) = 0x3F800000

/-- The header registers agree with the header words (R28: EHASH, DHDR; R37, R100, R101). -/
def HeaderAgrees (s : State) : Prop :=
  s.hasAlpha = (s.reg .hdr24).getLsbD 23 ∧ s.landscape = (s.reg .hdr16).getLsbD 15 ∧
    s.nat .lfield = s.nat .hdr16 % 8 ∧ s.nat .hdrLen = (if s.hasAlpha then 6 else 5) ∧
    (s.hasAlpha = false → s.reg .hdrA = 0)

/-- The grid and raster registers are the decoder's for the header (R28: DGRID; R235). -/
def DecoderGrid (s : State) : Prop := ∀ p ∈ decRegs s.hasAlpha s.landscape (s.nat .lfield), s.reg p.1 = p.2

/-- The planes are those of the output raster (R28: DPLANES). -/
def PlanesOfRaster (s : State) : Prop := s.reg .plW = s.reg .outW ∧ s.reg .plH = s.reg .outH

/-- R28: what STATUS.PHASE says is valid. -/
def PhaseInv (s : State) : Prop :=
  match s.status.phase with
  | .none => True
  | .ePlanes => PlanesOfImage s
  | .eGrid => PlanesOfImage s ∧ EncoderGrid s
  | .eCoef => PlanesOfImage s ∧ EncoderGrid s ∧ AlphaFixed s
  | .eHash => PlanesOfImage s ∧ EncoderGrid s ∧ AlphaFixed s ∧ HeaderAgrees s
  | .dHdr => HeaderAgrees s ∧ AlphaFixed s
  | .dGrid | .dCoef => HeaderAgrees s ∧ AlphaFixed s ∧ DecoderGrid s
  | .dPlanes | .dPix => HeaderAgrees s ∧ AlphaFixed s ∧ DecoderGrid s ∧ PlanesOfRaster s

end Sys2Proof.Machine
end

