-- ==== Sys2Proof/Certificates/Slice0/Obligations.lean ====
section
/-! DEFINITION. The statements for the provers. Each docstring names the rules of spec/ that its clauses are read from. -/

open Sys2Proof Sys2Proof.Machine

/-! ### Command words -/

/-- R91: a word with bits 31 to 8 zero selects the command whose opcode its low byte is, by the 17 rows of the opcode map;
and the decoder accepts no other word. -/
def Obligations.DecodeFollowsTheOpcodeMap : Prop :=
  ∀ (w : Word) (i : Instr), decode w = .ok i ↔
    (w.extractLsb' 8 24 = 0 ∧ ((w.extractLsb' 0 8).toNat, i) ∈
      ([(0x01, .clr), (0x02, .srst), (0x10, .ctFwd), (0x11, .gridEnc), (0x12, .dctFwd), (0x13, .pack),
        (0x20, .unpackHdr), (0x21, .gridDec), (0x22, .unpackAc), (0x23, .dctInv), (0x24, .ctInv),
        (0x30, .scanCnt), (0x31, .scanNth), (0x40, .encode), (0x41, .decode), (0x42, .avgColor),
        (0x43, .aspect)] : List (Nat × Instr)))

/-- R90, R91: decoding and encoding are inverse: every command word decodes to its command, and no other word does. -/
def Obligations.DecodeInvertsEncode : Prop :=
  ∀ (w : Word) (i : Instr), decode w = .ok i ↔ w = encode i

/-- R91, R92: words written out bit by bit. -/
def Obligations.WrittenOutWordsDecode : Prop :=
  decode 0b00000000000000000000000000000001 = .ok .clr ∧
    decode 0b00000000000000000000000000010010 = .ok .dctFwd ∧
    decode 0b00000000000000000000000000100100 = .ok .ctInv ∧
    decode 0b00000000000000000000000000110001 = .ok .scanNth ∧
    decode 0b00000000000000000000000001000000 = .ok .encode ∧
    decode 0b00000000000000000000000000000000 = .error .opcodeUnassigned ∧
    decode 0b00000000000000000000000101000000 = .error .reservedNotZero

/-! ### The CMD write and the completion step -/

/-- R27, R93: a step runs the decoded command. (1) The engine's turn with the word `w` in flight is `exec` of the command it
decodes to, on the state with that event used up; (3) a CMD write of CLR or SRST to the idle engine is `exec` of it in the
same step. Clauses (2) and (4) are the model's own choice (log entry 8), which gives the host's further accesses as a list of
events: (2) the step with no event left completes the running command too; (4) the word that `withFetchWord` places runs in
the very next step. -/
def Obligations.StepRunsDecodedCommand : Prop :=
  (∀ (s : State) (w : Word) (i : Instr) (rest : List Event), decode w = .ok i → s.inflight = some w →
      s.host = .engine :: rest →
      step s = exec i { s with host := rest, reply := .idle, draws := s.draws + 1 }) ∧
    (∀ (s : State) (w : Word) (i : Instr), decode w = .ok i → s.inflight = some w → s.host = [] →
      step s = exec i { s with reply := .idle, draws := s.draws + 1 }) ∧
    (∀ (s : State) (w : Word) (i : Instr) (rest : List Event), decode w = .ok i → (i = .clr ∨ i = .srst) →
      s.inflight = none → s.host = .access (.write 0x004 4 w) :: rest →
      step s = exec i { s with host := rest, reply := .written, draws := s.draws + 1 }) ∧
    (∀ (s : State) (i : Instr), step (s.withFetchWord 32 (encode i).toNat) =
      exec i
        (if i = .clr ∨ i = .srst then { s with inflight := none, reply := .written, draws := s.draws + 1 }
         else { s with
                inflight := some (encode i), status := { s.status with done := false, fault := false },
                reply := .idle, draws := s.draws + 1 }))

/-- R287: what a write to CMD does, row by row: while BUSY; CLR and SRST; any other word while FAULT; any other word while
idle, which starts; and then, at the engine's turn, an illegal word, a command out of phase, and a command in phase, which
succeeds or ends in a fault of its own: one of R300's nine codes (`Faulted` says so), but not E_SEQ and not E_ILLCMD. -/
def Obligations.CmdWriteByState : Prop :=
  (∀ (s : State) (w : Word) (rest : List Event), s.host = .access (.write 0x004 4 w) :: rest →
    let u : State := { s with host := rest, reply := .written, draws := s.draws + 1 }
    (s.inflight ≠ none → step s = .next { u with status := { u.status with ovr := true } }) ∧
    (s.inflight = none → w = 0x00000001 → step s = exec .clr u) ∧
    (s.inflight = none → w = 0x00000002 → step s = exec .srst u) ∧
    (s.inflight = none → w ≠ 0x00000001 → w ≠ 0x00000002 → s.status.fault = true →
      step s = .next { u with status := { u.status with ovr := true } }) ∧
    (s.inflight = none → w ≠ 0x00000001 → w ≠ 0x00000002 → s.status.fault = false →
      step s = .next { u with inflight := some w, status := { u.status with done := false } })) ∧
  (∀ (s : State) (w : Word) (rest : List Event), s.host = .engine :: rest → s.inflight = some w →
    w ≠ 0x00000001 → w ≠ 0x00000002 → s.status.done = false → s.status.fault = false →
    let u : State := { s with host := rest, reply := .idle, draws := s.draws + 1 }
    ∃ t, step s = .next t ∧
      (∀ e, decode w = .error e → Faulted u t (w.extractLsb' 0 8) 8 w) ∧
      (∀ i, decode w = .ok i → accepts i s.status.phase = false →
        Faulted u t i.opcode 7 (s.status.phase.code.setWidth 32)) ∧
      (∀ i, decode w = .ok i → accepts i s.status.phase = true → t.inflight = none ∧
        ((t.status.done = true ∧ t.status.fault = false) ∨
          ∃ code info, code ≠ 7 ∧ code ≠ 8 ∧ Faulted u t i.opcode code info)))

/-- R92: writing a word that is none of the 17 to CMD while the engine is idle and FAULT = 0 starts a command that ends as
E_ILLCMD, with FINFO the word and OP its low byte, and changes nothing else. -/
def Obligations.IllegalWordFaults : Prop :=
  ∀ (s : State) (w : Word) (rest : List Event),
    (w.extractLsb' 8 24 ≠ 0 ∨
      (w.extractLsb' 0 8).toNat ∉ [0x01, 0x02, 0x10, 0x11, 0x12, 0x13, 0x20, 0x21, 0x22, 0x23, 0x24, 0x30, 0x31,
        0x40, 0x41, 0x42, 0x43]) →
    s.inflight = none → s.status.fault = false → s.host = .access (.write 0x004 4 w) :: .engine :: rest →
    ∃ u t, step s = .next u ∧ u.inflight = some w ∧ step u = .next t ∧
      Faulted { s with
                status := { s.status with done := false }, host := rest, reply := .idle, draws := s.draws + 2 }
        t (w.extractLsb' 0 8) 8 w

/-- R352, R72: every started command completes: with any accesses of the window before the engine's turn, that turn ends it,
with success or a fault, and the accesses changed no register, no byte of a memory and not PHASE. -/
def Obligations.StartedCommandCompletes : Prop :=
  ∀ (s : State) (w : Word) (accesses : List HostAccess) (rest : List Event),
    s.inflight = some w → w ≠ 0x00000001 → w ≠ 0x00000002 → s.status.done = false → s.status.fault = false →
    (∀ a ∈ accesses, match a with
      | .read off _ => off < 0x80000
      | .write off _ _ => off < 0x80000) →
    s.host = accesses.map .access ++ .engine :: rest →
    ∃ u t, run accesses.length s = some u ∧ step u = .next t ∧
      u.regs = s.regs ∧ u.mem = s.mem ∧ u.inflight = some w ∧ u.status.phase = s.status.phase ∧
      t.inflight = none ∧ t.host = rest ∧
      ((t.status.done = true ∧ t.status.fault = false) ∨ (t.status.done = false ∧ t.status.fault = true))

/-- R27 (b), R300, R304: the completion step of a started command is a success, which sets DONE and clears BUSY, or one of
the faults that R300 lists for the command, which changes nothing but BUSY, FAULT, CAUSE and FINFO. -/
def Obligations.CompletionIsSuccessOrFault : Prop :=
  ∀ (i : Instr) (s : State), i ≠ .clr → i ≠ .srst → ∃ t, exec i s = .next t ∧
    ((t.inflight = none ∧ t.status.done = true ∧ t.status.fault = s.status.fault ∧ t.status.ovr = s.status.ovr) ∨
      ∃ code info, Faulted s t i.opcode code info ∧ (code, i) ∈
        ([(1, .ctFwd), (1, .encode), (2, .ctFwd), (2, .encode), (3, .pack), (3, .encode), (4, .unpackHdr), (4, .decode),
          (4, .avgColor), (4, .aspect), (5, .ctInv), (5, .decode), (6, .unpackAc), (6, .decode), (7, .gridEnc),
          (7, .dctFwd), (7, .pack), (7, .gridDec), (7, .unpackAc), (7, .dctInv), (7, .ctInv), (9, .scanCnt),
          (9, .scanNth)] : List (Nat × Instr)))

/-- R308: the phase table: in a phase that is not `ok` the command ends as E_SEQ with FINFO the phase; in one that is, it
succeeds, and PHASE is the last column (none: unchanged), or ends in one of R300's nine faults (`Faulted` says so) other than
E_SEQ. -/
def Obligations.PhaseTable : Prop :=
  ∀ row ∈ ([(.clr, [0, 1, 2, 3, 4, 5, 6, 7, 8, 9], none), (.srst, [0, 1, 2, 3, 4, 5, 6, 7, 8, 9], some 0),
      (.ctFwd, [0, 1, 2, 3, 4, 5, 6, 7, 8, 9], some 1), (.gridEnc, [1, 2, 3, 4], some 2), (.dctFwd, [2, 3, 4], some 3),
      (.pack, [3, 4], some 4), (.unpackHdr, [0, 1, 2, 3, 4, 5, 6, 7, 8, 9], some 5),
      (.gridDec, [5, 6, 7, 8, 9], some 6), (.unpackAc, [6, 7, 8, 9], some 7), (.dctInv, [7, 8, 9], some 8),
      (.ctInv, [8, 9], some 9), (.scanCnt, [0, 1, 2, 3, 4, 5, 6, 7, 8, 9], none),
      (.scanNth, [0, 1, 2, 3, 4, 5, 6, 7, 8, 9], none), (.encode, [0, 1, 2, 3, 4, 5, 6, 7, 8, 9], some 4),
      (.decode, [0, 1, 2, 3, 4, 5, 6, 7, 8, 9], some 9), (.avgColor, [0, 1, 2, 3, 4, 5, 6, 7, 8, 9], none),
      (.aspect, [0, 1, 2, 3, 4, 5, 6, 7, 8, 9], none)] : List (Instr × List Nat × Option Nat)),
    ∀ s : State, s.status.done = false → s.status.fault = false →
      let p := s.status.phase.code.toNat
      ∃ t, exec row.1 s = .next t ∧
        (p ∉ row.2.1 → Faulted s t row.1.opcode 7 (BitVec.ofNat 32 p)) ∧
        (p ∈ row.2.1 →
          (t.status.fault = false ∧ t.status.phase.code.toNat = row.2.2.getD p) ∨
            ∃ code info, code ≠ 7 ∧ Faulted s t row.1.opcode code info)

/-- R49: on success a started command changes no register and no byte but those of its row of the
writers table, and of STATUS only BUSY, DONE and PHASE; CLR changes CAUSE, FINFO and STATUS only. -/
def Obligations.CommandsWriteOnlyTheirRow : Prop :=
  ∀ (i : Instr) (s t : State), i ≠ .srst → PhaseInv s → exec i s = .next t → t.status.done = true ∨ i = .clr →
    s.status.done = false → s.status.fault = false →
    (∀ r, r ∉ writesOf i → t.reg r = s.reg r) ∧
      (∀ a, ¬ storesOf i t a → t.mem.read a = s.mem.read a) ∧
      t.host = s.host ∧ t.reply = s.reply ∧ t.draws = s.draws ∧ t.resets = s.resets ∧ t.status.fault = false ∧
      (i ≠ .clr → t.status.ovr = s.status.ovr)

/-! ### Faults, by command -/

/-- R163: the image operands are tested in this order, by CT.FWD and by ENCODE: IMG_W, IMG_H, PIXIN_LEN. -/
def Obligations.ImageOperandFaults : Prop :=
  ∀ (i : Instr) (s : State), i = .ctFwd ∨ i = .encode →
    (s.nat .imgW < 1 ∨ 100 < s.nat .imgW → ∃ t, exec i s = .next t ∧ Faulted s t i.opcode 1 0x020) ∧
    (1 ≤ s.nat .imgW → s.nat .imgW ≤ 100 → s.nat .imgH < 1 ∨ 100 < s.nat .imgH →
      ∃ t, exec i s = .next t ∧ Faulted s t i.opcode 1 0x024) ∧
    (1 ≤ s.nat .imgW → s.nat .imgW ≤ 100 → 1 ≤ s.nat .imgH → s.nat .imgH ≤ 100 →
      s.nat .pixinLen ≠ 4 * s.nat .imgW * s.nat .imgH →
      ∃ t, exec i s = .next t ∧ Faulted s t i.opcode 2 (BitVec.ofNat 32 (4 * s.nat .imgW * s.nat .imgH)))

/-- R200, R251: a capacity below the hash's length: PACK tests REQ_LEN, ENCODE the length its hash will have, after the image
operands; HASH_CAP between 5 and that length faults too. -/
def Obligations.HashCapacityFaults : Prop :=
  (∀ s : State, s.status.phase = .eCoef ∨ s.status.phase = .eHash → s.nat .hashCap < s.nat .reqLen →
      ∃ t, exec .pack s = .next t ∧ Faulted s t 0x13 3 (s.reg .reqLen)) ∧
    ∀ (s : State) (ha : Bool), ImageValid s →
      (ha = true ↔ ∃ i < s.nat .imgW * s.nat .imgH, (s.pixin (4 * i + 3)).toNat < 255) →
      s.nat .hashCap < encRequiredLength (s.nat .imgW) (s.nat .imgH) ha →
      ∃ t, exec .encode s = .next t ∧
        Faulted s t 0x40 3 (BitVec.ofNat 32 (encRequiredLength (s.nat .imgW) (s.nat .imgH) ha))

/-- R210, R256, R270, R303: a hash without its header: below 5 bytes every header command faults whatever HASH holds; at
exactly 5 bytes with header bit 23 set those that read byte 5 fault with 6. -/
def Obligations.HeaderLengthFaults : Prop :=
  (∀ (i : Instr) (s : State), i = .unpackHdr ∨ i = .decode ∨ i = .avgColor ∨ i = .aspect → s.nat .hashLen < 5 →
      ∃ t, exec i s = .next t ∧ Faulted s t i.opcode 4 5) ∧
    ∀ (i : Instr) (s : State), i = .unpackHdr ∨ i = .decode ∨ i = .avgColor → s.nat .hashLen = 5 →
      (s.hash 2).getLsbD 7 = true → ∃ t, exec i s = .next t ∧ Faulted s t i.opcode 4 6

/-- R256: after the header tests DECODE tests PIXOUT_CAP and then HASH_LEN, against what GRID.DEC computes from the header
bits. -/
def Obligations.DecodeCapacityFaults : Prop :=
  ∀ s : State, HeaderPresent s →
    let ha := (s.hash 2).getLsbD 7
    let land := (s.hash 4).getLsbD 7
    let f := (s.hash 3).toNat % 8
    (s.nat .pixoutCap < decPixoutLen ha land f →
      ∃ t, exec .decode s = .next t ∧ Faulted s t 0x41 5 (BitVec.ofNat 32 (decPixoutLen ha land f))) ∧
    (decPixoutLen ha land f ≤ s.nat .pixoutCap → s.nat .hashLen < decRequiredLength ha land f →
      ∃ t, exec .decode s = .next t ∧ Faulted s t 0x41 6 (BitVec.ofNat 32 (decRequiredLength ha land f)))

/-- R170, R215: the tests of CT.INV and UNPACK.AC in the phases that accept them. -/
def Obligations.UnitLengthFaults : Prop :=
  (∀ s : State, s.status.phase = .dPlanes ∨ s.status.phase = .dPix → s.nat .pixoutCap < s.nat .pixoutLen →
      ∃ t, exec .ctInv s = .next t ∧ Faulted s t 0x24 5 (s.reg .pixoutLen)) ∧
    ∀ s : State, s.status.phase = .dGrid ∨ s.status.phase = .dCoef ∨ s.status.phase = .dPlanes ∨ s.status.phase = .dPix →
      s.nat .hashLen < s.nat .reqLen → ∃ t, exec .unpackAc s = .next t ∧ Faulted s t 0x22 6 (s.reg .reqLen)

/-! ### The slave interface -/

/-- R63, R65, R66: registers, COEF and PLANE take aligned 32-bit accesses only, every other offset of the window 8-bit ones
too; any other access is refused with a bus error and changes nothing, not even OVR; an accepted one gets no bus error. -/
def Obligations.RefusedAccessesChangeNothing : Prop :=
  ∀ (s : State) (a : HostAccess) (off width : Nat) (rest : List Event),
    (a = .read off width ∨ ∃ v, a = .write off width v) → off < 0x80000 → s.host = .access a :: rest →
    let wordOnly := off < 0x200 ∨ (0x400 ≤ off ∧ off < 0x600) ∨ (0x40000 ≤ off ∧ off % 0x10000 < 0x9C40)
    let accepted := (width = 4 ∧ off % 4 = 0) ∨ (width = 1 ∧ ¬ wordOnly)
    (¬ accepted → step s = .next { s with host := rest, reply := .busError, draws := s.draws + 1 }) ∧
      (accepted → ∃ t, step s = .next t ∧ t.reply ≠ .busError)

/-- R62, R67: no read has a side effect: it leaves every register, byte and STATUS bit, busy or not; and every location is
idempotent to read: while BUSY = 0 a second read of it gets the same answer, also where nothing has been written since reset. -/
def Obligations.ReadsChangeNothing : Prop :=
  (∀ (s : State) (off width : Nat) (rest : List Event), off < 0x80000 → s.host = .access (.read off width) :: rest →
    ∃ r, step s = .next { s with host := rest, reply := r, draws := s.draws + 1 } ∧ r ≠ .written ∧ r ≠ .idle) ∧
    ∀ (s : State) (off width : Nat) (rest : List Event), s.inflight = none → off < 0x80000 →
      s.host = .access (.read off width) :: .access (.read off width) :: rest →
      ∃ t u, step s = .next t ∧ step t = .next u ∧ u.reply = t.reply

/-- R23 to R43, R62, R66: what an accepted read returns while BUSY = 0: each register of the map at its offset, 0 at a
reserved offset or a hole and for CMD, a byte zero-extended, four bytes or a cell little-endian; a byte and a word read of
one byte agree, also where nothing has been written since reset. -/
def Obligations.IdleReadsReturnTheState : Prop :=
  ∀ (s : State) (off : Nat) (rest : List Event), s.inflight = none →
    (s.host = .access (.read off 4) :: rest → off % 4 = 0 →
      (∀ r, (off, r) ∈ controlOffsets ++ gridOffsets ++ floatOffsets →
        step s = .next { s with host := rest, reply := .data (s.reg r), draws := s.draws + 1 }) ∧
      (off = 0x000 → step s = .next { s with host := rest, reply := .data 0x54480100, draws := s.draws + 1 }) ∧
      (off = 0x008 → ∃ v, step s = .next { s with host := rest, reply := .data v, draws := s.draws + 1 } ∧
        v.toNat = (if s.status.done then 2 else 0) + (if s.status.fault then 4 else 0) + (if s.status.ovr then 8 else 0) +
          256 * s.status.phase.code.toNat) ∧
      (off = 0x004 ∨ (0x018 ≤ off ∧ off < 0x020) ∨ (0x044 ≤ off ∧ off < 0x050) ∨ off = 0x0BC ∨
          (0x11C ≤ off ∧ off < 0x200) ∨ (0x220 ≤ off ∧ off < 0x400) ∨ (0x600 ≤ off ∧ off < 0x2000) ∨
          (0x4000 ≤ off ∧ off < 0x10000) ∨ (0x19C40 ≤ off ∧ off < 0x40000) ∨
          (0x40000 ≤ off ∧ off < 0x80000 ∧ 0x9C40 ≤ off % 0x10000) →
        step s = .next { s with host := rest, reply := .data 0, draws := s.draws + 1 }) ∧
      (mappedByte off = true → ∃ v, step s = .next { s with host := rest, reply := .data v, draws := s.draws + 1 } ∧
        (∀ k < 4, v.extractLsb' (8 * k) 8 = s.byteAt (off + k)) ∧
        ∀ k < 4, ∀ b, s.mem.read (off + k) = some b → v.extractLsb' (8 * k) 8 = b)) ∧
    (s.host = .access (.read off 1) :: rest →
      (∀ b, ((0x200 ≤ off ∧ off < 0x220) ∨ (0x2000 ≤ off ∧ off < 0x4000) ∨ (0x10000 ≤ off ∧ off < 0x19C40)) →
        s.mem.read off = some b →
        step s = .next { s with host := rest, reply := .data (b.setWidth 32), draws := s.draws + 1 }) ∧
      (((0x200 ≤ off ∧ off < 0x220) ∨ (0x2000 ≤ off ∧ off < 0x4000) ∨ (0x10000 ≤ off ∧ off < 0x19C40)) →
        step s = .next { s with host := rest, reply := .data ((s.byteAt off).setWidth 32), draws := s.draws + 1 }) ∧
      ((0x220 ≤ off ∧ off < 0x400) ∨ (0x600 ≤ off ∧ off < 0x2000) ∨ (0x4000 ≤ off ∧ off < 0x10000) ∨
          (0x19C40 ≤ off ∧ off < 0x40000) ∨ (0x40000 ≤ off ∧ off < 0x80000 ∧ 0x9C40 ≤ off % 0x10000) →
        step s = .next { s with host := rest, reply := .data 0, draws := s.draws + 1 }))

/-- R23, R29, R64, R66: an accepted write while BUSY = 0 to anything but CMD and the byte memories: an RW register is
replaced (of IE only bits 1 and 2 are kept); every other register and offset below 0x200, COEF, PLANE and the holes, also by
8-bit accesses, ignore it; OVR is not set. -/
def Obligations.RegisterWrites : Prop :=
  ∀ (s : State) (off width : Nat) (v : Word) (rest : List Event), s.inflight = none → off < 0x80000 → off ≠ 0x004 →
    ¬ (0x200 ≤ off ∧ off < 0x220) → ¬ (0x2000 ≤ off ∧ off < 0x4000) → ¬ (0x10000 ≤ off ∧ off < 0x19C40) →
    (width = 4 ∧ off % 4 = 0) ∨
      (width = 1 ∧ ((0x220 ≤ off ∧ off < 0x400) ∨ (0x600 ≤ off ∧ off < 0x2000) ∨ (0x4000 ≤ off ∧ off < 0x10000) ∨
        (0x19C40 ≤ off ∧ off < 0x40000) ∨ (0x40000 ≤ off ∧ 0x9C40 ≤ off % 0x10000))) →
    s.host = .access (.write off width v) :: rest →
    ∃ t, step s = .next t ∧ t.status = s.status ∧ t.inflight = none ∧ t.mem = s.mem ∧ t.host = rest ∧
      t.reply = .written ∧
      ∀ r, t.reg r =
        if (off, r) ∈ ([(0x00C, .ie), (0x020, .imgW), (0x024, .imgH), (0x028, .pixinLen), (0x02C, .hashCap),
            (0x030, .hashLen), (0x034, .pixoutCap), (0x038, .scanNx), (0x03C, .scanNy), (0x040, .scanIdx)] :
              List (Nat × Reg)) then
          (if r = .ie then v &&& 0x00000006 else v)
        else s.reg r

/-- R61 (b), R62, R64: a byte or an aligned word that the host writes to HASH, PIXOUT or PIXIN while idle reads back in the
next access, each byte of a word at its own offset, the lowest the least significant; nothing else changes. -/
def Obligations.BufferReadAfterWrite : Prop :=
  ∀ (s : State) (off width : Nat) (v : Word) (rest : List Event), s.inflight = none →
    (0x200 ≤ off ∧ off < 0x220) ∨ (0x2000 ≤ off ∧ off < 0x4000) ∨ (0x10000 ≤ off ∧ off < 0x19C40) →
    width = 1 ∨ (width = 4 ∧ off % 4 = 0) →
    s.host = .access (.write off width v) :: .access (.read off width) :: rest →
    ∃ t u, step s = .next t ∧ step t = .next u ∧
      u.reply = .data (if width = 1 then v &&& 0x000000FF else v) ∧
      (∀ k < width, t.mem.read (off + k) = some (v.extractLsb' (8 * k) 8)) ∧
      (∀ a, a < off ∨ off + width ≤ a → t.mem.read a = s.mem.read a) ∧
      t.regs = s.regs ∧ t.status = s.status ∧ t.inflight = none ∧ t.reply = .written ∧
      u.mem = t.mem ∧ u.regs = t.regs ∧ u.status = t.status

/-- R27 (c), R72, R345: while BUSY = 1 an accepted write is ignored and sets OVR; reads of STATUS, ID and IE have their
values, STATUS with BUSY = 1; any other accepted read returns some value. That "anything" of R72 takes in read-only and
reserved offsets and the holes is the model's reading (log entry 11); what such reads return is log entry 10. -/
def Obligations.AccessesWhileBusy : Prop :=
  ∀ (s : State) (w : Word) (off width : Nat) (rest : List Event), s.inflight = some w → off < 0x80000 →
    acceptedAccess off width = true →
    (∀ v, s.host = .access (.write off width v) :: rest →
      step s = .next { s with
        host := rest, reply := .written, draws := s.draws + 1, status := { s.status with ovr := true } }) ∧
    (s.host = .access (.read off width) :: rest →
      ∃ v, step s = .next { s with host := rest, reply := .data v, draws := s.draws + 1 } ∧
        (off = 0x000 → v = 0x54480100) ∧ (off = 0x00C → v = s.reg .ie) ∧
        (off = 0x008 → v.toNat = 1 + (if s.status.done then 2 else 0) + (if s.status.fault then 4 else 0) +
          (if s.status.ovr then 8 else 0) + 256 * s.status.phase.code.toNat) ∧
        (width = 1 → v.toNat < 256))

/-- The model's own choice (log entry 13), after R66's last sentence: the machine stops only at an access at an offset at or
beyond 0x80000, which is not the engine's; it refuses nothing. -/
def Obligations.OnlyAccessesOutsideTheWindowStop : Prop :=
  ∀ s : State, (∀ r, step s ≠ .refused r) ∧
    (∀ f, step s = .fault f ↔
      ∃ a off rest, s.host = .access a :: rest ∧ f = .outsideWindow off ∧ 0x80000 ≤ off ∧
        ((∃ width, a = .read off width) ∨ ∃ width v, a = .write off width v))

/-! ### Reset, the interrupt line, whole-machine rules -/

/-- R43, R48: after reset a read of each register offset returns the reset value of the map: ID its constant, HASH_CAP 32,
PIXOUT_CAP 8192, every other register and every reserved offset 0. -/
def Obligations.RegistersReadTheirResetValues : Prop :=
  ∀ k < 128, ∃ t, step { State.reset with host := [.access (.read (4 * k) 4)] } = .next t ∧
    t.reply = .data (if 4 * k = 0x000 then 0x54480100 else if 4 * k = 0x02C then 32 else if 4 * k = 0x034 then 8192 else 0)

/-- R340: the reset input, at any moment, also under a running command: every register at its reset value, no command in
flight, no fault record, `irq` 0, and every byte of the memories unspecified: a free value of its own for every reset (log
entry 6). -/
def Obligations.ResetInput : Prop :=
  ∀ (s : State) (rest : List Event), s.host = .reset :: rest →
    ∃ t, step s = .next t ∧ t.inflight = none ∧
      t.status = { done := false, fault := false, ovr := false, phase := .none } ∧
      (∀ r, t.reg r = if r = .hashCap then 32 else if r = .pixoutCap then 8192 else 0) ∧
      (∀ a, t.mem.read a = none ∧ t.byteAt a = Config.unwrittenByte t.resets a) ∧ t.resets = s.resets + 1 ∧
      t.irq = false ∧ t.host = rest

/-- R310: `irq` is (DONE and DONE_IE) or (FAULT and FAULT_IE); with IE = 0 it is 0; it falls with CLR, with SRST, when
another command starts, and when the enable bit is cleared: after a write to IE it is what the new enable bits say. -/
def Obligations.InterruptLine : Prop :=
  (∀ s : State, s.irq = ((s.statusWord.getLsbD 1 && (s.reg .ie).getLsbD 1) ||
      (s.statusWord.getLsbD 2 && (s.reg .ie).getLsbD 2))) ∧
    (∀ s : State, s.reg .ie = 0 → s.irq = false) ∧
    (∀ s t : State, exec .clr s = .next t ∨ exec .srst s = .next t → t.irq = false) ∧
    ∀ (s t : State) (off : Nat) (v : Word) (rest : List Event), s.inflight = none →
      s.host = .access (.write off 4 v) :: rest → step s = .next t →
      (off = 0x004 → s.status.fault = false → v ≠ 0x00000001 → v ≠ 0x00000002 → t.irq = false) ∧
        (off = 0x00C → t.irq = ((s.status.done && v.getLsbD 1) || (s.status.fault && v.getLsbD 2))) ∧
        (off = 0x00C → (s.status.done = true → v.getLsbD 1 = false) → (s.status.fault = true → v.getLsbD 2 = false) →
          t.irq = false)

/-- R305: FAULT is cleared only by a CMD write of CLR or SRST to the idle engine, or by reset. -/
def Obligations.OnlyClearAndResetEndAFault : Prop :=
  ∀ s t : State, Inv s → step s = .next t → s.status.fault = true → t.status.fault = false →
    (∃ rest, s.host = .access (.write 0x004 4 0x00000001) :: rest) ∨
      (∃ rest, s.host = .access (.write 0x004 4 0x00000002) :: rest) ∨ ∃ rest, s.host = .reset :: rest

/-- R28: PHASE is changed only by the successful completion of one of the eleven commands that set it, to the code the rule
names, by SRST and by reset. -/
def Obligations.OnlySuccessesChangeThePhase : Prop :=
  ∀ s t : State, Inv s → step s = .next t → t.status.phase ≠ s.status.phase →
    (∃ w i, s.inflight = some w ∧ decode w = .ok i ∧ t.inflight = none ∧ t.status.done = true ∧
        (i, t.status.phase) ∈ ([(.ctFwd, .ePlanes), (.gridEnc, .eGrid), (.dctFwd, .eCoef), (.pack, .eHash),
          (.encode, .eHash), (.unpackHdr, .dHdr), (.gridDec, .dGrid), (.unpackAc, .dCoef), (.dctInv, .dPlanes),
          (.ctInv, .dPix), (.decode, .dPix)] : List (Instr × Phase))) ∨
      (t.status.phase = .none ∧
        ((∃ rest, s.host = .access (.write 0x004 4 0x00000002) :: rest) ∨ ∃ rest, s.host = .reset :: rest))

/-- R48, R340: the state after reset meets both invariants. -/
def Obligations.ResetMeetsTheInvariants : Prop := Inv State.reset ∧ PhaseInv State.reset

/-- R26, R29 to R31, R35, R37 and the canonical form of the memories: every step keeps `Inv`. -/
def Obligations.StepKeepsInv : Prop := ∀ s t : State, Inv s → step s = .next t → Inv t

/-- R28: every step keeps what STATUS.PHASE says of the registers. -/
def Obligations.StepKeepsPhaseInv : Prop := ∀ s t : State, PhaseInv s → step s = .next t → PhaseInv t

/-! ### Commands: completion, result and frame -/

/-- R281: CLR clears DONE, FAULT, OVR, CAUSE and FINFO and changes nothing else; so after a fault it leaves the engine as it
was before the faulting command was written, with DONE and OVR 0. -/
def Obligations.ClrAcknowledges : Prop :=
  (∀ s : State, ∃ t, exec .clr s = .next t ∧
      t.status = { done := false, fault := false, ovr := false, phase := s.status.phase } ∧
      (∀ r, t.reg r = if r = .cause ∨ r = .finfo then 0 else s.reg r) ∧ t.mem = s.mem ∧ t.inflight = s.inflight ∧
      t.host = s.host ∧ t.reply = s.reply ∧ t.draws = s.draws ∧ t.resets = s.resets) ∧
    ∀ (i : Instr) (s t : State) (w : Word), i ≠ .clr → i ≠ .srst → s.inflight = none → s.status.fault = false →
      s.reg .cause = 0 → s.reg .finfo = 0 → exec i (s.start w) = .next t → t.status.fault = true →
      exec .clr t = .next { s with status := { s.status with done := false, ovr := false } }

/-- R282: SRST gives every register its reset value, STATUS 0, and leaves the memories as they are. -/
def Obligations.SrstResetsRegisters : Prop :=
  ∀ s : State, ∃ t, exec .srst s = .next t ∧ t.inflight = none ∧
    t.status = { done := false, fault := false, ovr := false, phase := .none } ∧
    (∀ r, t.reg r = State.reset.reg r) ∧
    (∀ r, t.reg r = if r = .hashCap then 32 else if r = .pixoutCap then 8192 else 0) ∧
    t.mem = s.mem ∧ t.host = s.host ∧ t.reply = s.reply ∧ t.draws = s.draws ∧ t.resets = s.resets

/-- R160, R164 to R166: CT.FWD on a valid image, in any phase: the sums in row-major order, the average, HAS_ALPHA, the four
planes by the written formulas, and nothing else. -/
def Obligations.CtFwdCompletes : Prop :=
  ∀ s : State, ImageValid s →
    let n := s.nat .imgW * s.nat .imgH
    let alpha := fun i => num.fdiv (num.i2f (s.pixin (4 * i + 3)).toNat) (num.lit 255 1)
    let pm := fun k i => num.fdiv (num.fmul (num.i2f (s.pixin (4 * i + k)).toNat) (alpha i)) (num.lit 255 1)
    let sum := fun (f : Nat → Word) => (List.range n).foldl (fun acc i => num.fadd acc (f i)) 0x00000000
    let sa := sum alpha
    let bg := fun k => if num.fgt sa 0x00000000 = true then num.fdiv (sum (pm k)) sa else 0x00000000
    let rgb := fun k i => num.fadd (num.fmul (bg k) (num.fsub (num.lit 1 1) (alpha i))) (pm k i)
    ∃ t, exec .ctFwd s = .next t ∧ Completed s t .ePlanes ctFwdWrites (planeBytes n) ∧
      t.reg .plW = s.reg .imgW ∧ t.reg .plH = s.reg .imgH ∧
      t.reg .bgR = bg 0 ∧ t.reg .bgG = bg 1 ∧ t.reg .bgB = bg 2 ∧ t.reg .alphaSum = sa ∧
      ((∃ i < n, (s.pixin (4 * i + 3)).toNat < 255) → t.reg .hasAlpha = 1) ∧
      ((∀ i < n, (s.pixin (4 * i + 3)).toNat = 255) → t.reg .hasAlpha = 0) ∧
      ∀ i < n,
        t.plane .L i = num.fdiv (num.fadd (num.fadd (rgb 0 i) (rgb 1 i)) (rgb 2 i)) (num.lit 3 1) ∧
        t.plane .P i = num.fsub (num.fdiv (num.fadd (rgb 0 i) (rgb 1 i)) (num.lit 2 1)) (rgb 2 i) ∧
        t.plane .Q i = num.fsub (rgb 0 i) (rgb 1 i) ∧ t.plane .A i = alpha i

/-- R230 to R232: GRID.ENC in phases 1 to 4: lx and ly are the rounded shares of the limit, at least 1; the luminance grid
raises them to 3; the counts, lengths and LFIELD follow. -/
def Obligations.GridEncCompletes : Prop :=
  ∀ s : State, s.status.phase = .ePlanes ∨ s.status.phase = .eGrid ∨ s.status.phase = .eCoef ∨ s.status.phase = .eHash →
    let w := s.nat .plW
    let h := s.nat .plH
    let ha := s.hasAlpha
    let limit := if ha = true then 5 else 7
    let lx := max (rndRatio Config.tie (limit * w) (max w h)) 1
    let ly := max (rndRatio Config.tie (limit * h) (max w h)) 1
    let nacL := (scan (max lx 3) (max ly 3)).length
    let total := nacL + 10 + (if ha = true then 14 else 0)
    let hdr := if ha = true then 6 else 5
    ∃ t, exec .gridEnc s = .next t ∧ Completed s t .eGrid gridEncWrites noBytes ∧
      t.nat .lx = lx ∧ t.nat .ly = ly ∧ t.nat .isLandscape = (if h < w then 1 else 0) ∧
      t.nat .lfield = (if h < w then ly else lx) ∧ t.nat (.nx .L) = max lx 3 ∧ t.nat (.ny .L) = max ly 3 ∧
      t.nat (.nx .P) = 3 ∧ t.nat (.ny .P) = 3 ∧ t.nat (.nx .Q) = 3 ∧ t.nat (.ny .Q) = 3 ∧
      t.nat (.nx .A) = (if ha = true then 5 else 0) ∧ t.nat (.ny .A) = (if ha = true then 5 else 0) ∧
      t.nat (.nac .L) = nacL ∧ t.nat (.nac .P) = 5 ∧ t.nat (.nac .Q) = 5 ∧
      t.nat (.nac .A) = (if ha = true then 14 else 0) ∧ t.nat .nacTotal = total ∧ t.nat .hdrLen = hdr ∧
      t.nat .reqLen = hdr + (total + 1) / 2

/-- R182, R183, R142, R143: DCT.FWD in phases 2 to 4, for every channel present: DC_c is the term F(0, 0), SC_c the largest
magnitude of the raw terms of the scan list, and COEF[c][j] is 0.5 + 0.5*raw/scale, or the raw term where the scale is 0;
without alpha A is fixed at dc = 1, scale = 1 and no COEF[3] cell is written. -/
def Obligations.DctFwdCompletes : Prop :=
  ∀ s : State, s.status.phase = .eGrid ∨ s.status.phase = .eCoef ∨ s.status.phase = .eHash → PhaseInv s →
    let w := s.nat .plW
    let h := s.nat .plH
    let cosAt := fun n freq pos => num.cosf (num.fmul (num.fmul (num.fdiv num.pi (num.i2f n)) (num.i2f freq))
      (num.fadd (num.i2f pos) (num.lit 1 2)))
    let term := fun c cx cy => num.fmul (num.fdiv (num.lit 1 1) (num.i2f (w * h)))
      ((List.range h).foldl (fun sum y => (List.range w).foldl (fun sum x =>
        num.fadd sum (num.fmul (num.fmul (s.plane c (y * w + x)) (cosAt w cx x)) (cosAt h cy y))) sum) 0x00000000)
    ∃ t, exec .dctFwd s = .next t ∧ Completed s t .eCoef channelWrites (coefBytes s) ∧
      (∀ c ∈ channels s.hasAlpha,
        let list := scan (s.nat (.nx c)) (s.nat (.ny c))
        let raw := fun j => term c (list.getD j (0, 0)).1 (list.getD j (0, 0)).2
        let scale := t.reg (.sc c)
        list.length = s.nat (.nac c) ∧ t.reg (.dc c) = term c 0 0 ∧
          (∀ j < s.nat (.nac c), num.fgt (num.fabs (raw j)) scale = false) ∧
          (scale = 0x00000000 ∨ ∃ j < s.nat (.nac c), scale = num.fabs (raw j)) ∧
          ∀ j < s.nat (.nac c), t.coef c j =
            if num.fgt scale 0x00000000 = true then
              num.fadd (num.lit 1 2) (num.fdiv (num.fmul (num.lit 1 2) (raw j)) scale)
            else raw j) ∧
      (s.hasAlpha = false → t.reg (.dc .A) = 0x3F800000 ∧ t.reg (.sc .A) = 0x3F800000)

/-- R200, R202, R204: PACK in phases 3 and 4 with enough capacity: the header words are the quantised fields at their
places, HASH holds them byte by byte and then the quantised coefficients of all channels, nibble after nibble; a last odd
nibble leaves 0 above it; HASH_LEN, NIBCUR and nothing else. -/
def Obligations.PackCompletes : Prop :=
  ∀ s : State, s.status.phase = .eCoef ∨ s.status.phase = .eHash → PhaseInv s → s.nat .reqLen ≤ s.nat .hashCap →
    let h24 := (num.quant 6 (num.fmul (num.lit 63 1) (s.reg (.dc .L)))).toNat +
      2 ^ 6 * (num.quant 6 (num.fadd (num.lit 63 2) (num.fmul (num.lit 63 2) (s.reg (.dc .P))))).toNat +
      2 ^ 12 * (num.quant 6 (num.fadd (num.lit 63 2) (num.fmul (num.lit 63 2) (s.reg (.dc .Q))))).toNat +
      2 ^ 18 * (num.quant 5 (num.fmul (num.lit 31 1) (s.reg (.sc .L)))).toNat + (if s.hasAlpha = true then 2 ^ 23 else 0)
    let h16 := s.nat .lfield + 2 ^ 3 * (num.quant 6 (num.fmul (num.lit 63 1) (s.reg (.sc .P)))).toNat +
      2 ^ 9 * (num.quant 6 (num.fmul (num.lit 63 1) (s.reg (.sc .Q)))).toNat + (if s.landscape = true then 2 ^ 15 else 0)
    let hA := if s.hasAlpha = true then (num.quant 4 (num.fmul (num.lit 15 1) (s.reg (.dc .A)))).toNat +
      2 ^ 4 * (num.quant 4 (num.fmul (num.lit 15 1) (s.reg (.sc .A)))).toNat else 0
    ∃ t, exec .pack s = .next t ∧ Completed s t .eHash packWrites (bytesFrom hashBase (s.nat .reqLen)) ∧
      t.nat .hdr24 = h24 ∧ t.nat .hdr16 = h16 ∧ t.nat .hdrA = hA ∧
      t.nat .nibcur = s.nat .nacTotal ∧ t.reg .hashLen = s.reg .reqLen ∧
      (∀ k < 3, (t.hash k).toNat = h24 / 256 ^ k % 256) ∧ (∀ k < 2, (t.hash (3 + k)).toNat = h16 / 256 ^ k % 256) ∧
      (s.hasAlpha = true → (t.hash 5).toNat = hA) ∧
      (∀ c ∈ channels s.hasAlpha, ∀ j < s.nat (.nac c), t.nibble (s.nat .hdrLen) (payloadStart s c + j) =
        num.quant 4 (num.fmul (num.lit 15 1) (s.coef c j))) ∧
      (s.nat .nacTotal % 2 = 1 → t.nibble (s.nat .hdrLen) (s.nat .nacTotal) = 0)

/-- R210, R211: UNPACK.HDR with the header present, in any phase: the words, the flags, LFIELD and the de-quantised DC and
scale values, field by field. -/
def Obligations.UnpackHdrCompletes : Prop :=
  ∀ s : State, HeaderPresent s →
    let h24 := s.hashHdr24
    let h16 := s.hashHdr16
    let field := fun lo width => num.i2f (h24.toNat / 2 ^ lo % 2 ^ width)
    let field' := fun lo width => num.i2f (h16.toNat / 2 ^ lo % 2 ^ width)
    ∃ t, exec .unpackHdr s = .next t ∧ Completed s t .dHdr unpackHdrWrites noBytes ∧
      t.nat .hdr24 = (s.hash 0).toNat + 2 ^ 8 * (s.hash 1).toNat + 2 ^ 16 * (s.hash 2).toNat ∧
      t.nat .hdr24 = h24.toNat ∧
      t.nat .hdr16 = (s.hash 3).toNat + 2 ^ 8 * (s.hash 4).toNat ∧ t.nat .hdr16 = h16.toNat ∧
      t.nat .hasAlpha = h24.toNat / 2 ^ 23 ∧ t.nat .isLandscape = h16.toNat / 2 ^ 15 ∧ t.nat .lfield = h16.toNat % 8 ∧
      t.nat .hdrLen = 5 + h24.toNat / 2 ^ 23 ∧
      t.reg (.dc .L) = num.fdiv (field 0 6) (num.lit 63 1) ∧
      t.reg (.dc .P) = num.fsub (num.fdiv (field 6 6) (num.lit 63 2)) (num.lit 1 1) ∧
      t.reg (.dc .Q) = num.fsub (num.fdiv (field 12 6) (num.lit 63 2)) (num.lit 1 1) ∧
      t.reg (.sc .L) = num.fdiv (field 18 5) (num.lit 31 1) ∧
      t.reg (.sc .P) = num.fdiv (field' 3 6) (num.lit 63 1) ∧
      t.reg (.sc .Q) = num.fdiv (field' 9 6) (num.lit 63 1) ∧
      (h24.getLsbD 23 = true → t.nat .hdrA = (s.hash 5).toNat ∧
        t.reg (.dc .A) = num.fdiv (num.i2f ((s.hash 5).toNat % 16)) (num.lit 15 1) ∧
        t.reg (.sc .A) = num.fdiv (num.i2f ((s.hash 5).toNat / 16)) (num.lit 15 1)) ∧
      (h24.getLsbD 23 = false → t.nat .hdrA = 0 ∧ t.reg (.dc .A) = 0x3F800000 ∧ t.reg (.sc .A) = 0x3F800000)

/-- R235: GRID.DEC in phases 5 to 9, with LFIELD in 0 to 7: the clamped sides are the luminance grid, the counts and lengths
follow, RATIO is `aspect`, one side of the raster is 32 and the other is rounded from the ratio. -/
def Obligations.GridDecCompletes : Prop :=
  ∀ s : State, s.status.phase = .dHdr ∨ s.status.phase = .dGrid ∨ s.status.phase = .dCoef ∨ s.status.phase = .dPlanes ∨
      s.status.phase = .dPix → s.nat .lfield ≤ 7 →
    let ha := s.hasAlpha
    let land := s.landscape
    let f := s.nat .lfield
    let limit := if ha = true then 5 else 7
    let lx := max 3 (if land = true then limit else f)
    let ly := max 3 (if land = true then f else limit)
    let nacL := (scan lx ly).length
    let total := nacL + 10 + (if ha = true then 14 else 0)
    let hdr := if ha = true then 6 else 5
    let ratio := if Config.aspectClamp = true then num.fdiv (num.i2f lx) (num.i2f ly)
      else num.fdiv (num.i2f (if land = true then limit else f)) (num.i2f (if land = true then f else limit))
    let outW := if land = true then 32 else num.rnd (num.fmul (num.lit 32 1) ratio)
    let outH := if land = true then num.rnd (num.fdiv (num.lit 32 1) ratio) else 32
    ∃ t, exec .gridDec s = .next t ∧ Completed s t .dGrid gridDecWrites noBytes ∧
      t.nat .lx = lx ∧ t.nat .ly = ly ∧ t.nat (.nx .L) = lx ∧ t.nat (.ny .L) = ly ∧
      t.nat (.nx .P) = 3 ∧ t.nat (.ny .P) = 3 ∧ t.nat (.nx .Q) = 3 ∧ t.nat (.ny .Q) = 3 ∧
      t.nat (.nx .A) = (if ha = true then 5 else 0) ∧ t.nat (.ny .A) = (if ha = true then 5 else 0) ∧
      t.nat (.nac .L) = nacL ∧ t.nat (.nac .P) = 5 ∧ t.nat (.nac .Q) = 5 ∧
      t.nat (.nac .A) = (if ha = true then 14 else 0) ∧ t.nat .nacTotal = total ∧ t.nat .hdrLen = hdr ∧
      t.nat .reqLen = hdr + (total + 1) / 2 ∧ t.reg .ratio = ratio ∧ t.nat .outW = outW ∧ t.nat .outH = outH ∧
      t.nat .pixoutLen = outW * outH * 4

/-- R215, R216: UNPACK.AC in phases 6 to 9 with the whole payload: COEF[c][j] is the signed value of the channel's j-th
nibble times the scale, which for P and Q is boosted by 1.25; NIBCUR ends at NAC_TOTAL; nothing else changes. -/
def Obligations.UnpackAcCompletes : Prop :=
  ∀ s : State, s.status.phase = .dGrid ∨ s.status.phase = .dCoef ∨ s.status.phase = .dPlanes ∨ s.status.phase = .dPix →
    PhaseInv s → s.nat .reqLen ≤ s.nat .hashLen →
    ∃ t, exec .unpackAc s = .next t ∧ Completed s t .dCoef [.nibcur] (coefBytes s) ∧
      t.reg .nibcur = s.reg .nacTotal ∧
      ∀ c ∈ channels s.hasAlpha, ∀ j < s.nat (.nac c),
        let k := payloadStart s c + j
        let nib := (s.hash (s.nat .hdrLen + k / 2)).toNat / 2 ^ (4 * (k % 2)) % 16
        let scale := if c = .P ∨ c = .Q then num.fmul (s.reg (.sc c)) (num.lit 5 4) else s.reg (.sc c)
        t.coef c j = num.fmul (num.fsub (num.fdiv (num.i2f nib) (num.lit 15 2)) (num.lit 1 1)) scale

/-- R184: DCT.INV in phases 7 to 9: each cell of each plane is `inv_sample` at its column and row, of A the constant 1.0
without alpha; PL_W and PL_H become the raster's. -/
def Obligations.DctInvCompletes : Prop :=
  ∀ s : State, s.status.phase = .dCoef ∨ s.status.phase = .dPlanes ∨ s.status.phase = .dPix → PhaseInv s →
    ∃ t, exec .dctInv s = .next t ∧
      Completed s t .dPlanes [.plW, .plH] (planeBytes (s.nat .outW * s.nat .outH)) ∧
      t.reg .plW = s.reg .outW ∧ t.reg .plH = s.reg .outH ∧
      ∀ x < s.nat .outW, ∀ y < s.nat .outH,
        (∀ c ∈ channels s.hasAlpha, t.plane c (y * s.nat .outW + x) =
          invSample num (s.reg (.dc c)) (s.coef c) (s.nat (.nx c)) (s.nat (.ny c)) (s.nat .outW) (s.nat .outH) x y) ∧
        (s.hasAlpha = false → t.plane .A (y * s.nat .outW + x) = 0x3F800000)

/-- R170 to R173: CT.INV in phases 8 and 9 with enough capacity: the four bytes of every pixel, clamped, scaled and
truncated; PIXOUT_LEN bytes and nothing else. -/
def Obligations.CtInvCompletes : Prop :=
  ∀ s : State, s.status.phase = .dPlanes ∨ s.status.phase = .dPix → PhaseInv s → s.nat .pixoutLen ≤ s.nat .pixoutCap →
    let toU8 := fun v => num.truncU8 (num.fmul (num.lit 255 1) (num.clamp01 v))
    ∃ t, exec .ctInv s = .next t ∧ Completed s t .dPix [] (bytesFrom pixoutBase (s.nat .pixoutLen)) ∧
      s.nat .pixoutLen = 4 * (s.nat .plW * s.nat .plH) ∧
      ∀ i < s.nat .plW * s.nat .plH,
        let l := s.plane .L i
        let q := s.plane .Q i
        let b := num.fsub l (num.fmul num.twoThirds (s.plane .P i))
        let r := num.fdiv (num.fadd (num.fsub (num.fmul (num.lit 3 1) l) b) q) (num.lit 2 1)
        t.byteAt (pixoutBase + 4 * i) = toU8 r ∧ t.byteAt (pixoutBase + 4 * i + 1) = toU8 (num.fsub r q) ∧
          t.byteAt (pixoutBase + 4 * i + 2) = toU8 b ∧ t.byteAt (pixoutBase + 4 * i + 3) = toU8 (s.plane .A i)

/-- R186: SCAN.CNT in every phase: SCAN_NX is tested first, then SCAN_NY, both for 1 to 7; else SCAN_CNT is the length of
the scan list, and PHASE and all else stay. -/
def Obligations.ScanCntCompletes : Prop :=
  ∀ s : State,
    (s.nat .scanNx < 1 ∨ 7 < s.nat .scanNx → ∃ t, exec .scanCnt s = .next t ∧ Faulted s t 0x30 9 0x038) ∧
    (1 ≤ s.nat .scanNx → s.nat .scanNx ≤ 7 → s.nat .scanNy < 1 ∨ 7 < s.nat .scanNy →
      ∃ t, exec .scanCnt s = .next t ∧ Faulted s t 0x30 9 0x03C) ∧
    (1 ≤ s.nat .scanNx → s.nat .scanNx ≤ 7 → 1 ≤ s.nat .scanNy → s.nat .scanNy ≤ 7 →
      ∃ t, exec .scanCnt s = .next t ∧ Completed s t s.status.phase [.scanCnt] noBytes ∧
        t.nat .scanCnt = (scan (s.nat .scanNx) (s.nat .scanNy)).length)

/-- R187: SCAN.NTH in every phase: SCAN_NX, SCAN_NY, then SCAN_IDX below the count; else the count and entry SCAN_IDX of
the scan list, counted from 0. -/
def Obligations.ScanNthCompletes : Prop :=
  ∀ s : State,
    let list := scan (s.nat .scanNx) (s.nat .scanNy)
    (s.nat .scanNx < 1 ∨ 7 < s.nat .scanNx → ∃ t, exec .scanNth s = .next t ∧ Faulted s t 0x31 9 0x038) ∧
    (1 ≤ s.nat .scanNx → s.nat .scanNx ≤ 7 → s.nat .scanNy < 1 ∨ 7 < s.nat .scanNy →
      ∃ t, exec .scanNth s = .next t ∧ Faulted s t 0x31 9 0x03C) ∧
    (1 ≤ s.nat .scanNx → s.nat .scanNx ≤ 7 → 1 ≤ s.nat .scanNy → s.nat .scanNy ≤ 7 →
      list.length ≤ s.nat .scanIdx → ∃ t, exec .scanNth s = .next t ∧ Faulted s t 0x31 9 0x040) ∧
    ∀ cx cy, 1 ≤ s.nat .scanNx → s.nat .scanNx ≤ 7 → 1 ≤ s.nat .scanNy → s.nat .scanNy ≤ 7 →
      list[s.nat .scanIdx]? = some (cx, cy) →
      ∃ t, exec .scanNth s = .next t ∧ Completed s t s.status.phase [.scanCnt, .scanCx, .scanCy] noBytes ∧
        t.nat .scanCnt = list.length ∧ t.nat .scanCx = cx ∧ t.nat .scanCy = cy

/-- R250, R251, R253: ENCODE on a valid image with enough capacity, in any phase: HASH_LEN is the length that the header
implies, HASH begins with the header words, HAS_ALPHA is the image's, and only R49's row is written. -/
def Obligations.EncodeCompletes : Prop :=
  ∀ (s : State) (ha : Bool), ImageValid s →
    (ha = true ↔ ∃ i < s.nat .imgW * s.nat .imgH, (s.pixin (4 * i + 3)).toNat < 255) →
    encRequiredLength (s.nat .imgW) (s.nat .imgH) ha ≤ s.nat .hashCap →
    ∃ t, exec .encode s = .next t ∧ Completed s t .eHash (writesOf .encode) (storesOf .encode t) ∧
      t.nat .hashLen = encRequiredLength (s.nat .imgW) (s.nat .imgH) ha ∧ t.nat .reqLen = t.nat .hashLen ∧
      t.nat .hasAlpha = (if ha = true then 1 else 0) ∧ (t.reg .hdr24).getLsbD 23 = ha ∧
      t.reg .plW = s.reg .imgW ∧ t.reg .plH = s.reg .imgH ∧ t.nat .nibcur = t.nat .nacTotal ∧
      (∀ k < 3, (t.hash k).toNat = t.nat .hdr24 / 256 ^ k % 256) ∧
      (∀ k < 2, (t.hash (3 + k)).toNat = t.nat .hdr16 / 256 ^ k % 256)

/-- R255, R256, R258: DECODE of a hash that is long enough, with enough capacity, in any phase: the raster size and length
of its header, an opaque hash gives alpha bytes of 255, and only R49's row is written. -/
def Obligations.DecodeCompletes : Prop :=
  ∀ s : State, HeaderPresent s →
    let ha := (s.hash 2).getLsbD 7
    let land := (s.hash 4).getLsbD 7
    let f := (s.hash 3).toNat % 8
    decPixoutLen ha land f ≤ s.nat .pixoutCap → decRequiredLength ha land f ≤ s.nat .hashLen →
    ∃ t, exec .decode s = .next t ∧ Completed s t .dPix (writesOf .decode) (storesOf .decode t) ∧
      t.nat .outW = (decRaster ha land f).1 ∧ t.nat .outH = (decRaster ha land f).2 ∧
      t.nat .pixoutLen = t.nat .outW * t.nat .outH * 4 ∧ t.nat .reqLen = decRequiredLength ha land f ∧
      t.nat .hasAlpha = (if ha = true then 1 else 0) ∧ t.nat .nibcur = t.nat .nacTotal ∧
      (ha = false → ∀ i < t.nat .outW * t.nat .outH, t.byteAt (pixoutBase + 4 * i + 3) = 255)

/-- R270: AVGCOLOR with the header present, in every phase: the clamped colour of the de-quantised DC fields, and the alpha
of byte 5 or 1.0; PHASE and all else stay. -/
def Obligations.AvgColorCompletes : Prop :=
  ∀ s : State, HeaderPresent s →
    let h := (s.hash 0).toNat + 2 ^ 8 * (s.hash 1).toNat + 2 ^ 16 * (s.hash 2).toNat
    let l := num.fdiv (num.i2f (h % 64)) (num.lit 63 1)
    let p := num.fsub (num.fdiv (num.i2f (h / 2 ^ 6 % 64)) (num.lit 63 2)) (num.lit 1 1)
    let q := num.fsub (num.fdiv (num.i2f (h / 2 ^ 12 % 64)) (num.lit 63 2)) (num.lit 1 1)
    let b := num.fsub l (num.fmul num.twoThirds p)
    let r := num.fdiv (num.fadd (num.fsub (num.fmul (num.lit 3 1) l) b) q) (num.lit 2 1)
    ∃ t, exec .avgColor s = .next t ∧ Completed s t s.status.phase [.avgR, .avgG, .avgB, .avgA] noBytes ∧
      t.reg .avgR = num.clamp01 r ∧ t.reg .avgG = num.clamp01 (num.fsub r q) ∧ t.reg .avgB = num.clamp01 b ∧
      t.reg .avgA = if (s.hash 2).getLsbD 7 = true then num.fdiv (num.i2f ((s.hash 5).toNat % 16)) (num.lit 15 1)
        else 0x3F800000

/-- R273, R236, R237, R274 (d): ASPECT with 5 bytes, also for an alpha header, in every phase: the ratio of the grid sides,
clamped or raw by the parameter, the one GRID.DEC computes for the same header; PHASE and all else stay. -/
def Obligations.AspectCompletes : Prop :=
  ∀ s : State, 5 ≤ s.nat .hashLen →
    let limit := if (s.hash 2).getLsbD 7 = true then 5 else 7
    let f := (s.hash 3).toNat % 8
    let rx := if (s.hash 4).getLsbD 7 = true then limit else f
    let ry := if (s.hash 4).getLsbD 7 = true then f else limit
    ∃ t, exec .aspect s = .next t ∧ Completed s t s.status.phase [.aspectRatio] noBytes ∧
      (Config.aspectClamp = true → t.reg .aspectRatio = num.fdiv (num.i2f (max 3 rx)) (num.i2f (max 3 ry))) ∧
      (Config.aspectClamp = false → t.reg .aspectRatio = num.fdiv (num.i2f rx) (num.i2f ry)) ∧
      t.reg .aspectRatio = decRatio ((s.hash 2).getLsbD 7) ((s.hash 4).getLsbD 7) f

/-! ### The chains, and what two commands say together -/

/-- R252: from the same idle state without a fault, with the pixels written, the host program RUN CT.FWD; RUN GRID.ENC; RUN
DCT.FWD; RUN PACK, if it ends without fault, leaves every register and memory cell as RUN ENCODE does, however often each
WAIT polls. -/
def Obligations.EncodeEqualsTheChain : Prop :=
  ∀ (s t u : State) (n₁ n₂ n₃ n₄ m : Nat), s.inflight = none → s.status.fault = false →
    (∀ k < 4 * s.nat .imgW * s.nat .imgH, (s.mem.read (pixinBase + k)).isSome = true) →
    run (runSteps n₁ + runSteps n₂ + runSteps n₃ + runSteps n₄)
      (s.load [.run .ctFwd n₁, .run .gridEnc n₂, .run .dctFwd n₃, .run .pack n₄]) = some t →
    t.status.fault = false → run (runSteps m) (s.load [.run .encode m]) = some u →
    u.regs = t.regs ∧ u.mem = t.mem ∧ u.status = t.status ∧ u.inflight = none ∧ u.status.done = true

/-- R257, R50: from the same idle state without a fault, with the bytes of HASH below HASH_LEN and 29 written, the host
program RUN UNPACK.HDR; RUN GRID.DEC; RUN UNPACK.AC; RUN DCT.INV; RUN CT.INV, if it ends without fault, leaves every register
and memory cell as RUN DECODE does, however often each WAIT polls. -/
def Obligations.DecodeEqualsTheChain : Prop :=
  ∀ (s t u : State) (n₁ n₂ n₃ n₄ n₅ m : Nat), s.inflight = none → s.status.fault = false →
    (∀ k < min (s.nat .hashLen) 29, (s.mem.read (hashBase + k)).isSome = true) →
    run (runSteps n₁ + runSteps n₂ + runSteps n₃ + runSteps n₄ + runSteps n₅)
      (s.load [.run .unpackHdr n₁, .run .gridDec n₂, .run .unpackAc n₃, .run .dctInv n₄, .run .ctInv n₅]) = some t →
    t.status.fault = false → run (runSteps m) (s.load [.run .decode m]) = some u →
    u.regs = t.regs ∧ u.mem = t.mem ∧ u.status = t.status ∧ u.inflight = none ∧ u.status.done = true

/-- R218: after PACK, UNPACK.HDR on the same buffer yields the same header registers; GRID.DEC then the same grids, and
UNPACK.AC reads back the nibbles that PACK wrote, channel by channel, in the same order. -/
def Obligations.UnpackInvertsPack : Prop :=
  ∀ s : State, s.status.phase = .eCoef ∨ s.status.phase = .eHash → PhaseInv s → s.nat .reqLen ≤ s.nat .hashCap →
    ∃ t u v x, exec .pack s = .next t ∧ exec .unpackHdr t = .next u ∧ exec .gridDec u = .next v ∧
      exec .unpackAc v = .next x ∧
      (∀ r ∈ [Reg.hdr24, .hdr16, .hdrA, .lfield, .hdrLen], u.reg r = t.reg r) ∧
      u.hasAlpha = t.hasAlpha ∧ u.landscape = t.landscape ∧
      (∀ r ∈ gridWrites.drop 2, v.reg r = t.reg r) ∧
      x.status.phase = .dCoef ∧ x.reg .nibcur = t.reg .nibcur ∧
      ∀ c ∈ channels s.hasAlpha, ∀ j < s.nat (.nac c),
        x.coef c j = num.fmul
          (num.fsub (num.fdiv (num.i2f (num.quant 4 (num.fmul (num.lit 15 1) (s.coef c j))).toNat) (num.lit 15 2))
            (num.lit 1 1))
          (if c = .P ∨ c = .Q then num.fmul (u.reg (.sc c)) (num.lit 5 4) else u.reg (.sc c))

/-- R231, R233, R240: for every valid image size: one of lx, ly is the limit, both lie in 1 to it; the decoder's grid for
the encoder's header fields is the encoder's grid, so the counts and lengths agree; and the length is one of R233's. -/
def Obligations.EncoderAndDecoderGridsAgree : Prop :=
  ∀ (w h : Nat) (ha : Bool), 1 ≤ w → w ≤ 100 → 1 ≤ h → h ≤ 100 →
    let lx := (encL Config.tie w h ha).1
    let ly := (encL Config.tie w h ha).2
    let land := decide (h < w)
    let f := if land then ly else lx
    let limit := if ha then 5 else 7
    1 ≤ lx ∧ lx ≤ limit ∧ 1 ≤ ly ∧ ly ≤ limit ∧ (if land then lx = limit else ly = limit) ∧
      decGrid ha land f = encGrid w h ha ∧ decRequiredLength ha land f = encRequiredLength w h ha ∧
      encRequiredLength w h ha ∈ (if ha then [23, 25] else [17, 19, 21, 23, 24])

/-- R238: the decoder's table, a portrait row and its landscape mirror at once: (alpha, LFIELD, LX, LY, NAC_L, NAC_TOTAL,
REQ_LEN), then under the clamp the two ratios and the side beside 32, then the same without the clamp. It is the same under NUM
= exact, where R237 stipulates the infinite ratio. -/
def Obligations.DecoderTable : Prop :=
  ∀ row ∈ ([(false, 0, 3, 7, 14, 24, 17, 0x3EDB6DB7, 0x40155555, 14, 0x00000000, 0x7F800000, 0),
      (false, 1, 3, 7, 14, 24, 17, 0x3EDB6DB7, 0x40155555, 14, 0x3E124925, 0x40E00000, 5),
      (false, 2, 3, 7, 14, 24, 17, 0x3EDB6DB7, 0x40155555, 14, 0x3E924925, 0x40600000, 9),
      (false, 3, 3, 7, 14, 24, 17, 0x3EDB6DB7, 0x40155555, 14, 0x3EDB6DB7, 0x40155555, 14),
      (false, 4, 4, 7, 18, 28, 19, 0x3F124925, 0x3FE00000, 18, 0x3F124925, 0x3FE00000, 18),
      (false, 5, 5, 7, 22, 32, 21, 0x3F36DB6E, 0x3FB33333, 23, 0x3F36DB6E, 0x3FB33333, 23),
      (false, 6, 6, 7, 26, 36, 23, 0x3F5B6DB7, 0x3F955555, 27, 0x3F5B6DB7, 0x3F955555, 27),
      (false, 7, 7, 7, 27, 37, 24, 0x3F800000, 0x3F800000, 32, 0x3F800000, 0x3F800000, 32),
      (true, 0, 3, 5, 10, 34, 23, 0x3F19999A, 0x3FD55555, 19, 0x00000000, 0x7F800000, 0),
      (true, 1, 3, 5, 10, 34, 23, 0x3F19999A, 0x3FD55555, 19, 0x3E4CCCCD, 0x40A00000, 6),
      (true, 2, 3, 5, 10, 34, 23, 0x3F19999A, 0x3FD55555, 19, 0x3ECCCCCD, 0x40200000, 13),
      (true, 3, 3, 5, 10, 34, 23, 0x3F19999A, 0x3FD55555, 19, 0x3F19999A, 0x3FD55555, 19),
      (true, 4, 4, 5, 13, 37, 25, 0x3F4CCCCD, 0x3FA00000, 26, 0x3F4CCCCD, 0x3FA00000, 26),
      (true, 5, 5, 5, 14, 38, 25, 0x3F800000, 0x3F800000, 32, 0x3F800000, 0x3F800000, 32),
      (true, 6, 6, 5, 19, 43, 28, 0x3F99999A, 0x3F555555, 38, 0x3F99999A, 0x3F555555, 38),
      (true, 7, 7, 5, 22, 46, 29, 0x3FB33333, 0x3F36DB6E, 45, 0x3FB33333, 0x3F36DB6E, 45)] :
        List (Bool × Nat × Nat × Nat × Nat × Nat × Nat × Word × Word × Nat × Word × Word × Nat)),
    let (ha, f, lx, ly, nac, total, req, ratio, ratio', side, raw, raw', rawSide) := row
    decGrid ha false f = (lx, ly) ∧ decGrid ha true f = (ly, lx) ∧ scanCount lx ly = nac ∧ scanCount ly lx = nac ∧
      totalCount ha lx ly = total ∧ totalCount ha ly lx = total ∧
      decRequiredLength ha false f = req ∧ decRequiredLength ha true f = req ∧
      (Config.aspectClamp = true → decRatio ha false f = ratio ∧ decRatio ha true f = ratio' ∧
        decRaster ha false f = (side, 32) ∧ decRaster ha true f = (32, side) ∧
        ratioOf Exact.numerics ha false f = ratio ∧ ratioOf Exact.numerics ha true f = ratio' ∧
        rasterOf Exact.numerics ha false f = (side, 32) ∧ rasterOf Exact.numerics ha true f = (32, side)) ∧
      (Config.aspectClamp = false → decRatio ha false f = raw ∧ decRatio ha true f = raw' ∧
        decRaster ha false f = (rawSide, 32) ∧ decRaster ha true f = (32, rawSide) ∧
        ratioOf Exact.numerics ha false f = raw ∧ ratioOf Exact.numerics ha true f = raw' ∧
        rasterOf Exact.numerics ha false f = (rawSide, 32) ∧ rasterOf Exact.numerics ha true f = (32, rawSide)) ∧
      decPixoutLen ha false f ≤ 5760 ∧ decPixoutLen ha true f ≤ 5760

/-- R180: the scan list of a grid is exactly the pairs of the triangle without (0, 0), each once, row after row, in a row
with rising cx. -/
def Obligations.ScanListIsTheTriangle : Prop :=
  ∀ nx ny : Nat, 1 ≤ nx → 1 ≤ ny →
    (∀ cx cy, (cx, cy) ∈ scan nx ny ↔ (cx, cy) ≠ (0, 0) ∧ cy < ny ∧ cx * ny < nx * (ny - cy)) ∧
      (scan nx ny).Pairwise (fun a b => a.2 < b.2 ∨ (a.2 = b.2 ∧ a.1 < b.1))

/-- R181: the count formula, for every grid: row cy contributes ceil(nx*(ny-cy)/ny) pairs, less one in row 0; it is
symmetric on the grids the engine meets, and 27 is the largest there. -/
def Obligations.ScanCountFormula : Prop :=
  (∀ nx ny : Nat, 1 ≤ nx → 1 ≤ ny →
      (scan nx ny).length + 1 = ((List.range ny).map (fun cy => (nx * (ny - cy) + (ny - 1)) / ny)).sum) ∧
    (∀ nx ≤ 7, ∀ ny ≤ 7, (scan nx ny).length = (scan ny nx).length ∧ (scan nx ny).length ≤ 27) ∧
    (scan 3 3).length = 5 ∧ (scan 5 5).length = 14 ∧ (scan 7 7).length = 27 ∧ (scan 7 6).length = 26

/-- R253 (a), R342: ENCODE depends on nothing but IMG_W, IMG_H, PIXIN_LEN, HASH_CAP and the pixel bytes: whatever else two
states hold, it succeeds in both or faults alike, and on success every register it writes, and the hash, agree. -/
def Obligations.EncodeDependsOnlyOnItsOperands : Prop :=
  ∀ s s' t t' : State, s.status.fault = false → s'.status.fault = false →
    (∀ r ∈ [Reg.imgW, .imgH, .pixinLen, .hashCap], s.reg r = s'.reg r) →
    (∀ k < 4 * s.nat .imgW * s.nat .imgH, s.pixin k = s'.pixin k) →
    exec .encode s = .next t → exec .encode s' = .next t' →
    t.status.fault = t'.status.fault ∧
      (t.status.fault = true → t.reg .cause = t'.reg .cause ∧ t.reg .finfo = t'.reg .finfo) ∧
      (t.status.fault = false → (∀ r ∈ writesOf .encode, t.reg r = t'.reg r) ∧
        ∀ k < t.nat .hashLen, t.hash k = t'.hash k)

/-- R258 (a), (e), R106 (b), R214, R342: DECODE depends on nothing but HASH_LEN, PIXOUT_CAP and the bytes of HASH below the
REQ_LEN that its header implies; bytes at or beyond it are ignored. Whatever else two states hold, it succeeds in both or
faults alike, and on success the size and every output byte agree. -/
def Obligations.DecodeDependsOnlyOnItsOperands : Prop :=
  ∀ s s' t t' : State, s.status.fault = false → s'.status.fault = false →
    (∀ r ∈ [Reg.hashLen, .pixoutCap], s.reg r = s'.reg r) →
    (∀ k < decRequiredLength ((s.hash 2).getLsbD 7) ((s.hash 4).getLsbD 7) ((s.hash 3).toNat % 8),
      s.hash k = s'.hash k) →
    exec .decode s = .next t → exec .decode s' = .next t' →
    t.status.fault = t'.status.fault ∧
      (t.status.fault = true → t.reg .cause = t'.reg .cause ∧ t.reg .finfo = t'.reg .finfo) ∧
      (t.status.fault = false → (∀ r ∈ writesOf .decode, t.reg r = t'.reg r) ∧
        ∀ k < t.nat .pixoutLen, t.byteAt (pixoutBase + k) = t'.byteAt (pixoutBase + k))

/-! ### Arithmetic -/

/-- R131, R237: the four operations round their exact result once, to nearest, ties to even (`RoundsTo`), and their zeros and
infinities have IEEE 754's signs; a finite value over zero is an infinity. The first clause says the same of the rounding of a
quotient n/d of units of 2^-149. -/
def Obligations.RoundingIsToNearestEven : Prop :=
  (∀ (n d : Nat) (w : Word), 0 < d → Binary32.roundUnits n d < Binary32.infMagnitude → Binary32.isFinite w = true →
    Binary32.sign w = false →
    let r := Binary32.ofParts false (Binary32.roundUnits n d)
    |(Binary32.units r : Int) * d - n| ≤ |(Binary32.units w : Int) * d - n| ∧
      (|(Binary32.units r : Int) * d - n| = |(Binary32.units w : Int) * d - n| → w = r ∨ r.getLsbD 0 = false)) ∧
    ∀ a b : Word, Binary32.isFinite a = true → Binary32.isFinite b = true →
      let x := valueOf a
      let y := valueOf b
      RoundsTo (x + y) (num.fadd a b) ∧ RoundsTo (x - y) (num.fsub a b) ∧ RoundsTo (x * y) (num.fmul a b) ∧
        (y ≠ 0 → RoundsTo (x / y) (num.fdiv a b)) ∧
        (x + y = 0 → num.fadd a b = if Binary32.sign a && Binary32.sign b then 0x80000000 else 0x00000000) ∧
        (x - y = 0 → num.fsub a b = if Binary32.sign a && !Binary32.sign b then 0x80000000 else 0x00000000) ∧
        Binary32.sign (num.fmul a b) = (Binary32.sign a != Binary32.sign b) ∧
        (y ≠ 0 ∨ x ≠ 0 → Binary32.sign (num.fdiv a b) = (Binary32.sign a != Binary32.sign b)) ∧
        (y = 0 → x ≠ 0 → Binary32.isInf (num.fdiv a b) = true)

/-- R130, R131, R133 to R140, R202: integers below 2^24 and the literals of the rules are exact; PI is the pattern nearest to
pi, TWO_THIRDS the quotient 2.0/3.0; `flt` and `fgt` are the order of values, in which the two zeros are equal and the
infinities are the ends; the cosine of both zeros is 1.0 and of every finite argument a finite value in [-1, 1]; `fabs` clears
the sign; `clamp01` gives 0.0 below 0, 1.0 above 1 and any other value itself; `rnd` is the nearest integer, exact halves by
TIE; a quantised field is 0 for a negative value and else `rnd`, saturated at the field's maximum; `trunc_u8` is the floor. -/
def Obligations.NumericPrimitives : Prop :=
  (∀ k < 2 ^ 24, Binary32.isFinite (num.i2f k) = true ∧ valueOf (num.i2f k) = k) ∧
    (∀ p ∈ ([(0, 1), (1, 1), (2, 1), (3, 1), (15, 1), (31, 1), (32, 1), (63, 1), (255, 1), (1, 2), (15, 2), (63, 2),
        (5, 4)] : List (Nat × Nat)),
      Binary32.isFinite (num.lit p.1 p.2) = true ∧ valueOf (num.lit p.1 p.2) = (p.1 : ℚ) / p.2) ∧
    num.pi = 0x40490FDB ∧
    (∀ w, Binary32.isFinite w = true → |(valueOf num.pi : ℝ) - Real.pi| ≤ |(valueOf w : ℝ) - Real.pi|) ∧
    num.twoThirds = 0x3F2AAAAB ∧ num.twoThirds = num.fdiv (num.lit 2 1) (num.lit 3 1) ∧
    (∀ a b, Binary32.isFinite a = true → Binary32.isFinite b = true →
      num.flt a b = decide (valueOf a < valueOf b) ∧ num.fgt a b = decide (valueOf b < valueOf a)) ∧
    (∀ a, Binary32.isFinite a = true →
      num.flt a 0x7F800000 = true ∧ num.fgt a 0x7F800000 = false ∧
        num.flt a 0xFF800000 = false ∧ num.fgt a 0xFF800000 = true) ∧
    (∀ a b, num.fgt a b = num.flt b a) ∧
    num.cosf 0x00000000 = 0x3F800000 ∧ num.cosf 0x80000000 = 0x3F800000 ∧
    (∀ a, Binary32.isFinite a = true → Binary32.isFinite (num.cosf a) = true ∧ |valueOf (num.cosf a)| ≤ 1) ∧
    (∀ a, Binary32.isFinite a = true → Binary32.isFinite (num.fabs a) = true ∧ Binary32.sign (num.fabs a) = false ∧
      valueOf (num.fabs a) = |valueOf a|) ∧
    (∀ v, Binary32.isFinite v = true → num.clamp01 v =
      if valueOf v < 0 then 0x00000000 else if 1 < valueOf v then 0x3F800000 else v) ∧
    num.clamp01 0x7F800000 = 0x3F800000 ∧ num.clamp01 0xFF800000 = 0x00000000 ∧
    (∀ v, Binary32.isFinite v = true → 0 ≤ valueOf v →
      |(num.rnd v : ℚ) - valueOf v| ≤ 1 / 2 ∧
        (|(num.rnd v : ℚ) - valueOf v| = 1 / 2 → match Config.tie with
          | .halfEven => num.rnd v % 2 = 0
          | .halfAway => valueOf v < num.rnd v)) ∧
    (∀ bits v, (num.quant bits v).toNat = if num.flt v 0x00000000 = true then 0 else min (num.rnd v) (2 ^ bits - 1)) ∧
    (∀ bits v, Binary32.isFinite v = true →
      (num.quant bits v).toNat = if valueOf v < 0 then 0 else min (num.rnd v) (2 ^ bits - 1)) ∧
    ∀ v, Binary32.isFinite v = true → 0 ≤ valueOf v → valueOf v ≤ 255 → ((num.truncU8 v).toNat : ℤ) = ⌊valueOf v⌋

/-- R171, R166: in real arithmetic the inverse colour formulas undo the forward ones, and the other way round. -/
def Obligations.ExactColourTransformIsInverse : Prop :=
  (∀ (r g b a : ℝ),
      let v := lpqOfRgb Exact.numerics { r := r, g := g, b := b } a
      lpqToRgb Exact.numerics v.l v.p v.q = { r := r, g := g, b := b }) ∧
    ∀ (l p q a : ℝ), lpqOfRgb Exact.numerics (lpqToRgb Exact.numerics l p q) a = { l := l, p := p, q := q, a := a }

/-- R183, R185, in exact arithmetic: the forward term is the source's double sum, the inverse sample its sum over the scan
list, and every normalised AC value lies in [0, 1] when the scale is positive. -/
def Obligations.ExactDctFormulas : Prop :=
  (∀ (plane : Nat → ℝ) (w h cx cy : Nat), fwdTerm Exact.numerics plane w h cx cy =
      1 / (w * h : ℝ) * ∑ y ∈ Finset.range h, ∑ x ∈ Finset.range w,
        plane (y * w + x) * Real.cos (Real.pi / w * cx * (x + 1 / 2)) * Real.cos (Real.pi / h * cy * (y + 1 / 2))) ∧
    (∀ (dc : ℝ) (coef : Nat → ℝ) (nx ny w h x y : Nat), invSample Exact.numerics dc coef nx ny w h x y =
      dc + ∑ j ∈ Finset.range (scan nx ny).length,
        coef j * Real.cos (Real.pi / w * (x + 1 / 2) * ((scan nx ny).getD j (0, 0)).1) *
          (2 * Real.cos (Real.pi / h * (y + 1 / 2) * ((scan nx ny).getD j (0, 0)).2))) ∧
    ∀ (plane : Nat → ℝ) (w h nx ny : Nat),
      let result := fwdChannel Exact.numerics plane w h nx ny
      0 < result.scale → ∀ v ∈ result.ac, 0 ≤ v ∧ v ≤ 1
end

