-- ==== Sys2Proof/Laws/Decode.lean ====
section
/-! SUPPORT. What the decoder accepts, field by field. -/

namespace Sys2Proof

/-- Decoding succeeds exactly on the words with RSV zero and an assigned opcode. -/
theorem decode_ok_iff (w : Word) (i : Instr) :
    decode w = .ok i ↔ w.extractLsb' 8 24 = 0 ∧ commandOf (w.extractLsb' 0 8).toNat = some i := by
  unfold decode
  by_cases h : w.extractLsb' 8 24 = 0
  · rw [if_pos h]
    cases hc : commandOf (w.extractLsb' 0 8).toNat with
    | none => simp
    | some j => simp [h]
  · rw [if_neg h]
    exact ⟨fun e => (nomatch e), fun e => absurd e.1 h⟩

theorem commandOf_iff (n : Nat) (i : Instr) : commandOf n = some i ↔ n = i.opcode.toNat := by
  constructor
  · intro h
    unfold commandOf at h
    split at h <;> first | (cases h; rfl) | exact absurd h (by simp)
  · rintro rfl
    cases i <;> rfl

/-- A word is its two fields. -/
theorem word_fields (w : Word) : w = w.extractLsb' 8 24 ++ w.extractLsb' 0 8 := by
  apply BitVec.eq_of_toNat_eq
  have := w.isLt
  simp only [BitVec.toNat_append, BitVec.extractLsb'_toNat]
  rw [← Nat.shiftLeft_add_eq_or_of_lt (Nat.mod_lt _ (by decide))]
  simp only [Nat.shiftLeft_eq, Nat.shiftRight_eq_div_pow]
  omega

/-- The low byte of a command's word is its opcode. -/
theorem opcode_of_decode {w : Word} {i : Instr} (h : decode w = .ok i) : w.extractLsb' 0 8 = i.opcode :=
  BitVec.eq_of_toNat_eq ((commandOf_iff _ _).mp ((decode_ok_iff w i).mp h).2)

end Sys2Proof
end

