-- ==== Sys2Proof/Laws/State.lean ====
section
/-! SUPPORT. The small lemmas of the state's accessors and updates: one per field per update, all for `simp`. -/

namespace Sys2Proof.Machine

/-! ### Reading a register after writing one -/

/-- The register a slot holds; the inverse of `Reg.index`. -/
def Reg.atIndex : Nat → Reg
  | 0 => .ie
  | 1 => .cause
  | 2 => .finfo
  | 3 => .imgW
  | 4 => .imgH
  | 5 => .pixinLen
  | 6 => .hashCap
  | 7 => .hashLen
  | 8 => .pixoutCap
  | 9 => .scanNx
  | 10 => .scanNy
  | 11 => .scanIdx
  | 12 => .plW
  | 13 => .plH
  | 14 => .hasAlpha
  | 15 => .isLandscape
  | 16 => .lx
  | 17 => .ly
  | 18 => .lfield
  | 19 => .ratio
  | 20 => .nx .L
  | 21 => .ny .L
  | 22 => .nx .P
  | 23 => .ny .P
  | 24 => .nx .Q
  | 25 => .ny .Q
  | 26 => .nx .A
  | 27 => .ny .A
  | 28 => .nac .L
  | 29 => .nac .P
  | 30 => .nac .Q
  | 31 => .nac .A
  | 32 => .nacTotal
  | 33 => .hdrLen
  | 34 => .reqLen
  | 35 => .nibcur
  | 36 => .hdr24
  | 37 => .hdr16
  | 38 => .hdrA
  | 39 => .dc .L
  | 40 => .dc .P
  | 41 => .dc .Q
  | 42 => .dc .A
  | 43 => .sc .L
  | 44 => .sc .P
  | 45 => .sc .Q
  | 46 => .sc .A
  | 47 => .bgR
  | 48 => .bgG
  | 49 => .bgB
  | 50 => .alphaSum
  | 51 => .avgR
  | 52 => .avgG
  | 53 => .avgB
  | 54 => .avgA
  | 55 => .aspectRatio
  | 56 => .outW
  | 57 => .outH
  | 58 => .pixoutLen
  | 59 => .scanCnt
  | 60 => .scanCx
  | _ => .scanCy

theorem Reg.atIndex_index (r : Reg) : Reg.atIndex r.index.val = r := by
  cases r with
  | nx c => cases c <;> rfl
  | ny c => cases c <;> rfl
  | nac c => cases c <;> rfl
  | dc c => cases c <;> rfl
  | sc c => cases c <;> rfl
  | _ => rfl

theorem Reg.index_injective {r r' : Reg} (h : r.index = r'.index) : r = r' := by
  rw [← Reg.atIndex_index r, ← Reg.atIndex_index r', h]

theorem State.reg_setReg (s : State) (r r' : Reg) (v : Word) :
    (s.setReg r v).reg r' = if r = r' then v else s.reg r' := by
  unfold State.reg State.setReg
  show (s.regs.set r.index.val v r.index.isLt)[r'.index.val]'r'.index.isLt = _
  rw [Vector.getElem_set]
  by_cases h : r = r'
  · simp [h]
  · have : r.index.val ≠ r'.index.val := fun e => h (Reg.index_injective (Fin.ext e))
    simp [h, this]; rfl

@[simp] theorem State.reg_setReg_same (s : State) (r : Reg) (v : Word) : (s.setReg r v).reg r = v := by
  simp [State.reg_setReg]

theorem State.reg_setReg_ne (s : State) {r r' : Reg} (v : Word) (h : r ≠ r') : (s.setReg r v).reg r' = s.reg r' := by
  simp [State.reg_setReg, h]

@[simp] theorem State.setRegs_nil (s : State) : s.setRegs [] = s := rfl

@[simp] theorem State.setRegs_cons (s : State) (p : Reg × Word) (l : List (Reg × Word)) :
    s.setRegs (p :: l) = (s.setReg p.1 p.2).setRegs l := rfl

theorem State.reg_setRegs_of_not_mem (s : State) (l : List (Reg × Word)) (r : Reg) (h : r ∉ l.map Prod.fst) :
    (s.setRegs l).reg r = s.reg r := by
  induction l generalizing s with
  | nil => rfl
  | cons p l ih =>
    simp only [List.map_cons, List.mem_cons, not_or] at h
    rw [State.setRegs_cons, ih _ h.2, State.reg_setReg_ne _ _ (Ne.symm h.1)]

/-- A list of writes to different registers: each holds what was written to it. -/
theorem State.reg_setRegs_mem (s : State) (l : List (Reg × Word)) (r : Reg) (v : Word)
    (hn : (l.map Prod.fst).Nodup) (h : (r, v) ∈ l) : (s.setRegs l).reg r = v := by
  induction l generalizing s with
  | nil => cases h
  | cons p l ih =>
    rw [List.map_cons, List.nodup_cons] at hn
    rw [State.setRegs_cons]
    rcases List.mem_cons.mp h with rfl | h
    · rw [State.reg_setRegs_of_not_mem _ _ _ hn.1, State.reg_setReg_same]
    · exact ih _ hn.2 h

/-- The last value written to a register by a list of writes. -/
theorem State.reg_setRegs_append_single (s : State) (l : List (Reg × Word)) (r : Reg) (v : Word) :
    (s.setRegs (l ++ [(r, v)])).reg r = v := by
  simp [State.setRegs, List.foldl_append]

/-! ### Fields an update leaves alone -/

@[simp] theorem State.setReg_status (s : State) (r : Reg) (v : Word) : (s.setReg r v).status = s.status := rfl
@[simp] theorem State.setReg_inflight (s : State) (r : Reg) (v : Word) : (s.setReg r v).inflight = s.inflight := rfl
@[simp] theorem State.setReg_mem (s : State) (r : Reg) (v : Word) : (s.setReg r v).mem = s.mem := rfl
@[simp] theorem State.setReg_host (s : State) (r : Reg) (v : Word) : (s.setReg r v).host = s.host := rfl
@[simp] theorem State.setReg_reply (s : State) (r : Reg) (v : Word) : (s.setReg r v).reply = s.reply := rfl
@[simp] theorem State.setReg_draws (s : State) (r : Reg) (v : Word) : (s.setReg r v).draws = s.draws := rfl
@[simp] theorem State.setReg_resets (s : State) (r : Reg) (v : Word) : (s.setReg r v).resets = s.resets := rfl
@[simp] theorem State.setReg_byteAt (s : State) (r : Reg) (v : Word) (k : Nat) : (s.setReg r v).byteAt k = s.byteAt k := rfl
@[simp] theorem State.setReg_wordAt (s : State) (r : Reg) (v : Word) (k : Nat) : (s.setReg r v).wordAt k = s.wordAt k := rfl

@[simp] theorem State.setPhase_inflight (s : State) (p : Phase) : (s.setPhase p).inflight = s.inflight := rfl
@[simp] theorem State.setPhase_regs (s : State) (p : Phase) : (s.setPhase p).regs = s.regs := rfl
@[simp] theorem State.setPhase_mem (s : State) (p : Phase) : (s.setPhase p).mem = s.mem := rfl
@[simp] theorem State.setPhase_host (s : State) (p : Phase) : (s.setPhase p).host = s.host := rfl
@[simp] theorem State.setPhase_reply (s : State) (p : Phase) : (s.setPhase p).reply = s.reply := rfl
@[simp] theorem State.setPhase_draws (s : State) (p : Phase) : (s.setPhase p).draws = s.draws := rfl
@[simp] theorem State.setPhase_resets (s : State) (p : Phase) : (s.setPhase p).resets = s.resets := rfl
@[simp] theorem State.setPhase_reg (s : State) (p : Phase) (k : Reg) : (s.setPhase p).reg k = s.reg k := rfl
@[simp] theorem State.setPhase_byteAt (s : State) (p : Phase) (k : Nat) : (s.setPhase p).byteAt k = s.byteAt k := rfl
@[simp] theorem State.setPhase_wordAt (s : State) (p : Phase) (k : Nat) : (s.setPhase p).wordAt k = s.wordAt k := rfl

@[simp] theorem State.setOvr_inflight (s : State) : (s.setOvr).inflight = s.inflight := rfl
@[simp] theorem State.setOvr_regs (s : State) : (s.setOvr).regs = s.regs := rfl
@[simp] theorem State.setOvr_mem (s : State) : (s.setOvr).mem = s.mem := rfl
@[simp] theorem State.setOvr_host (s : State) : (s.setOvr).host = s.host := rfl
@[simp] theorem State.setOvr_reply (s : State) : (s.setOvr).reply = s.reply := rfl
@[simp] theorem State.setOvr_draws (s : State) : (s.setOvr).draws = s.draws := rfl
@[simp] theorem State.setOvr_resets (s : State) : (s.setOvr).resets = s.resets := rfl
@[simp] theorem State.setOvr_reg (s : State) (k : Reg) : (s.setOvr).reg k = s.reg k := rfl
@[simp] theorem State.setOvr_byteAt (s : State) (k : Nat) : (s.setOvr).byteAt k = s.byteAt k := rfl
@[simp] theorem State.setOvr_wordAt (s : State) (k : Nat) : (s.setOvr).wordAt k = s.wordAt k := rfl

@[simp] theorem State.withReply_status (s : State) (x : Reply) : (s.withReply x).status = s.status := rfl
@[simp] theorem State.withReply_inflight (s : State) (x : Reply) : (s.withReply x).inflight = s.inflight := rfl
@[simp] theorem State.withReply_regs (s : State) (x : Reply) : (s.withReply x).regs = s.regs := rfl
@[simp] theorem State.withReply_mem (s : State) (x : Reply) : (s.withReply x).mem = s.mem := rfl
@[simp] theorem State.withReply_host (s : State) (x : Reply) : (s.withReply x).host = s.host := rfl
@[simp] theorem State.withReply_draws (s : State) (x : Reply) : (s.withReply x).draws = s.draws := rfl
@[simp] theorem State.withReply_resets (s : State) (x : Reply) : (s.withReply x).resets = s.resets := rfl
@[simp] theorem State.withReply_reg (s : State) (x : Reply) (k : Reg) : (s.withReply x).reg k = s.reg k := rfl
@[simp] theorem State.withReply_byteAt (s : State) (x : Reply) (k : Nat) : (s.withReply x).byteAt k = s.byteAt k := rfl
@[simp] theorem State.withReply_wordAt (s : State) (x : Reply) (k : Nat) : (s.withReply x).wordAt k = s.wordAt k := rfl

@[simp] theorem State.writeBytes_status (s : State) (a : Nat) (bs : List Byte) : (s.writeBytes a bs).status = s.status := rfl
@[simp] theorem State.writeBytes_inflight (s : State) (a : Nat) (bs : List Byte) : (s.writeBytes a bs).inflight = s.inflight := rfl
@[simp] theorem State.writeBytes_regs (s : State) (a : Nat) (bs : List Byte) : (s.writeBytes a bs).regs = s.regs := rfl
@[simp] theorem State.writeBytes_host (s : State) (a : Nat) (bs : List Byte) : (s.writeBytes a bs).host = s.host := rfl
@[simp] theorem State.writeBytes_reply (s : State) (a : Nat) (bs : List Byte) : (s.writeBytes a bs).reply = s.reply := rfl
@[simp] theorem State.writeBytes_draws (s : State) (a : Nat) (bs : List Byte) : (s.writeBytes a bs).draws = s.draws := rfl
@[simp] theorem State.writeBytes_resets (s : State) (a : Nat) (bs : List Byte) : (s.writeBytes a bs).resets = s.resets := rfl
@[simp] theorem State.writeBytes_reg (s : State) (a : Nat) (bs : List Byte) (k : Reg) : (s.writeBytes a bs).reg k = s.reg k := rfl

@[simp] theorem State.writeHash_status (s : State) (i : Nat) (bs : List Byte) : (s.writeHash i bs).status = s.status := rfl
@[simp] theorem State.writeHash_inflight (s : State) (i : Nat) (bs : List Byte) : (s.writeHash i bs).inflight = s.inflight := rfl
@[simp] theorem State.writeHash_regs (s : State) (i : Nat) (bs : List Byte) : (s.writeHash i bs).regs = s.regs := rfl
@[simp] theorem State.writeHash_host (s : State) (i : Nat) (bs : List Byte) : (s.writeHash i bs).host = s.host := rfl
@[simp] theorem State.writeHash_reply (s : State) (i : Nat) (bs : List Byte) : (s.writeHash i bs).reply = s.reply := rfl
@[simp] theorem State.writeHash_draws (s : State) (i : Nat) (bs : List Byte) : (s.writeHash i bs).draws = s.draws := rfl
@[simp] theorem State.writeHash_resets (s : State) (i : Nat) (bs : List Byte) : (s.writeHash i bs).resets = s.resets := rfl
@[simp] theorem State.writeHash_reg (s : State) (i : Nat) (bs : List Byte) (k : Reg) : (s.writeHash i bs).reg k = s.reg k := rfl

@[simp] theorem State.writePixout_status (s : State) (bs : List Byte) : (s.writePixout bs).status = s.status := rfl
@[simp] theorem State.writePixout_inflight (s : State) (bs : List Byte) : (s.writePixout bs).inflight = s.inflight := rfl
@[simp] theorem State.writePixout_regs (s : State) (bs : List Byte) : (s.writePixout bs).regs = s.regs := rfl
@[simp] theorem State.writePixout_host (s : State) (bs : List Byte) : (s.writePixout bs).host = s.host := rfl
@[simp] theorem State.writePixout_reply (s : State) (bs : List Byte) : (s.writePixout bs).reply = s.reply := rfl
@[simp] theorem State.writePixout_draws (s : State) (bs : List Byte) : (s.writePixout bs).draws = s.draws := rfl
@[simp] theorem State.writePixout_resets (s : State) (bs : List Byte) : (s.writePixout bs).resets = s.resets := rfl
@[simp] theorem State.writePixout_reg (s : State) (bs : List Byte) (k : Reg) : (s.writePixout bs).reg k = s.reg k := rfl

@[simp] theorem State.writeCoef_status (s : State) (c : Channel) (ws : List Word) : (s.writeCoef c ws).status = s.status := rfl
@[simp] theorem State.writeCoef_inflight (s : State) (c : Channel) (ws : List Word) : (s.writeCoef c ws).inflight = s.inflight := rfl
@[simp] theorem State.writeCoef_regs (s : State) (c : Channel) (ws : List Word) : (s.writeCoef c ws).regs = s.regs := rfl
@[simp] theorem State.writeCoef_host (s : State) (c : Channel) (ws : List Word) : (s.writeCoef c ws).host = s.host := rfl
@[simp] theorem State.writeCoef_reply (s : State) (c : Channel) (ws : List Word) : (s.writeCoef c ws).reply = s.reply := rfl
@[simp] theorem State.writeCoef_draws (s : State) (c : Channel) (ws : List Word) : (s.writeCoef c ws).draws = s.draws := rfl
@[simp] theorem State.writeCoef_resets (s : State) (c : Channel) (ws : List Word) : (s.writeCoef c ws).resets = s.resets := rfl
@[simp] theorem State.writeCoef_reg (s : State) (c : Channel) (ws : List Word) (k : Reg) : (s.writeCoef c ws).reg k = s.reg k := rfl

@[simp] theorem State.writePlane_status (s : State) (c : Channel) (ws : List Word) : (s.writePlane c ws).status = s.status := rfl
@[simp] theorem State.writePlane_inflight (s : State) (c : Channel) (ws : List Word) : (s.writePlane c ws).inflight = s.inflight := rfl
@[simp] theorem State.writePlane_regs (s : State) (c : Channel) (ws : List Word) : (s.writePlane c ws).regs = s.regs := rfl
@[simp] theorem State.writePlane_host (s : State) (c : Channel) (ws : List Word) : (s.writePlane c ws).host = s.host := rfl
@[simp] theorem State.writePlane_reply (s : State) (c : Channel) (ws : List Word) : (s.writePlane c ws).reply = s.reply := rfl
@[simp] theorem State.writePlane_draws (s : State) (c : Channel) (ws : List Word) : (s.writePlane c ws).draws = s.draws := rfl
@[simp] theorem State.writePlane_resets (s : State) (c : Channel) (ws : List Word) : (s.writePlane c ws).resets = s.resets := rfl
@[simp] theorem State.writePlane_reg (s : State) (c : Channel) (ws : List Word) (k : Reg) : (s.writePlane c ws).reg k = s.reg k := rfl

@[simp] theorem State.start_regs (s : State) (w : Word) : (s.start w).regs = s.regs := rfl
@[simp] theorem State.start_mem (s : State) (w : Word) : (s.start w).mem = s.mem := rfl
@[simp] theorem State.start_host (s : State) (w : Word) : (s.start w).host = s.host := rfl
@[simp] theorem State.start_reply (s : State) (w : Word) : (s.start w).reply = s.reply := rfl
@[simp] theorem State.start_draws (s : State) (w : Word) : (s.start w).draws = s.draws := rfl
@[simp] theorem State.start_resets (s : State) (w : Word) : (s.start w).resets = s.resets := rfl
@[simp] theorem State.start_reg (s : State) (w : Word) (k : Reg) : (s.start w).reg k = s.reg k := rfl
@[simp] theorem State.start_byteAt (s : State) (w : Word) (k : Nat) : (s.start w).byteAt k = s.byteAt k := rfl
@[simp] theorem State.start_wordAt (s : State) (w : Word) (k : Nat) : (s.start w).wordAt k = s.wordAt k := rfl

@[simp] theorem State.complete_regs (s : State) : (s.complete).regs = s.regs := rfl
@[simp] theorem State.complete_mem (s : State) : (s.complete).mem = s.mem := rfl
@[simp] theorem State.complete_host (s : State) : (s.complete).host = s.host := rfl
@[simp] theorem State.complete_reply (s : State) : (s.complete).reply = s.reply := rfl
@[simp] theorem State.complete_draws (s : State) : (s.complete).draws = s.draws := rfl
@[simp] theorem State.complete_resets (s : State) : (s.complete).resets = s.resets := rfl
@[simp] theorem State.complete_reg (s : State) (k : Reg) : (s.complete).reg k = s.reg k := rfl
@[simp] theorem State.complete_byteAt (s : State) (k : Nat) : (s.complete).byteAt k = s.byteAt k := rfl
@[simp] theorem State.complete_wordAt (s : State) (k : Nat) : (s.complete).wordAt k = s.wordAt k := rfl

@[simp] theorem State.takeFault_mem (s : State) (op : BitVec 8) (f : EngineFault) : (s.takeFault op f).mem = s.mem := rfl
@[simp] theorem State.takeFault_host (s : State) (op : BitVec 8) (f : EngineFault) : (s.takeFault op f).host = s.host := rfl
@[simp] theorem State.takeFault_reply (s : State) (op : BitVec 8) (f : EngineFault) : (s.takeFault op f).reply = s.reply := rfl
@[simp] theorem State.takeFault_draws (s : State) (op : BitVec 8) (f : EngineFault) : (s.takeFault op f).draws = s.draws := rfl
@[simp] theorem State.takeFault_resets (s : State) (op : BitVec 8) (f : EngineFault) : (s.takeFault op f).resets = s.resets := rfl
@[simp] theorem State.takeFault_byteAt (s : State) (op : BitVec 8) (f : EngineFault) (k : Nat) : (s.takeFault op f).byteAt k = s.byteAt k := rfl
@[simp] theorem State.takeFault_wordAt (s : State) (op : BitVec 8) (f : EngineFault) (k : Nat) : (s.takeFault op f).wordAt k = s.wordAt k := rfl

@[simp] theorem State.acknowledge_inflight (s : State) : (s.acknowledge).inflight = s.inflight := rfl
@[simp] theorem State.acknowledge_mem (s : State) : (s.acknowledge).mem = s.mem := rfl
@[simp] theorem State.acknowledge_host (s : State) : (s.acknowledge).host = s.host := rfl
@[simp] theorem State.acknowledge_reply (s : State) : (s.acknowledge).reply = s.reply := rfl
@[simp] theorem State.acknowledge_draws (s : State) : (s.acknowledge).draws = s.draws := rfl
@[simp] theorem State.acknowledge_resets (s : State) : (s.acknowledge).resets = s.resets := rfl
@[simp] theorem State.acknowledge_byteAt (s : State) (k : Nat) : (s.acknowledge).byteAt k = s.byteAt k := rfl
@[simp] theorem State.acknowledge_wordAt (s : State) (k : Nat) : (s.acknowledge).wordAt k = s.wordAt k := rfl

@[simp] theorem State.resetRegisters_mem (s : State) : (s.resetRegisters).mem = s.mem := rfl
@[simp] theorem State.resetRegisters_host (s : State) : (s.resetRegisters).host = s.host := rfl
@[simp] theorem State.resetRegisters_reply (s : State) : (s.resetRegisters).reply = s.reply := rfl
@[simp] theorem State.resetRegisters_draws (s : State) : (s.resetRegisters).draws = s.draws := rfl
@[simp] theorem State.resetRegisters_resets (s : State) : (s.resetRegisters).resets = s.resets := rfl
@[simp] theorem State.resetRegisters_byteAt (s : State) (k : Nat) : (s.resetRegisters).byteAt k = s.byteAt k := rfl
@[simp] theorem State.resetRegisters_wordAt (s : State) (k : Nat) : (s.resetRegisters).wordAt k = s.wordAt k := rfl

@[simp] theorem State.hardReset_host (s : State) : (s.hardReset).host = s.host := rfl
@[simp] theorem State.hardReset_draws (s : State) : (s.hardReset).draws = s.draws := rfl
@[simp] theorem State.hardReset_resets (s : State) : (s.hardReset).resets = s.resets + 1 := rfl

@[simp] theorem State.tick_status (s : State) : (s.tick).status = s.status := rfl
@[simp] theorem State.tick_inflight (s : State) : (s.tick).inflight = s.inflight := rfl
@[simp] theorem State.tick_regs (s : State) : (s.tick).regs = s.regs := rfl
@[simp] theorem State.tick_mem (s : State) : (s.tick).mem = s.mem := rfl
@[simp] theorem State.tick_reg (s : State) (k : Reg) : (s.tick).reg k = s.reg k := rfl

/-! ### Fields an update sets -/

@[simp] theorem State.setPhase_status (s : State) (p : Phase) : (s.setPhase p).status = { s.status with phase := p } := rfl
@[simp] theorem State.setOvr_status (s : State) : (s.setOvr).status = { s.status with ovr := true } := rfl
@[simp] theorem State.withReply_reply (s : State) (x : Reply) : (s.withReply x).reply = x := rfl
@[simp] theorem State.writeBytes_mem (s : State) (a : Nat) (bs : List Byte) : (s.writeBytes a bs).mem = s.mem.write a bs := rfl
@[simp] theorem State.start_status (s : State) (w : Word) : (s.start w).status = { s.status with done := false } := rfl
@[simp] theorem State.start_inflight (s : State) (w : Word) : (s.start w).inflight = some w := rfl
@[simp] theorem State.complete_status (s : State) : (s.complete).status = { s.status with done := true } := rfl
@[simp] theorem State.complete_inflight (s : State) : (s.complete).inflight = none := rfl
@[simp] theorem State.takeFault_status (s : State) (op : BitVec 8) (f : EngineFault) : (s.takeFault op f).status = { s.status with fault := true } := rfl
@[simp] theorem State.takeFault_inflight (s : State) (op : BitVec 8) (f : EngineFault) : (s.takeFault op f).inflight = none := rfl
@[simp] theorem State.acknowledge_status (s : State) : (s.acknowledge).status = { s.status with done := false, fault := false, ovr := false } := rfl
@[simp] theorem State.resetRegisters_status (s : State) : (s.resetRegisters).status = { done := false, fault := false, ovr := false, phase := .none } := rfl
@[simp] theorem State.resetRegisters_inflight (s : State) : (s.resetRegisters).inflight = none := rfl
@[simp] theorem State.resetRegisters_regs (s : State) : (s.resetRegisters).regs = resetRegs := rfl
@[simp] theorem State.hardReset_status (s : State) : (s.hardReset).status = { done := false, fault := false, ovr := false, phase := .none } := rfl
@[simp] theorem State.hardReset_inflight (s : State) : (s.hardReset).inflight = none := rfl
@[simp] theorem State.hardReset_regs (s : State) : (s.hardReset).regs = resetRegs := rfl
@[simp] theorem State.hardReset_mem (s : State) : (s.hardReset).mem = [] := rfl
@[simp] theorem State.hardReset_reply (s : State) : (s.hardReset).reply = .idle := rfl
@[simp] theorem State.tick_host (s : State) : (s.tick).host = s.host.tail := rfl
@[simp] theorem State.tick_reply (s : State) : (s.tick).reply = .idle := rfl
@[simp] theorem State.tick_draws (s : State) : (s.tick).draws = s.draws + 1 := rfl
@[simp] theorem State.tick_resets (s : State) : (s.tick).resets = s.resets := rfl

/-! ### Lists of register writes leave the rest alone -/

@[simp] theorem State.setRegs_status (s : State) (l : List (Reg × Word)) : (s.setRegs l).status = s.status := by
  induction l generalizing s with
  | nil => rfl
  | cons p l ih => rw [State.setRegs_cons, ih, State.setReg_status]

@[simp] theorem State.setRegs_inflight (s : State) (l : List (Reg × Word)) : (s.setRegs l).inflight = s.inflight := by
  induction l generalizing s with
  | nil => rfl
  | cons p l ih => rw [State.setRegs_cons, ih, State.setReg_inflight]

@[simp] theorem State.setRegs_mem (s : State) (l : List (Reg × Word)) : (s.setRegs l).mem = s.mem := by
  induction l generalizing s with
  | nil => rfl
  | cons p l ih => rw [State.setRegs_cons, ih, State.setReg_mem]

@[simp] theorem State.setRegs_host (s : State) (l : List (Reg × Word)) : (s.setRegs l).host = s.host := by
  induction l generalizing s with
  | nil => rfl
  | cons p l ih => rw [State.setRegs_cons, ih, State.setReg_host]

@[simp] theorem State.setRegs_reply (s : State) (l : List (Reg × Word)) : (s.setRegs l).reply = s.reply := by
  induction l generalizing s with
  | nil => rfl
  | cons p l ih => rw [State.setRegs_cons, ih, State.setReg_reply]

@[simp] theorem State.setRegs_draws (s : State) (l : List (Reg × Word)) : (s.setRegs l).draws = s.draws := by
  induction l generalizing s with
  | nil => rfl
  | cons p l ih => rw [State.setRegs_cons, ih, State.setReg_draws]

@[simp] theorem State.setRegs_resets (s : State) (l : List (Reg × Word)) : (s.setRegs l).resets = s.resets := by
  induction l generalizing s with
  | nil => rfl
  | cons p l ih => rw [State.setRegs_cons, ih, State.setReg_resets]

@[simp] theorem State.setRegs_byteAt (s : State) (l : List (Reg × Word)) (k : Nat) :
    (s.setRegs l).byteAt k = s.byteAt k := by
  simp [State.byteAt]

@[simp] theorem State.setRegs_wordAt (s : State) (l : List (Reg × Word)) (k : Nat) :
    (s.setRegs l).wordAt k = s.wordAt k := by
  simp [State.wordAt]

/-! ### Taking and acknowledging a fault, register by register -/

theorem State.reg_takeFault (s : State) (op : BitVec 8) (f : EngineFault) (r : Reg) :
    (s.takeFault op f).reg r =
      if r = .cause then causeWord op f.code else if r = .finfo then f.info else s.reg r := by
  unfold State.takeFault
  rw [State.reg_setReg, State.reg_setReg]
  cases r <;> rfl

theorem State.reg_acknowledge (s : State) (r : Reg) :
    s.acknowledge.reg r = if r = .cause ∨ r = .finfo then 0 else s.reg r := by
  unfold State.acknowledge
  rw [State.reg_setReg, State.reg_setReg]
  cases r <;> rfl

/-- R48: the reset value of a stored register. -/
theorem resetRegs_get (r : Reg) :
    resetRegs.get r.index = if r = .hashCap then 32 else if r = .pixoutCap then 8192 else 0 := by
  cases r with
  | nx c => cases c <;> rfl
  | ny c => cases c <;> rfl
  | nac c => cases c <;> rfl
  | dc c => cases c <;> rfl
  | sc c => cases c <;> rfl
  | _ => rfl

theorem natWord_toNat {n : Nat} (h : n < 2 ^ 32) : (natWord n).toNat = n := by
  rw [natWord, BitVec.toNat_ofNat, Nat.mod_eq_of_lt h]

theorem natWord_toNat_self (w : Word) : natWord w.toNat = w := by simp [natWord]

theorem boolWord_toNat (b : Bool) : (boolWord b).toNat = if b then 1 else 0 := by cases b <;> rfl

theorem boolWord_eq_one (b : Bool) : (boolWord b == 1) = b := by cases b <;> rfl

/-- Two states with the same registers read alike. -/
theorem State.reg_congr {s t : State} (h : s.regs = t.regs) (r : Reg) : s.reg r = t.reg r := by
  simp [State.reg, h]

/-- Registers that read alike are equal. -/
theorem State.regs_ext {s t : State} (h : ∀ r, s.reg r = t.reg r) : s.regs = t.regs := by
  apply Vector.ext
  intro i hi
  have key : ∀ j : Fin 62, (Reg.atIndex j.val).index = j := by decide
  have e := h (Reg.atIndex i)
  unfold State.reg at e
  rw [key ⟨i, hi⟩] at e
  exact e

end Sys2Proof.Machine
end

