-- ==== Sys2Proof/Laws/Binary32.lean ====
section
/-! SUPPORT. The commands of the engine, NUM = binary32, written over its own state: each definition here is proved to be what
the command over any NUM does at `binary32`. The other laws are about these forms. -/

namespace Sys2Proof.Machine

/-! ### Writes -/

@[simp] theorem binary32_state (s : State) : binary32.state s = s := rfl
@[simp] theorem binary32_setState (s t : State) : binary32.setState s t = t := rfl
@[simp] theorem binary32_onState (f : State → State) (s : State) : binary32.onState f s = f s := rfl
@[simp] theorem binary32_num : binary32.num = num := rfl
@[simp] theorem binary32_clearValues (s : State) : binary32.clearValues s = s := rfl
@[simp] theorem binary32_forget (s : State) : binary32.forget s = s := rfl

theorem binary32_stage (w : Numerics Word → View Word → List (Write Word)) (s : State) :
    binary32.stage w s = s.commit num.bits32 (w num s.view) := rfl

@[simp] theorem State.commit_nil {F : Type} (bits : F → Word) (s : State) : s.commit bits [] = s := rfl

@[simp] theorem State.commit_cons {F : Type} (bits : F → Word) (s : State) (w : Write F) (l : List (Write F)) :
    s.commit bits (w :: l) = (s.apply bits w).commit bits l := rfl

theorem State.commit_append {F : Type} (bits : F → Word) (s : State) (l₁ l₂ : List (Write F)) :
    s.commit bits (l₁ ++ l₂) = (s.commit bits l₁).commit bits l₂ := List.foldl_append

theorem State.commit_wordWrites {F : Type} (bits : F → Word) (s : State) (l : List (Reg × Word)) :
    s.commit bits (wordWrites l) = s.setRegs l := List.foldl_map

theorem State.commit_values (s : State) (l : List (Reg × Word)) :
    s.commit num.bits32 (l.map (fun p => .value p.1 p.2)) = s.setRegs l := List.foldl_map

theorem State.setRegs_append (s : State) (l₁ l₂ : List (Reg × Word)) :
    s.setRegs (l₁ ++ l₂) = (s.setRegs l₁).setRegs l₂ := List.foldl_append

theorem num_bits32 (v : Word) : num.bits32 v = v := rfl

theorem State.apply_coef (s : State) (c : Channel) (cells : List Word) :
    s.apply num.bits32 (.coef c cells) = s.writeCoef c cells :=
  congrArg (s.writeCoef c) (List.map_id cells)

theorem State.apply_value (s : State) (r : Reg) (v : Word) : s.apply num.bits32 (.value r v) = s.setReg r v :=
  congrArg (s.setReg r) (num_bits32 v)

/-- RATIO or ASPECT reads as the pattern of the ratio under any NUM (R69, R237). -/
theorem State.apply_ratio {F : Type} (N : Numerics F) (s : State) (r : Reg) (ratio : Option F) :
    s.apply N.bits32 (.ratio r ratio) = s.setReg r (ratioWord N ratio) := rfl

theorem State.apply_phase (s : State) (p : Phase) : s.apply num.bits32 (.phase p) = s.setPhase p := rfl

theorem State.commit_planeWrites (s : State) (cells : Channel → List Word) :
    s.commit num.bits32 (planeWrites cells) = s.writePlanes cells := by
  have h : ∀ l : List Word, l.map num.bits32 = l := List.map_id
  simp only [planeWrites, State.commit_cons, State.commit_nil, State.apply, h]
  rfl

/-! ### The frame of a started command -/

/-- The completion step of a started command (R27 (b), R93, R303): the phase test, then the command's own tests, `check`,
then its writes, `effect`. The first failing test is the fault; it writes nothing else. -/
def runCommand (i : Instr) (check : State → Option EngineFault) (effect : State → State) (s : State) :
    Host.Outcome State Fault Refusal :=
  if accepts i s.status.phase then
    match check s with
    | some f => .next (s.takeFault i.opcode f)
    | none => .next (effect s).complete
  else .next (s.takeFault i.opcode (seqFault s))

theorem runCommand_eq (i : Instr) (check : State → Option EngineFault) (effect : State → State) (s : State) :
    binary32.run i check effect s = runCommand i check effect s := rfl

/-! ### The colour-space converter -/

/-- The sums over the image (R164). -/
def State.imageSums (s : State) : ColorSums Word := colorSums num s.image

/-- The average colour of the image (R164). -/
def State.background (s : State) : Rgb Word := averageColor num s.imageSums

/-- The samples of the image (R166). -/
def State.imageSamples (s : State) : List (Lpqa Word) := s.image.map (lpqaOfPixel num s.background)

/-- The writes of CT.FWD on success (R160, R49). -/
def ctFwdEffect (s : State) : State :=
  ((s.writePlanes (fun c => s.imageSamples.map (fun v => v.get c))).setRegs
    [(.plW, s.reg .imgW), (.plH, s.reg .imgH), (.hasAlpha, boolWord (anyTransparent s.image)),
     (.bgR, s.background.r), (.bgG, s.background.g), (.bgB, s.background.b), (.alphaSum, s.imageSums.sa)]).setPhase
    .ePlanes

theorem ctFwdEffect_eq (s : State) : binary32.stage ctFwdStage s = ctFwdEffect s := by
  rw [binary32_stage, ctFwdStage, State.commit_append, State.commit_planeWrites]
  rfl

/-- The sample at index i of the planes. -/
def State.sample (s : State) (i : Nat) : Lpqa Word where
  l := s.plane .L i
  p := s.plane .P i
  q := s.plane .Q i
  a := s.plane .A i

/-- The writes of CT.INV on success (R170, R49). -/
def ctInvEffect (s : State) : State :=
  let bytes := (List.range (s.nat .plW * s.nat .plH)).flatMap (fun i => pixelBytes num (s.sample i))
  (s.writePixout bytes).setPhase .dPix

theorem ctInvEffect_eq (s : State) : binary32.stage ctInvStage s = ctInvEffect s := rfl

/-! ### The DCT-II unit -/

/-- `fwd_channel` of channel c, on the planes and the grid in the registers. -/
def State.fwdResult (s : State) (c : Channel) : ChannelResult Word :=
  fwdChannel num (s.plane c) (s.nat .plW) (s.nat .plH) (s.nat (.nx c)) (s.nat (.ny c))

/-- R182: the results of one channel: DC_c, SC_c and COEF[c][0 .. NAC_c - 1]. -/
def writeFwdChannel (s t : State) (c : Channel) : State :=
  (t.writeCoef c ((s.fwdResult c).ac.take (s.nat (.nac c)))).setRegs
    [(.dc c, (s.fwdResult c).dc), (.sc c, (s.fwdResult c).scale)]

/-- R182: without alpha, A is fixed at dc = 1, scale = 1, and no COEF[3] cell is written. -/
def fixAlphaChannel (ha : Bool) (t : State) : State :=
  if ha then t else t.setRegs [(.dc .A, num.one), (.sc .A, num.one)]

/-- The writes of DCT.FWD on success (R182, R49). -/
def dctFwdEffect (s : State) : State :=
  (fixAlphaChannel s.hasAlpha ((channels s.hasAlpha).foldl (writeFwdChannel s) s)).setPhase .eCoef

theorem fwdStage_eq (s t : State) (c : Channel) :
    t.commit num.bits32 (fwdStage num s.view c) = writeFwdChannel s t c := by
  have e : fwdResult num s.view c = s.fwdResult c := rfl
  rw [fwdStage, e, State.commit_cons, State.commit_cons, State.commit_cons, State.commit_nil, State.apply_coef,
    State.apply_value, State.apply_value]
  rfl

theorem dctFwdEffect_eq (s : State) : binary32.stage dctFwdStage s = dctFwdEffect s := by
  have loop : ∀ (cs : List Channel) (t : State),
      t.commit num.bits32 (cs.flatMap (fwdStage num s.view)) = cs.foldl (writeFwdChannel s) t := by
    intro cs
    induction cs with
    | nil => exact fun _ => rfl
    | cons c cs ih => intro t; rw [List.flatMap_cons, State.commit_append, fwdStage_eq, ih, List.foldl_cons]
  rw [binary32_stage, dctFwdStage, State.commit_append, State.commit_append, loop, dctFwdEffect, fixAlphaChannel]
  show State.setPhase _ _ = State.setPhase _ _
  congr 1
  show State.commit _ _ (if s.hasAlpha = true then _ else _) = _
  by_cases h : s.hasAlpha = true
  · rw [if_pos h, if_pos h]; rfl
  · rw [if_neg h, if_neg h]; rfl

/-- R184: the reconstructed sample i = y*W + x of channel c; A is 1.0 without an alpha channel. -/
def State.invCell (s : State) (c : Channel) (i : Nat) : Word :=
  if c = .A ∧ s.hasAlpha = false then num.one
  else invSample num (s.reg (.dc c)) (s.coef c) (s.nat (.nx c)) (s.nat (.ny c)) (s.nat .outW) (s.nat .outH)
    (i % s.nat .outW) (i / s.nat .outW)

/-- The reconstructed plane of channel c, row by row. -/
def State.invPlane (s : State) (c : Channel) : List Word :=
  (List.range (s.nat .outW * s.nat .outH)).map (s.invCell c)

/-- The writes of DCT.INV on success (R184, R49). -/
def dctInvEffect (s : State) : State :=
  ((s.writePlanes s.invPlane).setRegs [(.plW, s.reg .outW), (.plH, s.reg .outH)]).setPhase .dPlanes

theorem dctInvEffect_eq (s : State) : binary32.stage dctInvStage s = dctInvEffect s := by
  rw [binary32_stage, dctInvStage, State.commit_append, State.commit_planeWrites]
  rfl

/-- The write of SCAN.CNT on success (R186). -/
def scanCntEffect (s : State) : State := s.setReg .scanCnt (natWord (scanCount (s.nat .scanNx) (s.nat .scanNy)))

theorem scanCntEffect_eq (s : State) : binary32.stage scanCntStage s = scanCntEffect s := rfl

/-- The writes of SCAN.NTH on success (R187). -/
def scanNthEffect (s : State) : State :=
  s.setRegs [(.scanCnt, natWord (scanCount (s.nat .scanNx) (s.nat .scanNy))), (.scanCx, natWord s.scanEntry.1),
    (.scanCy, natWord s.scanEntry.2)]

theorem scanNthEffect_eq (s : State) : binary32.stage scanNthStage s = scanNthEffect s := rfl

/-! ### The grid-size unit -/

/-- The writes of GRID.ENC on success (R230, R49). -/
def gridEncEffect (s : State) : State :=
  let w := s.nat .plW
  let h := s.nat .plH
  let l := encL Config.tie w h s.hasAlpha
  let g := encGrid w h s.hasAlpha
  (s.setRegs
    ([(.lx, natWord l.1), (.ly, natWord l.2), (.isLandscape, boolWord (decide (h < w))),
      (.lfield, natWord (if h < w then l.2 else l.1))] ++ gridRegs s.hasAlpha g.1 g.2)).setPhase .eGrid

theorem gridEncEffect_eq (s : State) : binary32.stage gridEncStage s = gridEncEffect s := by
  rw [binary32_stage, gridEncStage, State.commit_append, State.commit_wordWrites]
  rfl

/-- The writes of GRID.DEC on success (R235, R49). -/
def gridDecEffect (s : State) : State := (s.setRegs (decRegs s.hasAlpha s.landscape (s.nat .lfield))).setPhase .dGrid

theorem gridDecEffect_eq (s : State) : binary32.stage gridDecStage s = gridDecEffect s := by
  have e : s.view.state = s := rfl
  simp only [binary32_stage, gridDecStage, e, State.commit_append, State.commit_wordWrites, State.commit_cons,
    State.commit_nil, State.apply_ratio, State.apply_phase]
  rw [gridDecEffect, decRegs, State.setRegs_append, State.setRegs_cons, decRatio, ratioOf]

/-! ### The bit packer and unpacker -/

/-- R202: h24 = L_DC | P_DC << 6 | Q_DC << 12 | L_SCALE << 18 | HAS_ALPHA << 23. -/
def State.packHdr24 (s : State) : BitVec 24 :=
  BitVec.ofBool s.hasAlpha ++ quantLScale num (s.reg (.sc .L)) ++ quantPqDc num (s.reg (.dc .Q)) ++
    quantPqDc num (s.reg (.dc .P)) ++ quantLDc num (s.reg (.dc .L))

/-- R202: h16 = LFIELD | P_SCALE << 3 | Q_SCALE << 9 | IS_LANDSCAPE << 15. -/
def State.packHdr16 (s : State) : BitVec 16 :=
  BitVec.ofBool s.landscape ++ quantPqScale num (s.reg (.sc .Q)) ++ quantPqScale num (s.reg (.sc .P)) ++
    (s.reg .lfield).extractLsb' 0 3

/-- R202: hA = A_DC | A_SCALE << 4 with alpha, else 0. -/
def State.packHdrA (s : State) : Byte :=
  if s.hasAlpha then quantA num (s.reg (.sc .A)) ++ quantA num (s.reg (.dc .A)) else 0

/-- R200: the header bytes: five, and HASH[5] with alpha. -/
def State.packHeader (s : State) : List Byte :=
  [s.packHdr24.extractLsb' 0 8, s.packHdr24.extractLsb' 8 8, s.packHdr24.extractLsb' 16 8,
    s.packHdr16.extractLsb' 0 8, s.packHdr16.extractLsb' 8 8] ++ (if s.hasAlpha then [s.packHdrA] else [])

/-- R204: the nibbles of one channel, in scan order. -/
def State.packChannel (s : State) (c : Channel) : List (BitVec 4) :=
  (List.range (s.nat (.nac c))).map (fun j => quantNibble num (s.coef c j))

/-- R104, R204: the nibbles of all channels present, without padding between them. -/
def State.packNibbles (s : State) : List (BitVec 4) := (channels s.hasAlpha).flatMap s.packChannel

/-- The writes of PACK on success (R200, R49). -/
def packEffect (s : State) : State :=
  (((s.writeHash 0 s.packHeader).writeHash (s.nat .hdrLen) (pairNibbles s.packNibbles)).setRegs
    [(.hdr24, s.packHdr24.setWidth 32), (.hdr16, s.packHdr16.setWidth 32), (.hdrA, s.packHdrA.setWidth 32),
     (.nibcur, natWord s.packNibbles.length), (.hashLen, s.reg .reqLen)]).setPhase .eHash

theorem packEffect_eq (s : State) : binary32.stage packStage s = packEffect s := rfl

/-- The writes of UNPACK.HDR on success (R210, R49). -/
def unpackHdrEffect (s : State) : State :=
  (s.setRegs
    ([(.hdr24, s.hashHdr24.setWidth 32), (.hdr16, s.hashHdr16.setWidth 32), (.hdrA, s.unpackHdrA.setWidth 32),
      (.hasAlpha, boolWord (hasAlphaField s.hashHdr24)), (.isLandscape, boolWord (landscapeField s.hashHdr16)),
      (.lfield, (lfieldField s.hashHdr16).setWidth 32), (.hdrLen, if hasAlphaField s.hashHdr24 then 6 else 5)] ++
      dequantHeader num s.hashHdr24 s.hashHdr16 s.unpackHdrA)).setPhase .dHdr

theorem unpackHdrEffect_eq (s : State) : binary32.stage unpackHdrStage s = unpackHdrEffect s := by
  rw [binary32_stage, unpackHdrStage, State.commit_append, State.commit_append, State.commit_wordWrites,
    State.commit_values, ← State.setRegs_append]
  rfl

/-- R215: the coefficients of channel c from nibble k on. -/
def State.unpackChannel (s : State) (c : Channel) (k : Nat) : List Word :=
  (List.range (s.nat (.nac c))).map
    (fun j => dequantNibble num (s.nibble (s.nat .hdrLen) (k + j)) (boostedScale num c (s.reg (.sc c))))

/-- R215: one channel: its cells, and the cursor moved past its nibbles; the cursor is not reset between channels. -/
def unpackStep (s : State) (t : State × Nat) (c : Channel) : State × Nat :=
  (t.1.writeCoef c (s.unpackChannel c t.2), t.2 + s.nat (.nac c))

/-- The writes of UNPACK.AC on success (R215, R49). -/
def unpackAcEffect (s : State) : State :=
  let t := (channels s.hasAlpha).foldl (unpackStep s) (s, 0)
  (t.1.setReg .nibcur (natWord t.2)).setPhase .dCoef

theorem unpackAcEffect_eq (s : State) : binary32.stage unpackAcStage s = unpackAcEffect s := by
  have loop : ∀ (cs : List Channel) (t : State) (k : Nat),
      t.commit num.bits32 (unpackFrom num s.view cs k) =
        (cs.foldl (unpackStep s) (t, k)).1.setReg .nibcur (natWord (cs.foldl (unpackStep s) (t, k)).2) := by
    intro cs
    induction cs with
    | nil => exact fun _ _ => rfl
    | cons c cs ih =>
      intro t k
      rw [unpackFrom, State.commit_cons, State.apply_coef, ih]
      rfl
  rw [binary32_stage, unpackAcStage, State.commit_append, loop]
  rfl

/-! ### The composite commands and the extractors -/

/-- R250: CT.FWD, GRID.ENC, DCT.FWD, PACK without their tests; PACK leaves PHASE = 4. -/
def encodeEffect (s : State) : State := packEffect (dctFwdEffect (gridEncEffect (ctFwdEffect s)))

theorem encodeEffect_eq (s : State) : binary32.encodeStages s = encodeEffect s := by
  simp only [Engine.encodeStages, ctFwdEffect_eq, gridEncEffect_eq, dctFwdEffect_eq, packEffect_eq, encodeEffect]

/-- R255: UNPACK.HDR, GRID.DEC, UNPACK.AC, DCT.INV, CT.INV without their tests; CT.INV leaves PHASE = 9. -/
def decodeEffect (s : State) : State :=
  ctInvEffect (dctInvEffect (unpackAcEffect (gridDecEffect (unpackHdrEffect s))))

theorem decodeEffect_eq (s : State) : binary32.decodeStages s = decodeEffect s := by
  simp only [Engine.decodeStages, unpackHdrEffect_eq, gridDecEffect_eq, unpackAcEffect_eq, dctInvEffect_eq, ctInvEffect_eq,
    decodeEffect]

/-- The writes of AVGCOLOR on success (R270, R49). -/
def avgColorEffect (s : State) : State :=
  s.setRegs
    [(.avgR, num.clamp01 (headerColor num s.hashHdr24).r), (.avgG, num.clamp01 (headerColor num s.hashHdr24).g),
     (.avgB, num.clamp01 (headerColor num s.hashHdr24).b),
     (.avgA, if hasAlphaField s.hashHdr24 then dequantA num (aDcField (s.hash 5)) else num.one)]

theorem avgColorEffect_eq (s : State) : binary32.stage avgColorStage s = avgColorEffect s := by
  have e : s.view.state = s := rfl
  simp only [binary32_stage, avgColorStage, avgColorEffect, e, State.commit_cons, State.commit_nil, State.apply_value,
    State.setRegs_cons, State.setRegs_nil]

/-- The write of ASPECT on success (R273, R49). -/
def aspectEffect (s : State) : State :=
  s.setReg .aspectRatio
    (decRatio (hasAlphaField s.hashHdr24) (landscapeField s.hashHdr16) (lfieldField s.hashHdr16).toNat)

theorem aspectEffect_eq (s : State) : binary32.stage aspectStage s = aspectEffect s := rfl

/-! ### The machine -/

/-- The engine's commands are those over any NUM at binary32. -/
theorem exec_eq_engine (i : Instr) (s : State) : exec i s = binary32.exec i s := by
  cases i <;> simp only [exec, Engine.exec]
  all_goals first
    | rw [execClr] | rw [execSrst] | rw [execCtFwd] | rw [execGridEnc] | rw [execDctFwd] | rw [execPack]
    | rw [execUnpackHdr] | rw [execGridDec] | rw [execUnpackAc] | rw [execDctInv] | rw [execCtInv] | rw [execScanCnt]
    | rw [execScanNth] | rw [execEncode] | rw [execDecode] | rw [execAvgColor] | rw [execAspect]

/-- R27 (b), R93: the completion of the word in flight. -/
def runWord (w : Word) (s : State) : Host.Outcome State Fault Refusal :=
  match decode w with
  | .ok i => exec i s
  | .error _ => .next (s.illegalCommand w)

/-- The engine's turn. -/
def engineTurn (s : State) : Host.Outcome State Fault Refusal :=
  match s.inflight with
  | some w => runWord w s
  | none => .next s

/-- The outcome of an access. -/
def ofBusResult : BusResult → Host.Outcome State Fault Refusal
  | .outside off => .fault (.outsideWindow off)
  | .done s => .next s
  | .run i s => exec i s

/-- One step, event by event. -/
theorem step_eq (s : State) : step s =
    match s.host with
    | [] => if s.busy then engineTurn s.tick else .next s
    | .engine :: _ => engineTurn s.tick
    | .reset :: _ => .next s.tick.hardReset
    | .access a :: _ => ofBusResult (busAccess a s.tick) := by
  unfold step Engine.step
  simp only [binary32_state, binary32_onState, binary32_forget]
  rcases s.host with _ | ⟨_ | _ | _, _⟩ <;> rfl

end Sys2Proof.Machine
end

