-- ==== Sys2Proof/Laws/Memory.lean ====
section
/-! SUPPORT. What a memory reads after a write, that every write keeps the canonical form, and where the buffers lie. -/

namespace Sys2Proof.Machine

/-! ### Reading after writing -/

theorem Memory.read_append (m n : Memory) (a : Nat) :
    Memory.read (m ++ n) a = (Memory.read m a).or (Memory.read n a) := by
  unfold Memory.read
  induction m with
  | nil => simp
  | cons c m ih =>
    rw [List.cons_append, List.lookup_cons, List.lookup_cons, ih]
    cases a == c.1 <;> simp

theorem Memory.read_filter (m : Memory) (p : Nat → Bool) (a : Nat) :
    Memory.read (m.filter (fun c => p c.1)) a = if p a then Memory.read m a else none := by
  unfold Memory.read
  induction m with
  | nil => simp
  | cons c m ih =>
    rw [List.filter_cons, List.lookup_cons]
    by_cases ha : a = c.1
    · subst ha
      by_cases hc : p c.1 = true
      · rw [if_pos hc, List.lookup_cons]; simp [hc]
      · rw [if_neg hc, ih]; simp [hc]
    · have hb : (a == c.1) = false := by simp [ha]
      by_cases hc : p c.1 = true
      · rw [if_pos hc, List.lookup_cons, hb, ih]
      · rw [if_neg hc, hb, ih]

theorem Memory.read_block (a : Nat) (bs : List Byte) (x : Nat) :
    Memory.read (Memory.block a bs) x = if a ≤ x then bs[x - a]? else none := by
  induction bs generalizing a with
  | nil => simp [Memory.block, Memory.read]
  | cons b bs ih =>
    show List.lookup x ((a, b) :: Memory.block (a + 1) bs) = _
    rw [List.lookup_cons]
    have ih' := ih (a + 1)
    unfold Memory.read at ih'
    by_cases h : x = a
    · subst h; simp
    · have hb : (x == a) = false := by simp [h]
      rw [hb, ih']
      by_cases hx : a ≤ x
      · have h1 : a + 1 ≤ x := by omega
        have h2 : x - a = (x - (a + 1)) + 1 := by omega
        simp only [hx, h1, if_true]
        rw [h2, List.getElem?_cons_succ]
      · have h1 : ¬ a + 1 ≤ x := by omega
        simp [hx, h1]

/-- A write gives the written bytes and leaves every other byte alone. -/
theorem Memory.read_write (m : Memory) (a : Nat) (bs : List Byte) (x : Nat) :
    Memory.read (m.write a bs) x =
      if a ≤ x ∧ x < a + bs.length then bs[x - a]? else Memory.read m x := by
  unfold Memory.write
  rw [Memory.read_append, Memory.read_append, Memory.read_block,
    Memory.read_filter m (fun k => decide (k < a)), Memory.read_filter m (fun k => decide (a + bs.length ≤ k))]
  by_cases h1 : a ≤ x
  · by_cases h2 : x < a + bs.length
    · have h3 : ¬ x < a := by omega
      have h4 : ¬ a + bs.length ≤ x := by omega
      have h5 : x - a < bs.length := by omega
      simp only [h1, h2, h3, h4, List.getElem?_eq_getElem h5, decide_false, and_self, if_true, if_false,
        Option.none_or, Option.some_or, Bool.false_eq_true]
    · have h3 : ¬ x < a := by omega
      have h4 : a + bs.length ≤ x := by omega
      have h5 : bs[x - a]? = none := List.getElem?_eq_none (by omega)
      simp [h1, h2, h3, h4, h5]
  · have h3 : x < a := by omega
    have h4 : ¬ a + bs.length ≤ x := by omega
    simp [h1, h3, h4]

theorem Memory.read_write_outside (m : Memory) (a : Nat) (bs : List Byte) (x : Nat) (h : x < a ∨ a + bs.length ≤ x) :
    Memory.read (m.write a bs) x = Memory.read m x := by
  rw [Memory.read_write, if_neg (by omega)]

/-- What a byte reads as after a write. -/
theorem State.byteAt_writeBytes (s : State) (a : Nat) (bs : List Byte) (x : Nat) :
    (s.writeBytes a bs).byteAt x = if a ≤ x ∧ x < a + bs.length then bs.getD (x - a) 0 else s.byteAt x := by
  unfold State.byteAt
  simp only [State.writeBytes_mem, State.writeBytes_resets]
  rw [Memory.read_write]
  by_cases h : a ≤ x ∧ x < a + bs.length
  · have hlt : x - a < bs.length := by omega
    simp [h, List.getElem?_eq_getElem hlt]
  · simp [h]

theorem State.byteAt_writeBytes_outside (s : State) (a : Nat) (bs : List Byte) (x : Nat)
    (h : x < a ∨ a + bs.length ≤ x) : (s.writeBytes a bs).byteAt x = s.byteAt x := by
  rw [State.byteAt_writeBytes, if_neg (by omega)]

/-! ### Words -/

theorem bytesOfWord_length (w : Word) : (bytesOfWord w).length = 4 := rfl

theorem wordOfBytes_bytesOfWord (w : Word) :
    wordOfBytes (w.extractLsb' 0 8) (w.extractLsb' 8 8) (w.extractLsb' 16 8) (w.extractLsb' 24 8) = w := by
  unfold wordOfBytes
  apply BitVec.eq_of_getLsbD_eq
  intro i hi
  simp only [BitVec.getLsbD_append, BitVec.getLsbD_extractLsb']
  by_cases h1 : i < 8
  · simp [h1]
  · by_cases h2 : i < 16
    · simp [h1, show i - 8 < 8 by omega, show 8 + (i - 8) = i by omega]
    · by_cases h3 : i < 24
      · simp [h1, show ¬ i - 8 < 8 by omega, show i - 8 - 8 < 8 by omega, show 16 + (i - 8 - 8) = i by omega]
      · simp [h1, show ¬ i - 8 < 8 by omega, show ¬ i - 8 - 8 < 8 by omega, show i - 8 - 8 - 8 < 8 by omega,
          show 24 + (i - 8 - 8 - 8) = i by omega]

theorem flatMap_bytesOfWord_length (ws : List Word) : (ws.flatMap bytesOfWord).length = 4 * ws.length := by
  induction ws with
  | nil => rfl
  | cons w ws ih => rw [List.flatMap_cons, List.length_append, ih, bytesOfWord_length, List.length_cons]; omega

theorem flatMap_bytesOfWord_getD (ws : List Word) (i k : Nat) (hi : i < ws.length) (hk : k < 4) :
    (ws.flatMap bytesOfWord).getD (4 * i + k) 0 = (bytesOfWord (ws.getD i 0)).getD k 0 := by
  induction ws generalizing i with
  | nil => simp at hi
  | cons w ws ih =>
    rw [List.flatMap_cons]
    cases i with
    | zero =>
      simp only [List.getD_eq_getElem?_getD, Nat.mul_zero, Nat.zero_add]
      rw [List.getElem?_append_left (by simpa [bytesOfWord_length] using hk)]
      simp
    | succ i =>
      have hi' : i < ws.length := by simpa using hi
      have := ih i hi'
      simp only [List.getD_eq_getElem?_getD] at this ⊢
      rw [List.getElem?_append_right (by rw [bytesOfWord_length]; omega), bytesOfWord_length,
        show 4 * (i + 1) + k - 4 = 4 * i + k by omega, this]
      simp

/-- A word written among consecutive words reads back. -/
theorem State.wordAt_writeWords (s : State) (a : Nat) (ws : List Word) (i : Nat) (h : i < ws.length) :
    (s.writeBytes a (ws.flatMap bytesOfWord)).wordAt (a + 4 * i) = ws.getD i 0 := by
  have key : ∀ k, k < 4 → (s.writeBytes a (ws.flatMap bytesOfWord)).byteAt (a + 4 * i + k) =
      (bytesOfWord (ws.getD i 0)).getD k 0 := by
    intro k hk
    rw [State.byteAt_writeBytes, flatMap_bytesOfWord_length, if_pos (by omega),
      show a + 4 * i + k - a = 4 * i + k by omega, flatMap_bytesOfWord_getD ws i k h hk]
  unfold State.wordAt
  rw [show a + 4 * i = a + 4 * i + 0 from rfl, key 0 (by omega), key 1 (by omega), key 2 (by omega), key 3 (by omega)]
  exact wordOfBytes_bytesOfWord _

theorem State.wordAt_writeBytes_outside (s : State) (a : Nat) (bs : List Byte) (x : Nat)
    (h : x + 4 ≤ a ∨ a + bs.length ≤ x) : (s.writeBytes a bs).wordAt x = s.wordAt x := by
  unfold State.wordAt
  rw [State.byteAt_writeBytes_outside _ _ _ _ (by omega), State.byteAt_writeBytes_outside _ _ _ _ (by omega),
    State.byteAt_writeBytes_outside _ _ _ _ (by omega), State.byteAt_writeBytes_outside _ _ _ _ (by omega)]

/-! ### The canonical form -/

theorem Memory.mem_block (a : Nat) (bs : List Byte) (c : Host.Cell) (h : c ∈ Memory.block a bs) :
    a ≤ c.1 ∧ c.1 < a + bs.length := by
  induction bs generalizing a with
  | nil => simp [Memory.block] at h
  | cons b bs ih =>
    rcases List.mem_cons.mp h with rfl | h
    · simp
    · have := ih (a + 1) h
      simp only [List.length_cons]
      omega

theorem Memory.block_rising (a : Nat) (bs : List Byte) :
    (Memory.block a bs).Pairwise (fun x y => x.1 < y.1) := by
  induction bs generalizing a with
  | nil => exact List.Pairwise.nil
  | cons b bs ih =>
    refine List.Pairwise.cons (fun c hc => ?_) (ih (a + 1))
    have := Memory.mem_block _ _ _ hc
    show a < c.1
    omega

/-- Writing bytes of a memory keeps the canonical form. -/
theorem Memory.wf_write (m : Memory) (a : Nat) (bs : List Byte) (hm : Memory.wf m)
    (ha : ∀ x, a ≤ x → x < a + bs.length → mappedByte x = true) : Memory.wf (m.write a bs) := by
  constructor
  · unfold Memory.write
    rw [List.pairwise_append, List.pairwise_append]
    refine ⟨⟨hm.1.filter _, Memory.block_rising a bs, ?_⟩, hm.1.filter _, ?_⟩
    · intro x hx y hy
      have h1 := (List.mem_filter.mp hx).2
      have h2 := Memory.mem_block _ _ _ hy
      simp only [decide_eq_true_eq] at h1
      omega
    · intro x hx y hy
      have h2 := (List.mem_filter.mp hy).2
      simp only [decide_eq_true_eq] at h2
      rcases List.mem_append.mp hx with hx | hx
      · have h1 := (List.mem_filter.mp hx).2
        simp only [decide_eq_true_eq] at h1
        omega
      · have h1 := Memory.mem_block _ _ _ hx
        omega
  · intro c hc
    unfold Memory.write at hc
    rcases List.mem_append.mp hc with hc | hc
    · rcases List.mem_append.mp hc with hc | hc
      · exact hm.2 c (List.mem_filter.mp hc).1
      · have := Memory.mem_block _ _ _ hc
        exact ha _ this.1 this.2
    · exact hm.2 c (List.mem_filter.mp hc).1

theorem Memory.wf_nil : Memory.wf [] := ⟨List.Pairwise.nil, by simp⟩

/-- The memory at reset has the canonical form. -/
theorem reset_memory_wf : Memory.wf State.reset.mem := Memory.wf_nil

/-! ### Where the buffers lie (R60) -/

/-- The rows of R60's map that are memories, each as an interval of offsets. -/
theorem regionOf_iff (a : Nat) :
    (regionOf a = .hash ↔ 0x200 ≤ a ∧ a < 0x220) ∧ (regionOf a = .coef ↔ 0x400 ≤ a ∧ a < 0x600) ∧
      (regionOf a = .pixout ↔ 0x2000 ≤ a ∧ a < 0x4000) ∧ (regionOf a = .pixin ↔ 0x10000 ≤ a ∧ a < 0x19C40) ∧
      (regionOf a = .plane ↔ 0x40000 ≤ a ∧ a < 0x80000 ∧ a % 0x10000 < 0x9C40) := by
  unfold regionOf
  split_ifs <;> simp only [true_iff, false_iff, not_and] <;> omega

theorem regionOf_hash {a : Nat} (h1 : 0x200 ≤ a) (h2 : a < 0x220) : regionOf a = .hash :=
  (regionOf_iff a).1.mpr ⟨h1, h2⟩

theorem regionOf_coef {a : Nat} (h1 : 0x400 ≤ a) (h2 : a < 0x600) : regionOf a = .coef :=
  (regionOf_iff a).2.1.mpr ⟨h1, h2⟩

theorem regionOf_pixout {a : Nat} (h1 : 0x2000 ≤ a) (h2 : a < 0x4000) : regionOf a = .pixout :=
  (regionOf_iff a).2.2.1.mpr ⟨h1, h2⟩

theorem regionOf_pixin {a : Nat} (h1 : 0x10000 ≤ a) (h2 : a < 0x19C40) : regionOf a = .pixin :=
  (regionOf_iff a).2.2.2.1.mpr ⟨h1, h2⟩

theorem regionOf_plane {a : Nat} (h1 : 0x40000 ≤ a) (h2 : a < 0x80000) (h3 : a % 0x10000 < 0x9C40) :
    regionOf a = .plane :=
  (regionOf_iff a).2.2.2.2.mpr ⟨h1, h2, h3⟩

theorem Channel.index_lt (c : Channel) : c.index.val < 4 := c.index.isLt

theorem State.writeBytes_wf (s : State) (a : Nat) (bs : List Byte) (hs : Memory.wf s.mem)
    (ha : ∀ x, a ≤ x → x < a + bs.length → mappedByte x = true) : Memory.wf (s.writeBytes a bs).mem :=
  Memory.wf_write _ _ _ hs ha

theorem State.writeHash_wf (s : State) (i : Nat) (bs : List Byte) (hs : Memory.wf s.mem) :
    Memory.wf (s.writeHash i bs).mem := by
  refine State.writeBytes_wf _ _ _ hs fun x h1 h2 => ?_
  simp only [hashBase, List.length_take] at h1 h2
  simp [mappedByte, regionOf_hash (a := x) (by omega) (by omega)]

theorem State.writePixout_wf (s : State) (bs : List Byte) (hs : Memory.wf s.mem) :
    Memory.wf (s.writePixout bs).mem := by
  refine State.writeBytes_wf _ _ _ hs fun x h1 h2 => ?_
  simp only [pixoutBase, List.length_take] at h1 h2
  simp [mappedByte, regionOf_pixout (a := x) (by omega) (by omega)]

theorem State.writeCoef_wf (s : State) (c : Channel) (ws : List Word) (hs : Memory.wf s.mem) :
    Memory.wf (s.writeCoef c ws).mem := by
  refine State.writeBytes_wf _ _ _ hs fun x h1 h2 => ?_
  rw [flatMap_bytesOfWord_length, List.length_take] at h2
  have := c.index_lt
  simp only [coefBase] at h1 h2
  simp [mappedByte, regionOf_coef (a := x) (by omega) (by omega)]

theorem State.writePlane_wf (s : State) (c : Channel) (ws : List Word) (hs : Memory.wf s.mem) :
    Memory.wf (s.writePlane c ws).mem := by
  refine State.writeBytes_wf _ _ _ hs fun x h1 h2 => ?_
  rw [flatMap_bytesOfWord_length, List.length_take] at h2
  have := c.index_lt
  simp only [planeBase] at h1 h2
  simp [mappedByte, regionOf_plane (a := x) (by omega) (by omega) (by omega)]

/-- The bytes of the memories, as ranges (R60). -/
theorem mappedByte_iff (a : Nat) : mappedByte a = true ↔
    (0x200 ≤ a ∧ a < 0x220) ∨ (0x400 ≤ a ∧ a < 0x600) ∨ (0x2000 ≤ a ∧ a < 0x4000) ∨ (0x10000 ≤ a ∧ a < 0x19C40) ∨
      (0x40000 ≤ a ∧ a < 0x80000 ∧ a % 0x10000 < 0x9C40) := by
  constructor
  · intro h
    by_contra hn
    have hr : regionOf a = .registers ∨ regionOf a = .hole := by
      unfold regionOf
      by_cases c1 : a < 0x200
      · simp [c1]
      by_cases c2 : a < 0x400
      · simp [c1, c2, show ¬ a < 0x220 by omega]
      by_cases c3 : a < 0x2000
      · simp [c1, c2, c3, show ¬ a < 0x220 by omega, show ¬ a < 0x600 by omega]
      by_cases c4 : a < 0x10000
      · simp [c1, c2, c3, c4, show ¬ a < 0x220 by omega, show ¬ a < 0x600 by omega, show ¬ a < 0x4000 by omega]
      have c5 : ¬ (a < 0x80000 ∧ a % 0x10000 < 0x9C40) ∨ a < 0x40000 := by omega
      by_cases c6 : a < 0x40000
      · simp [c1, c2, c3, c4, c6, show ¬ a < 0x220 by omega, show ¬ a < 0x600 by omega, show ¬ a < 0x4000 by omega,
          show ¬ a < 0x19C40 by omega]
      · rw [if_neg c1, if_neg (show ¬ a < 0x220 by omega), if_neg c2, if_neg (show ¬ a < 0x600 by omega), if_neg c3,
          if_neg (show ¬ a < 0x4000 by omega), if_neg c4, if_neg (show ¬ a < 0x19C40 by omega), if_neg c6,
          if_neg (c5.resolve_right c6)]
        exact .inr rfl
    rcases hr with hr | hr <;> simp [mappedByte, hr] at h
  · rintro (⟨h1, h2⟩ | ⟨h1, h2⟩ | ⟨h1, h2⟩ | ⟨h1, h2⟩ | ⟨h1, h2, h3⟩)
    · simp [mappedByte, regionOf_hash h1 h2]
    · simp [mappedByte, regionOf_coef h1 h2]
    · simp [mappedByte, regionOf_pixout h1 h2]
    · simp [mappedByte, regionOf_pixin h1 h2]
    · simp [mappedByte, regionOf_plane h1 h2 h3]

/-- The bytes of an aligned word are all of one memory or none. -/
theorem mappedByte_add {a : Nat} (h : mappedByte a = true) (hal : a % 4 = 0) {k : Nat} (hk : k < 4) :
    mappedByte (a + k) = true := by
  rw [mappedByte_iff] at *
  omega

/-! ### Reading the buffers after writing them -/

theorem take_getD {α : Type} (l : List α) (n i : Nat) (d : α) (h : i < n) : (l.take n).getD i d = l.getD i d := by
  rw [List.getD_eq_getElem?_getD, List.getD_eq_getElem?_getD, List.getElem?_take_of_lt h]

/-- The cells a write of a plane replaces. -/
theorem State.plane_writePlane (s : State) (c : Channel) (ws : List Word) (i : Nat) (h : i < ws.length)
    (hi : i < 10000) : (s.writePlane c ws).plane c i = ws.getD i 0 := by
  unfold State.plane State.writePlane
  rw [State.wordAt_writeWords _ _ _ _ (by rw [List.length_take]; omega), take_getD _ _ _ _ hi]

theorem Channel.index_ne {c d : Channel} (h : c ≠ d) : c.index.val ≠ d.index.val := by
  cases c <;> cases d <;> first | exact absurd rfl h | decide

theorem State.plane_writePlane_ne (s : State) {c d : Channel} (ws : List Word) (i : Nat) (h : c ≠ d) (hi : i < 10000) :
    (s.writePlane c ws).plane d i = s.plane d i := by
  unfold State.plane State.writePlane
  have := Channel.index_ne h
  have hc := c.index_lt
  have hd := d.index_lt
  refine State.wordAt_writeBytes_outside _ _ _ _ ?_
  rw [flatMap_bytesOfWord_length, List.length_take]
  unfold planeBase
  omega

/-- The cells a write of all planes replaces. -/
theorem State.plane_writePlanes (s : State) (cells : Channel → List Word) (c : Channel) (i : Nat)
    (h : i < (cells c).length) (hi : i < 10000) : (s.writePlanes cells).plane c i = (cells c).getD i 0 := by
  unfold State.writePlanes
  cases c
  · rw [State.plane_writePlane_ne _ _ _ (by decide) hi, State.plane_writePlane_ne _ _ _ (by decide) hi,
      State.plane_writePlane_ne _ _ _ (by decide) hi, State.plane_writePlane _ _ _ _ h hi]
  · rw [State.plane_writePlane_ne _ _ _ (by decide) hi, State.plane_writePlane_ne _ _ _ (by decide) hi,
      State.plane_writePlane _ _ _ _ h hi]
  · rw [State.plane_writePlane_ne _ _ _ (by decide) hi, State.plane_writePlane _ _ _ _ h hi]
  · rw [State.plane_writePlane _ _ _ _ h hi]

theorem State.writePlanes_regs (s : State) (cells : Channel → List Word) : (s.writePlanes cells).regs = s.regs := rfl

theorem State.writePlanes_resets (s : State) (cells : Channel → List Word) : (s.writePlanes cells).resets = s.resets := rfl

theorem State.writePlanes_wf (s : State) (cells : Channel → List Word) (h : Memory.wf s.mem) :
    Memory.wf (s.writePlanes cells).mem :=
  State.writePlane_wf _ _ _ (State.writePlane_wf _ _ _ (State.writePlane_wf _ _ _ (State.writePlane_wf _ _ _ h)))

/-- The cells a write of coefficients replaces. -/
theorem State.coef_writeCoef (s : State) (c : Channel) (ws : List Word) (j : Nat) (h : j < ws.length) (hj : j < 32) :
    (s.writeCoef c ws).coef c j = ws.getD j 0 := by
  unfold State.coef State.writeCoef
  rw [State.wordAt_writeWords _ _ _ _ (by rw [List.length_take]; omega), take_getD _ _ _ _ hj]

theorem State.coef_writeCoef_ne (s : State) {c d : Channel} (ws : List Word) (j : Nat) (h : c ≠ d) (hj : j < 32) :
    (s.writeCoef c ws).coef d j = s.coef d j := by
  unfold State.coef State.writeCoef
  have := Channel.index_ne h
  have hc := c.index_lt
  have hd := d.index_lt
  refine State.wordAt_writeBytes_outside _ _ _ _ ?_
  rw [flatMap_bytesOfWord_length, List.length_take]
  unfold coefBase
  omega

/-- The bytes a write of HASH replaces. -/
theorem State.hash_writeHash (s : State) (i : Nat) (bs : List Byte) (k : Nat) (h : i ≤ k) (hk : k < i + bs.length)
    (h32 : k < 32) : (s.writeHash i bs).hash k = bs.getD (k - i) 0 := by
  unfold State.hash State.writeHash
  rw [State.byteAt_writeBytes, List.length_take, if_pos (by omega), take_getD _ _ _ _ (by omega),
    show hashBase + k - (hashBase + i) = k - i by omega]

theorem State.hash_writeHash_outside (s : State) (i : Nat) (bs : List Byte) (k : Nat) (h : k < i ∨ i + bs.length ≤ k) :
    (s.writeHash i bs).hash k = s.hash k := by
  unfold State.hash State.writeHash
  refine State.byteAt_writeBytes_outside _ _ _ _ ?_
  rw [List.length_take]
  omega

/-- The bytes a write of PIXOUT replaces. -/
theorem State.byteAt_writePixout (s : State) (bs : List Byte) (k : Nat) (h : k < bs.length) (hk : k < 8192) :
    (s.writePixout bs).byteAt (pixoutBase + k) = bs.getD k 0 := by
  unfold State.writePixout
  rw [State.byteAt_writeBytes, List.length_take, if_pos (by omega), take_getD _ _ _ _ (by omega),
    show pixoutBase + k - pixoutBase = k by omega]

/-- What the buffers hold depends on the memories and the number of resets alone. -/
theorem State.byteAt_congr {s t : State} (hm : t.mem = s.mem) (hd : t.resets = s.resets) (a : Nat) :
    t.byteAt a = s.byteAt a := by
  unfold State.byteAt
  rw [hm, hd]

theorem State.wordAt_congr {s t : State} (hm : t.mem = s.mem) (hd : t.resets = s.resets) (a : Nat) :
    t.wordAt a = s.wordAt a := by
  unfold State.wordAt
  simp only [State.byteAt_congr hm hd]

end Sys2Proof.Machine
end

