-- ==== Sys2Proof/Laws/Commands.lean ====
section
/-! SUPPORT. What a command can do: one inversion lemma for every started command, and for each effect the fields, registers
and bytes it leaves alone. -/

namespace Sys2Proof.Machine

/-! ### The shape of a completion -/

/-- The tests a started command makes after its phase test. -/
def checkOf : Instr → State → Option EngineFault
  | .clr | .srst | .gridEnc | .dctFwd | .gridDec | .dctInv => noCheck
  | .ctFwd => checkImage
  | .pack => checkHashCap
  | .unpackHdr => checkHeaderLength
  | .unpackAc => checkTruncated
  | .ctInv => checkPixoutCap
  | .scanCnt => checkScanGrid
  | .scanNth => checkScanIndex
  | .encode => checkEncode
  | .decode => checkDecode num
  | .avgColor => checkHeaderLength
  | .aspect => checkAspectLength

/-- The writes of a started command on success. -/
def effectOf : Instr → State → State
  | .clr | .srst => id
  | .ctFwd => ctFwdEffect
  | .gridEnc => gridEncEffect
  | .dctFwd => dctFwdEffect
  | .pack => packEffect
  | .unpackHdr => unpackHdrEffect
  | .gridDec => gridDecEffect
  | .unpackAc => unpackAcEffect
  | .dctInv => dctInvEffect
  | .ctInv => ctInvEffect
  | .scanCnt => scanCntEffect
  | .scanNth => scanNthEffect
  | .encode => encodeEffect
  | .decode => decodeEffect
  | .avgColor => avgColorEffect
  | .aspect => aspectEffect

/-- R28, R308: PHASE after a successful completion. -/
def phaseAfter : Instr → Phase → Phase
  | .ctFwd, _ => .ePlanes
  | .gridEnc, _ => .eGrid
  | .dctFwd, _ => .eCoef
  | .pack, _ | .encode, _ => .eHash
  | .unpackHdr, _ => .dHdr
  | .gridDec, _ => .dGrid
  | .unpackAc, _ => .dCoef
  | .dctInv, _ => .dPlanes
  | .ctInv, _ | .decode, _ => .dPix
  | .srst, _ => .none
  | .clr, p | .scanCnt, p | .scanNth, p | .avgColor, p | .aspect, p => p

/-- A unit command over any NUM, at binary32. -/
theorem run_stage (i : Instr) (check : State → Option EngineFault) {w : Numerics Word → View Word → List (Write Word)}
    {effect : State → State} (h : ∀ s, binary32.stage w s = effect s) (s : State) :
    binary32.run i check (binary32.stage w) s = runCommand i check effect s := by
  rw [funext h, runCommand_eq]

theorem exec_eq_runCommand (i : Instr) (s : State) (h : immediate i = false) :
    exec i s = runCommand i (checkOf i) (effectOf i) s := by
  cases i with
  | clr => cases h
  | srst => cases h
  | ctFwd => exact run_stage .ctFwd checkImage ctFwdEffect_eq s
  | gridEnc => exact run_stage .gridEnc noCheck gridEncEffect_eq s
  | dctFwd => exact run_stage .dctFwd noCheck dctFwdEffect_eq s
  | pack => exact run_stage .pack checkHashCap packEffect_eq s
  | unpackHdr => exact run_stage .unpackHdr checkHeaderLength unpackHdrEffect_eq s
  | gridDec => exact run_stage .gridDec noCheck gridDecEffect_eq s
  | unpackAc => exact run_stage .unpackAc checkTruncated unpackAcEffect_eq s
  | dctInv => exact run_stage .dctInv noCheck dctInvEffect_eq s
  | ctInv => exact run_stage .ctInv checkPixoutCap ctInvEffect_eq s
  | scanCnt => exact run_stage .scanCnt checkScanGrid scanCntEffect_eq s
  | scanNth => exact run_stage .scanNth checkScanIndex scanNthEffect_eq s
  | avgColor => exact run_stage .avgColor checkHeaderLength avgColorEffect_eq s
  | aspect => exact run_stage .aspect checkAspectLength aspectEffect_eq s
  | encode =>
    show binary32.run .encode checkEncode binary32.encodeStages s = _
    rw [funext encodeEffect_eq]
    rfl
  | decode =>
    show binary32.run .decode (checkDecode num) binary32.decodeStages s = _
    rw [funext decodeEffect_eq]
    rfl

/-- The three outcomes of a completion step. -/
theorem runCommand_cases {i : Instr} {check : State → Option EngineFault} {effect : State → State} {s t : State}
    (h : runCommand i check effect s = .next t) :
    (accepts i s.status.phase = false ∧ t = s.takeFault i.opcode (seqFault s)) ∨
      (accepts i s.status.phase = true ∧ ∃ f, check s = some f ∧ t = s.takeFault i.opcode f) ∨
      (accepts i s.status.phase = true ∧ check s = none ∧ t = (effect s).complete) := by
  unfold runCommand at h
  by_cases ha : accepts i s.status.phase = true
  · rw [if_pos ha] at h
    cases hc : check s with
    | none =>
      rw [hc] at h
      exact .inr (.inr ⟨ha, rfl, (Host.Outcome.next.inj h).symm⟩)
    | some f =>
      rw [hc] at h
      exact .inr (.inl ⟨ha, f, rfl, (Host.Outcome.next.inj h).symm⟩)
  · rw [if_neg ha] at h
    exact .inl ⟨by simpa using ha, (Host.Outcome.next.inj h).symm⟩

theorem runCommand_success (i : Instr) {check : State → Option EngineFault} {effect : State → State} {s : State}
    (ha : accepts i s.status.phase = true) (hc : check s = none) :
    runCommand i check effect s = .next (effect s).complete := by
  simp [runCommand, ha, hc]

theorem runCommand_fault (i : Instr) {check : State → Option EngineFault} {effect : State → State} {s : State}
    {f : EngineFault} (ha : accepts i s.status.phase = true) (hc : check s = some f) :
    runCommand i check effect s = .next (s.takeFault i.opcode f) := by
  simp [runCommand, ha, hc]

theorem runCommand_outOfPhase (i : Instr) {check : State → Option EngineFault} {effect : State → State} {s : State}
    (ha : accepts i s.status.phase = false) :
    runCommand i check effect s = .next (s.takeFault i.opcode (seqFault s)) := by
  simp [runCommand, ha]

theorem runCommand_next (i : Instr) (check : State → Option EngineFault) (effect : State → State) (s : State) :
    ∃ t, runCommand i check effect s = .next t := by
  unfold runCommand
  by_cases ha : accepts i s.status.phase = true
  · rw [if_pos ha]
    cases check s with
    | none => exact ⟨_, rfl⟩
    | some f => exact ⟨_, rfl⟩
  · rw [if_neg ha]
    exact ⟨_, rfl⟩

/-- No command stops the machine. -/
theorem exec_next (i : Instr) (s : State) : ∃ t, exec i s = .next t := by
  cases hi : immediate i with
  | false => rw [exec_eq_runCommand i s hi]; exact runCommand_next _ _ _ _
  | true =>
    cases i with
    | clr => exact ⟨_, rfl⟩
    | srst => exact ⟨_, rfl⟩
    | _ => exact absurd hi (by decide)

theorem immediate_iff (i : Instr) : immediate i = true ↔ i = .clr ∨ i = .srst := by
  cases i <;> decide

/-! ### Taking a fault -/

theorem causeWord_eq (op : BitVec 8) (code : FaultCode) :
    causeWord op code = BitVec.ofNat 32 (256 * op.toNat + code.number.toNat) := by
  apply BitVec.eq_of_toNat_eq
  have h1 := op.isLt
  have h2 := code.number.isLt
  simp only [causeWord, BitVec.toNat_append, BitVec.toNat_ofNat]
  rw [← Nat.shiftLeft_add_eq_or_of_lt (by omega), ← Nat.shiftLeft_add_eq_or_of_lt (by omega)]
  rw [show (0 : BitVec 16).toNat = 0 from rfl]
  simp only [Nat.shiftLeft_eq]
  omega

/-- `State.takeFault` is the fault of R304. -/
theorem faulted_takeFault (s : State) (op : BitVec 8) (f : EngineFault) :
    Faulted s (s.takeFault op f) op f.code.number.toNat f.info where
  codes := by cases f.code <;> decide
  idle := rfl
  status := rfl
  cause := by rw [State.reg_takeFault, if_pos rfl, causeWord_eq]
  finfo := by rw [State.reg_takeFault, if_neg (by decide), if_pos rfl]
  regs := fun r h1 h2 => by rw [State.reg_takeFault, if_neg h1, if_neg h2]
  mem := rfl
  host := rfl
  reply := rfl
  draws := rfl
  resets := rfl

/-- A fault is determined by what R304 says of it. -/
theorem Faulted.unique {s t u : State} {op : BitVec 8} {code : Nat} {info : Word} (ht : Faulted s t op code info)
    (hu : Faulted s u op code info) : t = u := by
  have hr : t.regs = u.regs := State.regs_ext fun r => by
    by_cases h1 : r = .cause
    · rw [h1, ht.cause, hu.cause]
    · by_cases h2 : r = .finfo
      · rw [h2, ht.finfo, hu.finfo]
      · rw [ht.regs r h1 h2, hu.regs r h1 h2]
  have h1 := ht.idle.trans hu.idle.symm
  have h2 := ht.status.trans hu.status.symm
  have h3 := ht.mem.trans hu.mem.symm
  have h4 := ht.host.trans hu.host.symm
  have h5 := ht.reply.trans hu.reply.symm
  have h6 := ht.draws.trans hu.draws.symm
  have h7 := ht.resets.trans hu.resets.symm
  cases t; cases u
  simp_all

/-! ### Frames -/

theorem Frame.refl (s : State) : Frame s s [] noBytes :=
  ⟨fun _ _ => rfl, fun _ _ => rfl, rfl, rfl, rfl, rfl, rfl, rfl⟩

theorem Frame.trans {s t u : State} {w₁ w₂ w : List Reg} {b₁ b₂ b : Nat → Prop} (h₁ : Frame s t w₁ b₁)
    (h₂ : Frame t u w₂ b₂) (hw₁ : ∀ r ∈ w₁, r ∈ w) (hw₂ : ∀ r ∈ w₂, r ∈ w) (hb₁ : ∀ a, b₁ a → b a)
    (hb₂ : ∀ a, b₂ a → b a) : Frame s u w b where
  regs := fun r hr => (h₂.regs r fun h => hr (hw₂ r h)).trans (h₁.regs r fun h => hr (hw₁ r h))
  bytes := fun a ha => (h₂.bytes a fun h => ha (hb₂ a h)).trans (h₁.bytes a fun h => ha (hb₁ a h))
  fault := h₂.fault.trans h₁.fault
  ovr := h₂.ovr.trans h₁.ovr
  host := h₂.host.trans h₁.host
  reply := h₂.reply.trans h₁.reply
  draws := h₂.draws.trans h₁.draws
  resets := h₂.resets.trans h₁.resets

theorem Frame.mono {s t : State} {w₁ w : List Reg} {b₁ b : Nat → Prop} (h : Frame s t w₁ b₁)
    (hw : ∀ r ∈ w₁, r ∈ w) (hb : ∀ a, b₁ a → b a) : Frame s t w b where
  regs := fun r hr => h.regs r fun h' => hr (hw r h')
  bytes := fun a ha => h.bytes a fun h' => ha (hb a h')
  fault := h.fault
  ovr := h.ovr
  host := h.host
  reply := h.reply
  draws := h.draws
  resets := h.resets

/-- A byte outside the frame reads as before. -/
theorem Frame.byteAt {s t : State} {w : List Reg} {b : Nat → Prop} (h : Frame s t w b) {a : Nat} (ha : ¬ b a) :
    t.byteAt a = s.byteAt a := by
  unfold State.byteAt
  rw [h.bytes a ha, h.resets]

theorem Frame.setRegs (s : State) (l : List (Reg × Word)) : Frame s (s.setRegs l) (l.map Prod.fst) noBytes :=
  ⟨fun r hr => State.reg_setRegs_of_not_mem s l r hr, fun _ _ => by simp, by simp, by simp, by simp, by simp, by simp, by simp⟩

theorem Frame.setReg (s : State) (r : Reg) (v : Word) : Frame s (s.setReg r v) [r] noBytes :=
  ⟨fun r' hr => State.reg_setReg_ne s v fun h => hr (by simp [h]), fun _ _ => rfl, rfl, rfl, rfl, rfl, rfl, rfl⟩

theorem Frame.setPhase (s : State) (p : Phase) : Frame s (s.setPhase p) [] noBytes :=
  ⟨fun _ _ => rfl, fun _ _ => rfl, rfl, rfl, rfl, rfl, rfl, rfl⟩

theorem Frame.complete (s : State) : Frame s s.complete [] noBytes :=
  ⟨fun _ _ => rfl, fun _ _ => rfl, rfl, rfl, rfl, rfl, rfl, rfl⟩

theorem Frame.writeBytes (s : State) (a : Nat) (bs : List Byte) :
    Frame s (s.writeBytes a bs) [] (bytesFrom a bs.length) :=
  ⟨fun _ _ => rfl, fun x hx => by
    rw [State.writeBytes_mem, Memory.read_write]; exact if_neg hx, rfl, rfl, rfl, rfl, rfl, rfl⟩

theorem Frame.writePlane (s : State) (c : Channel) (ws : List Word) (n : Nat) (h : ws.length ≤ n) :
    Frame s (s.writePlane c ws) [] (planeBytes n) := by
  refine (Frame.writeBytes s (planeBase c) _).mono (fun _ h => h) fun a ha => ⟨c, ?_⟩
  rw [flatMap_bytesOfWord_length, List.length_take] at ha
  exact ⟨ha.1, by have := ha.2; omega⟩

theorem Frame.writePlanes (s : State) (cells : Channel → List Word) (n : Nat) (h : ∀ c, (cells c).length ≤ n) :
    Frame s (s.writePlanes cells) [] (planeBytes n) := by
  have one : ∀ (t : State) (c : Channel), Frame t (t.writePlane c (cells c)) [] (planeBytes n) :=
    fun t c => Frame.writePlane t c _ n (h c)
  unfold State.writePlanes
  exact (((one s .L).trans (one _ .P) (fun _ h => h) (fun _ h => h) (fun _ h => h) (fun _ h => h)).trans (one _ .Q)
    (fun _ h => h) (fun _ h => h) (fun _ h => h) (fun _ h => h)).trans (one _ .A) (fun _ h => h) (fun _ h => h)
    (fun _ h => h) (fun _ h => h)

theorem Frame.writeCoef (s : State) (c : Channel) (ws : List Word) :
    Frame s (s.writeCoef c ws) [] (bytesFrom (coefBase c) (4 * ws.length)) := by
  refine (Frame.writeBytes s (coefBase c) _).mono (fun _ h => h) fun a ha => ?_
  rw [flatMap_bytesOfWord_length, List.length_take] at ha
  exact ⟨ha.1, by have := ha.2; omega⟩

theorem Frame.writePixout (s : State) (bs : List Byte) :
    Frame s (s.writePixout bs) [] (bytesFrom pixoutBase bs.length) := by
  refine (Frame.writeBytes s pixoutBase _).mono (fun _ h => h) fun a ha => ?_
  rw [List.length_take] at ha
  exact ⟨ha.1, by have := ha.2; omega⟩

theorem Frame.writeHash (s : State) (i : Nat) (bs : List Byte) :
    Frame s (s.writeHash i bs) [] (bytesFrom (hashBase + i) bs.length) := by
  refine (Frame.writeBytes s (hashBase + i) _).mono (fun _ h => h) fun a ha => ?_
  rw [List.length_take] at ha
  exact ⟨ha.1, by have := ha.2; omega⟩

end Sys2Proof.Machine
end

