-- ==== Sys2Proof/Laws/Effects.lean ====
section
/-! SUPPORT. Every effect leaves alone what R49 does not list, and keeps the canonical form of the memories. -/

namespace Sys2Proof.Machine

theorem noBytes_elim {p : Nat → Prop} : ∀ a, noBytes a → p a := fun _ h => h.elim

/-- Two frames one after the other. -/
theorem Frame.then {s t u : State} {w₁ w₂ : List Reg} {b₁ b₂ : Nat → Prop} (h₁ : Frame s t w₁ b₁)
    (h₂ : Frame t u w₂ b₂) : Frame s u (w₁ ++ w₂) (fun a => b₁ a ∨ b₂ a) :=
  h₁.trans h₂ (fun _ h => List.mem_append_left _ h) (fun _ h => List.mem_append_right _ h) (fun _ h => .inl h)
    (fun _ h => .inr h)

theorem or_noBytes {b : Nat → Prop} {a : Nat} (h : b a ∨ noBytes a) : b a := h.resolve_right fun h => h

/-! ### The loops over channels -/

theorem Frame.foldl_channels {α : Type} (step : α → Channel → α) (get : α → State) (w : List Reg)
    (b : Channel → Nat → Prop) (h : ∀ x c, Frame (get x) (get (step x c)) w (b c)) (cs : List Channel) (x : α) :
    Frame (get x) (get (cs.foldl step x)) w (fun a => ∃ c ∈ cs, b c a) := by
  induction cs generalizing x with
  | nil => exact (Frame.refl _).mono (by simp) noBytes_elim
  | cons c cs ih =>
    refine (h x c).trans (ih (step x c)) (fun _ h => h) (fun _ h => h) (fun a ha => ⟨c, by simp, ha⟩) ?_
    rintro a ⟨d, hd, ha⟩
    exact ⟨d, by simp [hd], ha⟩

theorem Frame.writeFwdChannel (s t : State) (c : Channel) :
    Frame t (writeFwdChannel s t c) channelWrites (bytesFrom (coefBase c) (4 * s.nat (.nac c))) := by
  unfold Machine.writeFwdChannel
  refine ((Frame.writeCoef t c _).then (Frame.setRegs _ _)).mono ?_ ?_
  · intro r hr
    cases c <;> simp [channelWrites] at hr ⊢ <;> rcases hr with h | h <;> simp [h]
  · intro a ha
    have := or_noBytes ha
    rw [List.length_take] at this
    exact ⟨this.1, by have := this.2; omega⟩

theorem Frame.unpackStep (s : State) (t : State × Nat) (c : Channel) :
    Frame t.1 (unpackStep s t c).1 [] (bytesFrom (coefBase c) (4 * s.nat (.nac c))) := by
  unfold Machine.unpackStep State.unpackChannel
  refine (Frame.writeCoef t.1 c _).mono (fun _ h => h) fun a ha => ?_
  simpa using ha

/-! ### The effects (R49) -/

theorem State.image_length (s : State) : s.image.length = s.nat .imgW * s.nat .imgH := by
  unfold State.image State.pixels
  rw [List.length_map, List.length_range]

theorem Frame.ctFwdEffect (s : State) :
    Frame s (ctFwdEffect s) ctFwdWrites (planeBytes (s.nat .imgW * s.nat .imgH)) := by
  unfold Machine.ctFwdEffect
  refine (((Frame.writePlanes s _ (s.nat .imgW * s.nat .imgH) fun c => ?_).then (Frame.setRegs _ _)).then
    (Frame.setPhase _ _)).mono ?_ fun a ha => (ha.resolve_right fun h => h).resolve_right fun h => h
  · unfold State.imageSamples
    rw [List.length_map, List.length_map, State.image_length]
  · intro r hr
    rw [List.append_nil, List.nil_append] at hr
    exact (by decide : ∀ r ∈ [Reg.plW, .plH, .hasAlpha, .bgR, .bgG, .bgB, .alphaSum], r ∈ ctFwdWrites) r hr

theorem gridRegs_fst (ha : Bool) (nx ny : Nat) : (gridRegs ha nx ny).map Prod.fst = gridWrites.drop 2 := rfl

theorem Frame.gridEncEffect (s : State) : Frame s (gridEncEffect s) gridEncWrites noBytes := by
  unfold Machine.gridEncEffect
  refine ((Frame.setRegs s _).then (Frame.setPhase _ _)).mono ?_ fun a ha => or_noBytes ha
  intro r hr
  rw [List.append_nil, List.map_append, gridRegs_fst] at hr
  exact (by decide : ∀ r ∈ [Reg.lx, .ly, .isLandscape, .lfield] ++ gridWrites.drop 2, r ∈ gridEncWrites) r hr

theorem Frame.dctFwdEffect (s : State) : Frame s (dctFwdEffect s) channelWrites (coefBytes s) := by
  unfold Machine.dctFwdEffect
  refine (((Frame.foldl_channels (Machine.writeFwdChannel s) id channelWrites _ (Frame.writeFwdChannel s)
    (channels s.hasAlpha) s).then (w₂ := channelWrites) (b₂ := noBytes) ?_).then (Frame.setPhase _ _)).mono ?_ ?_
  · unfold fixAlphaChannel
    by_cases h : s.hasAlpha = true
    · rw [if_pos h]; exact (Frame.refl _).mono (by simp) (fun _ h => h)
    · rw [if_neg h]; exact (Frame.setRegs _ _).mono (by simp [channelWrites]) (fun _ h => h)
  · simp
  · intro a ha
    rcases ha with (ha | ha) | ha
    · exact ha
    · exact ha.elim
    · exact ha.elim

theorem Frame.packEffect_writes (s : State) :
    Frame s (packEffect s) packWrites (fun a => bytesFrom hashBase s.packHeader.length a ∨
      bytesFrom (hashBase + s.nat .hdrLen) (pairNibbles s.packNibbles).length a) := by
  unfold Machine.packEffect
  refine ((((Frame.writeHash s 0 _).then (Frame.writeHash _ _ _)).then (Frame.setRegs _ _)).then
    (Frame.setPhase _ _)).mono ?_ ?_
  · intro r hr
    exact (by decide : ∀ r ∈ [Reg.hdr24, .hdr16, .hdrA, .nibcur, .hashLen], r ∈ packWrites) r (by simpa using hr)
  · intro a ha
    rcases ha with (ha | ha) | ha
    · exact ha
    · exact ha.elim
    · exact ha.elim

theorem Frame.unpackHdrEffect (s : State) : Frame s (unpackHdrEffect s) unpackHdrWrites noBytes := by
  unfold Machine.unpackHdrEffect
  refine ((Frame.setRegs s _).then (Frame.setPhase _ _)).mono ?_ fun a ha => or_noBytes ha
  intro r hr
  rw [List.append_nil, List.map_append] at hr
  exact (by decide : ∀ r ∈ [Reg.hdr24, .hdr16, .hdrA, .hasAlpha, .isLandscape, .lfield, .hdrLen] ++
    [.dc .L, .dc .P, .dc .Q, .sc .L, .sc .P, .sc .Q, .dc .A, .sc .A], r ∈ unpackHdrWrites) r hr

theorem Frame.gridDecEffect (s : State) : Frame s (gridDecEffect s) gridDecWrites noBytes := by
  unfold Machine.gridDecEffect
  refine ((Frame.setRegs s _).then (Frame.setPhase _ _)).mono ?_ fun a ha => or_noBytes ha
  intro r hr
  rw [List.append_nil, decRegs, decGridRegs, List.map_append, List.map_append, gridRegs_fst] at hr
  exact (by decide : ∀ r ∈ ([Reg.lx, .ly] ++ gridWrites.drop 2) ++ [.ratio, .outW, .outH, .pixoutLen],
    r ∈ gridDecWrites) r hr

theorem Frame.unpackAcEffect (s : State) : Frame s (unpackAcEffect s) [.nibcur] (coefBytes s) := by
  unfold Machine.unpackAcEffect
  refine (((Frame.foldl_channels (Machine.unpackStep s) Prod.fst [] _ (Frame.unpackStep s)
    (channels s.hasAlpha) (s, 0)).then (Frame.setReg _ _ _)).then (Frame.setPhase _ _)).mono ?_ ?_
  · simp
  · intro a ha
    rcases ha with (ha | ha) | ha
    · exact ha
    · exact ha.elim
    · exact ha.elim

theorem Frame.dctInvEffect (s : State) :
    Frame s (dctInvEffect s) [.plW, .plH] (planeBytes (s.nat .outW * s.nat .outH)) := by
  unfold Machine.dctInvEffect
  refine (((Frame.writePlanes s _ (s.nat .outW * s.nat .outH) fun c => ?_).then (Frame.setRegs _ _)).then
    (Frame.setPhase _ _)).mono (by simp) fun a ha => (ha.resolve_right fun h => h).resolve_right fun h => h
  unfold State.invPlane
  rw [List.length_map, List.length_range]

theorem pixelBytes_length {F : Type} (N : Numerics F) (v : Lpqa F) : (pixelBytes N v).length = 4 := rfl

theorem flatMap_pixelBytes_length {α F : Type} (N : Numerics F) (f : α → Lpqa F) (l : List α) :
    (l.flatMap (fun i => pixelBytes N (f i))).length = 4 * l.length := by
  induction l with
  | nil => rfl
  | cons x l ih => rw [List.flatMap_cons, List.length_append, ih, pixelBytes_length, List.length_cons]; omega

theorem Frame.ctInvEffect (s : State) :
    Frame s (ctInvEffect s) [] (bytesFrom pixoutBase (4 * (s.nat .plW * s.nat .plH))) := by
  unfold Machine.ctInvEffect
  refine ((Frame.writePixout s _).then (Frame.setPhase _ _)).mono (by simp) fun a ha => ?_
  have := or_noBytes ha
  rwa [flatMap_pixelBytes_length, List.length_range] at this

theorem Frame.scanCntEffect (s : State) : Frame s (scanCntEffect s) [.scanCnt] noBytes := Frame.setReg _ _ _

theorem Frame.scanNthEffect (s : State) : Frame s (scanNthEffect s) [.scanCnt, .scanCx, .scanCy] noBytes :=
  Frame.setRegs _ _

theorem Frame.avgColorEffect (s : State) : Frame s (avgColorEffect s) [.avgR, .avgG, .avgB, .avgA] noBytes :=
  Frame.setRegs _ _

theorem Frame.aspectEffect (s : State) : Frame s (aspectEffect s) [.aspectRatio] noBytes := Frame.setReg _ _ _

/-! ### The fields no effect touches -/

theorem effectOf_frame (i : Instr) (s : State) : ∃ w b, Frame s (effectOf i s) w b := by
  cases i with
  | clr => exact ⟨_, _, Frame.refl s⟩
  | srst => exact ⟨_, _, Frame.refl s⟩
  | ctFwd => exact ⟨_, _, Frame.ctFwdEffect s⟩
  | gridEnc => exact ⟨_, _, Frame.gridEncEffect s⟩
  | dctFwd => exact ⟨_, _, Frame.dctFwdEffect s⟩
  | pack => exact ⟨_, _, Frame.packEffect_writes s⟩
  | unpackHdr => exact ⟨_, _, Frame.unpackHdrEffect s⟩
  | gridDec => exact ⟨_, _, Frame.gridDecEffect s⟩
  | unpackAc => exact ⟨_, _, Frame.unpackAcEffect s⟩
  | dctInv => exact ⟨_, _, Frame.dctInvEffect s⟩
  | ctInv => exact ⟨_, _, Frame.ctInvEffect s⟩
  | scanCnt => exact ⟨_, _, Frame.scanCntEffect s⟩
  | scanNth => exact ⟨_, _, Frame.scanNthEffect s⟩
  | encode =>
    exact ⟨_, _, (((Frame.ctFwdEffect s).then (Frame.gridEncEffect _)).then (Frame.dctFwdEffect _)).then
      (Frame.packEffect_writes _)⟩
  | decode =>
    exact ⟨_, _, ((((Frame.unpackHdrEffect s).then (Frame.gridDecEffect _)).then (Frame.unpackAcEffect _)).then
      (Frame.dctInvEffect _)).then (Frame.ctInvEffect _)⟩
  | avgColor => exact ⟨_, _, Frame.avgColorEffect s⟩
  | aspect => exact ⟨_, _, Frame.aspectEffect s⟩

/-- R49: PHASE after an effect. -/
theorem effectOf_phase (i : Instr) (s : State) (h : i ≠ .srst) :
    (effectOf i s).status.phase = phaseAfter i s.status.phase := by
  cases i with
  | srst => exact absurd rfl h
  | scanNth => exact congrArg Status.phase (State.setRegs_status _ _)
  | avgColor => exact congrArg Status.phase (State.setRegs_status _ _)
  | _ => rfl

/-! ### The canonical form -/

theorem foldl_channels_wf {α : Type} (step : α → Channel → α) (get : α → State)
    (h : ∀ x c, Memory.wf (get x).mem → Memory.wf (get (step x c)).mem) (cs : List Channel) (x : α)
    (hx : Memory.wf (get x).mem) : Memory.wf (get (cs.foldl step x)).mem := by
  induction cs generalizing x with
  | nil => exact hx
  | cons c cs ih => exact ih _ (h x c hx)

theorem ctFwdEffect_wf (s : State) (h : Memory.wf s.mem) : Memory.wf (ctFwdEffect s).mem := by
  unfold ctFwdEffect
  rw [State.setPhase_mem, State.setRegs_mem]
  exact State.writePlanes_wf _ _ h

theorem State.setRegs_setPhase_mem (s : State) (l : List (Reg × Word)) (p : Phase) :
    ((s.setRegs l).setPhase p).mem = s.mem := by
  rw [State.setPhase_mem, State.setRegs_mem]

theorem gridEncEffect_mem (s : State) : (gridEncEffect s).mem = s.mem := by
  unfold gridEncEffect
  exact State.setRegs_setPhase_mem _ _ _

theorem gridDecEffect_mem (s : State) : (gridDecEffect s).mem = s.mem := by
  unfold gridDecEffect
  exact State.setRegs_setPhase_mem _ _ _

theorem unpackHdrEffect_mem (s : State) : (unpackHdrEffect s).mem = s.mem := by
  unfold unpackHdrEffect
  exact State.setRegs_setPhase_mem _ _ _

theorem fixAlphaChannel_mem (ha : Bool) (t : State) : (fixAlphaChannel ha t).mem = t.mem := by
  unfold fixAlphaChannel
  cases ha with
  | true => rw [if_pos rfl]
  | false => rw [if_neg (by decide)]; exact State.setRegs_mem _ _

theorem dctFwdEffect_wf (s : State) (h : Memory.wf s.mem) : Memory.wf (dctFwdEffect s).mem := by
  have key : Memory.wf ((channels s.hasAlpha).foldl (writeFwdChannel s) s).mem :=
    foldl_channels_wf (writeFwdChannel s) id (fun x c hx => by
      unfold writeFwdChannel
      simp only [id_eq, State.setRegs_mem]
      exact State.writeCoef_wf _ _ _ hx) _ s h
  unfold dctFwdEffect
  rw [State.setPhase_mem, fixAlphaChannel_mem]
  exact key

theorem packEffect_wf (s : State) (h : Memory.wf s.mem) : Memory.wf (packEffect s).mem := by
  unfold packEffect
  simp only [State.setPhase_mem, State.setRegs_mem]
  exact State.writeHash_wf _ _ _ (State.writeHash_wf _ _ _ h)

theorem unpackAcEffect_wf (s : State) (h : Memory.wf s.mem) : Memory.wf (unpackAcEffect s).mem := by
  unfold unpackAcEffect
  simp only [State.setPhase_mem, State.setReg_mem]
  exact foldl_channels_wf (unpackStep s) Prod.fst (fun x c hx => State.writeCoef_wf _ _ _ hx) _ (s, 0) h

theorem dctInvEffect_wf (s : State) (h : Memory.wf s.mem) : Memory.wf (dctInvEffect s).mem := by
  unfold dctInvEffect
  rw [State.setPhase_mem, State.setRegs_mem]
  exact State.writePlanes_wf _ _ h

theorem ctInvEffect_wf (s : State) (h : Memory.wf s.mem) : Memory.wf (ctInvEffect s).mem := by
  unfold ctInvEffect
  simp only [State.setPhase_mem]
  exact State.writePixout_wf _ _ h

/-- Every effect keeps the canonical form. -/
theorem effectOf_wf (i : Instr) (s : State) (h : Memory.wf s.mem) : Memory.wf (effectOf i s).mem := by
  cases i with
  | clr => exact h
  | srst => exact h
  | ctFwd => exact ctFwdEffect_wf s h
  | gridEnc => rw [effectOf, gridEncEffect_mem]; exact h
  | dctFwd => exact dctFwdEffect_wf s h
  | pack => exact packEffect_wf s h
  | unpackHdr => rw [effectOf, unpackHdrEffect_mem]; exact h
  | gridDec => rw [effectOf, gridDecEffect_mem]; exact h
  | unpackAc => exact unpackAcEffect_wf s h
  | dctInv => exact dctInvEffect_wf s h
  | ctInv => exact ctInvEffect_wf s h
  | scanCnt => exact h
  | scanNth => simpa [effectOf, scanNthEffect] using h
  | encode =>
    refine packEffect_wf _ (dctFwdEffect_wf _ ?_)
    rw [gridEncEffect_mem]
    exact ctFwdEffect_wf s h
  | decode =>
    refine ctInvEffect_wf _ (dctInvEffect_wf _ (unpackAcEffect_wf _ ?_))
    rw [gridDecEffect_mem, unpackHdrEffect_mem]
    exact h
  | avgColor => simpa [effectOf, avgColorEffect] using h
  | aspect => exact h

end Sys2Proof.Machine
end

