-- ==== Sys2Proof/Laws/Grid.lean ====
section
/-! SUPPORT. The bounds of the grid-size unit: rounded quotients, the encoder's and the decoder's luminance grids, the counts
and lengths that follow, the decoder's raster; and what GRID.ENC and GRID.DEC leave in each register they write. -/

namespace Sys2Proof.Machine

/-! ### Rounding -/

theorem rndRatio_le (tie : Tie) {n d k : Nat} (hd : 0 < d) (h : n ≤ k * d) : rndRatio tie n d ≤ k := by
  have hq : n / d ≤ k := Nat.div_le_of_le_mul (by rw [Nat.mul_comm]; exact h)
  have hdm := Nat.div_add_mod n d
  have up : n % d ≠ 0 → n / d + 1 ≤ k := by
    intro hm
    by_contra hc
    have he : n / d = k := by omega
    rw [he, Nat.mul_comm] at hdm
    omega
  unfold rndRatio
  split
  · exact hq
  · split
    · exact up (by omega)
    · have := up (by omega)
      cases tie <;> simp only <;> omega

/-- A quotient that is an integer rounds to it. -/
theorem rndRatio_mul (tie : Tie) (k : Nat) {d : Nat} (hd : 0 < d) : rndRatio tie (k * d) d = k := by
  unfold rndRatio
  rw [Nat.mul_mod_left, if_pos (by omega), Nat.mul_div_cancel _ hd]

/-! ### The encoder's grid (R231) -/

theorem lLimit_cases (ha : Bool) : lLimit ha = 5 ∨ lLimit ha = 7 := by cases ha <;> decide

theorem encSide_bounds (tie : Tie) (ha : Bool) {size w h : Nat} (hs : size ≤ max w h) :
    1 ≤ encSide tie ha size w h ∧ encSide tie ha size w h ≤ lLimit ha := by
  have hl := lLimit_cases ha
  unfold encSide
  refine ⟨Nat.le_max_right _ _, Nat.max_le.mpr ⟨?_, by omega⟩⟩
  by_cases hz : max w h = 0
  · have : size = 0 := by omega
    subst this
    rw [hz, Nat.mul_zero]
    cases tie <;> cases ha <;> decide
  · exact rndRatio_le tie (by omega) (Nat.mul_le_mul_left _ hs)

/-- The longer side takes the limit. -/
theorem encSide_longer (tie : Tie) (ha : Bool) {w h : Nat} (hm : 0 < max w h) :
    encSide tie ha (max w h) w h = lLimit ha := by
  have hl := lLimit_cases ha
  unfold encSide
  rw [rndRatio_mul tie _ hm]
  omega

theorem encL_bounds (tie : Tie) (w h : Nat) (ha : Bool) :
    1 ≤ (encL tie w h ha).1 ∧ (encL tie w h ha).1 ≤ lLimit ha ∧ 1 ≤ (encL tie w h ha).2 ∧
      (encL tie w h ha).2 ≤ lLimit ha := by
  have h1 := encSide_bounds tie ha (size := w) (w := w) (h := h) (by omega)
  have h2 := encSide_bounds tie ha (size := h) (w := w) (h := h) (by omega)
  exact ⟨h1.1, h1.2, h2.1, h2.2⟩

/-- A luminance grid the engine computes: sides from 3 to 7. -/
def GridSize (g : Nat × Nat) : Prop := 3 ≤ g.1 ∧ g.1 ≤ 7 ∧ 3 ≤ g.2 ∧ g.2 ≤ 7

theorem encGrid_size (w h : Nat) (ha : Bool) : GridSize (encGrid w h ha) := by
  have hb := encL_bounds Config.tie w h ha
  have hl := lLimit_cases ha
  unfold GridSize encGrid
  refine ⟨?_, ?_, ?_, ?_⟩ <;> simp only <;> omega

theorem decGrid_size (ha land : Bool) {f : Nat} (hf : f ≤ 7) : GridSize (decGrid ha land f) := by
  have hl := lLimit_cases ha
  unfold GridSize decGrid rawGrid
  cases land <;> simp <;> omega

/-! ### Counts and lengths -/

theorem scanCount_bounds : ∀ nx ≤ 7, ∀ ny ≤ 7, scanCount nx ny ≤ 27 := by decide

theorem scanCount_grid {g : Nat × Nat} (h : GridSize g) : scanCount g.1 g.2 ≤ 27 :=
  scanCount_bounds _ h.2.1 _ h.2.2.2

theorem totalCount_grid (ha : Bool) {g : Nat × Nat} (h : GridSize g) : totalCount ha g.1 g.2 ≤ 51 := by
  have := scanCount_grid h
  unfold totalCount alphaCount
  cases ha <;> simp <;> omega

/-- R205: no hash is longer than the 32 bytes of HASH. -/
theorem requiredLength_grid (ha : Bool) {g : Nat × Nat} (h : GridSize g) : requiredLength ha g.1 g.2 ≤ 32 := by
  have := totalCount_grid ha h
  unfold requiredLength headerLength
  cases ha <;> simp <;> omega

/-! ### The decoder's raster (R235, R238) -/

theorem raster_table : ∀ clamp ha land : Bool, ∀ f < 8,
    (rasterSize num land (aspectOf num clamp ha land f)).1 ≤ 45 ∧
      (rasterSize num land (aspectOf num clamp ha land f)).2 ≤ 45 ∧
      (rasterSize num land (aspectOf num clamp ha land f)).1 * (rasterSize num land (aspectOf num clamp ha land f)).2 * 4
        ≤ 5760 := by
  decide +kernel

/-- R238: every raster of the table fits PLANE and PIXOUT. -/
theorem decRaster_bounds (ha land : Bool) {f : Nat} (hf : f ≤ 7) :
    (decRaster ha land f).1 ≤ 45 ∧ (decRaster ha land f).2 ≤ 45 ∧ decPixoutLen ha land f ≤ 5760 :=
  raster_table Config.aspectClamp ha land f (by omega)

/-! ### The registers -/

theorem gridRegs_nodup (ha : Bool) (nx ny : Nat) : ((gridRegs ha nx ny).map Prod.fst).Nodup := by
  rw [gridRegs_fst]
  decide

/-- What GRID.ENC leaves in a register it writes. -/
theorem gridEncEffect_reg (s : State) :
    (gridEncEffect s).reg .lx = natWord (encL Config.tie (s.nat .plW) (s.nat .plH) s.hasAlpha).1 ∧
      (gridEncEffect s).reg .ly = natWord (encL Config.tie (s.nat .plW) (s.nat .plH) s.hasAlpha).2 ∧
      (gridEncEffect s).reg .isLandscape = boolWord (decide (s.nat .plH < s.nat .plW)) ∧
      (gridEncEffect s).reg .lfield = natWord (if s.nat .plH < s.nat .plW
        then (encL Config.tie (s.nat .plW) (s.nat .plH) s.hasAlpha).2
        else (encL Config.tie (s.nat .plW) (s.nat .plH) s.hasAlpha).1) ∧
      ∀ p ∈ gridRegs s.hasAlpha (encGrid (s.nat .plW) (s.nat .plH) s.hasAlpha).1
        (encGrid (s.nat .plW) (s.nat .plH) s.hasAlpha).2, (gridEncEffect s).reg p.1 = p.2 := by
  unfold gridEncEffect
  simp only [State.setPhase_reg]
  have nd : ∀ (a b c d : Word) (ha : Bool) (nx ny : Nat), ((([(.lx, a), (.ly, b), (.isLandscape, c), (.lfield, d)] :
      List (Reg × Word)) ++ gridRegs ha nx ny).map Prod.fst).Nodup := by
    intro a b c d ha nx ny
    rw [List.map_append, gridRegs_fst]
    exact (by decide : ([Reg.lx, .ly, .isLandscape, .lfield] ++ gridWrites.drop 2).Nodup)
  refine ⟨?_, ?_, ?_, ?_, fun p hp => ?_⟩
  · exact State.reg_setRegs_mem _ _ _ _ (nd _ _ _ _ _ _ _) (by simp)
  · exact State.reg_setRegs_mem _ _ _ _ (nd _ _ _ _ _ _ _) (by simp)
  · exact State.reg_setRegs_mem _ _ _ _ (nd _ _ _ _ _ _ _) (by simp)
  · exact State.reg_setRegs_mem _ _ _ _ (nd _ _ _ _ _ _ _) (by simp)
  · exact State.reg_setRegs_mem _ _ _ _ (nd _ _ _ _ _ _ _) (List.mem_append_right _ hp)

/-- The raster's rows of GRID.DEC's writes. -/
theorem decRegs_raster (ha land : Bool) (f : Nat) :
    (.outW, natWord (decRaster ha land f).1) ∈ decRegs ha land f ∧
      (.outH, natWord (decRaster ha land f).2) ∈ decRegs ha land f ∧
      (.pixoutLen, natWord (decPixoutLen ha land f)) ∈ decRegs ha land f :=
  ⟨List.mem_append_right _ (List.Mem.tail _ (List.Mem.head _)),
    List.mem_append_right _ (List.Mem.tail _ (List.Mem.tail _ (List.Mem.head _))),
    List.mem_append_right _ (List.Mem.tail _ (List.Mem.tail _ (List.Mem.tail _ (List.Mem.head _))))⟩

theorem decPixoutLen_eq (ha land : Bool) (f : Nat) :
    decPixoutLen ha land f = (decRaster ha land f).1 * (decRaster ha land f).2 * 4 := rfl

theorem decRegs_fst (ha land : Bool) (f : Nat) : (decRegs ha land f).map Prod.fst = gridDecWrites := rfl

/-- What GRID.DEC leaves in a register it writes. -/
theorem gridDecEffect_reg (s : State) :
    ∀ p ∈ decRegs s.hasAlpha s.landscape (s.nat .lfield), (gridDecEffect s).reg p.1 = p.2 := by
  intro p hp
  unfold gridDecEffect
  rw [State.setPhase_reg]
  refine State.reg_setRegs_mem _ _ _ _ ?_ hp
  rw [decRegs_fst]
  decide

end Sys2Proof.Machine
end

