-- ==== Sys2Proof/Laws/Faults.lean ====
section
/-! SUPPORT. What each test of a command says, and the three ways a started command can end. -/

namespace Sys2Proof.Machine

/-! ### Immediate and started commands -/

theorem not_imm {i : Instr} (h1 : i ≠ .clr) (h2 : i ≠ .srst) : immediate i = false := by
  cases h : immediate i with
  | false => rfl
  | true => rcases (immediate_iff i).mp h with h | h <;> contradiction

/-- The end of a started command: out of phase, a fault of its own tests, or success. -/
theorem exec_cases {i : Instr} {s t : State} (hi : immediate i = false) (h : exec i s = .next t) :
    (accepts i s.status.phase = false ∧ Faulted s t i.opcode 7 (s.status.phase.code.setWidth 32)) ∨
    (accepts i s.status.phase = true ∧ ∃ f, checkOf i s = some f ∧ t = s.takeFault i.opcode f) ∨
    (accepts i s.status.phase = true ∧ checkOf i s = none ∧ t = (effectOf i s).complete) := by
  rw [exec_eq_runCommand i s hi] at h
  rcases runCommand_cases h with ⟨ha, ht⟩ | h | h
  · left; refine ⟨ha, ?_⟩; rw [ht]; exact faulted_takeFault s i.opcode (seqFault s)
  · exact .inr (.inl h)
  · exact .inr (.inr h)

/-! ### The tests (R303) -/

/-- R300: the codes of each command's own tests. -/
theorem checkOf_code {i : Instr} {s : State} {f : EngineFault} (h : checkOf i s = some f) :
    (f.code.number.toNat, i) ∈
        ([(1, .ctFwd), (1, .encode), (2, .ctFwd), (2, .encode), (3, .pack), (3, .encode), (4, .unpackHdr), (4, .decode),
          (4, .avgColor), (4, .aspect), (5, .ctInv), (5, .decode), (6, .unpackAc), (6, .decode), (9, .scanCnt),
          (9, .scanNth)] : List (Nat × Instr)) := by
  have image : ∀ f, checkImage s = some f → f.code = .eDim ∨ f.code = .ePixLen := by
    intro f h
    unfold checkImage at h
    split at h
    · cases h; exact .inl rfl
    · split at h
      · cases h; exact .inl rfl
      · split at h
        · cases h; exact .inr rfl
        · cases h
  have hdr : ∀ f, checkHeaderLength s = some f → f.code = .eHashLen := by
    intro f h
    unfold checkHeaderLength at h
    split at h
    · cases h; rfl
    · split at h
      · cases h; rfl
      · cases h
  have scan : ∀ f, checkScanGrid s = some f → f.code = .eOperand := by
    intro f h
    unfold checkScanGrid at h
    split at h
    · cases h; rfl
    · split at h
      · cases h; rfl
      · cases h
  cases i with
  | clr => cases h
  | srst => cases h
  | gridEnc => cases h
  | dctFwd => cases h
  | gridDec => cases h
  | dctInv => cases h
  | ctFwd => rcases image f h with e | e <;> rw [e] <;> decide
  | pack =>
    simp only [checkOf, checkHashCap] at h
    split at h
    · cases h; simp [FaultCode.number]
    · cases h
  | unpackHdr => rw [hdr f h]; decide
  | avgColor => rw [hdr f h]; decide
  | aspect =>
    simp only [checkOf, checkAspectLength] at h
    split at h
    · cases h; simp [FaultCode.number]
    · cases h
  | unpackAc =>
    simp only [checkOf, checkTruncated] at h
    split at h
    · cases h; simp [FaultCode.number]
    · cases h
  | ctInv =>
    simp only [checkOf, checkPixoutCap] at h
    split at h
    · cases h; simp [FaultCode.number]
    · cases h
  | scanCnt => rw [scan f h]; decide
  | scanNth =>
    simp only [checkOf, checkScanIndex] at h
    split at h
    · rename_i g hg; cases h; rw [scan _ hg]; decide
    · split at h
      · cases h; simp [FaultCode.number]
      · cases h
  | encode =>
    simp only [checkOf, checkEncode] at h
    split at h
    · rename_i g hg; cases h; rcases image _ hg with e | e <;> rw [e] <;> decide
    · split at h
      · cases h; simp [FaultCode.number]
      · cases h
  | decode =>
    simp only [checkOf, checkDecode] at h
    split at h
    · rename_i g hg; cases h; rw [hdr _ hg]; decide
    · split at h
      · cases h; simp [FaultCode.number]
      · split at h
        · cases h; simp [FaultCode.number]
        · cases h

/-- R27 (b): what success leaves in BUSY, DONE, FAULT and OVR. -/
theorem success_flags (i : Instr) (s : State) : ((effectOf i s).complete).inflight = none ∧
    ((effectOf i s).complete).status.done = true ∧ ((effectOf i s).complete).status.fault = s.status.fault ∧
    ((effectOf i s).complete).status.ovr = s.status.ovr := by
  obtain ⟨w, b, f⟩ := effectOf_frame i s
  exact ⟨rfl, rfl, f.fault, f.ovr⟩

/-- A failing test ends the command in its fault. -/
theorem exec_fault (i : Instr) {s : State} {f : EngineFault} (hi : immediate i = false)
    (ha : accepts i s.status.phase = true) (hc : checkOf i s = some f) :
    ∃ t, exec i s = .next t ∧ Faulted s t i.opcode f.code.number.toNat f.info :=
  ⟨_, (exec_eq_runCommand i s hi).trans (runCommand_fault i ha hc), faulted_takeFault _ _ _⟩

theorem checkImage_w {s : State} (h : s.nat .imgW < 1 ∨ 100 < s.nat .imgW) :
    checkImage s = some { code := .eDim, info := 0x020 } := by
  simp only [checkImage, if_pos h]

theorem checkImage_h {s : State} (h : ¬ (s.nat .imgW < 1 ∨ 100 < s.nat .imgW))
    (h' : s.nat .imgH < 1 ∨ 100 < s.nat .imgH) :
    checkImage s = some { code := .eDim, info := 0x024 } := by
  simp only [checkImage, if_neg h, if_pos h']

theorem checkImage_len {s : State} (h : ¬ (s.nat .imgW < 1 ∨ 100 < s.nat .imgW))
    (h' : ¬ (s.nat .imgH < 1 ∨ 100 < s.nat .imgH))
    (h'' : s.nat .pixinLen ≠ 4 * s.nat .imgW * s.nat .imgH) :
    checkImage s = some { code := .ePixLen, info := natWord (4 * s.nat .imgW * s.nat .imgH) } := by
  simp only [checkImage, if_neg h, if_neg h', if_pos h'']

theorem checkImage_none {s : State} (h : ImageValid s) : checkImage s = none := by
  obtain ⟨h1, h2, h3, h4, h5⟩ := h
  simp only [checkImage, if_neg (show ¬ (s.nat .imgW < 1 ∨ 100 < s.nat .imgW) by omega),
    if_neg (show ¬ (s.nat .imgH < 1 ∨ 100 < s.nat .imgH) by omega), h5, ne_eq, not_true_eq_false, if_false]

/-- R163: the image tests pass exactly on valid operands. -/
theorem checkImage_none_iff {s : State} : checkImage s = none ↔ ImageValid s := by
  refine ⟨fun h => ?_, checkImage_none⟩
  unfold checkImage at h
  split at h
  · cases h
  · split at h
    · cases h
    · split at h
      · cases h
      · rename_i a b c; exact ⟨by omega, by omega, by omega, by omega, by simpa using c⟩

theorem checkEncode_image {s : State} {f} (h : checkImage s = some f) : checkEncode s = some f := by
  simp [checkEncode, h]

/-- R165. -/
theorem anyTransparent_iff (s : State) (n : Nat) :
    anyTransparent (s.pixels n) = true ↔ ∃ i < n, (s.pixin (4 * i + 3)).toNat < 255 := by
  simp only [anyTransparent, State.pixels, State.pixel, List.any_map, List.any_eq_true, List.mem_range,
    Function.comp_apply]
  exact ⟨fun ⟨i, h, hd⟩ => ⟨i, h, of_decide_eq_true hd⟩, fun ⟨i, h, hd⟩ => ⟨i, h, decide_eq_true hd⟩⟩

theorem anyTransparent_eq {s : State} {n : Nat} {ha : Bool}
    (h : ha = true ↔ ∃ i < n, (s.pixin (4 * i + 3)).toNat < 255) :
    anyTransparent (s.pixels n) = ha := by
  have := (anyTransparent_iff s n).trans h.symm
  cases ha <;> simp_all

/-- R165: the alpha flag of the image of CT.FWD. -/
theorem image_transparent {s : State} {ha : Bool}
    (h : ha = true ↔ ∃ i < s.nat .imgW * s.nat .imgH, (s.pixin (4 * i + 3)).toNat < 255) :
    anyTransparent s.image = ha := anyTransparent_eq h

theorem hdr24_bit (s : State) : s.hashHdr24.getLsbD 23 = (s.hash 2).getLsbD 7 := by
  simp only [State.hashHdr24, BitVec.getLsbD_append]; rfl

theorem hdr16_bit (s : State) : s.hashHdr16.getLsbD 15 = (s.hash 4).getLsbD 7 := by
  simp only [State.hashHdr16, BitVec.getLsbD_append]; rfl

theorem lfield_hash (s : State) : (lfieldField s.hashHdr16).toNat = (s.hash 3).toNat % 8 := by
  have h3 := (s.hash 3).isLt
  simp only [lfieldField, State.hashHdr16, BitVec.extractLsb'_toNat, BitVec.toNat_append]
  rw [← Nat.shiftLeft_add_eq_or_of_lt (s.hash 3).isLt]
  simp only [Nat.shiftLeft_eq, Nat.shiftRight_zero]
  omega

/-- R210: the header tests pass exactly when the header is present. -/
theorem checkHeaderLength_none_iff {s : State} : checkHeaderLength s = none ↔ HeaderPresent s := by
  unfold checkHeaderLength HeaderPresent hasAlphaField
  split
  · constructor
    · intro h; cases h
    · intro h; omega
  · split
    · rename_i h1 h2
      constructor
      · intro h; cases h
      · intro h; have := h.2 h2.1; omega
    · rename_i h1 h2
      refine ⟨fun _ => ⟨by omega, fun h => ?_⟩, fun _ => rfl⟩
      by_contra hc
      exact h2 ⟨h, by omega⟩

/-- A capacity above the physical buffer makes no difference to a length that fits the buffer (R33, R205 (a)). -/
theorem hashCapacity_lt_iff {s : State} {n : Nat} (h : n ≤ 32) : s.hashCapacity < n ↔ s.nat .hashCap < n := by
  unfold State.hashCapacity
  omega

theorem pixoutCapacity_lt_iff {s : State} {n : Nat} (h : n ≤ 8192) : s.pixoutCapacity < n ↔ s.nat .pixoutCap < n := by
  unfold State.pixoutCapacity
  omega

theorem hashCapacity_lt {s : State} {n : Nat} (h : s.nat .hashCap < n) : s.hashCapacity < n := by
  unfold State.hashCapacity
  omega

theorem pixoutCapacity_lt {s : State} {n : Nat} (h : s.nat .pixoutCap < n) : s.pixoutCapacity < n := by
  unfold State.pixoutCapacity
  omega

theorem checkDecode_hdr {s : State} {f} (h : checkHeaderLength s = some f) : checkDecode num s = some f := by
  simp [checkDecode, h]

/-- R256: the tests after the header's, in the header's own bits. -/
theorem checkDecode_eq {s : State} (h : HeaderPresent s) : checkDecode num s =
    (let ha := (s.hash 2).getLsbD 7
     let land := (s.hash 4).getLsbD 7
     let f := (s.hash 3).toNat % 8
     if s.nat .pixoutCap < decPixoutLen ha land f then
       some { code := .ePixCap, info := natWord (decPixoutLen ha land f) }
     else if s.nat .hashLen < decRequiredLength ha land f then
       some { code := .eTrunc, info := natWord (decRequiredLength ha land f) }
     else none) := by
  have hb := (decRaster_bounds ((s.hash 2).getLsbD 7) ((s.hash 4).getLsbD 7) (f := (s.hash 3).toNat % 8) (by omega)).2.2
  have e : ∀ ha land f, pixoutLenOf num ha land f = decPixoutLen ha land f := fun _ _ _ => rfl
  simp only [checkDecode, e, checkHeaderLength_none_iff.mpr h, hasAlphaField, landscapeField, hdr24_bit, hdr16_bit,
    lfield_hash, pixoutCapacity_lt_iff (hb.trans (by decide))]

/-- ENCODE's test of the capacity: the lengths it meets are at most 32. -/
theorem checkEncode_cap {s : State} (h : checkImage s = none) : checkEncode s =
    (let req := encRequiredLength (s.nat .imgW) (s.nat .imgH) (anyTransparent s.image)
     if s.nat .hashCap < req then some { code := .eHashCap, info := natWord req } else none) := by
  have hb := requiredLength_grid (anyTransparent s.image)
    (encGrid_size (s.nat .imgW) (s.nat .imgH) (anyTransparent s.image))
  simp only [checkEncode, h]
  simp only [hashCapacity_lt_iff (show encRequiredLength (s.nat .imgW) (s.nat .imgH) (anyTransparent s.image) ≤ 32 from hb)]

end Sys2Proof.Machine
end

