-- ==== Sys2Proof/Laws/Step.lean ====
section
/-! SUPPORT. What a step can do: the register map, an idle write, an access, a completion, and the inversion of `step`. -/

namespace Sys2Proof.Machine

/-! ### The register map (R43) -/

/-- The registers a host write can replace: the RW rows of R43. -/
def hostWritable : List Reg :=
  [.ie, .imgW, .imgH, .pixinLen, .hashCap, .hashLen, .pixoutCap, .scanNx, .scanNy, .scanIdx]

/-- Every stored RW row of the map names a host-writable register. -/
theorem registerMap_rw : ∀ row ∈ registerMap, ∀ r, row.2.1 = .stored r → row.2.2.1 = .rw → r ∈ hostWritable := by
  have h : registerMap.all (fun row =>
      match row.2.1, row.2.2.1 with
      | .stored r, .rw => hostWritable.contains r
      | _, _ => true) = true := by decide
  intro row hrow r h1 h2
  have := List.all_eq_true.mp h row hrow
  rw [h1, h2] at this
  simpa using this

theorem registerAt_mem {off : Nat} {n : RegName} {a : RegAccess} (h : registerAt off = some (n, a)) :
    ∃ row ∈ registerMap, row.1 = off ∧ row.2.1 = n ∧ row.2.2.1 = a := by
  unfold registerAt at h
  cases hf : registerMap.find? (fun row => row.1 == off) with
  | none => rw [hf] at h; exact absurd h (by simp)
  | some row =>
    rw [hf] at h
    have h1 := List.mem_of_find?_eq_some hf
    have h2 := List.find?_some hf
    have h3 : (row.2.1, row.2.2.1) = (n, a) := by simpa using h
    exact ⟨row, h1, by simpa using h2, congrArg Prod.fst h3, congrArg Prod.snd h3⟩

theorem registerAt_cmd : registerAt cmdOffset = some (.cmd, .wo) := by decide

/-! ### Idle writes (R64) -/

/-- An idle write changes nothing, or one host-writable register, or bytes of HASH, PIXOUT or PIXIN. -/
theorem idleWrite_cases (s : State) (off width : Nat) (v : Word) :
    s.idleWrite off width v = s ∨
      (∃ r x, r ∈ hostWritable ∧ (r = .ie → x = v &&& 6) ∧ s.idleWrite off width v = s.setReg r x) ∨
      ((regionOf off = .hash ∨ regionOf off = .pixout ∨ regionOf off = .pixin) ∧
        s.idleWrite off width v = s.writeBytes off ((bytesOfWord v).take width)) := by
  unfold State.idleWrite
  cases hr : regionOf off with
  | registers =>
    cases hreg : registerAt off with
    | none => exact .inl rfl
    | some p =>
      obtain ⟨n, a⟩ := p
      obtain ⟨row, hmem, -, hn, ha⟩ := registerAt_mem hreg
      cases n with
      | stored r =>
        cases a with
        | rw =>
          refine .inr (.inl ?_)
          have hw := registerMap_rw row hmem r hn ha
          by_cases hie : r = .ie
          · subst hie; exact ⟨.ie, v &&& 6, hw, fun _ => rfl, rfl⟩
          · refine ⟨r, v, hw, fun h => absurd h hie, ?_⟩
            cases r <;> first | rfl | exact absurd rfl hie
        | ro => left; cases r <;> rfl
        | wo => left; cases r <;> rfl
      | id => exact .inl rfl
      | cmd => exact .inl rfl
      | status => exact .inl rfl
  | hash => exact .inr (.inr ⟨.inl rfl, rfl⟩)
  | coef => exact .inl rfl
  | pixout => exact .inr (.inr ⟨.inr (.inl rfl), rfl⟩)
  | pixin => exact .inr (.inr ⟨.inr (.inr rfl), rfl⟩)
  | plane => exact .inl rfl
  | hole => exact .inl rfl

theorem idleWrite_status (s : State) (off width : Nat) (v : Word) :
    (s.idleWrite off width v).status = s.status ∧ (s.idleWrite off width v).inflight = s.inflight ∧
      (s.idleWrite off width v).host = s.host ∧ (s.idleWrite off width v).draws = s.draws := by
  rcases idleWrite_cases s off width v with h | ⟨r, x, -, -, h⟩ | ⟨-, h⟩ <;> rw [h] <;> exact ⟨rfl, rfl, rfl, rfl⟩

/-- An accepted idle write keeps the canonical form. -/
theorem idleWrite_wf (s : State) (off width : Nat) (v : Word) (hs : Memory.wf s.mem)
    (h : acceptedAccess off width = true) : Memory.wf (s.idleWrite off width v).mem := by
  rcases idleWrite_cases s off width v with e | ⟨r, x, -, -, e⟩ | ⟨hr, e⟩
  · rw [e]; exact hs
  · rw [e]; exact hs
  · rw [e]
    refine State.writeBytes_wf _ _ _ hs fun x h1 h2 => ?_
    have hm : mappedByte off = true := by
      unfold mappedByte
      rcases hr with hr | hr | hr <;> rw [hr]
    have hw : width = 1 ∨ (width = 4 ∧ off % 4 = 0) := by
      unfold acceptedAccess at h
      rcases hr with hr | hr | hr <;> rw [hr] at h <;> simpa using h
    rw [List.length_take, bytesOfWord_length] at h2
    rcases hw with hw | ⟨hw, hal⟩
    · have : x = off := by omega
      rw [this]; exact hm
    · have := mappedByte_add hm hal (k := x - off) (by omega)
      rwa [Nat.add_sub_cancel' h1] at this

/-! ### Completions -/

/-- What the completion step of a started word can be (R27 (b), R93). -/
theorem runWord_cases {w : Word} {s t : State} (h : runWord w s = .next t) :
    ((∃ e, decode w = .error e) ∧ t = s.illegalCommand w) ∨
      (∃ i, decode w = .ok i ∧ exec i s = .next t) := by
  unfold runWord at h
  cases hd : decode w with
  | error e => rw [hd] at h; exact .inl ⟨⟨e, rfl⟩, (Host.Outcome.next.inj h).symm⟩
  | ok i => rw [hd] at h; exact .inr ⟨i, rfl, h⟩

theorem runWord_next (w : Word) (s : State) : ∃ t, runWord w s = .next t := by
  unfold runWord
  cases decode w with
  | error e => exact ⟨_, rfl⟩
  | ok i => exact exec_next i s

/-! ### Accesses -/

/-- What an access inside the window does (R62 to R66, R72). -/
inductive AccessOutcome (s : State) : HostAccess → BusResult → Prop where
  | read (off width : Nat) (r : Reply) : AccessOutcome s (.read off width) (.done (s.withReply r))
  | refusedWrite (off width : Nat) (v : Word) (h : acceptedAccess off width = false) :
      AccessOutcome s (.write off width v) (.done (s.withReply .busError))
  | busyWrite (off width : Nat) (v : Word) (hb : s.busy = true) :
      AccessOutcome s (.write off width v) (.done (s.setOvr.withReply .written))
  | idleWrite (off width : Nat) (v : Word) (hb : s.busy = false) (ha : acceptedAccess off width = true)
      (hc : off ≠ cmdOffset) :
      AccessOutcome s (.write off width v) (.done ((s.idleWrite off width v).withReply .written))
  | immediate (v : Word) (i : Instr) (hb : s.busy = false) (hd : decode v = .ok i) (hi : i = .clr ∨ i = .srst) :
      AccessOutcome s (.write cmdOffset 4 v) (.run i (s.withReply .written))
  | overrun (v : Word) (hb : s.busy = false) (hf : s.status.fault = true)
      (hd : ∀ i, decode v = .ok i → i ≠ .clr ∧ i ≠ .srst) :
      AccessOutcome s (.write cmdOffset 4 v) (.done (s.withReply .written).setOvr)
  | start (v : Word) (hb : s.busy = false) (hf : s.status.fault = false)
      (hd : ∀ i, decode v = .ok i → i ≠ .clr ∧ i ≠ .srst) :
      AccessOutcome s (.write cmdOffset 4 v) (.done ((s.withReply .written).start v))

theorem immediate_filter (v : Word) :
    (∃ i, decode v = .ok i ∧ (i = .clr ∨ i = .srst) ∧ (decode v).toOption.filter immediate = some i) ∨
      ((∀ i, decode v = .ok i → i ≠ .clr ∧ i ≠ .srst) ∧ (decode v).toOption.filter immediate = none) := by
  cases hd : decode v with
  | error e => exact .inr ⟨fun i h => (nomatch h), rfl⟩
  | ok i =>
    cases hi : immediate i with
    | true =>
      refine .inl ⟨i, rfl, (immediate_iff i).mp hi, ?_⟩
      simp [Except.toOption, hi]
    | false =>
      refine .inr ⟨fun j hj => ?_, by simp [Except.toOption, hi]⟩
      cases hj
      exact ⟨fun e => by rw [e] at hi; exact absurd hi (by decide), fun e => by rw [e] at hi; exact absurd hi (by decide)⟩

theorem acceptedAccess_cmd {width : Nat} (h : acceptedAccess cmdOffset width = true) : width = 4 := by
  have hr : regionOf cmdOffset = .registers := by decide
  unfold acceptedAccess at h
  rw [hr] at h
  simp at h
  exact h.1

/-- Every access of the window is one of these. -/
theorem busAccess_cases (a : HostAccess) (s : State) :
    (∃ off, 0x80000 ≤ off ∧ busAccess a s = .outside off) ∨ AccessOutcome s a (busAccess a s) := by
  cases a with
  | read off width =>
    simp only [busAccess]
    by_cases ho : 0x80000 ≤ off
    · exact .inl ⟨off, ho, if_pos ho⟩
    · simp only [if_neg ho]
      right
      by_cases ha : acceptedAccess off width = true
      · rw [if_pos ha]; exact .read off width _
      · rw [if_neg ha]; exact .read off width _
  | write off width v =>
    simp only [busAccess]
    by_cases ho : 0x80000 ≤ off
    · exact .inl ⟨off, ho, if_pos ho⟩
    · right
      simp only [if_neg ho]
      by_cases ha : acceptedAccess off width = true
      · rw [if_pos ha]
        cases hb : s.busy with
        | true => simp only [if_true]; exact .busyWrite off width v hb
        | false =>
          simp only [Bool.false_eq_true, if_false]
          by_cases hc : off = cmdOffset
          · subst hc
            rw [if_pos rfl, acceptedAccess_cmd ha]
            unfold cmdWrite
            rcases immediate_filter v with ⟨i, h1, h2, h3⟩ | ⟨h1, h3⟩
            · rw [h3]; exact .immediate v i hb h1 h2
            · rw [h3]
              cases hf : s.status.fault with
              | true => simp only [State.withReply_status, hf, if_true]; exact .overrun v hb hf h1
              | false =>
                simp only [State.withReply_status, hf, Bool.false_eq_true, if_false]; exact .start v hb hf h1
          · rw [if_neg hc]
            exact .idleWrite off width v hb ha hc
      · rw [if_neg ha]
        exact .refusedWrite off width v (by simpa using ha)

/-! ### The step -/

/-- What a step that answers a next state did. -/
inductive StepOutcome (s t : State) : Prop where
  /-- No event and no command: nothing happens. -/
  | rest (hh : s.host = []) (hb : s.inflight = none) (ht : t = s)
  /-- The engine's turn while idle. -/
  | idleTurn (hh : s.host.head? = some .engine) (hb : s.inflight = none) (ht : t = s.tick)
  /-- The running command completes. -/
  | completion (w : Word) (hh : s.host = [] ∨ s.host.head? = some .engine) (hw : s.inflight = some w)
      (hr : runWord w s.tick = .next t)
  /-- The reset input. -/
  | reset (hh : s.host.head? = some .reset) (ht : t = s.tick.hardReset)
  /-- An access that is over. -/
  | access (a : HostAccess) (hh : s.host.head? = some (.access a)) (ho : AccessOutcome s.tick a (.done t))
  /-- CLR or SRST, in the step of the CMD write. -/
  | system (v : Word) (i : Instr) (hh : s.host.head? = some (.access (.write cmdOffset 4 v)))
      (hb : s.inflight = none) (hd : decode v = .ok i) (hi : i = .clr ∨ i = .srst)
      (hr : exec i (s.tick.withReply .written) = .next t)

theorem busy_iff (s : State) : s.busy = true ↔ ∃ w, s.inflight = some w := by
  unfold State.busy
  cases s.inflight <;> simp

theorem not_busy_iff (s : State) : s.busy = false ↔ s.inflight = none := by
  unfold State.busy
  cases s.inflight <;> simp

/-- The inversion of `step`. -/
theorem step_cases {s t : State} (h : step s = .next t) : StepOutcome s t := by
  rw [step_eq] at h
  cases hh : s.host with
  | nil =>
    rw [hh] at h
    cases hb : s.busy with
    | false =>
      simp only [hb, Bool.false_eq_true, if_false] at h
      exact .rest hh ((not_busy_iff s).mp hb) (Host.Outcome.next.inj h).symm
    | true =>
      simp only [hb, if_true] at h
      obtain ⟨w, hw⟩ := (busy_iff s).mp hb
      unfold engineTurn at h
      rw [State.tick_inflight, hw] at h
      exact .completion w (.inl hh) hw h
  | cons e rest =>
    rw [hh] at h
    cases e with
    | engine =>
      simp only at h
      unfold engineTurn at h
      rw [State.tick_inflight] at h
      cases hw : s.inflight with
      | none => rw [hw] at h; exact .idleTurn (by rw [hh]; rfl) hw (Host.Outcome.next.inj h).symm
      | some w => rw [hw] at h; exact .completion w (.inr (by rw [hh]; rfl)) hw h
    | reset => exact .reset (by rw [hh]; rfl) (Host.Outcome.next.inj h).symm
    | access a =>
      simp only at h
      rcases busAccess_cases a s.tick with ⟨off, -, hb⟩ | hb
      · rw [hb] at h; cases h
      · cases hres : busAccess a s.tick with
        | outside off => rw [hres] at h; cases h
        | done u =>
          rw [hres] at h hb
          cases h
          exact .access a (by rw [hh]; rfl) hb
        | run i u =>
          rw [hres] at h hb
          cases hb with
          | immediate v j hbz hd hi =>
            exact .system v i (by rw [hh]; rfl) ((not_busy_iff _).mp hbz) hd hi h

end Sys2Proof.Machine
end

