-- ==== Sys2Proof/Laws/Access.lean ====
section
/-! SUPPORT. One access at a time: which are accepted, what a read returns, what a write replaces. -/

namespace Sys2Proof.Machine

/-! ### Words -/

theorem decode_clr_iff (w : Word) : decode w = .ok .clr ↔ w = 1 := by
  rw [decode_ok_iff, commandOf_iff]
  refine ⟨fun h => ?_, fun h => by rw [h]; decide⟩
  rw [word_fields w, h.1, BitVec.eq_of_toNat_eq h.2]
  rfl

theorem decode_srst_iff (w : Word) : decode w = .ok .srst ↔ w = 2 := by
  rw [decode_ok_iff, commandOf_iff]
  refine ⟨fun h => ?_, fun h => by rw [h]; decide⟩
  rw [word_fields w, h.1, BitVec.eq_of_toNat_eq h.2]
  rfl

/-- A word that is neither CLR nor SRST decodes to neither. -/
theorem decode_not_system {w : Word} (h1 : w ≠ 1) (h2 : w ≠ 2) :
    ∀ i, decode w = .ok i → i ≠ .clr ∧ i ≠ .srst := by
  intro i hi
  exact ⟨fun e => h1 ((decode_clr_iff w).mp (e ▸ hi)), fun e => h2 ((decode_srst_iff w).mp (e ▸ hi))⟩

theorem decode_filter_none {w : Word} (h1 : w ≠ 1) (h2 : w ≠ 2) : (decode w).toOption.filter immediate = none := by
  rcases immediate_filter w with ⟨i, hi, hs, -⟩ | ⟨-, h⟩
  · have := decode_not_system h1 h2 i hi
    rcases hs with h | h
    · exact absurd h this.1
    · exact absurd h this.2
  · exact h

theorem decode_not_immediate {w : Word} {i : Instr} (h1 : w ≠ 1) (h2 : w ≠ 2) (hd : decode w = .ok i) :
    immediate i = false := by
  have := decode_not_system h1 h2 i hd
  cases h : immediate i with
  | false => rfl
  | true => rcases (immediate_iff i).mp h with h | h
            · exact absurd h this.1
            · exact absurd h this.2

/-! ### Regions -/

theorem regionOf_registers {a : Nat} (h : a < 0x200) : regionOf a = .registers := by simp only [regionOf, if_pos h]

/-- Past the registers, what is no memory's byte is a hole. -/
theorem regionOf_hole {a : Nat} (h1 : 0x200 ≤ a) (h : mappedByte a = false) : regionOf a = .hole := by
  unfold mappedByte at h
  cases hr : regionOf a with
  | registers =>
    unfold regionOf at hr
    split at hr
    · omega
    · exfalso
      repeat (first | (split at hr) | cases hr)
  | hole => rfl
  | _ => rw [hr] at h; cases h

/-- R63, R65, R66: the accepted accesses. -/
theorem acceptedAccess_iff {off width : Nat} (ho : off < 0x80000) : acceptedAccess off width = true ↔
    ((width = 4 ∧ off % 4 = 0) ∨
      (width = 1 ∧ ¬ (off < 0x200 ∨ (0x400 ≤ off ∧ off < 0x600) ∨ (0x40000 ≤ off ∧ off % 0x10000 < 0x9C40)))) := by
  by_cases h1 : off < 0x200
  · simp only [acceptedAccess, regionOf_registers h1]; simp; omega
  by_cases h2 : 0x400 ≤ off ∧ off < 0x600
  · simp only [acceptedAccess, regionOf_coef h2.1 h2.2]; simp; omega
  by_cases h3 : 0x40000 ≤ off ∧ off % 0x10000 < 0x9C40
  · simp only [acceptedAccess, regionOf_plane h3.1 ho h3.2]; simp; omega
  have hr : regionOf off = .hash ∨ regionOf off = .pixout ∨ regionOf off = .pixin ∨ regionOf off = .hole := by
    cases hm : mappedByte off with
    | false => exact .inr (.inr (.inr (regionOf_hole (by omega) hm)))
    | true =>
      rcases (mappedByte_iff off).mp hm with h | h | h | h | h
      · exact .inl (regionOf_hash h.1 h.2)
      · exact absurd h h2
      · exact .inr (.inl (regionOf_pixout h.1 h.2))
      · exact .inr (.inr (.inl (regionOf_pixin h.1 h.2)))
      · exact absurd ⟨h.1, h.2.2⟩ h3
  rcases hr with hr | hr | hr | hr <;> simp only [acceptedAccess, hr] <;> simp <;> omega

/-! ### Steps that are accesses -/

theorem step_access {s : State} {a : HostAccess} {rest : List Event} (h : s.host = .access a :: rest) :
    step s = ofBusResult (busAccess a s.tick) := by
  simp [step_eq, h]

theorem tick_eq {s : State} {e : Event} {rest : List Event} (h : s.host = e :: rest) :
    s.tick = { s with host := rest, reply := .idle, draws := s.draws + 1 } := by simp [State.tick, h]

theorem busAccess_refused {a : HostAccess} {off width : Nat} (s : State)
    (ha : a = .read off width ∨ ∃ v, a = .write off width v)
    (ho : off < 0x80000) (h : acceptedAccess off width = false) : busAccess a s = .done (s.withReply .busError) := by
  have ho' : ¬ 0x80000 ≤ off := by omega
  rcases ha with rfl | ⟨v, rfl⟩ <;> simp [busAccess, ho', h]

/-- A step that is an accepted read. -/
theorem step_read {s : State} {off width : Nat} {rest : List Event} (hh : s.host = .access (.read off width) :: rest)
    (ho : off < 0x80000) (ha : acceptedAccess off width = true) :
    step s = .next { s with host := rest, reply := .data (s.tick.readData off width), draws := s.draws + 1 } := by
  rw [step_access hh]
  have ho' : ¬ 0x80000 ≤ off := by omega
  simp only [busAccess, if_neg ho', if_pos ha, ofBusResult]
  congr 1
  simp [State.withReply, State.tick, hh]

/-- An access of the window while a command runs: OVR at most. -/
theorem step_busyAccess {s : State} {w : Word} {a : HostAccess} {rest : List Event} (hw : s.inflight = some w)
    (ho : match a with | .read off _ => off < 0x80000 | .write off _ _ => off < 0x80000)
    (hh : s.host = .access a :: rest) :
    ∃ u, step s = .next u ∧ u.regs = s.regs ∧ u.mem = s.mem ∧ u.inflight = some w ∧ u.status.phase = s.status.phase ∧
      u.status.done = s.status.done ∧ u.status.fault = s.status.fault ∧ u.host = rest := by
  rw [step_access hh]
  have hb : s.tick.busy = true := by simp [State.busy, hw]
  cases a with
  | read off width =>
    have : ¬ 0x80000 ≤ off := by simpa using ho
    simp only [busAccess, if_neg this]
    split <;> exact ⟨_, rfl, rfl, rfl, hw, rfl, rfl, rfl, by simp [hh]⟩
  | write off width v =>
    have : ¬ 0x80000 ≤ off := by simpa using ho
    simp only [busAccess, if_neg this, hb]
    split <;> exact ⟨_, rfl, rfl, rfl, hw, rfl, rfl, rfl, by simp [hh]⟩

theorem idle_readData {s : State} (h : s.inflight = none) (off width : Nat) :
    s.readData off width = s.idleRead off width := by
  simp [State.readData, State.busy, h]

/-- R26: the status word. -/
theorem State.statusWord_toNat (s : State) : s.statusWord.toNat =
    (if s.busy then 1 else 0) + (if s.status.done then 2 else 0) +
    (if s.status.fault then 4 else 0) + (if s.status.ovr then 8 else 0) + 256 * s.status.phase.code.toNat := by
  unfold State.statusWord
  generalize s.busy = b
  rcases s.status with ⟨d, f, o, p⟩
  cases b <;> cases d <;> cases f <;> cases o <;> cases p <;> decide

theorem State.statusWord_bits (s : State) :
    s.statusWord.getLsbD 1 = s.status.done ∧ s.statusWord.getLsbD 2 = s.status.fault := by
  unfold State.statusWord
  generalize s.busy = b
  rcases s.status with ⟨d, f, o, p⟩
  cases b <;> cases d <;> cases f <;> cases o <;> cases p <;> decide

/-- R43: the stored registers at their offsets. -/
theorem registerAt_offsets : ∀ p ∈ controlOffsets ++ gridOffsets ++ floatOffsets,
    (registerAt p.1).map Prod.fst = some (.stored p.2) ∧ p.1 < 0x200 ∧ p.1 % 4 = 0 := by decide

theorem wordOfBytes_extract (b0 b1 b2 b3 : Byte) :
    (wordOfBytes b0 b1 b2 b3).extractLsb' 0 8 = b0 ∧ (wordOfBytes b0 b1 b2 b3).extractLsb' 8 8 = b1 ∧
    (wordOfBytes b0 b1 b2 b3).extractLsb' 16 8 = b2 ∧ (wordOfBytes b0 b1 b2 b3).extractLsb' 24 8 = b3 := by
  unfold wordOfBytes
  refine ⟨?_, ?_, ?_, ?_⟩ <;>
  · apply BitVec.eq_of_getLsbD_eq
    intro i hi
    simp only [BitVec.getLsbD_extractLsb', BitVec.getLsbD_append]
    have : i = 0 ∨ i = 1 ∨ i = 2 ∨ i = 3 ∨ i = 4 ∨ i = 5 ∨ i = 6 ∨ i = 7 := by omega
    rcases this with rfl | rfl | rfl | rfl | rfl | rfl | rfl | rfl <;> simp

/-- R66: a hole reads 0. -/
theorem idle_hole {s : State} {off width : Nat}
    (h : (0x220 ≤ off ∧ off < 0x400) ∨ (0x600 ≤ off ∧ off < 0x2000) ∨ (0x4000 ≤ off ∧ off < 0x10000) ∨
      (0x19C40 ≤ off ∧ off < 0x40000) ∨ (0x40000 ≤ off ∧ off < 0x80000 ∧ 0x9C40 ≤ off % 0x10000)) :
    s.idleRead off width = 0 := by
  have : mappedByte off = false := by
    cases hm : mappedByte off with
    | false => rfl
    | true => rw [mappedByte_iff] at hm; omega
  simp only [State.idleRead, regionOf_hole (by omega) this]

/-- A step that is an accepted write while idle, other than to CMD. -/
theorem step_idleWrite {s : State} {off width : Nat} {v : Word} {rest : List Event} (hi : s.inflight = none)
    (hh : s.host = .access (.write off width v) :: rest) (ho : off < 0x80000) (ha : acceptedAccess off width = true)
    (hc : off ≠ 4) : step s = .next ((s.tick.idleWrite off width v).withReply .written) := by
  rw [step_access hh]
  have ho' : ¬ 0x80000 ≤ off := by omega
  have hb : s.tick.busy = false := (not_busy_iff _).mpr hi
  simp only [busAccess, if_neg ho', if_pos ha, hb, Bool.false_eq_true, if_false]
  rw [if_neg (show off ≠ cmdOffset from hc)]; rfl

/-- R23, R64, R66: COEF, PLANE and holes ignore writes. -/
theorem idleWrite_other {s : State} {off : Nat} {v : Word} (h1 : ¬ off < 0x200)
    (h2 : ¬ (0x200 ≤ off ∧ off < 0x220)) (h3 : ¬ (0x2000 ≤ off ∧ off < 0x4000))
    (h4 : ¬ (0x10000 ≤ off ∧ off < 0x19C40)) (width : Nat) : s.idleWrite off width v = s := by
  have hr : regionOf off = .coef ∨ regionOf off = .plane ∨ regionOf off = .hole := by
    cases hm : mappedByte off with
    | false => exact .inr (.inr (regionOf_hole (by omega) hm))
    | true =>
      rcases (mappedByte_iff off).mp hm with h | h | h | h | h
      · omega
      · exact .inl (regionOf_coef h.1 h.2)
      · omega
      · omega
      · exact .inr (.inl (regionOf_plane h.1 h.2.1 h.2.2))
  rcases hr with h | h | h <;> simp [State.idleWrite, h]

/-- R48: a register of the reset register file. -/
theorem reset_reg (r : Reg) (t : State) (h : t.regs = resetRegs) :
    t.reg r = if r = .hashCap then 32 else if r = .pixoutCap then 8192 else 0 := by
  rw [State.reg, h, resetRegs_get]

end Sys2Proof.Machine
end

