-- ==== Sys2Proof/Laws/Exact.lean ====
section
/-! SUPPORT. What the float registers hold under NUM = exact and how they read (R69, R132, R237). -/

namespace Sys2Proof.Machine.Exact

/-- R69: the pattern a host read of a float register returns. -/
noncomputable def patternOf : WithTop ℝ → Word
  | some v => bits32 v
  | none => 0x7F800000

theorem patternOf_ratioValue (ratio : Option ℝ) : patternOf (ratioValue ratio) = ratioWord numerics ratio := by
  cases ratio <;> rfl

/-- Writes of integer registers keep every value. -/
theorem foldl_keep_wordWrites (l : List (Reg × Word)) (x : System) : (wordWrites l).foldl System.keep x = x := by
  induction l with
  | nil => rfl
  | cons p l ih => exact ih

/-- R69, R237, R274: after ASPECT the register holds the ratio itself, +infinity included, and reads as its pattern. -/
theorem aspect_value (x : System) :
    let h16 := x.state.hashHdr16
    let ratio := aspectOf numerics Config.aspectClamp (hasAlphaField x.state.hashHdr24) (landscapeField h16)
      (lfieldField h16).toNat
    (engine.stage aspectStage x).value .aspectRatio = ratioValue ratio ∧
      (engine.stage aspectStage x).state.reg .aspectRatio = patternOf (ratioValue ratio) := by
  intro h16 ratio
  constructor
  · change ((x.keep (.ratio .aspectRatio ratio)).values.lookup .aspectRatio).getD _ = _
    rw [System.keep, List.lookup_cons_self, Option.getD_some]
  · change (x.state.apply numerics.bits32 (.ratio .aspectRatio ratio)).reg .aspectRatio = _
    rw [State.apply_ratio, State.reg_setReg_same, patternOf_ratioValue]

/-- R69, R235, R237: after GRID.DEC the register RATIO holds the ratio itself, +infinity included, and reads as its pattern. -/
theorem gridDec_value (x : System) :
    let ratio := aspectOf numerics Config.aspectClamp x.state.hasAlpha x.state.landscape (x.state.nat .lfield)
    (engine.stage gridDecStage x).value .ratio = ratioValue ratio ∧
      (engine.stage gridDecStage x).state.reg .ratio = patternOf (ratioValue ratio) := by
  intro ratio
  have e : (gridDecStage numerics (engine.view x)).foldl System.keep x = x.keep (.ratio .ratio ratio) := by
    rw [gridDecStage]
    simp only [List.foldl_append, foldl_keep_wordWrites, List.foldl_cons, List.foldl_nil]
    rfl
  constructor
  · change (((gridDecStage numerics (engine.view x)).foldl System.keep x).values.lookup .ratio).getD _ = _
    rw [e, System.keep, List.lookup_cons_self, Option.getD_some]
  · change (x.state.commit numerics.bits32 (gridDecStage numerics (engine.view x))).reg .ratio = _
    rw [gridDecStage]
    simp only [State.commit_append, State.commit_wordWrites, State.commit_cons, State.commit_nil, State.apply_ratio]
    rw [patternOf_ratioValue]
    change (State.setRegs _ (decRasterRegs numerics _ _ _)).reg .ratio = _
    rw [State.reg_setRegs_of_not_mem _ _ _ (by simp [decRasterRegs]), State.reg_setReg_same]
    rfl

end Sys2Proof.Machine.Exact
end

