-- ==== Sys2Proof/Laws/PerInstr.lean ====
section
/-! SUPPORT. A statement made of every command, one lemma per constructor: its word is well formed and its own. -/

namespace Sys2Proof.Laws.EncodedWord

/-- R90 to R92: the word of a command is one of the 17 (RSV zero, OPC assigned), its low byte is the opcode, and it decodes
to the command. -/
def Statement (i : Instr) : Prop :=
  i.wellFormed = true ∧ CommandWord.wellFormed (encode i) = true ∧ (encode i).extractLsb' 0 8 = i.opcode ∧
    Sys2Proof.decode (encode i) = .ok i

theorem clr : Statement .clr := ⟨rfl, by decide, by decide, rfl⟩

theorem srst : Statement .srst := ⟨rfl, by decide, by decide, rfl⟩

theorem ctFwd : Statement .ctFwd := ⟨rfl, by decide, by decide, rfl⟩

theorem gridEnc : Statement .gridEnc := ⟨rfl, by decide, by decide, rfl⟩

theorem dctFwd : Statement .dctFwd := ⟨rfl, by decide, by decide, rfl⟩

theorem pack : Statement .pack := ⟨rfl, by decide, by decide, rfl⟩

theorem unpackHdr : Statement .unpackHdr := ⟨rfl, by decide, by decide, rfl⟩

theorem gridDec : Statement .gridDec := ⟨rfl, by decide, by decide, rfl⟩

theorem unpackAc : Statement .unpackAc := ⟨rfl, by decide, by decide, rfl⟩

theorem dctInv : Statement .dctInv := ⟨rfl, by decide, by decide, rfl⟩

theorem ctInv : Statement .ctInv := ⟨rfl, by decide, by decide, rfl⟩

theorem scanCnt : Statement .scanCnt := ⟨rfl, by decide, by decide, rfl⟩

theorem scanNth : Statement .scanNth := ⟨rfl, by decide, by decide, rfl⟩

theorem encode : Statement .encode := ⟨rfl, by decide, by decide, rfl⟩

theorem decode : Statement .decode := ⟨rfl, by decide, by decide, rfl⟩

theorem avgColor : Statement .avgColor := ⟨rfl, by decide, by decide, rfl⟩

theorem aspect : Statement .aspect := ⟨rfl, by decide, by decide, rfl⟩

end Sys2Proof.Laws.EncodedWord
end

