-- ==== Sys2Proof/Laws/Results.lean ====
section
/-! SUPPORT. What each effect leaves in the registers and cells it writes. -/

namespace Sys2Proof.Machine

/-! ### Reading through register writes -/

theorem State.plane_congr {s t : State} (hm : t.mem = s.mem) (hd : t.resets = s.resets) (c : Channel) (i : Nat) :
    t.plane c i = s.plane c i := State.wordAt_congr hm hd _

theorem State.coef_congr {s t : State} (hm : t.mem = s.mem) (hd : t.resets = s.resets) (c : Channel) (j : Nat) :
    t.coef c j = s.coef c j := State.wordAt_congr hm hd _

theorem State.hash_congr {s t : State} (hm : t.mem = s.mem) (hd : t.resets = s.resets) (k : Nat) : t.hash k = s.hash k :=
  State.byteAt_congr hm hd _

/-! Completing a command changes no register and no cell. -/

@[simp] theorem State.complete_nat (s : State) (r : Reg) : s.complete.nat r = s.nat r := rfl
@[simp] theorem State.complete_plane (s : State) (c : Channel) (i : Nat) : s.complete.plane c i = s.plane c i := rfl
@[simp] theorem State.complete_coef (s : State) (c : Channel) (j : Nat) : s.complete.coef c j = s.coef c j := rfl
@[simp] theorem State.complete_hash (s : State) (k : Nat) : s.complete.hash k = s.hash k := rfl
@[simp] theorem State.complete_nibble (s : State) (n k : Nat) : s.complete.nibble n k = s.nibble n k := rfl
@[simp] theorem State.complete_hasAlpha (s : State) : s.complete.hasAlpha = s.hasAlpha := rfl
@[simp] theorem State.complete_landscape (s : State) : s.complete.landscape = s.landscape := rfl

theorem State.setRegs_reg_congr {u v : State} (h : ∀ r, u.reg r = v.reg r) (l : List (Reg × Word)) (r : Reg) :
    (u.setRegs l).reg r = (v.setRegs l).reg r := by
  induction l generalizing u v with
  | nil => exact h r
  | cons p l ih =>
    rw [State.setRegs_cons, State.setRegs_cons]
    refine ih fun r' => ?_
    rw [State.reg_setReg, State.reg_setReg, h]

theorem getD_map_range {α : Type} (f : Nat → α) (n i : Nat) (d : α) (h : i < n) :
    ((List.range n).map f).getD i d = f i := by
  rw [List.getD_eq_getElem?_getD, List.getElem?_map, List.getElem?_range h]
  rfl

/-! ### CT.FWD -/

theorem ctFwdEffect_reg (s : State) :
    ∀ p ∈ ([(.plW, s.reg .imgW), (.plH, s.reg .imgH), (.hasAlpha, boolWord (anyTransparent s.image)),
        (.bgR, s.background.r), (.bgG, s.background.g), (.bgB, s.background.b), (.alphaSum, s.imageSums.sa)] :
          List (Reg × Word)), (ctFwdEffect s).reg p.1 = p.2 := by
  intro p hp
  unfold ctFwdEffect
  rw [State.setPhase_reg]
  exact State.reg_setRegs_mem _ _ _ _
    (by exact (by decide : [Reg.plW, .plH, .hasAlpha, .bgR, .bgG, .bgB, .alphaSum].Nodup)) hp

theorem ctFwdEffect_plane (s : State) (c : Channel) {i : Nat} (hi : i < s.nat .imgW * s.nat .imgH) (h10 : i < 10000) :
    (ctFwdEffect s).plane c i = (lpqaOfPixel num s.background (s.pixel i)).get c := by
  unfold ctFwdEffect
  rw [State.plane_congr (State.setRegs_setPhase_mem _ _ _) (by rw [State.setPhase_resets, State.setRegs_resets]),
    State.plane_writePlanes _ _ _ _ _ h10]
  · rw [State.imageSamples, List.map_map]
    rw [State.image, State.pixels, List.map_map]
    exact getD_map_range _ _ _ _ hi
  · rw [State.imageSamples, List.length_map, List.length_map, State.image_length]
    exact hi

/-! ### DCT.FWD -/

theorem fwdChannel_ac_length {F : Type} (N : Numerics F) (plane : Nat → F) (w h nx ny : Nat) :
    (fwdChannel N plane w h nx ny).ac.length = scanCount nx ny := by
  unfold fwdChannel normalise
  simp only
  split <;> simp [scanCount]

theorem writeFwdChannel_reg (s t : State) (c : Channel) :
    (writeFwdChannel s t c).reg (.dc c) = (s.fwdResult c).dc ∧
      (writeFwdChannel s t c).reg (.sc c) = (s.fwdResult c).scale := by
  unfold writeFwdChannel
  constructor
  · exact State.reg_setRegs_mem _ _ _ _ (by simp) (by simp)
  · exact State.reg_setRegs_mem _ _ _ _ (by simp) (by simp)

theorem writeFwdChannel_reg_ne (s t : State) {c d : Channel} (h : c ≠ d) :
    (writeFwdChannel s t c).reg (.dc d) = t.reg (.dc d) ∧ (writeFwdChannel s t c).reg (.sc d) = t.reg (.sc d) := by
  unfold writeFwdChannel
  have h' : d ≠ c := fun e => h e.symm
  constructor <;> exact State.reg_setRegs_of_not_mem _ _ _ (by simp [h'])

theorem writeFwdChannel_coef (s t : State) (c : Channel) {j : Nat} (hj : j < s.nat (.nac c)) (h32 : j < 32)
    (hl : j < (s.fwdResult c).ac.length) :
    (writeFwdChannel s t c).coef c j = (s.fwdResult c).ac.getD j 0 := by
  unfold writeFwdChannel
  rw [State.coef_congr (State.setRegs_mem _ _) (State.setRegs_resets _ _), State.coef_writeCoef _ _ _ _ _ h32,
    take_getD _ _ _ _ hj]
  rw [List.length_take]
  omega

theorem writeFwdChannel_coef_ne (s t : State) {c d : Channel} (h : c ≠ d) {j : Nat} (h32 : j < 32) :
    (writeFwdChannel s t c).coef d j = t.coef d j := by
  unfold writeFwdChannel
  rw [State.coef_congr (State.setRegs_mem _ _) (State.setRegs_resets _ _), State.coef_writeCoef_ne _ _ _ h h32]

/-- A loop over channels: what the step of channel c leaves, no step of another channel changes. -/
theorem foldl_channels_keep {σ α : Type} (step : σ → Channel → σ) (get : σ → α) (c : Channel) (v : α)
    (hne : ∀ t d, d ≠ c → get (step t d) = get t) (hv : ∀ t, get (step t c) = v) (cs : List Channel) (s : σ)
    (hc : c ∈ cs) : get (cs.foldl step s) = v := by
  have keep : ∀ (cs : List Channel) (s : σ), get s = v → get (cs.foldl step s) = v := by
    intro cs
    induction cs with
    | nil => exact fun _ h => h
    | cons d cs ih =>
      intro s h
      refine ih _ ?_
      by_cases e : d = c
      · rw [e]; exact hv s
      · rw [hne _ _ e]; exact h
  induction cs generalizing s with
  | nil => cases hc
  | cons d cs ih =>
    rw [List.foldl_cons]
    by_cases e : d = c
    · rw [e]; exact keep cs _ (hv s)
    · exact ih _ ((List.mem_cons.mp hc).resolve_left fun h => e h.symm)

theorem alpha_not_mem {ha : Bool} (h : ha = false) : Channel.A ∉ channels ha := by rw [h]; decide

theorem fixAlphaChannel_reg (ha : Bool) (t : State) (c : Channel) (hc : c ∈ channels ha) :
    (fixAlphaChannel ha t).reg (.dc c) = t.reg (.dc c) ∧ (fixAlphaChannel ha t).reg (.sc c) = t.reg (.sc c) := by
  unfold fixAlphaChannel
  cases ha with
  | true => exact ⟨rfl, rfl⟩
  | false =>
    have hne : c ≠ .A := fun e => alpha_not_mem rfl (e ▸ hc)
    constructor <;> exact State.reg_setRegs_of_not_mem _ _ _ (by simp [hne])

theorem fixAlphaChannel_resets (ha : Bool) (t : State) : (fixAlphaChannel ha t).resets = t.resets := by
  unfold fixAlphaChannel
  cases ha with
  | true => rfl
  | false => exact State.setRegs_resets _ _

/-- The results of a channel that is present. -/
theorem dctFwdEffect_reg (s : State) (c : Channel) (hc : c ∈ channels s.hasAlpha) :
    (dctFwdEffect s).reg (.dc c) = (s.fwdResult c).dc ∧ (dctFwdEffect s).reg (.sc c) = (s.fwdResult c).scale := by
  unfold dctFwdEffect
  rw [State.setPhase_reg, State.setPhase_reg, (fixAlphaChannel_reg _ _ c hc).1, (fixAlphaChannel_reg _ _ c hc).2]
  exact ⟨foldl_channels_keep (writeFwdChannel s) (fun t => t.reg (.dc c)) c _
      (fun t d h => (writeFwdChannel_reg_ne s t h).1) (fun t => (writeFwdChannel_reg s t c).1) _ _ hc,
    foldl_channels_keep (writeFwdChannel s) (fun t => t.reg (.sc c)) c _
      (fun t d h => (writeFwdChannel_reg_ne s t h).2) (fun t => (writeFwdChannel_reg s t c).2) _ _ hc⟩

theorem num_one : num.one = 0x3F800000 := by decide +kernel

/-- R182: A without alpha. -/
theorem dctFwdEffect_alpha (s : State) (h : s.hasAlpha = false) :
    (dctFwdEffect s).reg (.dc .A) = 0x3F800000 ∧ (dctFwdEffect s).reg (.sc .A) = 0x3F800000 := by
  unfold dctFwdEffect fixAlphaChannel
  rw [State.setPhase_reg, State.setPhase_reg, h, if_neg (by decide), ← num_one]
  exact ⟨State.reg_setRegs_mem _ _ _ _ (by simp) (by simp), State.reg_setRegs_mem _ _ _ _ (by simp) (by simp)⟩

theorem dctFwdEffect_coef (s : State) (c : Channel) (hc : c ∈ channels s.hasAlpha) {j : Nat}
    (hj : j < s.nat (.nac c)) (h32 : j < 32) (hl : j < (s.fwdResult c).ac.length) :
    (dctFwdEffect s).coef c j = (s.fwdResult c).ac.getD j 0 := by
  unfold dctFwdEffect
  rw [State.coef_congr (State.setPhase_mem _ _) (State.setPhase_resets _ _),
    State.coef_congr (fixAlphaChannel_mem _ _) (fixAlphaChannel_resets _ _)]
  exact foldl_channels_keep (writeFwdChannel s) (fun t => t.coef c j) c _
    (fun t d h => writeFwdChannel_coef_ne s t h h32) (fun t => writeFwdChannel_coef s t c hj h32 hl) _ _ hc

/-! ### PACK -/

theorem packEffect_reg (s : State) :
    ∀ p ∈ ([(.hdr24, s.packHdr24.setWidth 32), (.hdr16, s.packHdr16.setWidth 32), (.hdrA, s.packHdrA.setWidth 32),
        (.nibcur, natWord s.packNibbles.length), (.hashLen, s.reg .reqLen)] : List (Reg × Word)),
      (packEffect s).reg p.1 = p.2 := by
  intro p hp
  unfold packEffect
  rw [State.setPhase_reg]
  exact State.reg_setRegs_mem _ _ _ _ (by exact (by decide : [Reg.hdr24, .hdr16, .hdrA, .nibcur, .hashLen].Nodup)) hp

theorem pairNibbles_length (l : List (BitVec 4)) : (pairNibbles l).length = (l.length + 1) / 2 := by
  induction l using pairNibbles.induct with
  | case1 => rfl
  | case2 n => simp [pairNibbles]
  | case3 n0 n1 rest ih => rw [pairNibbles, List.length_cons, ih, List.length_cons, List.length_cons]; omega

theorem low_nibble (a b : BitVec 4) : (a ++ b).extractLsb' 0 4 = b := by
  apply BitVec.eq_of_getLsbD_eq
  intro i hi
  rw [BitVec.getLsbD_extractLsb', BitVec.getLsbD_append]
  simp [hi]

theorem high_nibble (a b : BitVec 4) : (a ++ b).extractLsb' 4 4 = a := by
  apply BitVec.eq_of_getLsbD_eq
  intro i hi
  rw [BitVec.getLsbD_extractLsb', BitVec.getLsbD_append]
  simp [hi]

/-- R104, R106: nibble j of the paired bytes; past an odd last nibble it is 0. -/
theorem pairNibbles_nibble (l : List (BitVec 4)) (j : Nat) (h : j / 2 < (pairNibbles l).length) :
    ((pairNibbles l).getD (j / 2) 0).extractLsb' (4 * (j % 2)) 4 = l.getD j 0 := by
  induction l using pairNibbles.induct generalizing j with
  | case1 => simp [pairNibbles] at h
  | case2 n =>
    have hj : j = 0 ∨ j = 1 := by
      rw [pairNibbles_length] at h
      simp at h
      omega
    rcases hj with rfl | rfl
    · exact low_nibble _ _
    · exact high_nibble _ _
  | case3 n0 n1 rest ih =>
    by_cases h2 : j < 2
    · have hj : j = 0 ∨ j = 1 := by omega
      rcases hj with rfl | rfl
      · exact low_nibble _ _
      · exact high_nibble _ _
    · obtain ⟨k, rfl⟩ : ∃ k, j = k + 2 := ⟨j - 2, by omega⟩
      have hk : (k + 2) / 2 = k / 2 + 1 := by omega
      have hm : (k + 2) % 2 = k % 2 := by omega
      rw [hk] at h ⊢
      rw [hm]
      exact ih k (by simpa [pairNibbles] using h)

theorem packHeader_length (s : State) : s.packHeader.length = headerLength s.hasAlpha := by
  unfold State.packHeader headerLength
  cases s.hasAlpha <;> rfl

/-- The header bytes that PACK leaves. -/
theorem packEffect_header (s : State) {k : Nat} (hk : k < s.packHeader.length) (hlen : k < s.nat .hdrLen) :
    (packEffect s).hash k = s.packHeader.getD k 0 := by
  have h6 : s.packHeader.length ≤ 6 := by rw [packHeader_length]; cases s.hasAlpha <;> decide
  unfold packEffect
  rw [State.hash_congr (State.setRegs_setPhase_mem _ _ _) (by rw [State.setPhase_resets, State.setRegs_resets]),
    State.hash_writeHash_outside _ _ _ _ (.inl hlen), State.hash_writeHash _ _ _ _ (by omega) (by omega) (by omega)]
  rfl

/-- The payload nibbles that PACK leaves. -/
theorem packEffect_nibble (s : State) {j : Nat} (hj : j / 2 < (s.packNibbles.length + 1) / 2)
    (h32 : s.nat .hdrLen + j / 2 < 32) : (packEffect s).nibble (s.nat .hdrLen) j = s.packNibbles.getD j 0 := by
  have hl : j / 2 < (pairNibbles s.packNibbles).length := by rw [pairNibbles_length]; exact hj
  unfold State.nibble
  have hh : (packEffect s).hash (s.nat .hdrLen + j / 2) = (pairNibbles s.packNibbles).getD (j / 2) 0 := by
    unfold packEffect
    rw [State.hash_congr (State.setRegs_setPhase_mem _ _ _) (by rw [State.setPhase_resets, State.setRegs_resets]),
      State.hash_writeHash _ _ _ _ (by omega) (by omega) h32]
    congr 1
    omega
  rw [hh]
  exact pairNibbles_nibble _ _ hl

theorem packChannel_length (s : State) (c : Channel) : (s.packChannel c).length = s.nat (.nac c) := by
  unfold State.packChannel
  rw [List.length_map, List.length_range]

theorem packNibbles_eq (s : State) : s.packNibbles = s.packChannel .L ++ (s.packChannel .P ++ (s.packChannel .Q ++
    (if s.hasAlpha then s.packChannel .A else []))) := by
  unfold State.packNibbles channels
  cases s.hasAlpha
  · simp only [Bool.false_eq_true, if_false, List.flatMap_cons, List.flatMap_nil]
  · simp only [if_true, List.flatMap_cons, List.flatMap_nil, List.append_nil]

/-- The number of nibbles of the payload. -/
theorem packNibbles_length (s : State) : s.packNibbles.length =
    s.nat (.nac .L) + s.nat (.nac .P) + s.nat (.nac .Q) + (if s.hasAlpha then s.nat (.nac .A) else 0) := by
  rw [packNibbles_eq, List.length_append, List.length_append, List.length_append, packChannel_length,
    packChannel_length, packChannel_length]
  cases s.hasAlpha
  · simp only [Bool.false_eq_true, if_false, List.length_nil]; omega
  · simp only [if_true, packChannel_length]; omega

theorem getD_append_skip {α : Type} (l r : List α) (k n : Nat) (d : α) (h : l.length = n) :
    (l ++ r).getD (n + k) d = r.getD k d := by
  rw [List.getD_eq_getElem?_getD, List.getD_eq_getElem?_getD, List.getElem?_append_right (by omega), h,
    Nat.add_sub_cancel_left]

theorem getD_append_here {α : Type} (l r : List α) (k : Nat) (d : α) (h : k < l.length) :
    (l ++ r).getD k d = l.getD k d := by
  rw [List.getD_eq_getElem?_getD, List.getD_eq_getElem?_getD, List.getElem?_append_left h]

theorem packChannel_getD (s : State) (c : Channel) {j : Nat} (hj : j < s.nat (.nac c)) :
    (s.packChannel c).getD j 0 = quantNibble num (s.coef c j) := by
  rw [State.packChannel]
  exact getD_map_range (fun j => quantNibble num (s.coef c j)) _ _ _ hj

/-- R104: the payload, channel by channel. -/
theorem packNibbles_getD (s : State) (c : Channel) (hc : c ∈ channels s.hasAlpha) {j : Nat} (hj : j < s.nat (.nac c)) :
    s.packNibbles.getD (payloadStart s c + j) 0 = quantNibble num (s.coef c j) := by
  have hl : ∀ d, (s.packChannel d).length = s.nat (.nac d) := packChannel_length s
  have hj' : j < (s.packChannel c).length := by rw [hl]; exact hj
  rw [← packChannel_getD s c hj, packNibbles_eq]
  cases c with
  | L => rw [payloadStart, Nat.zero_add, getD_append_here _ _ _ _ hj']
  | P => rw [payloadStart, getD_append_skip _ _ _ _ _ (hl .L), getD_append_here _ _ _ _ hj']
  | Q =>
    rw [payloadStart, Nat.add_assoc, getD_append_skip _ _ _ _ _ (hl .L), getD_append_skip _ _ _ _ _ (hl .P),
      getD_append_here _ _ _ _ hj']
  | A =>
    have ha : s.hasAlpha = true := by
      cases h : s.hasAlpha with
      | true => rfl
      | false => exact absurd hc (alpha_not_mem h)
    rw [payloadStart, Nat.add_assoc, Nat.add_assoc, getD_append_skip _ _ _ _ _ (hl .L),
      getD_append_skip _ _ _ _ _ (hl .P), getD_append_skip _ _ _ _ _ (hl .Q), ha, if_pos rfl]

/-! ### UNPACK.HDR -/

/-- The registers UNPACK.HDR writes, with their values. -/
def State.unpackedHeader (s : State) : List (Reg × Word) :=
  [(.hdr24, s.hashHdr24.setWidth 32), (.hdr16, s.hashHdr16.setWidth 32), (.hdrA, s.unpackHdrA.setWidth 32),
    (.hasAlpha, boolWord (hasAlphaField s.hashHdr24)), (.isLandscape, boolWord (landscapeField s.hashHdr16)),
    (.lfield, (lfieldField s.hashHdr16).setWidth 32), (.hdrLen, if hasAlphaField s.hashHdr24 then 6 else 5)] ++
    dequantHeader num s.hashHdr24 s.hashHdr16 s.unpackHdrA

theorem unpackHdrEffect_reg (s : State) : ∀ p ∈ s.unpackedHeader, (unpackHdrEffect s).reg p.1 = p.2 := by
  intro p hp
  have nd : (s.unpackedHeader.map Prod.fst).Nodup := by
    rw [State.unpackedHeader, List.map_append]
    exact (by decide : ([Reg.hdr24, .hdr16, .hdrA, .hasAlpha, .isLandscape, .lfield, .hdrLen] ++
      [Reg.dc .L, .dc .P, .dc .Q, .sc .L, .sc .P, .sc .Q, .dc .A, .sc .A]).Nodup)
  unfold unpackHdrEffect
  rw [State.setPhase_reg]
  exact State.reg_setRegs_mem _ _ _ _ nd hp

/-! ### UNPACK.AC -/

/-- The value UNPACK.AC gives coefficient j of channel c. -/
def State.unpackedCoef (s : State) (c : Channel) (j : Nat) : Word :=
  dequantNibble num (s.nibble (s.nat .hdrLen) (payloadStart s c + j)) (boostedScale num c (s.reg (.sc c)))

theorem unpackChannel_getD (s : State) (c : Channel) {j : Nat} (hj : j < s.nat (.nac c)) :
    (s.unpackChannel c (payloadStart s c)).getD j 0 = s.unpackedCoef c j :=
  getD_map_range (fun j => dequantNibble num (s.nibble (s.nat .hdrLen) (payloadStart s c + j))
    (boostedScale num c (s.reg (.sc c)))) _ _ _ hj

theorem unpackStep_coef (s : State) (t : State × Nat) (c : Channel) {j : Nat} (hj : j < s.nat (.nac c)) (h32 : j < 32)
    (ht : t.2 = payloadStart s c) : (unpackStep s t c).1.coef c j = s.unpackedCoef c j := by
  unfold unpackStep
  rw [State.coef_writeCoef _ _ _ _ (by rw [State.unpackChannel, List.length_map, List.length_range]; exact hj) h32, ht]
  exact unpackChannel_getD s c hj

theorem unpackStep_coef_ne (s : State) (t : State × Nat) {c d : Channel} (h : c ≠ d) {j : Nat} (h32 : j < 32) :
    (unpackStep s t c).1.coef d j = t.1.coef d j := by
  unfold unpackStep
  exact State.coef_writeCoef_ne _ _ _ h h32

/-- The loop's cursor: the nibbles of the channels present. -/
theorem unpackAc_cursor (s : State) : ((channels s.hasAlpha).foldl (unpackStep s) (s, 0)).2 =
    s.nat (.nac .L) + s.nat (.nac .P) + s.nat (.nac .Q) + (if s.hasAlpha then s.nat (.nac .A) else 0) := by
  unfold channels
  cases s.hasAlpha <;> simp [unpackStep]

theorem unpackAcEffect_coef (s : State) (c : Channel) (hc : c ∈ channels s.hasAlpha) {j : Nat}
    (hj : j < s.nat (.nac c)) (h32 : j < 32) : (unpackAcEffect s).coef c j = s.unpackedCoef c j := by
  have key : ((channels s.hasAlpha).foldl (unpackStep s) (s, 0)).1.coef c j = s.unpackedCoef c j := by
    have e1 : (unpackStep s (s, 0) .L).2 = payloadStart s .P := Nat.zero_add _
    have e2 : (unpackStep s (unpackStep s (s, 0) .L) .P).2 = payloadStart s .Q := by
      show (unpackStep s (s, 0) .L).2 + _ = _
      rw [e1]; rfl
    have e3 : (unpackStep s (unpackStep s (unpackStep s (s, 0) .L) .P) .Q).2 = payloadStart s .A := by
      show (unpackStep s (unpackStep s (s, 0) .L) .P).2 + _ = _
      rw [e2]; rfl
    cases hha : s.hasAlpha with
    | true =>
      show (unpackStep s (unpackStep s (unpackStep s (unpackStep s (s, 0) .L) .P) .Q) .A).1.coef c j = _
      cases c with
      | L =>
        rw [unpackStep_coef_ne _ _ (by decide) h32, unpackStep_coef_ne _ _ (by decide) h32,
          unpackStep_coef_ne _ _ (by decide) h32, unpackStep_coef _ _ _ hj h32 rfl]
      | P =>
        rw [unpackStep_coef_ne _ _ (by decide) h32, unpackStep_coef_ne _ _ (by decide) h32,
          unpackStep_coef _ _ _ hj h32 e1]
      | Q => rw [unpackStep_coef_ne _ _ (by decide) h32, unpackStep_coef _ _ _ hj h32 e2]
      | A => rw [unpackStep_coef _ _ _ hj h32 e3]
    | false =>
      rw [hha] at hc
      show (unpackStep s (unpackStep s (unpackStep s (s, 0) .L) .P) .Q).1.coef c j = _
      cases c with
      | L =>
        rw [unpackStep_coef_ne _ _ (by decide) h32, unpackStep_coef_ne _ _ (by decide) h32,
          unpackStep_coef _ _ _ hj h32 rfl]
      | P => rw [unpackStep_coef_ne _ _ (by decide) h32, unpackStep_coef _ _ _ hj h32 e1]
      | Q => rw [unpackStep_coef _ _ _ hj h32 e2]
      | A => exact absurd hc (by decide)
  unfold unpackAcEffect
  rw [State.coef_congr (State.setPhase_mem _ _) (State.setPhase_resets _ _),
    State.coef_congr (State.setReg_mem _ _ _) (State.setReg_resets _ _ _)]
  exact key

theorem unpackAcEffect_nibcur (s : State) : (unpackAcEffect s).reg .nibcur =
    natWord (s.nat (.nac .L) + s.nat (.nac .P) + s.nat (.nac .Q) + (if s.hasAlpha then s.nat (.nac .A) else 0)) := by
  unfold unpackAcEffect
  rw [State.setPhase_reg, State.reg_setReg_same, unpackAc_cursor]

/-! ### DCT.INV and CT.INV -/

theorem dctInvEffect_reg (s : State) :
    (dctInvEffect s).reg .plW = s.reg .outW ∧ (dctInvEffect s).reg .plH = s.reg .outH := by
  unfold dctInvEffect
  rw [State.setPhase_reg, State.setPhase_reg]
  exact ⟨State.reg_setRegs_mem _ _ _ _ (by simp) (by simp), State.reg_setRegs_mem _ _ _ _ (by simp) (by simp)⟩

theorem dctInvEffect_plane (s : State) (c : Channel) {i : Nat} (hi : i < s.nat .outW * s.nat .outH) (h10 : i < 10000) :
    (dctInvEffect s).plane c i = s.invCell c i := by
  unfold dctInvEffect
  rw [State.plane_congr (State.setRegs_setPhase_mem _ _ _) (by rw [State.setPhase_resets, State.setRegs_resets]),
    State.plane_writePlanes _ _ _ _ _ h10]
  · exact getD_map_range _ _ _ _ hi
  · rw [State.invPlane, List.length_map, List.length_range]
    exact hi

theorem flatMap_pixelBytes_getD {α F : Type} (N : Numerics F) (f : α → Lpqa F) (l : List α) (i k : Nat) (hk : k < 4)
    (hi : i < l.length) :
    (l.flatMap (fun a => pixelBytes N (f a))).getD (4 * i + k) 0 = (pixelBytes N (f (l[i]))).getD k 0 := by
  induction l generalizing i with
  | nil => simp at hi
  | cons a l ih =>
    rw [List.flatMap_cons, List.getD_eq_getElem?_getD]
    cases i with
    | zero =>
      rw [List.getElem?_append_left (by rw [pixelBytes_length]; omega), List.getD_eq_getElem?_getD]
      simp
    | succ i =>
      rw [List.getElem?_append_right (by rw [pixelBytes_length]; omega), pixelBytes_length,
        show 4 * (i + 1) + k - 4 = 4 * i + k by omega, ← List.getD_eq_getElem?_getD, ih i (by simpa using hi)]
      rfl

/-- The four bytes of pixel i that CT.INV leaves. -/
theorem ctInvEffect_byte (s : State) {i k : Nat} (hi : i < s.nat .plW * s.nat .plH) (hk : k < 4)
    (h : 4 * i + k < 8192) :
    (ctInvEffect s).byteAt (pixoutBase + (4 * i + k)) = (pixelBytes num (s.sample i)).getD k 0 := by
  unfold ctInvEffect
  rw [State.byteAt_congr (State.setPhase_mem _ _) (State.setPhase_resets _ _),
    State.byteAt_writePixout _ _ _ (by rw [flatMap_pixelBytes_length, List.length_range]; omega) h,
    flatMap_pixelBytes_getD _ _ _ _ _ hk (by rw [List.length_range]; exact hi), List.getElem_range]

/-! ### SCAN.NTH -/

theorem scanNthEffect_reg (s : State) :
    (scanNthEffect s).reg .scanCnt = natWord (scanCount (s.nat .scanNx) (s.nat .scanNy)) ∧
      (scanNthEffect s).reg .scanCx = natWord s.scanEntry.1 ∧ (scanNthEffect s).reg .scanCy = natWord s.scanEntry.2 := by
  unfold scanNthEffect
  refine ⟨?_, ?_, ?_⟩ <;> exact State.reg_setRegs_mem _ _ _ _ (by simp) (by simp)

/-! ### AVGCOLOR -/

theorem avgColorEffect_reg (s : State) :
    (avgColorEffect s).reg .avgR = num.clamp01 (headerColor num s.hashHdr24).r ∧
      (avgColorEffect s).reg .avgG = num.clamp01 (headerColor num s.hashHdr24).g ∧
      (avgColorEffect s).reg .avgB = num.clamp01 (headerColor num s.hashHdr24).b ∧
      (avgColorEffect s).reg .avgA =
        if hasAlphaField s.hashHdr24 then dequantA num (aDcField (s.hash 5)) else num.one := by
  unfold avgColorEffect
  have nd : ∀ a b c d : Word, (([(.avgR, a), (.avgG, b), (.avgB, c), (.avgA, d)] : List (Reg × Word)).map
      Prod.fst).Nodup := fun _ _ _ _ => (by decide : [Reg.avgR, .avgG, .avgB, .avgA].Nodup)
  refine ⟨?_, ?_, ?_, ?_⟩ <;> exact State.reg_setRegs_mem _ _ _ _ (nd _ _ _ _) (by simp)

end Sys2Proof.Machine
end

