-- ==== Sys2Proof/Laws/Phases.lean ====
section
/-! SUPPORT. What the parts of `PhaseInv` depend on, and which effect establishes or keeps each. -/

namespace Sys2Proof.Machine

/-! ### The registers the parts read -/

/-- The registers `PhaseInv` reads. -/
def phaseRegs : List Reg :=
  ([.plW, .plH, .hasAlpha, .isLandscape, .lfield, .hdr24, .hdr16, .hdrA, .dc .A, .sc .A] : List Reg) ++ gridWrites ++
    ([.ratio, .outW, .outH, .pixoutLen] : List Reg)

/-- Two states that agree on a register. -/
theorem State.nat_eq {s t : State} {r : Reg} (h : t.reg r = s.reg r) : t.nat r = s.nat r := by
  rw [State.nat, State.nat, h]

theorem State.nat_of_reg {s : State} {r : Reg} {v : Word} (h : s.reg r = v) : s.nat r = v.toNat := by
  rw [State.nat, h]

theorem State.hasAlpha_eq {s t : State} (h : t.reg .hasAlpha = s.reg .hasAlpha) : t.hasAlpha = s.hasAlpha := by
  rw [State.hasAlpha, State.hasAlpha, h]

theorem State.landscape_eq {s t : State} (h : t.reg .isLandscape = s.reg .isLandscape) : t.landscape = s.landscape := by
  rw [State.landscape, State.landscape, h]

theorem PlanesOfImage.congr {s t : State} (h : ∀ r ∈ [Reg.plW, .plH], t.reg r = s.reg r) (hs : PlanesOfImage s) :
    PlanesOfImage t := by
  unfold PlanesOfImage at *
  rw [State.nat_eq (h .plW (by decide)), State.nat_eq (h .plH (by decide))]
  exact hs

theorem gridRegs_mem {ha : Bool} {nx ny : Nat} {p : Reg × Word} (h : p ∈ gridRegs ha nx ny) : p.1 ∈ gridWrites := by
  have : p.1 ∈ (gridRegs ha nx ny).map Prod.fst := List.mem_map_of_mem h
  rw [gridRegs_fst] at this
  exact List.mem_of_mem_drop this

theorem decRegs_mem {ha land : Bool} {f : Nat} {p : Reg × Word} (h : p ∈ decRegs ha land f) : p.1 ∈ gridDecWrites := by
  have : p.1 ∈ (decRegs ha land f).map Prod.fst := List.mem_map_of_mem h
  rwa [decRegs_fst] at this

/-- The registers `EncoderGrid` reads. -/
def encoderRegs : List Reg := ([.plW, .plH, .hasAlpha, .isLandscape, .lfield] : List Reg) ++ gridWrites

theorem EncoderGrid.congr {s t : State} (h : ∀ r ∈ encoderRegs, t.reg r = s.reg r) (hs : EncoderGrid s) :
    EncoderGrid t := by
  unfold EncoderGrid at *
  rw [State.nat_eq (h .plW (by decide)), State.nat_eq (h .plH (by decide)), State.nat_eq (h .lx (by decide)),
    State.nat_eq (h .ly (by decide)), State.nat_eq (h .lfield (by decide)), State.hasAlpha_eq (h .hasAlpha (by decide)),
    State.landscape_eq (h .isLandscape (by decide))]
  refine ⟨fun p hp => ?_, hs.2⟩
  rw [h p.1 (List.mem_append_right _ (gridRegs_mem hp))]
  exact hs.1 p hp

theorem AlphaFixed.congr {s t : State} (h : ∀ r ∈ [Reg.hasAlpha, .dc .A, .sc .A], t.reg r = s.reg r)
    (hs : AlphaFixed s) : AlphaFixed t := by
  unfold AlphaFixed at *
  rw [State.hasAlpha_eq (h .hasAlpha (by decide)), h (.dc .A) (by decide), h (.sc .A) (by decide)]
  exact hs

theorem HeaderAgrees.congr {s t : State}
    (h : ∀ r ∈ [Reg.hasAlpha, .isLandscape, .lfield, .hdr24, .hdr16, .hdrA, .hdrLen], t.reg r = s.reg r)
    (hs : HeaderAgrees s) : HeaderAgrees t := by
  unfold HeaderAgrees at *
  rw [State.hasAlpha_eq (h .hasAlpha (by decide)), State.landscape_eq (h .isLandscape (by decide)),
    h .hdr24 (by decide), h .hdr16 (by decide), h .hdrA (by decide), State.nat_eq (h .lfield (by decide)),
    State.nat_eq (h .hdr16 (by decide)), State.nat_eq (h .hdrLen (by decide))]
  exact hs

/-- The registers `DecoderGrid` reads. -/
def decoderRegs : List Reg := ([.hasAlpha, .isLandscape, .lfield] : List Reg) ++ gridDecWrites

theorem DecoderGrid.congr {s t : State} (h : ∀ r ∈ decoderRegs, t.reg r = s.reg r) (hs : DecoderGrid s) :
    DecoderGrid t := by
  unfold DecoderGrid at *
  rw [State.hasAlpha_eq (h .hasAlpha (by decide)), State.landscape_eq (h .isLandscape (by decide)),
    State.nat_eq (h .lfield (by decide))]
  intro p hp
  rw [h p.1 (List.mem_append_right _ (decRegs_mem hp))]
  exact hs p hp

theorem PlanesOfRaster.congr {s t : State} (h : ∀ r ∈ [Reg.plW, .plH, .outW, .outH], t.reg r = s.reg r)
    (hs : PlanesOfRaster s) : PlanesOfRaster t := by
  unfold PlanesOfRaster at *
  rw [h .plW (by decide), h .plH (by decide), h .outW (by decide), h .outH (by decide)]
  exact hs

/-- `PhaseInv` is a property of PHASE and `phaseRegs`. -/
theorem PhaseInv.congr {s t : State} (hp : t.status.phase = s.status.phase) (h : ∀ r ∈ phaseRegs, t.reg r = s.reg r)
    (hs : PhaseInv s) : PhaseInv t := by
  have h1 : PlanesOfImage s → PlanesOfImage t := PlanesOfImage.congr fun r hr => h r ((by decide :
    ∀ r ∈ [Reg.plW, .plH], r ∈ phaseRegs) r hr)
  have h2 : EncoderGrid s → EncoderGrid t := EncoderGrid.congr fun r hr => h r ((by decide :
    ∀ r ∈ encoderRegs, r ∈ phaseRegs) r hr)
  have h3 : AlphaFixed s → AlphaFixed t := AlphaFixed.congr fun r hr => h r ((by decide :
    ∀ r ∈ [Reg.hasAlpha, .dc .A, .sc .A], r ∈ phaseRegs) r hr)
  have h4 : HeaderAgrees s → HeaderAgrees t := HeaderAgrees.congr fun r hr => h r ((by decide :
    ∀ r ∈ [Reg.hasAlpha, .isLandscape, .lfield, .hdr24, .hdr16, .hdrA, .hdrLen], r ∈ phaseRegs) r hr)
  have h5 : DecoderGrid s → DecoderGrid t := DecoderGrid.congr fun r hr => h r ((by decide :
    ∀ r ∈ decoderRegs, r ∈ phaseRegs) r hr)
  have h6 : PlanesOfRaster s → PlanesOfRaster t := PlanesOfRaster.congr fun r hr => h r ((by decide :
    ∀ r ∈ [Reg.plW, .plH, .outW, .outH], r ∈ phaseRegs) r hr)
  unfold PhaseInv at *
  rw [hp]
  revert hs
  cases s.status.phase with
  | none => exact id
  | ePlanes => exact h1
  | eGrid => exact fun x => ⟨h1 x.1, h2 x.2⟩
  | eCoef => exact fun x => ⟨h1 x.1, h2 x.2.1, h3 x.2.2⟩
  | eHash => exact fun x => ⟨h1 x.1, h2 x.2.1, h3 x.2.2.1, h4 x.2.2.2⟩
  | dHdr => exact fun x => ⟨h4 x.1, h3 x.2⟩
  | dGrid => exact fun x => ⟨h4 x.1, h3 x.2.1, h5 x.2.2⟩
  | dCoef => exact fun x => ⟨h4 x.1, h3 x.2.1, h5 x.2.2⟩
  | dPlanes => exact fun x => ⟨h4 x.1, h3 x.2.1, h5 x.2.2.1, h6 x.2.2.2⟩
  | dPix => exact fun x => ⟨h4 x.1, h3 x.2.1, h5 x.2.2.1, h6 x.2.2.2⟩

/-- A frame that writes none of the registers read keeps them. -/
theorem Frame.keep {s t : State} {w l : List Reg} {b : Nat → Prop} (f : Frame s t w b) (h : ∀ r ∈ l, r ∉ w) :
    ∀ r ∈ l, t.reg r = s.reg r := fun r hr => f.regs r (h r hr)

/-! ### The encode side -/

theorem ctFwd_planes {s : State} (h : ImageValid s) : PlanesOfImage (ctFwdEffect s) := by
  have hw := ctFwdEffect_reg s (.plW, s.reg .imgW) (by simp)
  have hh := ctFwdEffect_reg s (.plH, s.reg .imgH) (by simp)
  obtain ⟨h1, h2, h3, h4, -⟩ := h
  unfold PlanesOfImage State.nat
  rw [hw, hh]
  exact ⟨h1, h2, h3, h4⟩

theorem gridEnc_grid {s : State} (h : PlanesOfImage s) :
    PlanesOfImage (gridEncEffect s) ∧ EncoderGrid (gridEncEffect s) := by
  have f := Frame.gridEncEffect s
  obtain ⟨e1, e2, e3, e4, e5⟩ := gridEncEffect_reg s
  have hb := encL_bounds Config.tie (s.nat .plW) (s.nat .plH) s.hasAlpha
  have hl := lLimit_cases s.hasAlpha
  refine ⟨h.congr (f.keep (by decide)), ?_⟩
  have w := State.nat_eq (f.regs .plW (by decide))
  have hh := State.nat_eq (f.regs .plH (by decide))
  have a := State.hasAlpha_eq (f.regs .hasAlpha (by decide))
  have land : (gridEncEffect s).landscape = decide (s.nat .plH < s.nat .plW) := by
    rw [State.landscape, e3, boolWord_eq_one]
  unfold EncoderGrid
  rw [w, hh, a, land, State.nat_of_reg e1, State.nat_of_reg e2, State.nat_of_reg e4, natWord_toNat (by omega),
    natWord_toNat (by omega)]
  refine ⟨e5, rfl, rfl, rfl, ?_⟩
  by_cases hlt : s.nat .plH < s.nat .plW
  · rw [if_pos hlt, decide_eq_true hlt, if_pos rfl, natWord_toNat (by omega)]
  · rw [if_neg hlt, decide_eq_false hlt, if_neg (by decide), natWord_toNat (by omega)]

theorem EncoderGrid.lfield_le {s : State} (h : EncoderGrid s) : s.nat .lfield ≤ 7 := by
  have hb := encL_bounds Config.tie (s.nat .plW) (s.nat .plH) s.hasAlpha
  have hl := lLimit_cases s.hasAlpha
  obtain ⟨-, -, h1, h2, h3⟩ := h
  rw [h3]
  split <;> omega

/-- A grid register under `EncoderGrid` or `DecoderGrid`, as a number. -/
theorem gridRegs_values (s : State) {ha : Bool} {g : Nat × Nat} (hg : GridSize g)
    (h : ∀ p ∈ gridRegs ha g.1 g.2, s.reg p.1 = p.2) :
    s.nat (.nx .L) = g.1 ∧ s.nat (.ny .L) = g.2 ∧ s.nat (.nx .P) = 3 ∧ s.nat (.ny .P) = 3 ∧ s.nat (.nx .Q) = 3 ∧
      s.nat (.ny .Q) = 3 ∧ s.nat (.nx .A) = (if ha then 5 else 0) ∧ s.nat (.ny .A) = (if ha then 5 else 0) ∧
      s.nat (.nac .L) = scanCount g.1 g.2 ∧ s.nat (.nac .P) = 5 ∧ s.nat (.nac .Q) = 5 ∧
      s.nat (.nac .A) = alphaCount ha ∧ s.nat .nacTotal = totalCount ha g.1 g.2 ∧
      s.nat .hdrLen = headerLength ha ∧ s.nat .reqLen = requiredLength ha g.1 g.2 := by
  have h1 := scanCount_grid hg
  have h2 := totalCount_grid ha hg
  have h3 := requiredLength_grid ha hg
  obtain ⟨g1, g2, g3, g4⟩ := hg
  have get : ∀ r v, (r, v) ∈ gridRegs ha g.1 g.2 → s.nat r = v.toNat := fun r v hp => by
    rw [State.nat, h (r, v) hp]
  have five : ∀ b : Bool, (if b then (5 : Word) else 0).toNat = if b then 5 else 0 := by decide
  have hac : alphaCount ha ≤ 14 := by cases ha <;> decide
  have hhl : headerLength ha ≤ 6 := by cases ha <;> decide
  and_intros
  · rw [get (.nx .L) (natWord g.1) (by simp [gridRegs]), natWord_toNat (by omega)]
  · rw [get (.ny .L) (natWord g.2) (by simp [gridRegs]), natWord_toNat (by omega)]
  · exact get (.nx .P) 3 (by simp [gridRegs])
  · exact get (.ny .P) 3 (by simp [gridRegs])
  · exact get (.nx .Q) 3 (by simp [gridRegs])
  · exact get (.ny .Q) 3 (by simp [gridRegs])
  · rw [get (.nx .A) (if ha then 5 else 0) (by simp [gridRegs]), five]
  · rw [get (.ny .A) (if ha then 5 else 0) (by simp [gridRegs]), five]
  · rw [get (.nac .L) (natWord (scanCount g.1 g.2)) (by simp [gridRegs]), natWord_toNat (by omega)]
  · exact get (.nac .P) 5 (by simp [gridRegs])
  · exact get (.nac .Q) 5 (by simp [gridRegs])
  · rw [get (.nac .A) (natWord (alphaCount ha)) (by simp [gridRegs]), natWord_toNat (by omega)]
  · rw [get .nacTotal (natWord (totalCount ha g.1 g.2)) (by simp [gridRegs]), natWord_toNat (by omega)]
  · rw [get .hdrLen (natWord (headerLength ha)) (by simp [gridRegs]), natWord_toNat (by omega)]
  · rw [get .reqLen (natWord (requiredLength ha g.1 g.2)) (by simp [gridRegs]), natWord_toNat (by omega)]

/-- A luminance grid that the grid registers hold, from either side. -/
def GridOf (s : State) (g : Nat × Nat) : Prop :=
  GridSize g ∧ ∀ p ∈ gridRegs s.hasAlpha g.1 g.2, s.reg p.1 = p.2

theorem EncoderGrid.gridOf {s : State} (h : EncoderGrid s) :
    GridOf s (encGrid (s.nat .plW) (s.nat .plH) s.hasAlpha) := ⟨encGrid_size _ _ _, h.1⟩

theorem DecoderGrid.gridOf {s : State} (h : DecoderGrid s) (hf : s.nat .lfield ≤ 7) :
    GridOf s (decGrid s.hasAlpha s.landscape (s.nat .lfield)) :=
  ⟨decGrid_size _ _ hf, fun p hp => h p (List.mem_append_left _ (List.mem_append_right _ hp))⟩

theorem HeaderAgrees.lfield_le {s : State} (h : HeaderAgrees s) : s.nat .lfield ≤ 7 := by
  rw [h.2.2.1]; omega

/-- A channel that is present has as many AC terms as its grid's scan list; their number is below 32. -/
theorem GridOf.nac {s : State} {g : Nat × Nat} (h : GridOf s g) {c : Channel} (hc : c ∈ channels s.hasAlpha) :
    s.nat (.nac c) = scanCount (s.nat (.nx c)) (s.nat (.ny c)) ∧ s.nat (.nac c) ≤ 27 := by
  obtain ⟨h1, h2, h3, h4, h5, h6, h7, h8, h9, h10, h11, h12, -⟩ := gridRegs_values s h.1 h.2
  have hcount := scanCount_grid h.1
  have h33 : scanCount 3 3 = 5 := by decide
  have h55 : scanCount 5 5 = 14 := by decide
  cases c with
  | L => rw [h9, h1, h2]; exact ⟨rfl, hcount⟩
  | P => rw [h10, h3, h4, h33]; decide
  | Q => rw [h11, h5, h6, h33]; decide
  | A =>
    have ha : s.hasAlpha = true := by
      cases h : s.hasAlpha with
      | true => rfl
      | false => exact absurd hc (alpha_not_mem h)
    rw [ha] at h7 h8 h12
    rw [h12, h7, h8, if_pos rfl, h55]
    decide

/-- The counts of the channels present add up to NAC_TOTAL, and REQ_LEN is the header and their bytes. -/
theorem GridOf.total {s : State} {g : Nat × Nat} (h : GridOf s g) :
    s.nat (.nac .L) + s.nat (.nac .P) + s.nat (.nac .Q) + (if s.hasAlpha then s.nat (.nac .A) else 0) = s.nat .nacTotal ∧
      s.nat .reqLen = s.nat .hdrLen + (s.nat .nacTotal + 1) / 2 ∧ s.nat .hdrLen = headerLength s.hasAlpha ∧
      s.nat .reqLen ≤ 32 ∧ s.nat .nacTotal ≤ 51 := by
  obtain ⟨-, -, -, -, -, -, -, -, h9, h10, h11, h12, h13, h14, h15⟩ := gridRegs_values s h.1 h.2
  have hr := requiredLength_grid s.hasAlpha h.1
  have ht := totalCount_grid s.hasAlpha h.1
  rw [h9, h10, h11, h12, h13, h14, h15]
  refine ⟨?_, rfl, rfl, hr, ht⟩
  unfold totalCount
  cases s.hasAlpha <;> rfl

theorem dctFwd_alpha {s : State} (h : PlanesOfImage s ∧ EncoderGrid s) :
    PlanesOfImage (dctFwdEffect s) ∧ EncoderGrid (dctFwdEffect s) ∧ AlphaFixed (dctFwdEffect s) := by
  have f := Frame.dctFwdEffect s
  refine ⟨h.1.congr (f.keep (by decide)), h.2.congr (f.keep (by decide)), fun ha => ?_⟩
  rw [State.hasAlpha_eq (f.regs .hasAlpha (by decide))] at ha
  exact dctFwdEffect_alpha s ha

theorem packHdr24_alpha (s : State) : s.packHdr24.getLsbD 23 = s.hasAlpha := by
  unfold State.packHdr24
  simp only [BitVec.getLsbD_append]
  cases s.hasAlpha <;> simp

theorem packHdr16_landscape (s : State) : s.packHdr16.getLsbD 15 = s.landscape := by
  unfold State.packHdr16
  simp only [BitVec.getLsbD_append]
  cases s.landscape <;> simp

theorem packHdr16_lfield (s : State) (h : s.nat .lfield ≤ 7) : s.packHdr16.toNat % 8 = s.nat .lfield := by
  have hx : ((s.reg .lfield).extractLsb' 0 3).toNat = s.nat .lfield := by
    rw [BitVec.extractLsb'_toNat, Nat.shiftRight_zero]
    exact Nat.mod_eq_of_lt (by unfold State.nat at h; omega)
  unfold State.packHdr16
  rw [BitVec.toNat_append, ← Nat.shiftLeft_add_eq_or_of_lt ((s.reg .lfield).extractLsb' 0 3).isLt, hx,
    Nat.shiftLeft_eq]
  omega

theorem pack_header {s : State} (h : PlanesOfImage s ∧ EncoderGrid s ∧ AlphaFixed s) :
    PlanesOfImage (packEffect s) ∧ EncoderGrid (packEffect s) ∧ AlphaFixed (packEffect s) ∧
      HeaderAgrees (packEffect s) := by
  have f := Frame.packEffect_writes s
  refine ⟨h.1.congr (f.keep (by decide)), h.2.1.congr (f.keep (by decide)), h.2.2.congr (f.keep (by decide)), ?_⟩
  have e1 := packEffect_reg s (.hdr24, s.packHdr24.setWidth 32) (by simp)
  have e2 := packEffect_reg s (.hdr16, s.packHdr16.setWidth 32) (by simp)
  have e3 := packEffect_reg s (.hdrA, s.packHdrA.setWidth 32) (by simp)
  have hl := h.2.1.lfield_le
  have hg := h.2.1.gridOf.total
  unfold HeaderAgrees
  rw [State.hasAlpha_eq (f.regs .hasAlpha (by decide)), State.landscape_eq (f.regs .isLandscape (by decide)),
    State.nat_eq (f.regs .lfield (by decide)), State.nat_eq (f.regs .hdrLen (by decide)), e1, State.nat_of_reg e2, e2,
    e3]
  refine ⟨?_, ?_, ?_, ?_, ?_⟩
  · rw [BitVec.getLsbD_setWidth, packHdr24_alpha]; simp
  · rw [BitVec.getLsbD_setWidth, packHdr16_landscape]; simp
  · have := s.packHdr16.isLt
    rw [BitVec.toNat_setWidth, Nat.mod_eq_of_lt (show s.packHdr16.toNat < 2 ^ 32 by omega), packHdr16_lfield s hl]
  · rw [hg.2.2.1, headerLength]
  · intro ha
    rw [State.packHdrA, ha, if_neg (by decide)]
    decide

/-! ### The decode side -/

theorem hashHdr24_alpha (s : State) : (s.hashHdr24.setWidth 32).getLsbD 23 = hasAlphaField s.hashHdr24 := by
  rw [BitVec.getLsbD_setWidth]
  simp [hasAlphaField]

theorem lfieldField_toNat (h : BitVec 16) : (lfieldField h).toNat = h.toNat % 8 := by
  unfold lfieldField
  rw [BitVec.extractLsb'_toNat, Nat.shiftRight_zero]

theorem unpackHdr_header (s : State) : HeaderAgrees (unpackHdrEffect s) ∧ AlphaFixed (unpackHdrEffect s) := by
  have get : ∀ r v, (r, v) ∈ s.unpackedHeader → (unpackHdrEffect s).reg r = v := fun r v h => unpackHdrEffect_reg s (r, v) h
  have e1 := get .hdr24 (s.hashHdr24.setWidth 32) (by simp [State.unpackedHeader])
  have e2 := get .hdr16 (s.hashHdr16.setWidth 32) (by simp [State.unpackedHeader])
  have e3 := get .hdrA (s.unpackHdrA.setWidth 32) (by simp [State.unpackedHeader])
  have e4 := get .hasAlpha (boolWord (hasAlphaField s.hashHdr24)) (by simp [State.unpackedHeader])
  have e5 := get .isLandscape (boolWord (landscapeField s.hashHdr16)) (by simp [State.unpackedHeader])
  have e6 := get .lfield ((lfieldField s.hashHdr16).setWidth 32) (by simp [State.unpackedHeader])
  have e7 := get .hdrLen (if hasAlphaField s.hashHdr24 then 6 else 5) (by simp [State.unpackedHeader])
  have e8 := get (.dc .A) (if hasAlphaField s.hashHdr24 then dequantA num (aDcField s.unpackHdrA) else num.one)
    (by simp [State.unpackedHeader, dequantHeader])
  have e9 := get (.sc .A) (if hasAlphaField s.hashHdr24 then dequantA num (aScaleField s.unpackHdrA) else num.one)
    (by simp [State.unpackedHeader, dequantHeader])
  have ha : (unpackHdrEffect s).hasAlpha = hasAlphaField s.hashHdr24 := by rw [State.hasAlpha, e4, boolWord_eq_one]
  have hl : (unpackHdrEffect s).landscape = landscapeField s.hashHdr16 := by rw [State.landscape, e5, boolWord_eq_one]
  constructor
  · unfold HeaderAgrees
    rw [ha, hl, e1, e2, e3, State.nat_of_reg e2, State.nat_of_reg e6, State.nat_of_reg e7]
    refine ⟨(hashHdr24_alpha s).symm, ?_, ?_, ?_, ?_⟩
    · rw [BitVec.getLsbD_setWidth]; simp [landscapeField]
    · have h1 := s.hashHdr16.isLt
      have h2 := (lfieldField s.hashHdr16).isLt
      rw [BitVec.toNat_setWidth, BitVec.toNat_setWidth,
        Nat.mod_eq_of_lt (show (lfieldField s.hashHdr16).toNat < 2 ^ 32 by omega), Nat.mod_eq_of_lt (show s.hashHdr16.toNat < 2 ^ 32 by omega), lfieldField_toNat]
    · cases hasAlphaField s.hashHdr24 <;> rfl
    · intro h
      rw [State.unpackHdrA, h, if_neg (by decide)]
      decide
  · intro h
    rw [ha] at h
    rw [e8, e9, h, if_neg (by decide), if_neg (by decide), num_one]
    exact ⟨rfl, rfl⟩

theorem gridDec_grid {s : State} (h : HeaderAgrees s ∧ AlphaFixed s) :
    HeaderAgrees (gridDecEffect s) ∧ AlphaFixed (gridDecEffect s) ∧ DecoderGrid (gridDecEffect s) := by
  have f := Frame.gridDecEffect s
  have hd : DecoderGrid (gridDecEffect s) := by
    unfold DecoderGrid
    rw [State.hasAlpha_eq (f.regs .hasAlpha (by decide)), State.landscape_eq (f.regs .isLandscape (by decide)),
      State.nat_eq (f.regs .lfield (by decide))]
    exact gridDecEffect_reg s
  refine ⟨?_, h.2.congr (f.keep (by decide)), hd⟩
  have hl : (gridDecEffect s).nat .lfield ≤ 7 := by
    rw [State.nat_eq (f.regs .lfield (by decide))]; exact h.1.lfield_le
  have hlen := (hd.gridOf hl).total.2.2.1
  obtain ⟨h1, h2, h3, -, h5⟩ := h.1
  unfold HeaderAgrees
  rw [State.hasAlpha_eq (f.regs .hasAlpha (by decide))] at hlen ⊢
  rw [State.landscape_eq (f.regs .isLandscape (by decide)), State.nat_eq (f.regs .lfield (by decide)),
    f.regs .hdr24 (by decide), f.regs .hdr16 (by decide), State.nat_eq (f.regs .hdr16 (by decide)),
    f.regs .hdrA (by decide), hlen]
  exact ⟨h1, h2, h3, rfl, h5⟩

theorem unpackAc_keeps {s : State} (h : HeaderAgrees s ∧ AlphaFixed s ∧ DecoderGrid s) :
    HeaderAgrees (unpackAcEffect s) ∧ AlphaFixed (unpackAcEffect s) ∧ DecoderGrid (unpackAcEffect s) := by
  have f := Frame.unpackAcEffect s
  exact ⟨h.1.congr (f.keep (by decide)), h.2.1.congr (f.keep (by decide)), h.2.2.congr (f.keep (by decide))⟩

theorem dctInv_planes {s : State} (h : HeaderAgrees s ∧ AlphaFixed s ∧ DecoderGrid s) :
    HeaderAgrees (dctInvEffect s) ∧ AlphaFixed (dctInvEffect s) ∧ DecoderGrid (dctInvEffect s) ∧
      PlanesOfRaster (dctInvEffect s) := by
  have f := Frame.dctInvEffect s
  refine ⟨h.1.congr (f.keep (by decide)), h.2.1.congr (f.keep (by decide)), h.2.2.congr (f.keep (by decide)), ?_⟩
  have e := dctInvEffect_reg s
  unfold PlanesOfRaster
  rw [e.1, e.2, f.regs .outW (by decide), f.regs .outH (by decide)]
  exact ⟨rfl, rfl⟩

theorem ctInv_keeps {s : State} (h : HeaderAgrees s ∧ AlphaFixed s ∧ DecoderGrid s ∧ PlanesOfRaster s) :
    HeaderAgrees (ctInvEffect s) ∧ AlphaFixed (ctInvEffect s) ∧ DecoderGrid (ctInvEffect s) ∧
      PlanesOfRaster (ctInvEffect s) := by
  have f := Frame.ctInvEffect s
  exact ⟨h.1.congr (f.keep (by decide)), h.2.1.congr (f.keep (by decide)), h.2.2.1.congr (f.keep (by decide)),
    h.2.2.2.congr (f.keep (by decide))⟩

/-- The raster registers under `DecoderGrid`, as numbers. -/
theorem DecoderGrid.raster {s : State} (h : DecoderGrid s) (hf : s.nat .lfield ≤ 7) :
    s.nat .outW = (decRaster s.hasAlpha s.landscape (s.nat .lfield)).1 ∧
      s.nat .outH = (decRaster s.hasAlpha s.landscape (s.nat .lfield)).2 ∧
      s.nat .pixoutLen = 4 * (s.nat .outW * s.nat .outH) ∧ s.nat .outW ≤ 45 ∧ s.nat .outH ≤ 45 ∧
      s.nat .pixoutLen ≤ 5760 := by
  obtain ⟨b1, b2, b3⟩ := decRaster_bounds s.hasAlpha s.landscape hf
  obtain ⟨m1, m2, m3⟩ := decRegs_raster s.hasAlpha s.landscape (s.nat .lfield)
  have get : ∀ r v, (r, v) ∈ decRegs s.hasAlpha s.landscape (s.nat .lfield) → s.nat r = v.toNat := fun r v hp => by
    rw [State.nat, h (r, v) hp]
  have w : s.nat .outW = (decRaster s.hasAlpha s.landscape (s.nat .lfield)).1 := by
    rw [get _ _ m1, natWord_toNat (by omega)]
  have hh : s.nat .outH = (decRaster s.hasAlpha s.landscape (s.nat .lfield)).2 := by
    rw [get _ _ m2, natWord_toNat (by omega)]
  have hp : s.nat .pixoutLen = decPixoutLen s.hasAlpha s.landscape (s.nat .lfield) := by
    rw [get _ _ m3, natWord_toNat (by omega)]
  refine ⟨w, hh, ?_, by omega, by omega, by omega⟩
  rw [hp, w, hh, decPixoutLen_eq, Nat.mul_comm]

end Sys2Proof.Machine
end

