-- ==== Sys2Proof/Laws/Runs.lean ====
section
/-! SUPPORT. Runs of several steps: composition, and what `RUN <command>` (R94, R95) does to the idle engine. -/

namespace Sys2Proof.Machine

theorem run_add (m n : Nat) (s : State) : run (m + n) s = (run m s).bind (run n) := by
  induction m generalizing s with
  | zero => rw [Nat.zero_add]; rfl
  | succ m ih =>
    rw [Nat.succ_add, run, run]
    cases step s with
    | next t => exact ih t
    | fault f => rfl
    | refused r => rfl

theorem run_cons {n : Nat} {s t : State} (h : step s = .next t) : run (n + 1) s = run n t := by
  rw [run, h]

/-- Polling STATUS while a command runs changes nothing but the events left. -/
theorem run_statusReads {s : State} {w : Word} {rest : List Event} (n : Nat) (hw : s.inflight = some w)
    (hh : s.host = List.replicate n (rdEvent .status) ++ rest) :
    ∃ u, run n s = some u ∧ u.inflight = some w ∧ u.regs = s.regs ∧ u.mem = s.mem ∧ u.status = s.status ∧
      u.host = rest := by
  induction n generalizing s with
  | zero => exact ⟨s, rfl, hw, rfl, rfl, rfl, hh⟩
  | succ n ih =>
    have h := step_read (s := s) (off := 8) (width := 4)
      (rest := List.replicate n (rdEvent .status) ++ rest) hh (by decide) (by decide)
    obtain ⟨u, h1, h2, h3, h4, h5, h6⟩ := ih (s := { s with
      host := List.replicate n (rdEvent .status) ++ rest, reply := .data (s.tick.readData 8 4), draws := s.draws + 1 })
      hw rfl
    exact ⟨u, by rw [run_cons h, h1], h2, h3, h4, h5, h6⟩

/-- `RUN i` on the idle engine without a fault: `i` is executed on a state with the same registers, memories and PHASE, and
the statement ends in what it answers but for the host's events. -/
theorem run_stmt {s : State} {i : Instr} (polls : Nat) {rest : List Event} (hi : immediate i = false)
    (h0 : s.inflight = none) (hf : s.status.fault = false) (hh : s.host = (Stmt.run i polls).expand ++ rest) :
    ∃ u t v, u.regs = s.regs ∧ u.mem = s.mem ∧ u.inflight = some (encode i) ∧
      u.status = { s.status with done := false } ∧ exec i u = .next t ∧ run (runSteps polls) s = some v ∧
      v.regs = t.regs ∧ v.mem = t.mem ∧ v.status = t.status ∧ v.inflight = t.inflight ∧ v.host = rest := by
  have hne : encode i ≠ 1 ∧ encode i ≠ 2 := by
    cases i <;> first | exact absurd hi (by decide) | decide
  have hd : decode (encode i) = .ok i := by cases i <;> rfl
  -- the CMD write
  let s1 : State := { s with
    host := List.replicate polls (rdEvent .status) ++ (.engine :: rdEvent .status :: rest), reply := .written,
    draws := s.draws + 1, inflight := some (encode i), status := { s.status with done := false } }
  have hb : s.tick.busy = false := by rw [State.busy, State.tick_inflight, h0]; rfl
  have hcmd : step s = .next s1 := by
    have hh' : s.host = .access (.write 4 4 (encode i)) ::
        (List.replicate polls (rdEvent .status) ++ (.engine :: rdEvent .status :: rest)) := by
      rw [hh]
      simp only [Stmt.expand, cmdEvent, waitEvents, List.cons_append, List.append_assoc, List.nil_append]
      rfl
    rw [step_access hh']
    have ha : acceptedAccess 4 4 = true := by decide
    simp only [busAccess, ha, if_true, hb, Bool.false_eq_true, if_false, cmdOffset,
      show ¬ (0x80000 ≤ 4) by decide, cmdWrite, decode_filter_none hne.1 hne.2, State.withReply_status]
    rw [tick_eq hh']
    simp only [hf, Bool.false_eq_true, if_false, ofBusResult]
    rfl
  obtain ⟨u, h1, h2, h3, h4, h5, h6⟩ := run_statusReads (s := s1) polls rfl rfl
  -- the completion
  have htick := tick_eq h6
  obtain ⟨t, ht⟩ := exec_next i u.tick
  have hstep : step u = .next t := by
    simp only [step_eq, h6, engineTurn, State.tick_inflight, h2, runWord, hd]
    exact ht
  have hhost : t.host = rdEvent .status :: rest := by
    have : t.host = u.tick.host := by
      rcases exec_cases hi ht with ⟨-, h⟩ | ⟨-, f, -, h⟩ | ⟨-, -, h⟩
      · exact h.host
      · rw [h]; rfl
      · rw [h]
        obtain ⟨w, b, f⟩ := effectOf_frame i u.tick
        exact f.host
    rw [this, htick]
  -- the last read
  have hlast := step_read (s := t) (off := 8) (width := 4) hhost (by decide) (by decide)
  refine ⟨u.tick, t, { t with host := rest, reply := .data (t.tick.readData 8 4), draws := t.draws + 1 },
    ?_, ?_, ?_, ?_, ht, ?_, rfl, rfl, rfl, rfl, rfl⟩
  · rw [htick]; exact h3
  · rw [htick]; exact h4
  · rw [htick]; exact h2
  · rw [htick]; exact h5
  · rw [show runSteps polls = polls + 2 + 1 by rfl, run_cons hcmd, run_add, h1]
    change run 2 u = _
    rw [run_cons hstep, run_cons hlast]
    rfl

/-- `RUN i` in a phase that accepts `i`, when its own test passes: the state it leaves has the registers and memories of the
command's writes. -/
theorem run_success {s : State} {i : Instr} (polls : Nat) {rest : List Event} (hi : immediate i = false)
    (h0 : s.inflight = none) (hf : s.status.fault = false) (hh : s.host = (Stmt.run i polls).expand ++ rest)
    (ha : accepts i s.status.phase = true) (hc : ∀ u : State, u.regs = s.regs → u.mem = s.mem → checkOf i u = none) :
    ∃ u v, u.regs = s.regs ∧ u.mem = s.mem ∧ u.status.phase = s.status.phase ∧ run (runSteps polls) s = some v ∧
      v.regs = (effectOf i u).regs ∧ v.mem = (effectOf i u).mem ∧ v.status = (effectOf i u).complete.status ∧
      v.status.fault = false ∧ v.inflight = none ∧ v.host = rest := by
  obtain ⟨u, t, v, h1, h2, -, h4, he, hr, h5, h6, h7, h8, h9⟩ := run_stmt polls hi h0 hf hh
  have hp : u.status.phase = s.status.phase := by rw [h4]
  have ht : t = (effectOf i u).complete := by
    rcases exec_cases hi he with ⟨hn, -⟩ | ⟨-, f, hs, -⟩ | ⟨-, -, h⟩
    · rw [hp, ha] at hn; cases hn
    · rw [hc u h1 h2] at hs; cases hs
    · exact h
  refine ⟨u, v, h1, h2, hp, hr, by rw [h5, ht]; rfl, by rw [h6, ht]; rfl, by rw [h7, ht], ?_, ?_, h9⟩
  · rw [h7, ht, (success_flags i u).2.2.1, h4]; exact hf
  · rw [h8, ht]; rfl

end Sys2Proof.Machine
end

