-- ==== Sys2Proof/Tests/Slice0.lean ====
section
/-! SUPPORT. Tests of the model on single steps, with the results of spec/95_test_vectors.md or worked out by hand from the
rules; then, for every statement with hypotheses, a witness that meets them. -/

namespace Sys2Proof.Tests
open Sys2Proof.Machine

set_option Elab.async false

/-- A state in a phase, with some registers and bytes set. -/
def given (p : Phase) (regs : List (Reg × Word)) (mem : Memory) : State :=
  (({ State.reset with mem := mem }).setRegs regs).setPhase p

/-- The state after a command. -/
def after (i : Instr) (s : State) : State :=
  match exec i s with
  | .next t => t
  | .fault _ => s
  | .refused _ => s

/-- The state after a step. -/
def stepped (s : State) : State :=
  match step s with
  | .next t => t
  | .fault _ => s
  | .refused _ => s

theorem exec_after (i : Instr) (s : State) : exec i s = .next (after i s) := by
  obtain ⟨t, h⟩ := exec_next i s
  rw [after, h]

/-! ### Command words (R90 to R92) -/

/-- RSV not zero, V80 row 28; an unassigned opcode, row 30; and a legal word. -/
theorem test_wellFormed :
    CommandWord.rsvZero 0x00000140 = false ∧ CommandWord.wellFormed 0x00000140 = false ∧
      CommandWord.opcAssigned 0x00000014 = false ∧ CommandWord.wellFormed 0x00000014 = false ∧
      CommandWord.wellFormed 0x00000040 = true := by decide

theorem test_decode_refuses : decode 0x00000000 = .error .opcodeUnassigned ∧
    decode 0x00000140 = .error .reservedNotZero ∧ decode 0x12345678 = .error .reservedNotZero ∧
    decode 0xFFFFFF11 = .error .reservedNotZero ∧ decode 0x00000014 = .error .opcodeUnassigned := by decide

/-- Each command's word, written out bit by bit from R90 and R91. -/
theorem test_words_system : decode 0b00000000000000000000000000000001 = .ok .clr ∧
    decode 0b00000000000000000000000000000010 = .ok .srst := by decide

theorem test_words_encode_units : decode 0b00000000000000000000000000010000 = .ok .ctFwd ∧
    decode 0b00000000000000000000000000010001 = .ok .gridEnc ∧
    decode 0b00000000000000000000000000010010 = .ok .dctFwd ∧
    decode 0b00000000000000000000000000010011 = .ok .pack := by decide

theorem test_words_decode_units : decode 0b00000000000000000000000000100000 = .ok .unpackHdr ∧
    decode 0b00000000000000000000000000100001 = .ok .gridDec ∧
    decode 0b00000000000000000000000000100010 = .ok .unpackAc ∧
    decode 0b00000000000000000000000000100011 = .ok .dctInv ∧
    decode 0b00000000000000000000000000100100 = .ok .ctInv := by decide

theorem test_words_scan : decode 0b00000000000000000000000000110000 = .ok .scanCnt ∧
    decode 0b00000000000000000000000000110001 = .ok .scanNth := by decide

theorem test_words_composite : decode 0b00000000000000000000000001000000 = .ok .encode ∧
    decode 0b00000000000000000000000001000001 = .ok .decode ∧
    decode 0b00000000000000000000000001000010 = .ok .avgColor ∧
    decode 0b00000000000000000000000001000011 = .ok .aspect := by decide

/-! ### Arithmetic (R131 to R140) -/

/-- The literals the rules write, as IEEE 754 patterns. -/
theorem test_literals : num.lit 255 1 = 0x437F0000 ∧ num.lit 63 1 = 0x427C0000 ∧ num.lit 63 2 = 0x41FC0000 ∧
    num.lit 31 1 = 0x41F80000 ∧ num.lit 15 1 = 0x41700000 ∧ num.lit 15 2 = 0x40F00000 ∧
    num.lit 5 4 = 0x3FA00000 ∧ num.lit 1 2 = 0x3F000000 ∧ num.lit 32 1 = 0x42000000 ∧
    num.zero = 0x00000000 ∧ num.one = 0x3F800000 ∧ num.twoThirds = 0x3F2AAAAB := by decide +kernel

/-- V40: 32/31.5 - 1 in the rule's order; V22: 128/255; subnormal and overflowing results round once. -/
theorem test_rounding : num.fsub (num.fdiv (num.i2f 32) (num.lit 63 2)) num.one = 0x3C820840 ∧
    num.fdiv (num.i2f 128) (num.lit 255 1) = 0x3F008081 ∧ num.fmul 0x00000003 0x3F000000 = 0x00000002 ∧
    num.fadd 0x7F7FFFFF 0x7F7FFFFF = 0x7F800000 ∧ num.fadd 0x4B800000 0x3F800000 = 0x4B800000 := by decide +kernel

/-- V43: 127.5 is truncated to 127; a clamp to each side. -/
theorem test_pixel_conversion : num.toU8 0x3F000000 = 127 ∧ num.toU8 0x3FC00000 = 255 ∧ num.toU8 0xBF800000 = 0 ∧
    num.toU8 0x3F7FBE77 = 254 := by decide +kernel

/-- V31: saturation at 6 bits, a negative argument, and a tie at odd k, for either TIE. -/
theorem test_quant_no_tie : num.quant 6 0x427D999A = 63 ∧ num.quant 6 0xB3D6BF95 = 0 ∧ num.quant 5 0x00000000 = 0 := by
  decide +kernel

theorem test_quant_tie (tie : Tie) : rndRatio tie 15 2 = 8 ∧ rndRatio tie 63 2 = 32 ∧
    rndRatio .halfEven 5 2 = 2 ∧ rndRatio .halfAway 5 2 = 3 ∧ rndRatio .halfEven 21 2 = 10 ∧
    rndRatio .halfAway 21 2 = 11 := by cases tie <;> decide

/-! ### CT.FWD and CT.INV -/

/-- RGBY of spec/95. -/
def rgby : State := given .none [(.imgW, 2), (.imgH, 2), (.pixinLen, 16)]
  (Memory.block 0x10000
    [0xFF, 0x00, 0x00, 0xFF, 0x00, 0xFF, 0x00, 0xFF, 0x00, 0x00, 0xFF, 0xFF, 0xFF, 0xFF, 0x00, 0xFF])

/-- V20, V90 row 14. -/
theorem test_ctFwd_rgby :
    let t := after .ctFwd rgby
    t.statusWord = 0x00000102 ∧ t.reg .plW = 2 ∧ t.reg .hasAlpha = 0 ∧ t.reg .bgR = 0x3F000000 ∧
      t.reg .bgG = 0x3F000000 ∧ t.reg .bgB = 0x3E800000 ∧ t.reg .alphaSum = 0x40800000 ∧
      t.wordAt 0x4000C = 0x3F2AAAAB ∧ t.wordAt 0x50008 = 0xBF800000 ∧ t.wordAt 0x60004 = 0xBF800000 ∧
      t.wordAt 0x7000C = 0x3F800000 := by decide +kernel

/-- V22 row 1: one pixel with alpha 128. -/
theorem test_ctFwd_alpha :
    let t := after .ctFwd (given .none [(.imgW, 1), (.imgH, 1), (.pixinLen, 4)]
      (Memory.block 0x10000 [0xFF, 0x80, 0x00, 0x80]))
    t.reg .hasAlpha = 1 ∧ t.reg .alphaSum = 0x3F008081 ∧ t.reg .bgG = 0x3F008081 ∧ t.plane .L 0 = 0x3F002AD5 ∧
      t.plane .P 0 = 0x3F404040 ∧ t.plane .Q 0 = 0x3EFEFEFE ∧ t.plane .A 0 = 0x3F008081 := by decide +kernel

/-- V43 rows 4 and 7. -/
theorem test_ctInv :
    let t := after .ctInv (given .dPlanes [(.plW, 2), (.plH, 1), (.pixoutLen, 8)]
      (Memory.block 0x40000 (bytesOfWord 0x3F000000 ++ bytesOfWord 0x40000000) ++
        Memory.block 0x50000 (bytesOfWord 0x00000000 ++ bytesOfWord 0xC0400000) ++
        Memory.block 0x60000 (bytesOfWord 0x00000000 ++ bytesOfWord 0x3F000000) ++
        Memory.block 0x70000 (bytesOfWord 0x3F000000 ++ bytesOfWord 0x3FC00000)))
    t.wordAt 0x2000 = 0x7F7F7F7F ∧ t.wordAt 0x2004 = 0xFFFFBFFF ∧ t.statusWord = 0x00000902 := by decide +kernel

/-- V80 row 32. -/
theorem test_ctInv_capacity :
    let t := after .ctInv (given .dPix [(.pixoutLen, 3456), (.pixoutCap, 0)] [])
    t.reg .cause = 0x00002405 ∧ t.reg .finfo = 0x00000D80 ∧ t.statusWord = 0x00000904 := by decide +kernel

/-! ### Grids -/

/-- V25 rows 1 and 10. -/
theorem test_gridEnc :
    let t := after .gridEnc (given .ePlanes [(.plW, 2), (.plH, 2)] [])
    let u := after .gridEnc (given .ePlanes [(.plW, 100), (.plH, 1)] [])
    t.reg .lx = 7 ∧ t.reg (.nac .L) = 27 ∧ t.reg .nacTotal = 37 ∧ t.reg .reqLen = 24 ∧ t.reg .isLandscape = 0 ∧
      u.reg .ly = 1 ∧ u.reg (.ny .L) = 3 ∧ u.reg .lfield = 1 ∧ u.reg .isLandscape = 1 ∧ u.reg .reqLen = 17 := by
  decide +kernel

/-- V80 row 22. -/
theorem test_gridEnc_phase :
    let t := after .gridEnc State.reset
    t.reg .cause = 0x00001107 ∧ t.reg .finfo = 0 ∧ t.statusWord = 0x00000004 := by decide +kernel

/-- V35 row 8: an alpha header that no encoder writes; its grid and lengths do not depend on the ratio. -/
theorem test_gridDec :
    let t := after .gridDec (given .dHdr [(.hasAlpha, 1), (.isLandscape, 1), (.lfield, 6)] [])
    t.reg .lx = 5 ∧ t.reg .ly = 6 ∧ t.reg (.nac .L) = 19 ∧ t.reg .nacTotal = 43 ∧ t.reg .reqLen = 28 := by
  decide +kernel

/-- V35 rows 2, 7 and 4: the ratio and the raster, the last for each value of ASPECT_CLAMP. -/
theorem test_gridDec_raster (clamp : Bool) :
    aspectOf num clamp false true 6 = some 0x3F955555 ∧ rasterSize num true (some 0x3F955555) = (32, 27) ∧
      aspectOf num clamp true false 7 = some 0x3FB33333 ∧ rasterSize num false (some 0x3FB33333) = (45, 32) ∧
      aspectOf num true false false 2 = some 0x3EDB6DB7 ∧ rasterSize num false (some 0x3EDB6DB7) = (14, 32) ∧
      aspectOf num false false false 2 = some 0x3E924925 ∧ rasterSize num false (some 0x3E924925) = (9, 32) := by
  cases clamp <;> decide +kernel

/-! ### DCT.FWD, DCT.INV and the scan -/

/-- V21: the DC of RGBY, one unit above the nearest value to 5/12; without alpha A is fixed. -/
theorem test_dctFwd :
    let s := after .gridEnc (after .ctFwd rgby)
    fwdTerm num (s.plane .L) 2 2 0 0 = 0x3ED55556 ∧ fwdTerm num (s.plane .P) 2 2 0 0 = 0x3E800000 ∧
      (after .dctFwd s).reg (.dc .L) = 0x3ED55556 ∧ (after .dctFwd s).reg (.sc .A) = 0x3F800000 := by decide +kernel

/-- A one-term grid list is normalised against its own magnitude: 0.5 + 0.5 = 1, or 0.5 - 0.5 = 0; zero stays (R183). -/
theorem test_normalise : normalise num 0x3E800000 [0x3E800000, 0xBE800000] = [0x3F800000, 0x00000000] ∧
    normalise num 0x00000000 [0x00000000] = [0x00000000] ∧
    maxMagnitude num [0x3E800000, 0xBF000000] = 0x3F000000 := by decide +kernel

/-- R185 with an empty scan list: every sample is DC; R184: without alpha A is 1.0. -/
theorem test_dctInv :
    let t := after .dctInv (given .dCoef [(.outW, 2), (.outH, 1), (.nx .L, 1), (.ny .L, 1), (.nx .P, 1), (.ny .P, 1),
      (.nx .Q, 1), (.ny .Q, 1), (.dc .L, 0x3F000000), (.dc .Q, 0xBF800000)] [])
    t.plane .L 1 = 0x3F000000 ∧ t.plane .Q 0 = 0xBF800000 ∧ t.plane .A 1 = 0x3F800000 ∧ t.reg .plW = 2 ∧
      t.statusWord = 0x00000802 := by decide +kernel

/-- V80 row 25. -/
theorem test_dctInv_phase :
    let t := after .dctInv (given .dHdr [] [])
    t.reg .cause = 0x00002307 ∧ t.reg .finfo = 5 ∧ t.statusWord = 0x00000504 := by decide +kernel

/-- V11. -/
theorem test_scanCnt :
    (after .scanCnt (given .none [(.scanNx, 7), (.scanNy, 6)] [])).reg .scanCnt = 26 ∧
      (after .scanCnt (given .none [(.scanNx, 1), (.scanNy, 1)] [])).reg .scanCnt = 0 ∧
      (after .scanCnt (given .none [(.scanNx, 0), (.scanNy, 9)] [])).reg .finfo = 0x038 := by decide +kernel

/-- V11. -/
theorem test_scanNth :
    let t := after .scanNth (given .none [(.scanNx, 7), (.scanNy, 7), (.scanIdx, 26)] [])
    let u := after .scanNth (given .none [(.scanNx, 3), (.scanNy, 3), (.scanIdx, 5)] [])
    t.reg .scanCnt = 27 ∧ t.reg .scanCx = 0 ∧ t.reg .scanCy = 6 ∧ u.reg .cause = 0x00003109 ∧
      u.reg .finfo = 0x040 ∧ u.reg .scanCnt = 0 := by decide +kernel

/-! ### PACK and UNPACK -/

/-- V30: the header words and bytes of RGBY but for P_DC and Q_DC, whose fields are 39 and, with DC_Q = 0.03, 32; then the
first nibbles 6, 8 of COEF.L = 0x3EDBCBD0, 0x3F0CCCCD. -/
theorem test_pack :
    let t := after .pack (given .eCoef [(.dc .L, 0x3ED55556), (.sc .L, 0x3ED55556), (.dc .P, 0x3E800000),
      (.dc .Q, 0x3CF5C28F), (.sc .P, 0x3EB504F3), (.sc .Q, 0x3EB504F3), (.lfield, 7), (.hdrLen, 5), (.reqLen, 6),
      (.nac .L, 2)] (Memory.block 0x400 (bytesOfWord 0x3EDBCBD0 ++ bytesOfWord 0x3F0CCCCD)))
    t.reg .hdr24 = 0x003609DA ∧ t.reg .hdr16 = 0x00002CB7 ∧ t.reg .hdrA = 0 ∧ t.reg .hashLen = 6 ∧
      t.reg .nibcur = 2 ∧ t.wordAt 0x200 = 0xB73609DA ∧ t.hash 4 = 0x2C ∧ t.hash 5 = 0x86 ∧
      t.statusWord = 0x00000402 := by decide +kernel

/-- V80 row 8. -/
theorem test_pack_capacity :
    let t := after .pack (given .eCoef [(.reqLen, 24), (.hashCap, 5)] [])
    t.reg .cause = 0x00001303 ∧ t.reg .finfo = 0x18 ∧ t.statusWord = 0x00000304 := by decide +kernel

/-- V40. -/
theorem test_unpackHdr :
    let t := after .unpackHdr (given .none [(.hashLen, 24)] (Memory.block 0x200 [0xDA, 0x09, 0x36, 0xB7, 0x2C]))
    t.reg .hdr24 = 0x003609DA ∧ t.reg .hdr16 = 0x00002CB7 ∧ t.reg .lfield = 7 ∧ t.reg .hdrLen = 5 ∧
      t.reg (.dc .L) = 0x3ED34D35 ∧ t.reg (.dc .P) = 0x3E73CF40 ∧ t.reg (.dc .Q) = 0x3C820840 ∧
      t.reg (.sc .L) = 0x3ED6B5AD ∧ t.reg (.sc .P) = 0x3EB2CB2D ∧ t.reg (.sc .A) = 0x3F800000 ∧
      t.statusWord = 0x00000502 := by decide +kernel

/-- V42 (a): an alpha header. -/
theorem test_unpackHdr_alpha :
    let t := after .unpackHdr (given .none [(.hashLen, 25)] (Memory.block 0x200 [0x20, 0x08, 0x82, 0x0C, 0x06, 0x18]))
    t.reg .hasAlpha = 1 ∧ t.reg .lfield = 4 ∧ t.reg .hdrA = 0x18 ∧ t.reg (.dc .A) = 0x3F088889 ∧
      t.reg (.sc .A) = 0x3D888889 ∧ t.reg (.sc .Q) = 0x3D430C31 ∧ t.reg .hdrLen = 6 := by decide +kernel

/-- V40: nibbles 6, 8 of L, and the first P nibble, 0, whose scale is boosted. -/
theorem test_unpackAc :
    let t := after .unpackAc (given .dGrid [(.hashLen, 7), (.reqLen, 7), (.hdrLen, 5), (.nac .L, 2), (.nac .P, 1),
      (.sc .L, 0x3ED6B5AD), (.sc .P, 0x3EB2CB2D)] (Memory.block 0x205 [0x86, 0x00]))
    t.coef .L 0 = 0xBDABC48A ∧ t.coef .L 1 = 0x3CE5061A ∧ t.coef .P 0 = 0xBEDF7DF8 ∧ t.reg .nibcur = 3 ∧
      t.statusWord = 0x00000702 := by decide +kernel

/-- V80 row 20. -/
theorem test_unpackAc_truncated :
    let t := after .unpackAc (given .dGrid [(.hashLen, 22), (.reqLen, 23)] [])
    t.reg .cause = 0x00002206 ∧ t.reg .finfo = 0x17 ∧ t.statusWord = 0x00000604 := by decide +kernel

/-! ### The composite commands and the extractors -/

/-- V80 rows 5 and 7. -/
theorem test_encode_faults :
    let t := after .encode (rgby.setReg .pixinLen 12)
    let u := after .encode (rgby.setReg .hashCap 23)
    t.reg .cause = 0x00004002 ∧ t.reg .finfo = 16 ∧ u.reg .cause = 0x00004003 ∧ u.reg .finfo = 24 ∧ u.reg .plW = 0 ∧
      u.statusWord = 0x00000004 := by decide +kernel

/-- P1: what of RGBY's encoding does not depend on COS. -/
theorem test_encode :
    let t := after .encode rgby
    t.statusWord = 0x00000402 ∧ t.reg .hashLen = 24 ∧ t.reg .reqLen = 24 ∧ t.reg .plW = 2 ∧
      t.reg .bgB = 0x3E800000 ∧ t.reg (.dc .L) = 0x3ED55556 := by decide +kernel

/-- V80 rows 9 and 13; the second reads bit 7 of byte 2. -/
theorem test_decode_faults :
    let t := after .decode (given .none [(.hashLen, 4)] [])
    let u := after .decode (given .none [(.hashLen, 5)] (Memory.block 0x200 [0x00, 0x00, 0x80, 0x00, 0x00]))
    t.reg .cause = 0x00004104 ∧ t.reg .finfo = 5 ∧ t.statusWord = 0x00000004 ∧ u.reg .cause = 0x00004104 ∧
      u.reg .finfo = 6 := by decide +kernel

/-- V70 rows 1, 6 and 7. -/
theorem test_avgColor :
    let hash := fun l => given .none [(.hashLen, 6)] (Memory.block 0x200 l)
    let t := after .avgColor (hash [0xDA, 0x09, 0x36, 0xB7, 0x2C])
    let u := after .avgColor (hash [0x00, 0x00, 0x00, 0x00, 0x00])
    let v := after .avgColor (hash [0xFF, 0xFF, 0xFF, 0xFF, 0xFF, 0xFF])
    t.reg .avgR = 0x3F000001 ∧ t.reg .avgG = 0x3EF7DF7E ∧ t.reg .avgB = 0x3E820820 ∧ t.reg .avgA = 0x3F800000 ∧
      u.reg .avgR = 0 ∧ u.reg .avgG = 0x3E2AAAA8 ∧ u.reg .avgB = 0x3F2AAAAB ∧ v.reg .avgG = 0x3F555556 ∧
      v.reg .avgB = 0x3EAAAAAA ∧ v.reg .avgA = 0x3F800000 := by decide +kernel

/-- V70 row 9. -/
theorem test_avgColor_short :
    let t := after .avgColor (given .none [(.hashLen, 5)] (Memory.block 0x200 [0xD5, 0xFB, 0xAB, 0x02, 0xFF]))
    t.reg .cause = 0x00004204 ∧ t.reg .finfo = 6 := by decide +kernel

/-- RGBY's header as a hash of five bytes. -/
def bareHeader : State := given .none [(.hashLen, 5)] (Memory.block 0x200 [0xDA, 0x09, 0x36, 0xB7, 0x2C])

/-- V71 row 3: a square image has the ratio 1 for either ASPECT_CLAMP; row 9. -/
theorem test_aspect : (after .aspect bareHeader).reg .aspectRatio = 0x3F800000 ∧
    (after .aspect (given .none [(.hashLen, 4)] [])).reg .cause = 0x00004304 := by
  refine ⟨?_, by decide +kernel⟩
  have h : exec .aspect bareHeader = .next (aspectEffect bareHeader).complete :=
    runCommand_success .aspect (s := bareHeader) (check := checkAspectLength) (effect := aspectEffect) (by decide +kernel)
      (by decide +kernel)
  have e : after .aspect bareHeader = (aspectEffect bareHeader).complete := by rw [after, h]
  have e1 : hasAlphaField bareHeader.hashHdr24 = false := by decide +kernel
  have e2 : landscapeField bareHeader.hashHdr16 = false := by decide +kernel
  have e3 : (lfieldField bareHeader.hashHdr16).toNat = 7 := by decide +kernel
  rw [e, State.complete_reg, aspectEffect, State.reg_setReg_same, e1, e2, e3, decRatio, ratioOf]
  cases Config.aspectClamp <;> decide +kernel

/-! ### The slave interface, CMD, reset -/

/-- One event on a state. -/
def withEvents (s : State) (l : List Event) : State := { s with host := l }

/-- A fault recorded, V80 row 1. -/
def faulted : State := after .encode (given .none [(.imgW, 0), (.imgH, 5)] [])

/-- V85 rows 1, 2 and 5. -/
theorem test_clr_srst :
    let t := stepped (withEvents faulted [wrEvent .cmd 0x00000041])
    let u := stepped (withEvents faulted [wrEvent .cmd 0x00000001])
    let v := stepped (withEvents (faulted.setReg .hashCap 25) [wrEvent .cmd 0x00000002])
    faulted.statusWord = 0x00000004 ∧ faulted.reg .cause = 0x00004001 ∧ t.statusWord = 0x0000000C ∧
      t.reg .cause = 0x00004001 ∧ u.statusWord = 0 ∧ u.reg .cause = 0 ∧ u.reg .finfo = 0 ∧ u.reg .imgH = 5 ∧
      v.statusWord = 0 ∧ v.reg .hashCap = 32 ∧ v.reg .imgH = 0 := by decide +kernel

/-- V85 rows 9 and 14. -/
theorem test_register_writes :
    let w := fun r v => stepped (withEvents State.reset [wrEvent r v])
    (w (.stored .ie) 0xFFFFFFFF).reg .ie = 6 ∧ (w .status 0xFFFFFFFF).statusWord = 0 ∧
      (w (.stored .outW) 5).reg .outW = 0 ∧ (w (.stored .imgW) 7).reg .imgW = 7 := by decide +kernel

/-- A state in which SCAN.CNT of a 7 by 6 grid runs. -/
def running : State := (given .none [(.scanNx, 7), (.scanNy, 6)] []).start 0x00000030

/-- V85 rows 10, 11 and 13; the completion in the engine's turn, with an access dropped before it. -/
theorem test_busy :
    let t := stepped (withEvents running [wrEvent (.stored .imgW) 7, .engine])
    let u := stepped (withEvents running [wrEvent .cmd 0x00000001])
    t.statusWord = 0x00000009 ∧ t.reg .imgW = 0 ∧ u.statusWord = 0x00000009 ∧
      (stepped t).statusWord = 0x0000000A ∧ (stepped t).reg .scanCnt = 26 ∧
      (stepped (withEvents running [rdEvent .id])).reply = .data 0x54480100 := by decide +kernel

/-- V90 rows 3 and 4: little-endian bytes and words. -/
theorem test_byte_order :
    let t := stepped (withEvents State.reset [.access (.write 0x10000 4 0x04030201)])
    (stepped (withEvents t [.access (.read 0x10002 1)])).reply = .data 3 ∧ t.pixin 0 = 1 ∧ t.pixin 3 = 4 ∧
      (stepped (withEvents t [.access (.read 0x10000 4)])).reply = .data 0x04030201 := by decide +kernel

/-- V90 rows 5 to 9 and 11. -/
theorem test_refused_accesses :
    let r := fun off width => (stepped (withEvents State.reset [.access (.read off width)])).reply
    r 0x202 4 = .busError ∧ r 0x008 1 = .busError ∧ r 0x2000 2 = .busError ∧ r 0x40000 1 = .busError ∧
      r 0x220 4 = .data 0 ∧ r 0x1FC 4 = .data 0 := by decide +kernel

theorem test_outside_window : step (withEvents State.reset [.access (.read 0x80000 4)]) = .fault (.outsideWindow 0x80000) :=
  rfl

/-- R340: reset under a running command. -/
theorem test_reset_input :
    let t := stepped (withEvents running [.reset])
    t.inflight = none ∧ t.statusWord = 0 ∧ t.reg .scanNx = 0 ∧ t.reg .pixoutCap = 8192 := by decide +kernel

/-- What withFetchWord places runs in the very next step: SCAN.CNT; SRST; an illegal word. -/
theorem test_withFetchWord :
    (stepped ((given .none [(.scanNx, 7), (.scanNy, 6)] []).withFetchWord 8 0x30)).reg .scanCnt = 26 ∧
      (stepped ((given .none [(.scanNx, 7)] []).withFetchWord 8 0x02)).reg .scanNx = 0 ∧
      (stepped (State.reset.withFetchWord 8 0x14)).reg .cause = 0x00001408 := by decide +kernel

/-- R94, R95: LOADPIX's accesses, P1 rows 1 to 4, and RUN with one poll. -/
theorem test_script : script [.loadPix 1 1 [0xFF, 0x00, 0x00, 0xFE], .run .encode 1] =
    [.access (.write 0x020 4 1), .access (.write 0x024 4 1), .access (.write 0x028 4 4),
      .access (.write 0x10000 1 0xFF), .access (.write 0x10001 1 0x00), .access (.write 0x10002 1 0x00),
      .access (.write 0x10003 1 0xFE), .access (.write 0x004 4 0x40), .access (.read 0x008 4), .engine,
      .access (.read 0x008 4)] := by decide +kernel

/-! ### States that the witnesses use -/

/-- A state of the encode side with square planes; `r` adds registers. -/
def enc (p : Phase) (ha : Bool) (r : List (Reg × Word)) : State :=
  ((gridEncEffect (given .none [(.plW, 1), (.plH, 1), (.hasAlpha, boolWord ha), (.dc .A, 0x3F800000),
    (.sc .A, 0x3F800000)] [])).setRegs ([(.hdr24, if ha then 0x800000 else 0), (.hdr16, if ha then 5 else 7)] ++ r)).setPhase
    p

theorem enc_inv (p : Phase) (hp : p ∈ [Phase.ePlanes, .eGrid, .eCoef, .eHash]) (ha : Bool) : PhaseInv (enc p ha []) := by
  have h1 : PlanesOfImage (enc p ha []) := by
    unfold PlanesOfImage; cases ha <;> cases p <;> decide +kernel
  have h2 : EncoderGrid (enc p ha []) := by
    unfold EncoderGrid; cases ha <;> cases p <;> decide +kernel
  have h3 : AlphaFixed (enc p ha []) := by
    unfold AlphaFixed; cases ha <;> cases p <;> decide +kernel
  have h4 : HeaderAgrees (enc p ha []) := by
    unfold HeaderAgrees; cases ha <;> cases p <;> decide +kernel
  simp only [List.mem_cons, List.not_mem_nil, or_false] at hp
  rcases hp with rfl | rfl | rfl | rfl
  · exact h1
  · exact ⟨h1, h2⟩
  · exact ⟨h1, h2, h3⟩
  · exact ⟨h1, h2, h3, h4⟩

/-- A header in the registers, of a square image. -/
def header (ha : Bool) : State :=
  given .dHdr [(.hasAlpha, boolWord ha), (.lfield, if ha then 5 else 7), (.hdr24, if ha then 0x800000 else 0),
    (.hdr16, if ha then 5 else 7), (.hdrLen, if ha then 6 else 5), (.dc .A, 0x3F800000), (.sc .A, 0x3F800000),
    (.hashLen, 32)] []

theorem header_inv (ha : Bool) : HeaderAgrees (header ha) ∧ AlphaFixed (header ha) := by
  unfold HeaderAgrees AlphaFixed
  cases ha <;> decide +kernel

/-- A state of the decode side: grids and raster, then planes of the raster's size. -/
def dec (p : Phase) (ha : Bool) : State :=
  let t := gridDecEffect (header ha)
  (t.setRegs [(.plW, t.reg .outW), (.plH, t.reg .outH)]).setPhase p

theorem dec_reg (p : Phase) (ha : Bool) (r : Reg) (h : r ≠ .plW) (h' : r ≠ .plH) :
    (dec p ha).reg r = (gridDecEffect (header ha)).reg r := by
  unfold dec
  rw [State.setPhase_reg]
  exact State.reg_setRegs_of_not_mem _ _ r (by simp [h, h'])

theorem dec_inv (p : Phase) (hp : p ∈ [Phase.dGrid, .dCoef, .dPlanes, .dPix]) (ha : Bool) : PhaseInv (dec p ha) := by
  have hr : ∀ l : List Reg, (∀ r ∈ l, r ≠ .plW ∧ r ≠ .plH) →
      ∀ r ∈ l, (dec p ha).reg r = (gridDecEffect (header ha)).reg r :=
    fun l hl r h => dec_reg p ha r (hl r h).1 (hl r h).2
  obtain ⟨g1, g2, g3⟩ := gridDec_grid (header_inv ha)
  have h1 : HeaderAgrees (dec p ha) := g1.congr (hr _ (by decide))
  have h2 : AlphaFixed (dec p ha) := g2.congr (hr _ (by decide))
  have h3 : DecoderGrid (dec p ha) := g3.congr (hr _ (by decide))
  have h4 : PlanesOfRaster (dec p ha) := by
    constructor
    · rw [dec_reg p ha .outW (by decide) (by decide), dec, State.setPhase_reg]
      exact State.reg_setRegs_mem _ _ _ _ (by simp) (by simp)
    · rw [dec_reg p ha .outH (by decide) (by decide), dec, State.setPhase_reg]
      exact State.reg_setRegs_mem _ _ _ _ (by simp) (by simp)
  simp only [List.mem_cons, List.not_mem_nil, or_false] at hp
  rcases hp with rfl | rfl | rfl | rfl
  · exact ⟨h1, h2, h3⟩
  · exact ⟨h1, h2, h3⟩
  · exact ⟨h1, h2, h3, h4⟩
  · exact ⟨h1, h2, h3, h4⟩

/-- A square header without alpha has a raster of 32 by 32, for either ASPECT_CLAMP. -/
theorem square_raster : decRaster false false 7 = (32, 32) := by
  unfold decRaster rasterOf
  cases Config.aspectClamp <;> decide +kernel

theorem dec_outW (p : Phase) : (dec p false).nat .outW = 32 ∧ (dec p false).nat .outH = 32 := by
  have e := gridDecEffect_reg (header false)
  have hf : (header false).hasAlpha = false ∧ (header false).landscape = false ∧ (header false).nat .lfield = 7 := by
    decide +kernel
  rw [hf.1, hf.2.1, hf.2.2] at e
  have h1 := e _ (decRegs_raster false false 7).1
  have h2 := e _ (decRegs_raster false false 7).2.1
  rw [square_raster] at h1 h2
  rw [State.nat, State.nat, dec_reg _ _ _ (by decide) (by decide), dec_reg _ _ _ (by decide) (by decide), h1, h2]
  decide

/-- A fault recorded, as R304 leaves it. -/
def inFault : State :=
  { given .none [(.cause, 0x4001), (.finfo, 0x20)] [] with status := { State.reset.status with fault := true } }

theorem inFault_inv : Inv inFault where
  mem := by decide +kernel
  busyAlone := by decide +kernel
  doneAlone := by decide +kernel
  started := fun w h => nomatch h
  ie := by decide +kernel
  noCause := by decide +kernel
  cause := fun _ => by decide +kernel
  hasAlpha := by decide +kernel
  isLandscape := by decide +kernel
  lfield := by decide +kernel
  hdr24 := by decide +kernel
  hdr16 := by decide +kernel
  hdrA := by decide +kernel

/-- CT.FWD on RGBY runs. -/
def runningCtFwd : State := rgby.start 0x00000010

theorem runningCtFwd_inv : Inv runningCtFwd where
  mem := by decide +kernel
  busyAlone := by decide +kernel
  doneAlone := by decide +kernel
  started := fun w h => by cases h; decide
  ie := by decide +kernel
  noCause := fun _ => by decide +kernel
  cause := by decide +kernel
  hasAlpha := by decide +kernel
  isLandscape := by decide +kernel
  lfield := by decide +kernel
  hdr24 := by decide +kernel
  hdr16 := by decide +kernel
  hdrA := by decide +kernel

theorem inv_withEvents {s : State} (h : Inv s) (l : List Event) : Inv (withEvents s l) :=
  ⟨h.mem, h.busyAlone, h.doneAlone, h.started, h.ie, h.noCause, h.cause, h.hasAlpha, h.isLandscape, h.lfield, h.hdr24,
    h.hdr16, h.hdrA⟩

/-! ### Witnesses: the hypotheses of each statement are met

One theorem for each statement that has hypotheses, named after it; `exec_after` gives the state a command answers. -/

theorem test_witness_StepRunsDecodedCommand :
    decode 0x00000030 = .ok .scanCnt ∧ running.inflight = some 0x00000030 ∧
      (withEvents running [.engine]).host = .engine :: [] ∧ (withEvents running []).host = [] ∧
      decode 0x00000001 = .ok .clr ∧ decode 0x00000002 = .ok .srst ∧ (withEvents inFault [wrEvent .cmd 1]).inflight = none ∧
      (withEvents inFault [wrEvent .cmd 1]).host = .access (.write 0x004 4 1) :: [] := by decide +kernel

theorem test_witness_CmdWriteByState :
    (∀ s ∈ [running, State.reset, inFault], ∀ w ∈ [0x00000001, 0x00000002, 0x00000000, 0x00000040], let w := natWord w;
        (withEvents s [wrEvent .cmd w]).host = .access (.write 0x004 4 w) :: []) ∧
      running.inflight ≠ none ∧ State.reset.inflight = none ∧ State.reset.status.fault = false ∧
      inFault.inflight = none ∧ inFault.status.fault = true ∧
      (∀ w ∈ [0x00000000, 0x00000100, 0x00000011, 0x00000040], let w := natWord w; w ≠ 1 ∧ w ≠ 2 ∧
        (withEvents (State.reset.start w) [.engine]).inflight = some w) ∧
      (State.reset.start 0x11).status.done = false ∧ (State.reset.start 0x11).status.fault = false ∧
      decode 0x00000000 = .error .opcodeUnassigned ∧ decode 0x00000100 = .error .reservedNotZero ∧
      decode 0x00000011 = .ok .gridEnc ∧ accepts .gridEnc .none = false ∧ accepts .encode .none = true := by
  decide +kernel

theorem test_witness_IllegalWordFaults :
    (∀ w ∈ [0x00000100, 0x80000001], let w := natWord w;
        w.extractLsb' 8 24 ≠ 0 ∧ (withEvents State.reset [wrEvent .cmd w, .engine]).host =
          .access (.write 0x004 4 w) :: .engine :: []) ∧
      (∀ w ∈ [0x00000000, 0x00000044, 0x000000FF], let w := natWord w;
        (w.extractLsb' 0 8).toNat ∉ [0x01, 0x02, 0x10, 0x11, 0x12, 0x13, 0x20, 0x21, 0x22, 0x23, 0x24, 0x30, 0x31,
          0x40, 0x41, 0x42, 0x43]) ∧
      State.reset.inflight = none ∧ State.reset.status.fault = false := by decide +kernel

theorem test_witness_StartedCommandCompletes :
    running.inflight = some 0x30 ∧ (0x30 : Word) ≠ 1 ∧ (0x30 : Word) ≠ 2 ∧ running.status.done = false ∧
      running.status.fault = false ∧ (0 : Nat) < 0x80000 ∧ 0x7FFFF < 0x80000 ∧
      (withEvents running [.access (.read 0 4), .access (.write 0x7FFFF 1 9), .engine]).host =
        [.read 0 4, .write 0x7FFFF 1 9].map .access ++ .engine :: [] := by decide +kernel

theorem test_witness_CompletionIsSuccessOrFault : Instr.ctFwd ≠ .clr ∧ Instr.ctFwd ≠ .srst := by decide

theorem test_witness_PhaseTable : ∀ p : Phase, (State.reset.setPhase p).status.done = false ∧
    (State.reset.setPhase p).status.fault = false ∧ (State.reset.setPhase p).status.phase.code.toNat ≤ 9 ∧
    (p = .eHash → (State.reset.setPhase p).status.phase.code.toNat ∈ [1, 2, 3, 4]) ∧
    (p = .dHdr → (State.reset.setPhase p).status.phase.code.toNat ∉ [1, 2, 3, 4]) := by
  intro p; cases p <;> decide +kernel

theorem test_witness_CommandsWriteOnlyTheirRow :
    PhaseInv (enc .eGrid true []) ∧ exec .gridEnc (enc .eGrid true []) = .next (after .gridEnc (enc .eGrid true [])) ∧
      (after .gridEnc (enc .eGrid true [])).status.done = true ∧ (enc .eGrid true []).status.done = false ∧
      (enc .eGrid true []).status.fault = false :=
  ⟨enc_inv .eGrid (by simp) true, exec_after _ _, by decide +kernel, by decide +kernel, by decide +kernel⟩

/-- Image operands. -/
def operands (w h len : Word) : State := given .none [(.imgW, w), (.imgH, h), (.pixinLen, len)] []

theorem test_witness_ImageOperandFaults :
    (∀ w ∈ [0, 101], let w := natWord w; ∀ h ∈ [0, 5], let h := natWord h; (operands w h 0).nat .imgW < 1 ∨ 100 < (operands w h 0).nat .imgW) ∧
      (∀ w ∈ [1, 100], let w := natWord w; ∀ h ∈ [0, 101], let h := natWord h; 1 ≤ (operands w h 0).nat .imgW ∧
        (operands w h 0).nat .imgW ≤ 100 ∧ ((operands w h 0).nat .imgH < 1 ∨ 100 < (operands w h 0).nat .imgH)) ∧
      ∀ w ∈ [1, 100], let w := natWord w; ∀ h ∈ [1, 100], let h := natWord h; 1 ≤ (operands w h 5).nat .imgW ∧
        (operands w h 5).nat .imgW ≤ 100 ∧ 1 ≤ (operands w h 5).nat .imgH ∧ (operands w h 5).nat .imgH ≤ 100 ∧
        (operands w h 5).nat .pixinLen ≠ 4 * (operands w h 5).nat .imgW * (operands w h 5).nat .imgH := by decide +kernel

/-- One pixel, opaque or with alpha 254. -/
def onePixel (ha : Bool) (cap : Word) : State :=
  given .none [(.imgW, 1), (.imgH, 1), (.pixinLen, 4), (.hashCap, cap)]
    (Memory.block 0x10000 [0xFF, 0xFF, 0xFF, if ha then 0xFE else 0xFF])

theorem onePixel_alpha (ha : Bool) (cap : Word) : ImageValid (onePixel ha cap) ∧
    (ha = true ↔ ∃ i < (onePixel ha cap).nat .imgW * (onePixel ha cap).nat .imgH,
      ((onePixel ha cap).pixin (4 * i + 3)).toNat < 255) := by
  have hw : (onePixel ha cap).nat .imgW = 1 := by cases ha <;> rfl
  have hh : (onePixel ha cap).nat .imgH = 1 := by cases ha <;> rfl
  have hl : (onePixel ha cap).nat .pixinLen = 4 := by cases ha <;> rfl
  have hp : ((onePixel ha cap).pixin 3).toNat = if ha then 254 else 255 := by cases ha <;> rfl
  refine ⟨by unfold ImageValid; rw [hw, hh, hl]; omega, ?_⟩
  rw [hw, hh]
  constructor
  · rintro rfl
    exact ⟨0, by omega, by rw [hp]; decide⟩
  · rintro ⟨i, hi, h⟩
    obtain rfl : i = 0 := by omega
    rw [hp] at h
    cases ha <;> simp_all

theorem test_witness_HashCapacityFaults :
    (∀ p ∈ [Phase.eCoef, .eHash], (enc p false [(.hashCap, 23)]).status.phase = p ∧
        (enc p false [(.hashCap, 23)]).nat .hashCap < (enc p false [(.hashCap, 23)]).nat .reqLen) ∧
      (onePixel false 23).nat .hashCap <
        encRequiredLength ((onePixel false 23).nat .imgW) ((onePixel false 23).nat .imgH) false ∧
      (onePixel true 24).nat .hashCap <
        encRequiredLength ((onePixel true 24).nat .imgW) ((onePixel true 24).nat .imgH) true := by decide +kernel

/-- A hash of `n` bytes in HASH_LEN: bytes 2, 3 and 4 are given. -/
def hashOf (n : Word) (b2 b3 b4 : Byte) (r : List (Reg × Word)) : State :=
  given .none ((.hashLen, n) :: r) (Memory.block 0x200 ([0, 0, b2, b3, b4] ++ List.replicate 24 0x88))

theorem test_witness_HeaderLengthFaults :
    (∀ n ∈ [0, 4], let n := natWord n; (hashOf n 0 0 0 []).nat .hashLen < 5) ∧ (hashOf 5 0x80 0 0 []).nat .hashLen = 5 ∧
      ((hashOf 5 0x80 0 0 []).hash 2).getLsbD 7 = true := by decide +kernel

theorem hashOf_present : HeaderPresent (hashOf 5 0 7 0 []) ∧ HeaderPresent (hashOf 6 0x80 5 0 []) ∧
    HeaderPresent (hashOf 24 0 7 0 []) ∧ HeaderPresent (hashOf 23 0 7 0 []) := by
  unfold HeaderPresent
  decide +kernel

theorem square_length : decPixoutLen false false 7 = 4096 := by
  rw [decPixoutLen_eq, square_raster]; rfl

theorem hashOf_bits (n : Word) (r : List (Reg × Word)) : ((hashOf n 0 7 0 r).hash 2).getLsbD 7 = false ∧
    ((hashOf n 0 7 0 r).hash 4).getLsbD 7 = false ∧ ((hashOf n 0 7 0 r).hash 3).toNat % 8 = 7 := by
  have hm : (hashOf n 0 7 0 r).mem = Memory.block 0x200 ([0, 0, 0, 7, 0] ++ List.replicate 24 0x88) := by
    simp [hashOf, given]
  have h : ∀ i b, (Memory.block 0x200 ([0, 0, 0, 7, 0] ++ List.replicate 24 0x88)).read (hashBase + i) = some b →
      (hashOf n 0 7 0 r).hash i = b := fun i b e => by rw [State.hash, State.byteAt, hm, e]; rfl
  rw [h 2 0 (by decide), h 3 7 (by decide), h 4 0 (by decide)]
  decide

theorem test_witness_DecodeCapacityFaults :
    HeaderPresent (hashOf 23 0 7 0 [(.pixoutCap, 4095)]) ∧
      (hashOf 23 0 7 0 [(.pixoutCap, 4095)]).nat .pixoutCap < decPixoutLen false false 7 ∧
      decPixoutLen false false 7 ≤ (hashOf 23 0 7 0 [(.pixoutCap, 4096)]).nat .pixoutCap ∧
      (hashOf 23 0 7 0 [(.pixoutCap, 4096)]).nat .hashLen < decRequiredLength false false 7 := by
  rw [square_length]
  refine ⟨by unfold HeaderPresent; decide +kernel, ?_⟩
  decide +kernel

theorem test_witness_UnitLengthFaults :
    (∀ p ∈ [Phase.dPlanes, .dPix], (given p [(.pixoutLen, 3456), (.pixoutCap, 3455)] []).status.phase = p ∧
        (given p [(.pixoutLen, 3456), (.pixoutCap, 3455)] []).nat .pixoutCap <
          (given p [(.pixoutLen, 3456), (.pixoutCap, 3455)] []).nat .pixoutLen) ∧
      ∀ p ∈ [Phase.dGrid, .dCoef, .dPlanes, .dPix], (given p [(.hashLen, 22), (.reqLen, 23)] []).status.phase = p ∧
        (given p [(.hashLen, 22), (.reqLen, 23)] []).nat .hashLen < (given p [(.hashLen, 22), (.reqLen, 23)] []).nat .reqLen
    := by decide +kernel

/-- The idle engine with one read to come. -/
def reading (off width : Nat) : State := withEvents State.reset [.access (.read off width)]

theorem test_witness_RefusedAccessesChangeNothing :
    (∀ off ∈ [0x001, 0x1FE, 0x202, 0x401, 0x7FFFF], off < 0x80000 ∧
        (reading off 4).host = .access (.read off 4) :: [] ∧ ¬ ((4 = 4 ∧ off % 4 = 0) ∨ 4 = 1)) ∧
      (∀ off ∈ [0x000, 0x1FF, 0x400, 0x5FF, 0x40000, 0x79C3F],
        off < 0x200 ∨ (0x400 ≤ off ∧ off < 0x600) ∨ (0x40000 ≤ off ∧ off % 0x10000 < 0x9C40)) ∧
      (∀ off ∈ [0x200, 0x3FF, 0x600, 0x3FFFF, 0x49C40, 0x7FFFF], off < 0x80000 ∧
        ¬ (off < 0x200 ∨ (0x400 ≤ off ∧ off < 0x600) ∨ (0x40000 ≤ off ∧ off % 0x10000 < 0x9C40))) ∧
      ∀ off ∈ [0x000, 0x1FC, 0x7FFFC], off < 0x80000 ∧ off % 4 = 0 := by decide +kernel

theorem test_witness_ReadsChangeNothing : ∀ off ∈ [0, 0x200, 0x7FFFF], ∀ width ∈ [1, 2, 4], off < 0x80000 ∧
    (reading off width).host = .access (.read off width) :: [] ∧
    (withEvents State.reset [.access (.read off width), .access (.read off width)]).inflight = none ∧
    (withEvents State.reset [.access (.read off width), .access (.read off width)]).host =
      .access (.read off width) :: .access (.read off width) :: [] := by decide +kernel

/-- One written byte in each memory, and one read to come. -/
def readingBytes (off width : Nat) : State :=
  withEvents (given .none [] [(0x200, 1), (0x21F, 2), (0x400, 3), (0x5FC, 4), (0x2000, 5), (0x3FFF, 6), (0x10000, 7),
    (0x19C3F, 8), (0x40000, 9), (0x79C3C, 10)]) [.access (.read off width)]

theorem test_witness_IdleReadsReturnTheState :
    (∀ off ∈ [0x000, 0x004, 0x008, 0x018, 0x01C, 0x044, 0x04C, 0x0BC, 0x11C, 0x1FC, 0x220, 0x3FC, 0x600, 0x1FFC, 0x4000,
        0xFFFC, 0x19C40, 0x3FFFC, 0x49C40, 0x7FFFC],
        (readingBytes off 4).inflight = none ∧ (readingBytes off 4).host = .access (.read off 4) :: [] ∧ off % 4 = 0) ∧
      (0x00C, Reg.ie) ∈ controlOffsets ∧ (0x118, Reg.scanCy) ∈ floatOffsets ∧
      (∀ off ∈ [0x200, 0x400, 0x5FC, 0x2000, 0x10000, 0x40000, 0x79C3C], mappedByte off = true ∧
        ((readingBytes off 4).mem.read (off + 0)).isSome = true) ∧
      ∀ off ∈ [0x200, 0x21F, 0x2000, 0x3FFF, 0x10000, 0x19C3F],
        ((readingBytes off 1).mem.read off).isSome = true ∧
          (readingBytes off 1).host = .access (.read off 1) :: [] := by decide +kernel

/-- The idle engine with one write to come. -/
def writing (off width : Nat) (v : Word) : State := withEvents State.reset [.access (.write off width v)]

theorem test_witness_RegisterWrites :
    (∀ off ∈ [0x220, 0x3FF, 0x600, 0x1FFF, 0x4000, 0xFFFF, 0x19C40, 0x3FFFF, 0x49C40, 0x7FFFF],
      (writing off 1 9).inflight = none ∧ off < 0x80000 ∧ off ≠ 0x004 ∧ ¬ (0x200 ≤ off ∧ off < 0x220) ∧
        ¬ (0x2000 ≤ off ∧ off < 0x4000) ∧ ¬ (0x10000 ≤ off ∧ off < 0x19C40) ∧
        ((0x220 ≤ off ∧ off < 0x400) ∨ (0x600 ≤ off ∧ off < 0x2000) ∨ (0x4000 ≤ off ∧ off < 0x10000) ∨
          (0x19C40 ≤ off ∧ off < 0x40000) ∨ (0x40000 ≤ off ∧ 0x9C40 ≤ off % 0x10000)) ∧
        (writing off 1 9).host = .access (.write off 1 9) :: []) ∧
    ∀ off ∈ [0x000, 0x00C, 0x020, 0x040, 0x044, 0x1FC, 0x220, 0x400, 0x5FC, 0x1FFC, 0x4000, 0xFFFC, 0x19C40, 0x40000,
      0x7FFFC], (writing off 4 9).inflight = none ∧ off < 0x80000 ∧ off % 4 = 0 ∧ off ≠ 0x004 ∧
        ¬ (0x200 ≤ off ∧ off < 0x220) ∧ ¬ (0x2000 ≤ off ∧ off < 0x4000) ∧ ¬ (0x10000 ≤ off ∧ off < 0x19C40) ∧
        (writing off 4 9).host = .access (.write off 4 9) :: [] := by decide +kernel

theorem test_witness_BufferReadAfterWrite :
    ∀ p ∈ [(0x200, 4), (0x21C, 4), (0x21F, 1), (0x2000, 1), (0x3FFC, 4), (0x3FFF, 1), (0x10000, 4), (0x19C3C, 4),
      (0x19C3F, 1)],
      ((0x200 ≤ p.1 ∧ p.1 < 0x220) ∨ (0x2000 ≤ p.1 ∧ p.1 < 0x4000) ∨ (0x10000 ≤ p.1 ∧ p.1 < 0x19C40)) ∧
        (p.2 = 1 ∨ (p.2 = 4 ∧ p.1 % 4 = 0)) ∧
        (withEvents State.reset [.access (.write p.1 p.2 9), .access (.read p.1 p.2)]).host =
          .access (.write p.1 p.2 9) :: .access (.read p.1 p.2) :: [] := by decide +kernel

theorem test_witness_AccessesWhileBusy :
    running.inflight = some 0x30 ∧ (∀ p ∈ [(0x000, 4), (0x008, 4), (0x00C, 4), (0x200, 1), (0x7FFFC, 4), (0x7FFFF, 1)],
      p.1 < 0x80000 ∧ acceptedAccess p.1 p.2 = true ∧
        (withEvents running [.access (.read p.1 p.2)]).host = .access (.read p.1 p.2) :: [] ∧
        (withEvents running [.access (.write p.1 p.2 5)]).host = .access (.write p.1 p.2 5) :: []) := by decide +kernel

theorem test_witness_RegistersReadTheirResetValues : 0 < 128 ∧ 127 < 128 := by decide

theorem test_witness_ResetInput : (withEvents running [.reset]).host = .reset :: [] := by decide +kernel

theorem test_witness_InterruptLine :
    State.reset.reg .ie = 0 ∧ exec .clr inFault = .next (after .clr inFault) ∧
      exec .srst inFault = .next (after .srst inFault) ∧
      (∀ p ∈ [(0x004, (0x40 : Word)), (0x00C, 4)], (writing p.1 4 p.2).inflight = none ∧
        (writing p.1 4 p.2).status.fault = false ∧ (writing p.1 4 p.2).host = .access (.write p.1 4 p.2) :: [] ∧
        (match step (writing p.1 4 p.2) with | .next _ => true | _ => false) = true) ∧
      (∀ v ∈ [0, 2, 4], let w := natWord v; let s := withEvents inFault [wrEvent (.stored .ie) w]
        s.inflight = none ∧ s.host = .access (.write 0x00C 4 w) :: [] ∧ s.status.fault = true ∧
          s.status.done = false ∧ (match step s with | .next _ => true | _ => false) = true) ∧
      (0x40 : Word) ≠ 1 ∧ (0x40 : Word) ≠ 2 ∧ (4 : Word).getLsbD 1 = false ∧ (2 : Word).getLsbD 2 = false :=
  ⟨by decide +kernel, exec_after _ _, exec_after _ _, by decide +kernel, by decide +kernel, by decide, by decide, by decide,
    by decide⟩

theorem step_stepped {s : State} (h : (match step s with | .next _ => true | _ => false) = true) :
    step s = .next (stepped s) := by
  unfold stepped
  cases hs : step s with
  | next t => rfl
  | fault f => rw [hs] at h; simp at h
  | refused r => rw [hs] at h; simp at h

theorem test_witness_OnlyClearAndResetEndAFault : ∀ e ∈ [wrEvent .cmd 1, wrEvent .cmd 2, Event.reset],
    Inv (withEvents inFault [e]) ∧ step (withEvents inFault [e]) = .next (stepped (withEvents inFault [e])) ∧
      (withEvents inFault [e]).status.fault = true ∧ (stepped (withEvents inFault [e])).status.fault = false := by
  have h : ∀ e ∈ [wrEvent .cmd 1, wrEvent .cmd 2, Event.reset],
      (match step (withEvents inFault [e]) with | .next _ => true | _ => false) = true ∧
      (withEvents inFault [e]).status.fault = true ∧ (stepped (withEvents inFault [e])).status.fault = false := by
    decide +kernel
  exact fun e he => ⟨inv_withEvents inFault_inv _, step_stepped (h e he).1, (h e he).2⟩

theorem test_witness_OnlySuccessesChangeThePhase :
    Inv (withEvents runningCtFwd [.engine]) ∧
      step (withEvents runningCtFwd [.engine]) = .next (stepped (withEvents runningCtFwd [.engine])) ∧
      (stepped (withEvents runningCtFwd [.engine])).status.phase ≠ (withEvents runningCtFwd [.engine]).status.phase :=
  ⟨inv_withEvents runningCtFwd_inv _, step_stepped (by decide +kernel), by decide +kernel⟩

theorem test_witness_StepKeepsInv : Inv (withEvents runningCtFwd []) ∧
    step (withEvents runningCtFwd []) = .next (stepped (withEvents runningCtFwd [])) :=
  ⟨inv_withEvents runningCtFwd_inv _, step_stepped (by decide +kernel)⟩

/-- GRID.ENC runs on square planes. -/
def runningGridEnc : State := { enc .eGrid false [] with inflight := some 0x00000011 }

theorem test_witness_StepKeepsPhaseInv : PhaseInv runningGridEnc ∧
    step runningGridEnc = .next (stepped runningGridEnc) ∧ (stepped runningGridEnc).status.phase = .eGrid :=
  ⟨enc_inv .eGrid (by simp) false, step_stepped (by decide +kernel), by decide +kernel⟩

theorem test_witness_ClrAcknowledges :
    Instr.scanCnt ≠ .clr ∧ Instr.scanCnt ≠ .srst ∧ State.reset.inflight = none ∧ State.reset.status.fault = false ∧
      State.reset.reg .cause = 0 ∧ State.reset.reg .finfo = 0 ∧
      exec .scanCnt (State.reset.start 0x30) = .next (after .scanCnt (State.reset.start 0x30)) ∧
      (after .scanCnt (State.reset.start 0x30)).status.fault = true :=
  ⟨by decide, by decide, by decide, by decide, by decide +kernel, by decide +kernel, exec_after _ _, by decide +kernel⟩

theorem test_witness_CtFwdCompletes : ImageValid rgby ∧ ImageValid (onePixel true 32) ∧
    ((onePixel true 32).pixin (4 * 0 + 3)).toNat < 255 ∧ (rgby.pixin (4 * 3 + 3)).toNat = 255 :=
  ⟨by unfold ImageValid; decide +kernel, (onePixel_alpha true 32).1, by decide +kernel, by decide +kernel⟩

theorem test_witness_GridEncCompletes : ∀ p ∈ [Phase.ePlanes, .eGrid, .eCoef, .eHash],
    (enc p false []).status.phase = p := by decide +kernel

theorem test_witness_DctFwdCompletes : ∀ p ∈ [Phase.eGrid, .eCoef, .eHash], ∀ ha : Bool,
    (enc p ha []).status.phase = p ∧ PhaseInv (enc p ha []) ∧ (enc p ha []).hasAlpha = ha := by
  have h : ∀ p ∈ [Phase.eGrid, .eCoef, .eHash], ∀ ha : Bool,
      (enc p ha []).status.phase = p ∧ (enc p ha []).hasAlpha = ha := by decide +kernel
  exact fun p hp ha => ⟨(h p hp ha).1, enc_inv p (List.mem_cons_of_mem _ hp) ha, (h p hp ha).2⟩

theorem test_witness_PackCompletes : ∀ p ∈ [Phase.eCoef, .eHash], ∀ ha : Bool,
    (enc p ha []).status.phase = p ∧ PhaseInv (enc p ha []) ∧ (enc p ha []).nat .reqLen ≤ (enc p ha []).nat .hashCap ∧
      (enc p ha []).hasAlpha = ha ∧ ((enc p false []).nat .nacTotal % 2 = 1) := by
  have h : ∀ p ∈ [Phase.eCoef, .eHash], ∀ ha : Bool,
      (enc p ha []).status.phase = p ∧ (enc p ha []).nat .reqLen ≤ (enc p ha []).nat .hashCap ∧
      (enc p ha []).hasAlpha = ha ∧ ((enc p false []).nat .nacTotal % 2 = 1) := by decide +kernel
  exact fun p hp ha => ⟨(h p hp ha).1,
    enc_inv p (List.mem_cons_of_mem _ (List.mem_cons_of_mem _ hp)) ha, (h p hp ha).2⟩

theorem test_witness_UnpackHdrCompletes : HeaderPresent (hashOf 5 0 7 0 []) ∧ HeaderPresent (hashOf 6 0x80 5 0 []) ∧
    (hashOf 5 0 7 0 []).hashHdr24.getLsbD 23 = false ∧ (hashOf 6 0x80 5 0 []).hashHdr24.getLsbD 23 = true :=
  ⟨hashOf_present.1, hashOf_present.2.1, by decide +kernel, by decide +kernel⟩

theorem test_witness_GridDecCompletes : ∀ p ∈ [Phase.dHdr, .dGrid, .dCoef, .dPlanes, .dPix], ∀ f ∈ [0, 7], let f := natWord f;
    (given p [(.lfield, f)] []).status.phase = p ∧ (given p [(.lfield, f)] []).nat .lfield ≤ 7 := by decide +kernel

theorem dec_phase (p : Phase) (ha : Bool) : (dec p ha).status.phase = p := rfl

theorem test_witness_UnpackAcCompletes : ∀ p ∈ [Phase.dGrid, .dCoef, .dPlanes, .dPix], ∀ ha : Bool,
    (dec p ha).status.phase = p ∧ PhaseInv (dec p ha) ∧ (dec p ha).nat .reqLen ≤ (dec p ha).nat .hashLen := by
  have h : ∀ p ∈ [Phase.dGrid, .dCoef, .dPlanes, .dPix], ∀ ha : Bool,
      (dec p ha).nat .reqLen ≤ (dec p ha).nat .hashLen := by decide +kernel
  exact fun p hp ha => ⟨rfl, dec_inv p hp ha, h p hp ha⟩

theorem test_witness_DctInvCompletes : ∀ p ∈ [Phase.dCoef, .dPlanes, .dPix], ∀ ha : Bool,
    (dec p ha).status.phase = p ∧ PhaseInv (dec p ha) ∧ (dec p false).nat .outW = 32 ∧ (dec p false).nat .outH = 32 ∧
      (dec p ha).hasAlpha = ha := by
  have h : ∀ p ∈ [Phase.dCoef, .dPlanes, .dPix], ∀ ha : Bool, (dec p ha).hasAlpha = ha := by decide +kernel
  exact fun p hp ha => ⟨rfl, dec_inv p (List.mem_cons_of_mem _ hp) ha, (dec_outW p).1, (dec_outW p).2, h p hp ha⟩

/-- PIXOUT_LEN of a square header is below the reset value of PIXOUT_CAP. -/
theorem dec_pixoutLen (p : Phase) : (dec p false).nat .pixoutLen = 4096 ∧ (dec p false).nat .pixoutCap = 8192 := by
  have e := gridDecEffect_reg (header false)
  have hf : (header false).hasAlpha = false ∧ (header false).landscape = false ∧ (header false).nat .lfield = 7 := by
    decide +kernel
  rw [hf.1, hf.2.1, hf.2.2] at e
  have h1 := e _ (decRegs_raster false false 7).2.2
  rw [square_length] at h1
  have h2 : (gridDecEffect (header false)).reg .pixoutCap = 8192 := by decide +kernel
  rw [State.nat, State.nat, dec_reg _ _ _ (by decide) (by decide), dec_reg _ _ _ (by decide) (by decide), h1, h2]
  decide

theorem test_witness_CtInvCompletes : ∀ p ∈ [Phase.dPlanes, .dPix], (dec p false).status.phase = p ∧
    PhaseInv (dec p false) ∧ (dec p false).nat .pixoutLen ≤ (dec p false).nat .pixoutCap :=
  fun p hp => ⟨rfl, dec_inv p (List.mem_cons_of_mem _ (List.mem_cons_of_mem _ hp)) false, by
    rw [(dec_pixoutLen p).1, (dec_pixoutLen p).2]; decide⟩

/-- Scan operands. -/
def scanOperands (nx ny idx : Word) : State := given .none [(.scanNx, nx), (.scanNy, ny), (.scanIdx, idx)] []

theorem test_witness_ScanCntCompletes :
    (∀ nx ∈ [0, 8], let nx := natWord nx; (scanOperands nx 0 0).nat .scanNx < 1 ∨ 7 < (scanOperands nx 0 0).nat .scanNx) ∧
      (∀ nx ∈ [1, 7], let nx := natWord nx; ∀ ny ∈ [0, 8], let ny := natWord ny; 1 ≤ (scanOperands nx ny 0).nat .scanNx ∧
        (scanOperands nx ny 0).nat .scanNx ≤ 7 ∧
        ((scanOperands nx ny 0).nat .scanNy < 1 ∨ 7 < (scanOperands nx ny 0).nat .scanNy)) ∧
      ∀ nx ∈ [1, 7], let nx := natWord nx; ∀ ny ∈ [1, 7], let ny := natWord ny; 1 ≤ (scanOperands nx ny 0).nat .scanNx ∧
        (scanOperands nx ny 0).nat .scanNx ≤ 7 ∧ 1 ≤ (scanOperands nx ny 0).nat .scanNy ∧
        (scanOperands nx ny 0).nat .scanNy ≤ 7 := by decide +kernel

theorem test_witness_ScanNthCompletes :
    (∀ p ∈ [(1, 1, 0), (3, 3, 5), (7, 7, 27)],
        let s := scanOperands (natWord p.1) (natWord p.2.1) (natWord p.2.2)
        (scan (s.nat .scanNx) (s.nat .scanNy)).length ≤ s.nat .scanIdx) ∧
      (scan ((scanOperands 3 3 0).nat .scanNx) ((scanOperands 3 3 0).nat .scanNy))[(scanOperands 3 3 0).nat .scanIdx]? =
        some (1, 0) ∧
      (scan ((scanOperands 7 7 26).nat .scanNx) ((scanOperands 7 7 26).nat .scanNy))[(scanOperands 7 7 26).nat .scanIdx]? =
        some (0, 6) := by decide +kernel

theorem test_witness_EncodeCompletes : ∀ ha : Bool,
    encRequiredLength ((onePixel ha 32).nat .imgW) ((onePixel ha 32).nat .imgH) ha ≤ (onePixel ha 32).nat .hashCap := by
  decide +kernel

theorem test_witness_DecodeCompletes : HeaderPresent (hashOf 24 0 7 0 []) ∧
    decPixoutLen ((hashOf 24 0 7 0 []).hash 2 |>.getLsbD 7) ((hashOf 24 0 7 0 []).hash 4 |>.getLsbD 7)
      (((hashOf 24 0 7 0 []).hash 3).toNat % 8) ≤ (hashOf 24 0 7 0 []).nat .pixoutCap ∧
    decRequiredLength ((hashOf 24 0 7 0 []).hash 2 |>.getLsbD 7) ((hashOf 24 0 7 0 []).hash 4 |>.getLsbD 7)
      (((hashOf 24 0 7 0 []).hash 3).toNat % 8) ≤ (hashOf 24 0 7 0 []).nat .hashLen := by
  obtain ⟨h1, h2, h3⟩ := hashOf_bits 24 []
  rw [h1, h2, h3, square_length]
  exact ⟨hashOf_present.2.2.1, by decide +kernel, by decide +kernel⟩

theorem test_witness_AvgColorCompletes : HeaderPresent (hashOf 5 0 7 0 []) ∧ HeaderPresent (hashOf 6 0x80 5 0 []) :=
  ⟨hashOf_present.1, hashOf_present.2.1⟩

theorem test_witness_AspectCompletes : 5 ≤ (hashOf 5 0x80 5 0 []).nat .hashLen ∧
    ((hashOf 5 0x80 5 0 []).hash 2).getLsbD 7 = true := by decide +kernel

theorem test_witness_EncoderAndDecoderGridsAgree : (1 : Nat) ≤ 1 ∧ 1 ≤ 100 ∧ 100 ≤ 100 := by decide

theorem test_witness_ScanListIsTheTriangle : (1 : Nat) ≤ 1 ∧ (1 : Nat) ≤ 7 := by decide

theorem test_witness_ScanCountFormula : (1 : Nat) ≤ 1 ∧ (7 : Nat) ≤ 7 := by decide

theorem test_witness_EncodeDependsOnlyOnItsOperands :
    let s' := rgby.setReg .ie 6
    rgby.status.fault = false ∧ s'.status.fault = false ∧
      (∀ r ∈ [Reg.imgW, .imgH, .pixinLen, .hashCap], rgby.reg r = s'.reg r) ∧
      (∀ k < 4 * rgby.nat .imgW * rgby.nat .imgH, rgby.pixin k = s'.pixin k) ∧
      (after .encode rgby).status.fault = false ∧ (after .encode s').status.fault = false ∧
      (after .encode (rgby.setReg .hashCap 23)).status.fault = true := by decide +kernel

/-- DECODE of a square header with its payload succeeds. -/
theorem decode_succeeds (r : List (Reg × Word)) (h : HeaderPresent (hashOf 24 0 7 0 r))
    (hc : (hashOf 24 0 7 0 r).nat .pixoutCap = 8192) (hl : (hashOf 24 0 7 0 r).nat .hashLen = 24)
    (hf : (hashOf 24 0 7 0 r).status.fault = false) : (after .decode (hashOf 24 0 7 0 r)).status.fault = false := by
  obtain ⟨h1, h2, h3⟩ := hashOf_bits 24 r
  have hn : checkOf .decode (hashOf 24 0 7 0 r) = none := by
    change checkDecode num _ = none
    rw [checkDecode_eq h, h1, h2, h3]
    dsimp only
    rw [square_length, hc, hl]
    decide
  rcases exec_cases (by decide) (exec_after .decode (hashOf 24 0 7 0 r)) with ⟨ha, -⟩ | ⟨-, f, he, -⟩ | ⟨-, -, ht⟩
  · exact absurd ha (by simp [accepts])
  · rw [hn] at he; exact absurd he (by simp)
  · rw [ht, (success_flags .decode _).2.2.1, hf]

/-- Two states whose hashes agree in the 24 bytes of the header's REQ_LEN and differ in the byte after them. -/
theorem test_witness_DecodeDependsOnlyOnItsOperands :
    let s := hashOf 24 0 7 0 []
    let s' := { s with mem := s.mem.write 0x218 [0x99] }
    s.status.fault = false ∧ s'.status.fault = false ∧ (∀ r ∈ [Reg.hashLen, .pixoutCap], s.reg r = s'.reg r) ∧
      (∀ k < decRequiredLength ((s.hash 2).getLsbD 7) ((s.hash 4).getLsbD 7) ((s.hash 3).toNat % 8),
        s.hash k = s'.hash k) ∧ s.hash 24 ≠ s'.hash 24 ∧
      (after .decode (hashOf 4 0 0 0 [])).status.fault = true ∧ (after .decode s).status.fault = false :=
  ⟨by decide +kernel, by decide +kernel, by decide +kernel, by decide +kernel, by decide +kernel, by decide +kernel,
    decode_succeeds [] hashOf_present.2.2.1 (by decide +kernel) (by decide +kernel) (by decide +kernel)⟩

theorem test_witness_RoundingIsToNearestEven :
    (∀ p ∈ [(1, 3), (1, 2), (3, 2), (16777217, 1)], 0 < p.2 ∧ Binary32.roundUnits p.1 p.2 < Binary32.infMagnitude) ∧
      (∀ w ∈ [0x00000000, 0x00000001, 0x4B800000, 0x7F7FFFFF], let w := natWord w; Binary32.isFinite w = true ∧ Binary32.sign w = false) ∧
      |(Binary32.units (Binary32.ofParts false (Binary32.roundUnits 1 2)) : Int) * 2 - 1| =
        |(Binary32.units 0x00000001 : Int) * 2 - 1| ∧
      (∀ w ∈ [0x00000000, 0x80000000, 0x3F800000, 0xBF800000, 0x7F7FFFFF], Binary32.isFinite (natWord w) = true) ∧
      valueOf 0x3F800000 ≠ 0 ∧ valueOf 0x80000000 = 0 ∧ valueOf 0x3F800000 + valueOf 0xBF800000 = 0 ∧
      valueOf 0x80000000 - valueOf 0x00000000 = 0 := by decide +kernel

/-- R131: ties go to the even neighbour, one unit above half way goes up; half way above the largest value overflows. -/
theorem test_ties : num.fadd 0x4B800001 0x3F800000 = 0x4B800002 ∧ num.fadd 0x4B800000 0x40400000 = 0x4B800002 ∧
    num.fsub 0x00000000 0x00000000 = 0 ∧ num.fadd 0x7F7FFFFF 0x73000000 = 0x7F800000 ∧
    num.fadd 0x7F7FFFFF 0x72FFFFFF = 0x7F7FFFFF ∧ num.fdiv 0xBF800000 0x00000000 = 0xFF800000 := by decide +kernel

/-- R131, R137: the zeros are equal, values in order, and the two ends of the clamp. -/
theorem test_order : num.flt 0x80000000 0x00000000 = false ∧ num.flt 0xBF800000 0x80000001 = true ∧
    num.fgt 0x3F800001 0x3F800000 = true ∧ num.flt 0xFF800000 0x7F800000 = true ∧
    num.clamp01 0xBF800000 = 0x00000000 ∧ num.clamp01 0x3F800001 = 0x3F800000 ∧ num.clamp01 0x80000000 = 0x80000000 := by
  decide +kernel

theorem test_witness_NumericPrimitives :
    (∀ v ∈ [0x00000000, 0x3F000000, 0x3FC00000, 0x437F0000], Binary32.isFinite (natWord v) = true ∧
      0 ≤ valueOf (natWord v) ∧ valueOf (natWord v) ≤ 255) ∧ valueOf 0x3F000000 = 1 / 2 ∧ valueOf 0x437F0000 = 255 ∧
    (∀ tie ∈ [Tie.halfEven, .halfAway], |(rndRatio tie 1 2 : ℚ) - 1 / 2| = 1 / 2) ∧
    Binary32.isFinite 0xFF7FFFFF = true ∧ Binary32.isFinite 0xBF800000 = true ∧ valueOf 0xBF800000 < 0 ∧
    1 < valueOf 0x3F800001 ∧ Binary32.isFinite 0x3F800001 = true ∧ valueOf 0x40490FDB = 13176795 / 2 ^ 22 := by
  decide +kernel

/-- Both chains and both composite commands run to a success, with different numbers of polls. -/
theorem test_witness_EncodeEqualsTheChain :
    rgby.inflight = none ∧ rgby.status.fault = false ∧
      (∀ k < 4 * rgby.nat .imgW * rgby.nat .imgH, (rgby.mem.read (pixinBase + k)).isSome = true) ∧
      (run (runSteps 1 + runSteps 0 + runSteps 0 + runSteps 2)
        (rgby.load [.run .ctFwd 1, .run .gridEnc 0, .run .dctFwd 0, .run .pack 2])).map (fun t => t.status.fault) =
          some false ∧
      (run (runSteps 3) (rgby.load [.run .encode 3])).map (fun t => t.status.fault) = some false := by decide +kernel

theorem reg_of_regs {s t : State} (h : t.regs = s.regs) (l : List Reg) : ∀ r ∈ l, t.reg r = s.reg r :=
  fun r _ => by rw [State.reg, State.reg, h]

/-- A hash with its payload in every byte that DECODE may read. -/
theorem test_witness_DecodeEqualsTheChain :
    let s := hashOf 32 0 7 0 []
    s.inflight = none ∧ s.status.fault = false ∧
      (∀ k < min (s.nat .hashLen) 29, (s.mem.read (hashBase + k)).isSome = true) ∧
      (let short := given .none [(.hashLen, 24)] (Memory.block 0x200 (List.replicate 24 0x88))
        ∀ k < min (short.nat .hashLen) 29, (short.mem.read (hashBase + k)).isSome = true) ∧
      (∃ t, run (runSteps 0 + runSteps 0 + runSteps 0 + runSteps 0 + runSteps 1)
        (s.load [.run .unpackHdr 0, .run .gridDec 0, .run .unpackAc 0, .run .dctInv 0, .run .ctInv 1]) = some t ∧
          t.status.fault = false) ∧
      ∃ u, run (runSteps 1) (s.load [.run .decode 1]) = some u := by
  refine ⟨by decide +kernel, by decide +kernel, by decide +kernel, by decide +kernel, ?_, ?_⟩
  · let s0 := (hashOf 32 0 7 0 []).load [.run .unpackHdr 0, .run .gridDec 0, .run .unpackAc 0, .run .dctInv 0,
      .run .ctInv 1]
    have hlen : s0.reg .hashLen = 32 ∧ s0.reg .pixoutCap = 8192 := by decide +kernel
    -- UNPACK.HDR
    obtain ⟨u1, v1, a1, b1, -, r1, g1, m1, p1, f1, i1, e1⟩ := run_success (i := .unpackHdr) 0 (s := s0)
      (rest := script [.run .gridDec 0, .run .unpackAc 0, .run .dctInv 0, .run .ctInv 1])
      (by decide) (by decide +kernel) (by decide +kernel) rfl (by decide +kernel) (fun u hr _ => by
        have h : u.nat .hashLen = 32 := by rw [State.nat, reg_of_regs hr [.hashLen] _ (by simp), hlen.1]; rfl
        exact checkHeaderLength_none_iff.mpr ⟨by omega, fun _ => by omega⟩)
    have k1 := reg_of_regs g1
    have l1 : ∀ r ∈ [Reg.hashLen, .pixoutCap], v1.reg r = s0.reg r := fun r hr => by
      rw [k1 _ r hr, ← reg_of_regs a1 _ r hr]
      exact (Frame.unpackHdrEffect u1).keep (by decide) r hr
    have q1 : HeaderAgrees v1 ∧ AlphaFixed v1 :=
      ⟨(unpackHdr_header u1).1.congr (k1 _), (unpackHdr_header u1).2.congr (k1 _)⟩
    have ph1 : v1.status.phase = .dHdr := by rw [p1]; rfl
    -- GRID.DEC
    obtain ⟨u2, v2, a2, b2, -, r2, g2, m2, p2, f2, i2, e2⟩ := run_success (i := .gridDec) 0 (s := v1)
      (rest := script [.run .unpackAc 0, .run .dctInv 0, .run .ctInv 1]) (by decide) i1 f1 e1
      (by rw [ph1]; decide) (fun _ _ _ => rfl)
    have k2 := reg_of_regs g2
    have l2 : ∀ r ∈ [Reg.hashLen, .pixoutCap], v2.reg r = s0.reg r := fun r hr => by
      rw [k2 _ r hr, ← l1 r hr, ← reg_of_regs a2 _ r hr]
      exact (Frame.gridDecEffect u2).keep (by decide) r hr
    obtain ⟨x1, x2, x3⟩ := gridDec_grid (s := u2) ⟨q1.1.congr (reg_of_regs a2 _), q1.2.congr (reg_of_regs a2 _)⟩
    have q2 : HeaderAgrees v2 ∧ AlphaFixed v2 ∧ DecoderGrid v2 := ⟨x1.congr (k2 _), x2.congr (k2 _), x3.congr (k2 _)⟩
    have ph2 : v2.status.phase = .dGrid := by rw [p2]; rfl
    -- UNPACK.AC
    obtain ⟨u3, v3, a3, b3, -, r3, g3, m3, p3, f3, i3, e3⟩ := run_success (i := .unpackAc) 0 (s := v2)
      (rest := script [.run .dctInv 0, .run .ctInv 1]) (by decide) i2 f2 e2 (by rw [ph2]; decide) (fun u hr _ => by
        have hl : u.nat .hashLen = 32 := by
          rw [State.nat, reg_of_regs hr [.hashLen] _ (by simp), l2 _ (by simp), hlen.1]; rfl
        have hreq : u.nat .reqLen ≤ 32 := by
          rw [State.nat_eq (reg_of_regs hr [.reqLen] _ (by simp))]
          exact (q2.2.2.gridOf q2.1.lfield_le).total.2.2.2.1
        change checkTruncated u = none
        rw [checkTruncated, if_neg (by omega)])
    have k3 := reg_of_regs g3
    have l3 : ∀ r ∈ [Reg.hashLen, .pixoutCap], v3.reg r = s0.reg r := fun r hr => by
      rw [k3 _ r hr, ← l2 r hr, ← reg_of_regs a3 _ r hr]
      exact (Frame.unpackAcEffect u3).keep (by decide) r hr
    obtain ⟨y1, y2, y3⟩ := unpackAc_keeps (s := u3)
      ⟨q2.1.congr (reg_of_regs a3 _), q2.2.1.congr (reg_of_regs a3 _), q2.2.2.congr (reg_of_regs a3 _)⟩
    have q3 : HeaderAgrees v3 ∧ AlphaFixed v3 ∧ DecoderGrid v3 := ⟨y1.congr (k3 _), y2.congr (k3 _), y3.congr (k3 _)⟩
    have ph3 : v3.status.phase = .dCoef := by rw [p3]; rfl
    -- DCT.INV
    obtain ⟨u4, v4, a4, b4, -, r4, g4, m4, p4, f4, i4, e4⟩ := run_success (i := .dctInv) 0 (s := v3)
      (rest := script [.run .ctInv 1]) (by decide) i3 f3 e3 (by rw [ph3]; decide) (fun _ _ _ => rfl)
    have k4 := reg_of_regs g4
    have l4 : v4.reg .pixoutCap = 8192 := by
      rw [k4 [.pixoutCap] _ (by simp), ← hlen.2, ← l3 .pixoutCap (by simp), ← reg_of_regs a4 [.pixoutCap] _ (by simp)]
      exact (Frame.dctInvEffect u4).keep (l := [.pixoutCap]) (by decide) _ (by simp)
    obtain ⟨z1, z2, z3, -⟩ := dctInv_planes (s := u4)
      ⟨q3.1.congr (reg_of_regs a4 _), q3.2.1.congr (reg_of_regs a4 _), q3.2.2.congr (reg_of_regs a4 _)⟩
    have q4 : HeaderAgrees v4 ∧ DecoderGrid v4 := ⟨z1.congr (k4 _), z3.congr (k4 _)⟩
    have ph4 : v4.status.phase = .dPlanes := by rw [p4]; rfl
    -- CT.INV
    obtain ⟨u5, v5, a5, b5, -, r5, g5, m5, p5, f5, i5, e5⟩ := run_success (i := .ctInv) 1 (s := v4)
      (rest := []) (by decide) i4 f4 e4 (by rw [ph4]; decide) (fun u hr _ => by
        have hc : u.nat .pixoutCap = 8192 := by
          rw [State.nat, reg_of_regs hr [.pixoutCap] _ (by simp), l4]; rfl
        have hp := q4.2 _ (decRegs_raster v4.hasAlpha v4.landscape (v4.nat .lfield)).2.2
        have hb := (decRaster_bounds v4.hasAlpha v4.landscape q4.1.lfield_le).2.2
        have hlen' : u.nat .pixoutLen ≤ 5760 := by
          rw [State.nat, reg_of_regs hr [.pixoutLen] _ (by simp), hp]
          exact (natWord_toNat (by omega)).le.trans hb
        change checkPixoutCap u = none
        rw [checkPixoutCap, if_neg (by rw [pixoutCapacity_lt_iff (by omega)]; omega)])
    refine ⟨v5, ?_, f5⟩
    rw [run_add, run_add, run_add, run_add, r1, Option.bind_some, r2, Option.bind_some, r3, Option.bind_some, r4,
      Option.bind_some, r5]
  · obtain ⟨u, t, v, -, -, -, -, -, h, -⟩ := run_stmt (i := .decode) 1
      (s := (hashOf 32 0 7 0 []).load [.run .decode 1]) (rest := []) (by decide) (by decide +kernel) (by decide +kernel) rfl
    exact ⟨v, h⟩

theorem test_witness_UnpackInvertsPack : PhaseInv (enc .eCoef true []) ∧ (enc .eCoef true []).status.phase = .eCoef ∧
    (enc .eCoef true []).nat .reqLen ≤ (enc .eCoef true []).nat .hashCap :=
  ⟨enc_inv .eCoef (by simp) true, by decide +kernel, by decide +kernel⟩

/-- A 2 by 1 plane 1, 0: its one AC term is cos(pi/4)/2. -/
theorem test_witness_ExactDctFormulas : 0 < (fwdChannel Exact.numerics (fun i => if i = 0 then 1 else 0) 2 1 2 1).scale := by
  have hs : scan 2 1 = [(1, 0)] := by decide
  have ht : fwdTerm Exact.numerics (fun i => if i = 0 then (1 : ℝ) else 0) 2 1 1 0 = 1 / 2 * (Real.sqrt 2 / 2) := by
    have hc : Real.pi / 2 * 2⁻¹ = Real.pi / 4 := by ring
    simp [fwdTerm, fwdCos, Exact.numerics, Numerics.one, Numerics.zero, List.range_succ, hc, Real.cos_pi_div_four]
  have hp : (0 : ℝ) < 1 / 2 * (Real.sqrt 2 / 2) := by positivity
  simp only [fwdChannel, hs, List.map_cons, List.map_nil, ht, maxMagnitude, List.foldl_cons, List.foldl_nil]
  simp only [Exact.numerics, Numerics.zero]
  simp

end Sys2Proof.Tests
end

section
/-! The answer of the slave interface to an access in the window (R62 to R66): a bus error exactly when it is refused. -/

namespace Sys2Proof.Machine

/-! ### The commands that act in the step of the CMD write -/

theorem exec_clr (s : State) : exec .clr s = .next s.acknowledge := rfl

theorem exec_srst (s : State) : exec .srst s = .next s.resetRegisters := rfl

/-- R27 (d): CLR and SRST leave the answer to the CMD write that brought them. -/
theorem exec_system_reply {i : Instr} (hi : i = .clr ∨ i = .srst) (s : State) :
    ∃ t, exec i s = .next t ∧ t.reply = s.reply := by
  rcases hi with rfl | rfl
  · exact ⟨_, exec_clr s, s.acknowledge_reply⟩
  · exact ⟨_, exec_srst s, s.resetRegisters_reply⟩

/-- R25, R287: whatever an idle CMD write does, its answer stays. -/
theorem cmdWrite_reply (s : State) (v : Word) : ∃ t, ofBusResult (cmdWrite s v) = .next t ∧ t.reply = s.reply := by
  unfold cmdWrite
  rcases immediate_filter v with ⟨i, -, hi, hf⟩ | ⟨-, hf⟩
  · rw [hf]
    exact exec_system_reply hi s
  · rw [hf]
    cases s.status.fault
    · exact ⟨_, rfl, s.start_reply v⟩
    · exact ⟨_, rfl, s.setOvr_reply⟩

/-! ### Refused and accepted accesses -/

/-- R65: a step that is a refused access answers with a bus error and changes nothing else. -/
theorem step_refused {s : State} {a : HostAccess} {off width : Nat} {rest : List Event}
    (ha : a = .read off width ∨ ∃ v, a = .write off width v) (ho : off < 0x80000)
    (hh : s.host = .access a :: rest) (h : acceptedAccess off width = false) :
    step s = .next { s with host := rest, reply := .busError, draws := s.draws + 1 } := by
  rw [step_access hh, busAccess_refused s.tick ha ho h, tick_eq hh]
  rfl

/-- R64, R72, R287: a step that is an accepted write answers that it was written, also where the write is dropped or the
word is CLR or SRST. -/
theorem step_write_reply {s : State} {off width : Nat} {v : Word} {rest : List Event}
    (hh : s.host = .access (.write off width v) :: rest) (ho : off < 0x80000) (ha : acceptedAccess off width = true) :
    ∃ t, step s = .next t ∧ t.reply = .written := by
  have hin : ¬ 0x80000 ≤ off := by omega
  cases hb : s.tick.busy with
  | true =>
    rw [step_access hh]
    simp only [busAccess, if_neg hin, if_pos ha, hb, if_true]
    exact ⟨_, rfl, State.withReply_reply _ _⟩
  | false =>
    by_cases hc : off = cmdOffset
    · rw [step_access hh]
      simp only [busAccess, if_neg hin, if_pos ha, hb, Bool.false_eq_true, if_false, if_pos hc]
      exact cmdWrite_reply (s.tick.withReply .written) v
    · have hi : s.inflight = none := (not_busy_iff s.tick).mp hb
      exact ⟨_, step_idleWrite hi hh ho ha hc, State.withReply_reply _ _⟩

/-- R65: a step that is an accepted access answers with no bus error. -/
theorem step_accepted {s : State} {a : HostAccess} {off width : Nat} {rest : List Event}
    (ha : a = .read off width ∨ ∃ v, a = .write off width v) (ho : off < 0x80000)
    (hh : s.host = .access a :: rest) (h : acceptedAccess off width = true) :
    ∃ t, step s = .next t ∧ t.reply ≠ .busError := by
  rcases ha with rfl | ⟨v, rfl⟩
  · exact ⟨_, step_read hh ho h, by simp⟩
  · obtain ⟨t, ht, hr⟩ := step_write_reply hh ho h
    exact ⟨t, ht, by simp [hr]⟩

/-- Settles O16: the accepted accesses are those of `acceptedAccess`, and each kind has its step lemma. -/
theorem refusedAccessesChangeNothing : Obligations.RefusedAccessesChangeNothing := by
  unfold Obligations.RefusedAccessesChangeNothing
  intro s a off width rest ha ho hh
  simp only [← acceptedAccess_iff ho]
  exact ⟨fun h => step_refused ha ho hh (Bool.eq_false_iff.mpr h), step_accepted ha ho hh⟩

end Sys2Proof.Machine
end

section
/-! The opcode map (R91): the decoder accepts its 17 words and no other. -/

namespace Sys2Proof

/-- R91: the 17 rows of the opcode map. -/
def opcodeMap : List (Nat × Instr) :=
  [(0x01, .clr), (0x02, .srst), (0x10, .ctFwd), (0x11, .gridEnc), (0x12, .dctFwd), (0x13, .pack), (0x20, .unpackHdr),
    (0x21, .gridDec), (0x22, .unpackAc), (0x23, .dctInv), (0x24, .ctInv), (0x30, .scanCnt), (0x31, .scanNth),
    (0x40, .encode), (0x41, .decode), (0x42, .avgColor), (0x43, .aspect)]

theorem opcodeMap_row_opcode : ∀ row ∈ opcodeMap, row.1 = row.2.opcode.toNat := by decide

theorem opcode_mem_opcodeMap (i : Instr) : (i.opcode.toNat, i) ∈ opcodeMap := by
  cases i <;> decide

/-- The rows of the map are the graph of `commandOf`. -/
theorem mem_opcodeMap_iff (n : Nat) (i : Instr) : (n, i) ∈ opcodeMap ↔ commandOf n = some i := by
  rw [commandOf_iff]
  constructor
  · exact opcodeMap_row_opcode (n, i)
  · rintro rfl
    exact opcode_mem_opcodeMap i

theorem decode_ok_iff_mem_opcodeMap (w : Word) (i : Instr) :
    decode w = .ok i ↔ w.extractLsb' 8 24 = 0 ∧ ((w.extractLsb' 0 8).toNat, i) ∈ opcodeMap := by
  rw [decode_ok_iff, mem_opcodeMap_iff]

/-- R92: a word with a bit of RSV set, or with an OPC in no row of the map, is no command. -/
theorem decode_illegal {w : Word}
    (h : w.extractLsb' 8 24 ≠ 0 ∨ (w.extractLsb' 0 8).toNat ∉ opcodeMap.map Prod.fst) :
    ∃ e, decode w = .error e := by
  cases hd : decode w with
  | error e => exact ⟨e, rfl⟩
  | ok i =>
    obtain ⟨hrsv, hopc⟩ := (decode_ok_iff_mem_opcodeMap w i).mp hd
    rcases h with h | h
    · exact absurd hrsv h
    · exact absurd (List.mem_map_of_mem (f := Prod.fst) hopc) h

/-- Settles O1: the rows that the statement writes out are `opcodeMap`. -/
theorem decodeFollowsTheOpcodeMap : Obligations.DecodeFollowsTheOpcodeMap := by
  unfold Obligations.DecodeFollowsTheOpcodeMap
  exact decode_ok_iff_mem_opcodeMap

end Sys2Proof
end

section
/-! An illegal word (R92): the CMD write that starts it and the turn that ends it as E_ILLCMD. -/

namespace Sys2Proof.Machine

/-! ### The CMD write -/

/-- R25: a step that is a CMD write to the idle engine. -/
theorem step_cmdWrite {s : State} {w : Word} {rest : List Event} (hi : s.inflight = none)
    (hh : s.host = .access (.write 0x004 4 w) :: rest) :
    step s = ofBusResult (cmdWrite (s.tick.withReply .written) w) := by
  have ho : ¬ 0x80000 ≤ 4 := by decide
  have ha : acceptedAccess 4 4 = true := by decide
  have hb : s.tick.busy = false := (not_busy_iff s.tick).mpr hi
  rw [step_access hh]
  simp only [busAccess, if_neg ho, if_pos ha, hb, Bool.false_eq_true, if_false, cmdOffset, if_true]

/-- R27 (a), R287: without a recorded fault, every word but CLR and SRST starts a command. -/
theorem cmdWrite_start {s : State} {w : Word} (hd : (decode w).toOption.filter immediate = none)
    (hf : s.status.fault = false) : cmdWrite s w = .done (s.start w) := by
  simp only [cmdWrite, hd, hf, Bool.false_eq_true, if_false]

/-! ### The engine's turn -/

/-- R27 (b): the engine's turn with a word in flight completes that word. -/
theorem step_turn {s : State} {w : Word} {rest : List Event} (hh : s.host = .engine :: rest)
    (hw : s.inflight = some w) : step s = runWord w s.tick := by
  simp only [step_eq, hh, engineTurn, State.tick_inflight, hw]

theorem runWord_illegal {w : Word} {e : DecodeError} (hd : decode w = .error e) (s : State) :
    runWord w s = .next (s.illegalCommand w) := by
  simp only [runWord, hd]

/-- R92, R300, R304: the fault is E_ILLCMD, number 8, with FINFO the word and OP its low byte; of the word in flight it
leaves nothing. -/
theorem faulted_illegalCommand (s : State) (inflight : Option Word) (w : Word) :
    Faulted s ({ s with inflight := inflight }.illegalCommand w) (w.extractLsb' 0 8) 8 w :=
  faulted_takeFault s (w.extractLsb' 0 8) { code := .eIllCmd, info := w }

/-! ### The two steps together -/

/-- The state in which the engine's turn finds the word `w` that the access before it started. -/
theorem started_tick {s : State} {a : HostAccess} {rest : List Event} (hh : s.host = .access a :: .engine :: rest)
    (w : Word) :
    ((s.tick.withReply .written).start w).tick =
      { s with
        inflight := some w, status := { s.status with done := false }, host := rest, reply := .idle,
        draws := s.draws + 2 } := by
  rw [tick_eq hh]
  rfl

/-- Settles O6: the first step is the start, and the second is `State.illegalCommand`. -/
theorem illegalWordFaults : Obligations.IllegalWordFaults := by
  unfold Obligations.IllegalWordFaults
  intro s w rest hw hi hf hh
  obtain ⟨e, hd⟩ := decode_illegal hw
  have hstart : step s = .next ((s.tick.withReply .written).start w) := by
    have hfilter : (decode w).toOption.filter immediate = none := by rw [hd]; rfl
    have hcmd := cmdWrite_start (s := s.tick.withReply .written) hfilter hf
    rw [step_cmdWrite hi hh, hcmd]
    rfl
  have hturn : step ((s.tick.withReply .written).start w) =
      .next (((s.tick.withReply .written).start w).tick.illegalCommand w) := by
    rw [step_turn (rest := rest) (by simp [hh]) (State.start_inflight _ w), runWord_illegal hd]
  refine ⟨_, _, hstart, State.start_inflight _ w, hturn, ?_⟩
  rw [started_tick hh w]
  exact faulted_illegalCommand _ (some w) w

end Sys2Proof.Machine
end

section
/-! The image operands (R163): the first failing test is the fault of CT.FWD and of ENCODE. -/

namespace Sys2Proof.Machine

/-- R163, R251: CT.FWD and ENCODE begin with the image tests, in any phase, and end in the first one that fails. -/
theorem exec_image_fault {i : Instr} (hi : i = .ctFwd ∨ i = .encode) {s : State} {f : EngineFault}
    (hc : checkImage s = some f) :
    ∃ t, exec i s = .next t ∧ Faulted s t i.opcode f.code.number.toNat f.info := by
  rcases hi with rfl | rfl
  · exact exec_fault .ctFwd rfl rfl hc
  · exact exec_fault .encode rfl rfl (checkEncode_image hc)

/-- Settles O11: each clause is one of the image tests failing after the ones before it passed. -/
theorem imageOperandFaults : Obligations.ImageOperandFaults := by
  unfold Obligations.ImageOperandFaults
  intro i s hi
  refine ⟨fun hw => ?_, fun hw1 hw2 hh => ?_, fun hw1 hw2 hh1 hh2 hlen => ?_⟩
  · exact exec_image_fault hi (checkImage_w hw)
  · exact exec_image_fault hi (checkImage_h (by omega) hh)
  · exact exec_image_fault hi (checkImage_len (by omega) (by omega) hlen)

end Sys2Proof.Machine
end

section
/-! CT.FWD on a valid image (R160, R164 to R166): the sums, the average colour and the samples, pixel by pixel. -/

namespace Sys2Proof.Machine

/-! ### A started command that succeeds -/

/-- R27 (b): a command that its phase accepts and whose own tests pass completes its writes. -/
theorem exec_success (i : Instr) {s : State} (hi : immediate i = false) (ha : accepts i s.status.phase = true)
    (hc : checkOf i s = none) : exec i s = .next (effectOf i s).complete :=
  (exec_eq_runCommand i s hi).trans (runCommand_success i ha hc)

/-- Completing after writes of a known frame. -/
theorem Frame.completed {s t : State} {w : List Reg} {b : Nat → Prop} (f : Frame s t w b) :
    Completed s t.complete t.status.phase w b where
  idle := rfl
  done := rfl
  phase := rfl
  frame := f.trans (Frame.complete t) (fun _ h => h) (by simp) (fun _ h => h) noBytes_elim

/-! ### The sums (R164) -/

theorem num_zero : num.zero = 0x00000000 := by decide

/-- R143, R164: the sum of `f` over the pixels 0 .. n-1, in row-major order from +0.0. -/
def pixelSum (n : Nat) (f : Nat → Word) : Word :=
  (List.range n).foldl (fun acc i => num.fadd acc (f i)) 0x00000000

/-- `alpha(i)` of R164 for pixel i of PIXIN. -/
def State.alphaAt (s : State) (i : Nat) : Word := alphaOf num (s.pixin (4 * i + 3))

/-- `pm(X, i)` of R164 for the component `k` of pixel i of PIXIN: 0 is R, 1 is G, 2 is B. -/
def State.premultipliedAt (s : State) (k i : Nat) : Word :=
  premultiplied num (s.pixin (4 * i + k)) (s.pixin (4 * i + 3))

/-- The four sums run side by side over the pixels, and none reads another. -/
theorem foldl_addPixel {F : Type} (N : Numerics F) (px : List Pixel) (t : ColorSums F) :
    px.foldl (addPixel N) t =
      { sr := px.foldl (fun acc p => N.fadd acc (premultiplied N p.r p.a)) t.sr
        sg := px.foldl (fun acc p => N.fadd acc (premultiplied N p.g p.a)) t.sg
        sb := px.foldl (fun acc p => N.fadd acc (premultiplied N p.b p.a)) t.sb
        sa := px.foldl (fun acc p => N.fadd acc (alphaOf N p.a)) t.sa } := by
  induction px generalizing t with
  | nil => rfl
  | cons p px ih => exact ih (addPixel N t p)

/-- R164: the sums over the image, each on its own. -/
theorem State.imageSums_eq (s : State) :
    s.imageSums =
      { sr := pixelSum (s.nat .imgW * s.nat .imgH) (s.premultipliedAt 0)
        sg := pixelSum (s.nat .imgW * s.nat .imgH) (s.premultipliedAt 1)
        sb := pixelSum (s.nat .imgW * s.nat .imgH) (s.premultipliedAt 2)
        sa := pixelSum (s.nat .imgW * s.nat .imgH) s.alphaAt } := by
  rw [State.imageSums, colorSums, foldl_addPixel, num_zero]
  simp only [State.image, State.pixels, List.foldl_map]
  rfl

/-! ### The average colour and the samples (R164, R166) -/

/-- R164: the component `k` of the average colour, 0 where the total alpha is not above 0. -/
def State.backgroundAt (s : State) (k : Nat) : Word :=
  if num.fgt (pixelSum (s.nat .imgW * s.nat .imgH) s.alphaAt) 0x00000000 = true then
    num.fdiv (pixelSum (s.nat .imgW * s.nat .imgH) (s.premultipliedAt k))
      (pixelSum (s.nat .imgW * s.nat .imgH) s.alphaAt)
  else 0x00000000

theorem State.background_eq (s : State) :
    s.background = { r := s.backgroundAt 0, g := s.backgroundAt 1, b := s.backgroundAt 2 } := by
  simp only [State.background, averageColor, State.backgroundAt, s.imageSums_eq, num_zero]
  by_cases hsum : num.fgt (pixelSum (s.nat .imgW * s.nat .imgH) s.alphaAt) 0x00000000 = true
  · simp only [if_pos hsum]
  · simp only [if_neg hsum]

/-- R166: the component `k` of pixel i composited over the average colour. -/
def State.compositeAt (s : State) (k i : Nat) : Word :=
  composite num (s.backgroundAt k) (s.pixin (4 * i + k)) (s.pixin (4 * i + 3))

/-- R166: the sample of pixel i of the image. -/
theorem State.lpqaOfPixel_background (s : State) (i : Nat) :
    lpqaOfPixel num s.background (s.pixel i) =
      lpqOfRgb num { r := s.compositeAt 0 i, g := s.compositeAt 1 i, b := s.compositeAt 2 i } (s.alphaAt i) := by
  rw [s.background_eq]
  rfl

/-- R166: the l, p, q formulas, channel by channel. -/
theorem lpqOfRgb_get {F : Type} (N : Numerics F) (r g b a : F) :
    (lpqOfRgb N { r := r, g := g, b := b } a).get .L = N.fdiv (N.fadd (N.fadd r g) b) (N.lit 3 1) ∧
      (lpqOfRgb N { r := r, g := g, b := b } a).get .P = N.fsub (N.fdiv (N.fadd r g) (N.lit 2 1)) b ∧
      (lpqOfRgb N { r := r, g := g, b := b } a).get .Q = N.fsub r g ∧
      (lpqOfRgb N { r := r, g := g, b := b } a).get .A = a := ⟨rfl, rfl, rfl, rfl⟩

/-! ### The completion -/

/-- R160: CT.FWD on a valid image succeeds, in any phase. -/
theorem exec_ctFwd {s : State} (h : ImageValid s) : exec .ctFwd s = .next (ctFwdEffect s).complete :=
  exec_success .ctFwd rfl rfl (checkImage_none h)

/-- R49, R166: the cell i of each plane after CT.FWD on a valid image. -/
theorem ctFwdEffect_complete_plane {s : State} (h : ImageValid s) (c : Channel) {i : Nat}
    (hi : i < s.nat .imgW * s.nat .imgH) :
    (ctFwdEffect s).complete.plane c i =
      (lpqOfRgb num { r := s.compositeAt 0 i, g := s.compositeAt 1 i, b := s.compositeAt 2 i } (s.alphaAt i)).get c := by
  obtain ⟨-, hw, -, hh, -⟩ := h
  have hcells : s.nat .imgW * s.nat .imgH ≤ 100 * 100 := Nat.mul_le_mul hw hh
  rw [State.complete_plane, ctFwdEffect_plane s c hi (by omega), s.lpqaOfPixel_background]

/-- R165: HAS_ALPHA is 1 exactly when some pixel has A < 255. -/
theorem ctFwdEffect_hasAlpha {s : State} {ha : Bool}
    (h : ha = true ↔ ∃ i < s.nat .imgW * s.nat .imgH, (s.pixin (4 * i + 3)).toNat < 255) :
    (ctFwdEffect s).reg .hasAlpha = boolWord ha := by
  rw [ctFwdEffect_reg s (.hasAlpha, boolWord (anyTransparent s.image)) (by simp), image_transparent h]

/-- Settles O33: the formulas that the statement writes out are those named above, component by component. -/
theorem ctFwdCompletes : Obligations.CtFwdCompletes := by
  unfold Obligations.CtFwdCompletes
  intro s h n alpha pm sum sa bg rgb
  have halpha : alpha = s.alphaAt := rfl
  have hsa : sa = pixelSum n s.alphaAt := rfl
  have hbg : bg = s.backgroundAt := rfl
  have hrgb : rgb = s.compositeAt := rfl
  -- from here on the formulas are opaque names, so that no comparison of terms evaluates binary32
  clear_value rgb bg sa sum pm alpha
  rw [halpha, hsa, hbg, hrgb]
  have hreg := ctFwdEffect_reg s
  simp only [List.forall_mem_cons, s.background_eq, s.imageSums_eq] at hreg
  obtain ⟨hplW, hplH, -, hbgR, hbgG, hbgB, hsum, -⟩ := hreg
  refine ⟨_, exec_ctFwd h, (Frame.ctFwdEffect s).completed, hplW, hplH, hbgR, hbgG, hbgB, hsum, fun hex => ?_,
    fun hall => ?_, fun i hi => ?_⟩
  · exact ctFwdEffect_hasAlpha (ha := true) (iff_of_true rfl hex)
  · refine ctFwdEffect_hasAlpha (ha := false) (iff_of_false Bool.false_ne_true ?_)
    rintro ⟨i, hi, hlt⟩
    exact absurd (hall i hi) (by omega)
  · have hplane := fun c => ctFwdEffect_complete_plane h c hi
    obtain ⟨hl, hp, hq, ha⟩ :=
      lpqOfRgb_get num (s.compositeAt 0 i) (s.compositeAt 1 i) (s.compositeAt 2 i) (s.alphaAt i)
    exact ⟨(hplane .L).trans hl, (hplane .P).trans hp, (hplane .Q).trans hq, (hplane .A).trans ha⟩

end Sys2Proof.Machine
end

section
/-! The scan list (R180, R181) row by row, and the two commands that report it (R186, R187). -/

namespace Sys2Proof.Machine

/-! ### One row (R181) -/

/-- R181: the pairs of row cy with (0, 0) among them, ceil(nx*(ny-cy)/ny). -/
def rowCeil (nx ny cy : Nat) : Nat := (nx * (ny - cy) + (ny - 1)) / ny

/-- R180: the first cx of a row; row 0 leaves out (0, 0). -/
def rowStart (cy : Nat) : Nat := if cy = 0 then 1 else 0

/-- The triangle's inequality bounds cx by the ceiling. -/
theorem mul_lt_iff_lt_rowCeil {nx ny cx cy : Nat} (hny : 0 < ny) :
    cx * ny < nx * (ny - cy) ↔ cx < rowCeil nx ny cy := by
  rw [rowCeil, Nat.lt_iff_add_one_le (m := cx), Nat.le_div_iff_mul_le hny, Nat.succ_mul]
  omega

/-- The bound that `scanRow` puts on cx cuts no row short. -/
theorem rowCeil_le {nx ny : Nat} (hny : 0 < ny) (cy : Nat) : rowCeil nx ny cy ≤ nx := by
  by_contra hlt
  have htri := (mul_lt_iff_lt_rowCeil hny).mpr (not_le.mp hlt)
  have hrow : nx * (ny - cy) ≤ nx * ny := Nat.mul_le_mul_left nx (Nat.sub_le ny cy)
  omega

theorem rowCeil_zero {nx ny : Nat} (hny : 0 < ny) : rowCeil nx ny 0 = nx := by
  rw [rowCeil, Nat.sub_zero, Nat.mul_comm, Nat.mul_add_div hny, Nat.div_eq_of_lt (by omega), Nat.add_zero]

/-- Of consecutive numbers, those below a bound are the first ones. -/
theorem takeWhile_lt_range' (k a n : Nat) :
    (List.range' a n).takeWhile (fun x => decide (x < k)) = List.range' a (min n (k - a)) := by
  induction n generalizing a with
  | zero => simp
  | succ n ih =>
    rw [List.range'_succ, List.takeWhile_cons]
    by_cases h : a < k
    · rw [if_pos (decide_eq_true h), ih, show min (n + 1) (k - a) = min n (k - (a + 1)) + 1 by omega, List.range'_succ]
    · rw [if_neg (by simpa using h), show min (n + 1) (k - a) = 0 by omega, List.range'_zero]

/-- R180: a row is the pairs from its first cx to below the ceiling. -/
theorem scanRow_eq {ny : Nat} (hny : 0 < ny) (nx cy : Nat) :
    scanRow nx ny cy =
      (List.range' (rowStart cy) (rowCeil nx ny cy - rowStart cy)).map (fun cx => (cx, cy)) := by
  have hle : rowCeil nx ny cy ≤ nx := rowCeil_le hny cy
  simp only [scanRow, rowStart, mul_lt_iff_lt_rowCeil hny, List.range_eq_range', List.drop_range']
  rw [takeWhile_lt_range']
  congr 2 <;> omega

theorem scanRow_length {ny : Nat} (hny : 0 < ny) (nx cy : Nat) :
    (scanRow nx ny cy).length = rowCeil nx ny cy - rowStart cy := by
  rw [scanRow_eq hny, List.length_map, List.length_range']

theorem mem_scanRow_iff {nx ny cx cy k : Nat} (hny : 0 < ny) :
    (cx, cy) ∈ scanRow nx ny k ↔ cy = k ∧ rowStart cy ≤ cx ∧ cx * ny < nx * (ny - cy) := by
  rw [scanRow_eq hny, List.mem_map, mul_lt_iff_lt_rowCeil hny]
  constructor
  · rintro ⟨x, hx, heq⟩
    obtain ⟨rfl, rfl⟩ := Prod.mk.inj heq
    have := List.mem_range'_1.mp hx
    exact ⟨rfl, by omega, by omega⟩
  · rintro ⟨rfl, hstart, hceil⟩
    exact ⟨cx, List.mem_range'_1.mpr ⟨hstart, by omega⟩, rfl⟩

/-- In a row cx rises. -/
theorem scanRow_pairwise {ny : Nat} (hny : 0 < ny) (nx cy : Nat) :
    (scanRow nx ny cy).Pairwise (fun a b => a.2 = b.2 ∧ a.1 < b.1) := by
  rw [scanRow_eq hny, List.pairwise_map]
  exact (List.pairwise_lt_range' _).imp fun h => ⟨rfl, h⟩

/-! ### The scan list (R180) -/

theorem rowStart_le_iff (cx cy : Nat) : rowStart cy ≤ cx ↔ (cx, cy) ≠ (0, 0) := by
  rw [rowStart, ne_eq, Prod.mk.injEq]
  split <;> omega

/-- R180: the triangle without (0, 0). -/
theorem mem_scan_iff {nx ny : Nat} (hny : 0 < ny) (cx cy : Nat) :
    (cx, cy) ∈ scan nx ny ↔ (cx, cy) ≠ (0, 0) ∧ cy < ny ∧ cx * ny < nx * (ny - cy) := by
  simp only [scan, List.mem_flatMap, List.mem_range, mem_scanRow_iff hny, rowStart_le_iff]
  constructor
  · rintro ⟨k, hk, rfl, hne, htri⟩
    exact ⟨hne, hk, htri⟩
  · rintro ⟨hne, hcy, htri⟩
    exact ⟨cy, hcy, rfl, hne, htri⟩

/-- The pairs of a scan list are below the sides of its grid. -/
theorem scan_bounds {nx ny cx cy : Nat} (hny : 0 < ny) (h : (cx, cy) ∈ scan nx ny) : cx < nx ∧ cy < ny := by
  obtain ⟨-, hcy, htri⟩ := (mem_scan_iff hny cx cy).mp h
  exact ⟨((mul_lt_iff_lt_rowCeil hny).mp htri).trans_le (rowCeil_le hny cy), hcy⟩

/-- R180: row after row, in a row with rising cx. -/
theorem scan_pairwise {ny : Nat} (hny : 0 < ny) (nx : Nat) :
    (scan nx ny).Pairwise (fun a b => a.2 < b.2 ∨ (a.2 = b.2 ∧ a.1 < b.1)) := by
  rw [scan, List.pairwise_flatMap]
  refine ⟨fun cy _ => (scanRow_pairwise hny nx cy).imp .inr, List.pairwise_lt_range.imp fun {j k} hjk => ?_⟩
  rintro ⟨x, y⟩ ha ⟨x', y'⟩ hb
  obtain ⟨rfl, -⟩ := (mem_scanRow_iff hny).mp ha
  obtain ⟨rfl, -⟩ := (mem_scanRow_iff hny).mp hb
  exact .inl hjk

/-- Settles O53: both parts hold row by row. -/
theorem scanListIsTheTriangle : Obligations.ScanListIsTheTriangle := by
  unfold Obligations.ScanListIsTheTriangle
  intro nx ny _ hny
  exact ⟨mem_scan_iff hny, scan_pairwise hny nx⟩

/-! ### The count (R181) -/

/-- R181: the sum of the ceilings counts the list and the pair (0, 0) that row 0 leaves out. -/
theorem scan_length_add_one {nx ny : Nat} (hnx : 0 < nx) (hny : 0 < ny) :
    (scan nx ny).length + 1 = ((List.range ny).map (rowCeil nx ny)).sum := by
  simp only [scan, List.length_flatMap, scanRow_length hny]
  obtain ⟨m, rfl⟩ : ∃ m, ny = m + 1 := ⟨ny - 1, by omega⟩
  have hrest : ∀ cy, rowCeil nx (m + 1) (cy + 1) - rowStart (cy + 1) = rowCeil nx (m + 1) (cy + 1) := fun _ => rfl
  have hfirst : rowStart 0 = 1 := rfl
  simp only [List.range_succ_eq_map, List.map_cons, List.map_map, List.sum_cons, Function.comp_def,
    Nat.succ_eq_add_one, hrest, hfirst, rowCeil_zero hny]
  omega

theorem scan_length_symm : ∀ nx ≤ 7, ∀ ny ≤ 7, (scan nx ny).length = (scan ny nx).length := by decide

/-- Settles O54: the sum for every grid; the grids up to 7 by 7 one by one. -/
theorem scanCountFormula : Obligations.ScanCountFormula := by
  unfold Obligations.ScanCountFormula
  refine ⟨fun nx ny hnx hny => scan_length_add_one hnx hny, fun nx hnx ny hny => ?_, by decide⟩
  exact ⟨scan_length_symm nx hnx ny hny, scanCount_bounds nx hnx ny hny⟩

/-! ### The tests of SCAN.CNT and SCAN.NTH (R186, R187) -/

/-- R186: the grid operands are valid. -/
def ScanGridValid (s : State) : Prop :=
  1 ≤ s.nat .scanNx ∧ s.nat .scanNx ≤ 7 ∧ 1 ≤ s.nat .scanNy ∧ s.nat .scanNy ≤ 7

theorem checkScanGrid_nx {s : State} (h : s.nat .scanNx < 1 ∨ 7 < s.nat .scanNx) :
    checkScanGrid s = some { code := .eOperand, info := 0x038 } := by
  simp only [checkScanGrid, if_pos h]

theorem checkScanGrid_ny {s : State} (hx : ¬ (s.nat .scanNx < 1 ∨ 7 < s.nat .scanNx))
    (hy : s.nat .scanNy < 1 ∨ 7 < s.nat .scanNy) :
    checkScanGrid s = some { code := .eOperand, info := 0x03C } := by
  simp only [checkScanGrid, if_neg hx, if_pos hy]

theorem checkScanGrid_none {s : State} (h : ScanGridValid s) : checkScanGrid s = none := by
  obtain ⟨hx1, hx7, hy1, hy7⟩ := h
  simp only [checkScanGrid, if_neg (show ¬ (s.nat .scanNx < 1 ∨ 7 < s.nat .scanNx) by omega),
    if_neg (show ¬ (s.nat .scanNy < 1 ∨ 7 < s.nat .scanNy) by omega)]

theorem checkScanIndex_grid {s : State} {f : EngineFault} (h : checkScanGrid s = some f) :
    checkScanIndex s = some f := by
  simp only [checkScanIndex, h]

theorem checkScanIndex_past {s : State} (h : ScanGridValid s)
    (hidx : scanCount (s.nat .scanNx) (s.nat .scanNy) ≤ s.nat .scanIdx) :
    checkScanIndex s = some { code := .eOperand, info := 0x040 } := by
  simp only [checkScanIndex, checkScanGrid_none h, if_pos hidx]

theorem checkScanIndex_none {s : State} (h : ScanGridValid s)
    (hidx : ¬ scanCount (s.nat .scanNx) (s.nat .scanNy) ≤ s.nat .scanIdx) : checkScanIndex s = none := by
  simp only [checkScanIndex, checkScanGrid_none h, if_neg hidx]

/-- R186, R187: both commands begin with the grid tests, in any phase, and end in the first one that fails. -/
theorem exec_scanGrid_fault {i : Instr} (hi : i = .scanCnt ∨ i = .scanNth) {s : State} {f : EngineFault}
    (hc : checkScanGrid s = some f) :
    ∃ t, exec i s = .next t ∧ Faulted s t i.opcode f.code.number.toNat f.info := by
  rcases hi with rfl | rfl
  · exact exec_fault .scanCnt rfl rfl hc
  · exact exec_fault .scanNth rfl rfl (checkScanIndex_grid hc)

/-! ### The results (R186, R187) -/

/-- The count of a valid grid fits its register. -/
theorem scanCount_word {s : State} (h : ScanGridValid s) :
    (natWord (scanCount (s.nat .scanNx) (s.nat .scanNy))).toNat = scanCount (s.nat .scanNx) (s.nat .scanNy) := by
  obtain ⟨-, hx7, -, hy7⟩ := h
  have hbound := scanCount_bounds _ hx7 _ hy7
  exact natWord_toNat (by omega)

theorem scanCntEffect_nat {s : State} (h : ScanGridValid s) :
    (scanCntEffect s).nat .scanCnt = scanCount (s.nat .scanNx) (s.nat .scanNy) := by
  rw [State.nat, scanCntEffect, State.reg_setReg_same, scanCount_word h]

/-- R187: the count and the pair at SCAN_IDX, as the registers read after SCAN.NTH. -/
theorem scanNthEffect_nat {s : State} (h : ScanGridValid s) {cx cy : Nat}
    (hget : (scan (s.nat .scanNx) (s.nat .scanNy))[s.nat .scanIdx]? = some (cx, cy)) :
    (scanNthEffect s).nat .scanCnt = scanCount (s.nat .scanNx) (s.nat .scanNy) ∧
      (scanNthEffect s).nat .scanCx = cx ∧ (scanNthEffect s).nat .scanCy = cy := by
  have hcount := scanCount_word h
  obtain ⟨-, hx7, hy1, hy7⟩ := h
  obtain ⟨hcx, hcy⟩ := scan_bounds hy1 (List.mem_of_getElem? hget)
  have hentry : s.scanEntry = (cx, cy) := by rw [State.scanEntry, List.getD_eq_getElem?_getD, hget]; rfl
  obtain ⟨rcnt, rcx, rcy⟩ := scanNthEffect_reg s
  rw [hentry] at rcx rcy
  exact ⟨(congrArg BitVec.toNat rcnt).trans hcount, (congrArg BitVec.toNat rcx).trans (natWord_toNat (by omega)),
    (congrArg BitVec.toNat rcy).trans (natWord_toNat (by omega))⟩

/-- Settles O42: each fault clause is a grid test failing after the one before it passed. -/
theorem scanCntCompletes : Obligations.ScanCntCompletes := by
  unfold Obligations.ScanCntCompletes
  refine fun s => ⟨fun hx => ?_, fun hx1 hx7 hy => ?_, fun hx1 hx7 hy1 hy7 => ?_⟩
  · exact exec_scanGrid_fault (.inl rfl) (checkScanGrid_nx hx)
  · exact exec_scanGrid_fault (.inl rfl) (checkScanGrid_ny (by omega) hy)
  · have hgrid : ScanGridValid s := ⟨hx1, hx7, hy1, hy7⟩
    exact ⟨_, exec_success .scanCnt rfl rfl (checkScanGrid_none hgrid), (Frame.scanCntEffect s).completed,
      scanCntEffect_nat hgrid⟩

/-- Settles O43: the grid tests as for SCAN.CNT, then the index; an index that has an entry is below the count. -/
theorem scanNthCompletes : Obligations.ScanNthCompletes := by
  unfold Obligations.ScanNthCompletes
  refine fun s => ⟨fun hx => ?_, fun hx1 hx7 hy => ?_, fun hx1 hx7 hy1 hy7 hidx => ?_,
    fun cx cy hx1 hx7 hy1 hy7 hget => ?_⟩
  · exact exec_scanGrid_fault (.inr rfl) (checkScanGrid_nx hx)
  · exact exec_scanGrid_fault (.inr rfl) (checkScanGrid_ny (by omega) hy)
  · exact exec_fault .scanNth rfl rfl (checkScanIndex_past ⟨hx1, hx7, hy1, hy7⟩ hidx)
  · have hgrid : ScanGridValid s := ⟨hx1, hx7, hy1, hy7⟩
    obtain ⟨hlt, -⟩ := List.getElem?_eq_some_iff.mp hget
    have hphase : (scanNthEffect s).status.phase = s.status.phase := effectOf_phase .scanNth s (by decide)
    exact ⟨_, exec_success .scanNth rfl rfl (checkScanIndex_none hgrid (not_le.mpr hlt)),
      hphase ▸ (Frame.scanNthEffect s).completed, scanNthEffect_nat hgrid hget⟩

end Sys2Proof.Machine
end

section
/-! What a write to CMD does, by state (R287): the CMD write of each row, and the engine's turn that completes a start. -/

namespace Sys2Proof.Machine

/-! ### The rows of the CMD write -/

/-- The state on which a CMD write acts: the event is used up and answered. -/
theorem tick_written {s : State} {e : Event} {rest : List Event} (hh : s.host = e :: rest) :
    s.tick.withReply .written = { s with host := rest, reply := .written, draws := s.draws + 1 } := by
  rw [tick_eq hh]
  rfl

/-- R25, R72: a CMD write to the busy engine is dropped and sets OVR, whatever its word. -/
theorem step_cmdWrite_busy {s : State} {w : Word} {rest : List Event} (hi : s.inflight ≠ none)
    (hh : s.host = .access (.write 0x004 4 w) :: rest) :
    step s = .next (s.tick.withReply .written).setOvr := by
  have ho : ¬ 0x80000 ≤ 4 := by decide
  have ha : acceptedAccess 4 4 = true := by decide
  have hb : s.tick.busy = true := Bool.ne_false_iff.mp (mt (not_busy_iff s).mp hi)
  rw [step_access hh]
  simp only [busAccess, if_neg ho, if_pos ha, hb, if_true]
  rfl

/-- R27 (d): the idle engine runs CLR and SRST in the step of the CMD write, with and without a recorded fault. -/
theorem cmdWrite_immediate {w : Word} {i : Instr} (hd : decode w = .ok i) (hi : immediate i = true) (s : State) :
    cmdWrite s w = .run i s := by
  have hfilter : (decode w).toOption.filter immediate = some i := by simp [hd, Except.toOption, hi]
  simp only [cmdWrite, hfilter]

/-- R25, R306: with a recorded fault, every word but CLR and SRST is ignored and sets OVR. -/
theorem cmdWrite_overrun {s : State} {w : Word} (hd : (decode w).toOption.filter immediate = none)
    (hf : s.status.fault = true) : cmdWrite s w = .done s.setOvr := by
  simp only [cmdWrite, hd, hf, if_true]

/-! ### The engine's turn -/

theorem runWord_legal {w : Word} {i : Instr} (hd : decode w = .ok i) (s : State) : runWord w s = exec i s := by
  simp only [runWord, hd]

/-- R303: E_SEQ is the phase test's code and E_ILLCMD the decoder's; no test of a command's own has either. -/
theorem checkOf_code_ne {i : Instr} {s : State} {f : EngineFault} (h : checkOf i s = some f) :
    f.code.number.toNat ≠ 7 ∧ f.code.number.toNat ≠ 8 := by
  refine (?_ : ∀ row ∈ _, row.1 ≠ 7 ∧ row.1 ≠ 8) _ (checkOf_code h)
  decide

/-- R308: a started command out of its phases ends in E_SEQ, whose FINFO is the phase. -/
theorem exec_outOfPhase {i : Instr} {s t : State} (hi : immediate i = false) (ha : accepts i s.status.phase = false)
    (h : exec i s = .next t) : Faulted s t i.opcode 7 (s.status.phase.code.setWidth 32) := by
  rcases exec_cases hi h with ⟨-, hfaulted⟩ | ⟨ha', -⟩ | ⟨ha', -⟩
  · exact hfaulted
  · exact absurd (ha.symm.trans ha') Bool.false_ne_true
  · exact absurd (ha.symm.trans ha') Bool.false_ne_true

/-- R27 (b), R300: a started command in phase ends its run, by success or by a fault of its own tests. -/
theorem exec_inPhase {i : Instr} {s t : State} (hi : immediate i = false) (ha : accepts i s.status.phase = true)
    (hf : s.status.fault = false) (h : exec i s = .next t) :
    t.inflight = none ∧
      ((t.status.done = true ∧ t.status.fault = false) ∨
        ∃ code info, code ≠ 7 ∧ code ≠ 8 ∧ Faulted s t i.opcode code info) := by
  rcases exec_cases hi h with ⟨ha', -⟩ | ⟨-, f, hc, rfl⟩ | ⟨-, -, rfl⟩
  · exact absurd (ha'.symm.trans ha) Bool.false_ne_true
  · obtain ⟨hseq, hill⟩ := checkOf_code_ne hc
    have hfaulted := faulted_takeFault s i.opcode f
    exact ⟨hfaulted.idle, .inr ⟨_, _, hseq, hill, hfaulted⟩⟩
  · obtain ⟨hidle, hdone, hfault, -⟩ := success_flags i s
    exact ⟨hidle, .inl ⟨hdone, hfault.trans hf⟩⟩

/-- Settles O5: the first five rows are those of `cmdWrite` and of the busy engine, the last three the ends of
`runWord`. -/
theorem cmdWriteByState : Obligations.CmdWriteByState := by
  unfold Obligations.CmdWriteByState
  refine ⟨fun s w rest hh => ?_, fun s w rest hh hw h1 h2 _ hf => ?_⟩
  · rw [← tick_written hh]
    refine ⟨fun hi => ?_, fun hi hclr => ?_, fun hi hsrst => ?_, fun hi h1 h2 hf => ?_, fun hi h1 h2 hf => ?_⟩
    · exact step_cmdWrite_busy hi hh
    · rw [step_cmdWrite hi hh, cmdWrite_immediate ((decode_clr_iff w).mpr hclr) rfl]
      rfl
    · rw [step_cmdWrite hi hh, cmdWrite_immediate ((decode_srst_iff w).mpr hsrst) rfl]
      rfl
    · have hcmd := cmdWrite_overrun (s := s.tick.withReply .written) (decode_filter_none h1 h2) hf
      rw [step_cmdWrite hi hh, hcmd]
      rfl
    · have hcmd := cmdWrite_start (s := s.tick.withReply .written) (decode_filter_none h1 h2) hf
      rw [step_cmdWrite hi hh, hcmd]
      rfl
  · rw [← tick_eq hh, step_turn hh hw]
    obtain ⟨t, ht⟩ := runWord_next w s.tick
    have hexec : ∀ i, decode w = .ok i → exec i s.tick = .next t := fun i hd => runWord_legal hd s.tick ▸ ht
    refine ⟨t, ht, fun e hd => ?_, fun i hd ha => ?_, fun i hd ha => ?_⟩
    · cases (runWord_illegal hd s.tick).symm.trans ht
      exact faulted_illegalCommand s.tick s.tick.inflight w
    · exact exec_outOfPhase (decode_not_immediate h1 h2 hd) ha (hexec i hd)
    · exact exec_inPhase (decode_not_immediate h1 h2 hd) ha hf (hexec i hd)

end Sys2Proof.Machine
end

section
/-! The phase table (R308): what a command does in a phase it is accepted in and in one it is not, and the rows. -/

namespace Sys2Proof.Machine

/-! ### A row of the table -/

/-- A row of R308, a command with the codes of its phases and the code of PHASE after success (none: unchanged), says what
the model does in the phase `p`. -/
def PhaseRowAgrees (row : Instr × List Nat × Option Nat) (p : Phase) : Prop :=
  (accepts row.1 p = true ↔ p.code.toNat ∈ row.2.1) ∧
    (phaseAfter row.1 p).code.toNat = row.2.2.getD p.code.toNat

/-- R300: FINFO of E_SEQ, the code of the phase as a word. -/
theorem Phase.code_setWidth (p : Phase) : p.code.setWidth 32 = BitVec.ofNat 32 p.code.toNat :=
  (BitVec.ofNat_toNat 32 p.code).symm

/-! ### Commands out of phase and in phase -/

/-- R308: CLR and SRST pass in every phase, so a command that does not pass is a started one. -/
theorem immediate_eq_false_of_not_accepts {i : Instr} {p : Phase} (ha : accepts i p = false) : immediate i = false := by
  cases hi : immediate i with
  | false => rfl
  | true => rcases (immediate_iff i).mp hi with rfl | rfl <;> cases ha

/-- R308: every command that passes the phase test either succeeds, and PHASE is `phaseAfter`, or ends in a fault other
than E_SEQ. -/
theorem exec_inPhase_phase {i : Instr} {s t : State} (ha : accepts i s.status.phase = true)
    (hf : s.status.fault = false) (h : exec i s = .next t) :
    (t.status.fault = false ∧ t.status.phase = phaseAfter i s.status.phase) ∨
      ∃ code info, code ≠ 7 ∧ Faulted s t i.opcode code info := by
  cases hi : immediate i with
  | true =>
    left
    rcases (immediate_iff i).mp hi with rfl | rfl
    · cases (exec_clr s).symm.trans h
      exact ⟨rfl, rfl⟩
    · cases (exec_srst s).symm.trans h
      exact ⟨rfl, rfl⟩
  | false =>
    rcases exec_cases hi h with ⟨ha', -⟩ | ⟨-, f, hc, rfl⟩ | ⟨-, -, rfl⟩
    · exact absurd (ha'.symm.trans ha) Bool.false_ne_true
    · obtain ⟨hseq, -⟩ := checkOf_code_ne hc
      exact .inr ⟨_, _, hseq, faulted_takeFault s i.opcode f⟩
    · obtain ⟨-, -, hfault, -⟩ := success_flags i s
      have hsrst : i ≠ .srst := fun e => absurd (e ▸ hi) (by decide)
      exact .inl ⟨hfault.trans hf, effectOf_phase i s hsrst⟩

/-! ### The table -/

/-- Settles O9: each row agrees with the phase test and with `phaseAfter`, phase by phase; what a command does out of phase
and in phase is then the same for every row. -/
theorem phaseTable : Obligations.PhaseTable := by
  unfold Obligations.PhaseTable
  intro row hrow s _ hf p
  have hagrees : PhaseRowAgrees row s.status.phase := by
    refine (?_ : ∀ q, ∀ row ∈ _, PhaseRowAgrees row q) s.status.phase row hrow
    unfold PhaseRowAgrees
    intro q
    cases q <;> decide
  obtain ⟨haccepts, hafter⟩ := hagrees
  obtain ⟨t, ht⟩ := exec_next row.1 s
  refine ⟨t, ht, fun hp => ?_, fun hp => ?_⟩
  · have ha : accepts row.1 s.status.phase = false := Bool.eq_false_iff.mpr (mt haccepts.mp hp)
    have hfaulted := exec_outOfPhase (immediate_eq_false_of_not_accepts ha) ha ht
    rwa [Phase.code_setWidth] at hfaulted
  · rcases exec_inPhase_phase (haccepts.mpr hp) hf ht with ⟨hfault, hphase⟩ | hfaulted
    · exact .inl ⟨hfault, hphase ▸ hafter⟩
    · exact .inr hfaulted

end Sys2Proof.Machine
end

section
/-! The interrupt line (R310): a function of DONE, FAULT and IE, and the steps that lower it. -/

namespace Sys2Proof.Machine

/-! ### The line -/

/-- R310: without DONE and FAULT the line is low, whatever IE. -/
theorem State.irq_of_not_done_not_fault {s : State} (hd : s.status.done = false) (hf : s.status.fault = false) :
    s.irq = false := by
  simp [State.irq, hd, hf]

/-- R310: with both enable bits clear the line is low, whatever STATUS. -/
theorem State.irq_of_ie_zero {s : State} (h : s.reg .ie = 0) : s.irq = false := by
  simp [State.irq, h]

/-- R305, R310: CLR and SRST clear DONE and FAULT. -/
theorem exec_system_irq {s t : State} (h : exec .clr s = .next t ∨ exec .srst s = .next t) : t.irq = false := by
  rcases h with h | h
  · cases (exec_clr s).symm.trans h
    exact State.irq_of_not_done_not_fault rfl rfl
  · cases (exec_srst s).symm.trans h
    exact State.irq_of_not_done_not_fault rfl rfl

/-- R27 (a), R310: a start clears DONE. -/
theorem State.start_irq {s : State} (hf : s.status.fault = false) (w : Word) : (s.start w).irq = false :=
  State.irq_of_not_done_not_fault rfl hf

/-! ### Writes to IE -/

/-- R29, R64: an idle write to IE keeps bits 1 and 2. -/
theorem idleWrite_ie (s : State) (v : Word) : s.idleWrite 0x00C 4 v = s.setReg .ie (v &&& 6) := by
  have hregion : regionOf 0x00C = .registers := regionOf_registers (by decide)
  have hrow : registerAt 0x00C = some (.stored .ie, .rw) := by decide
  simp only [State.idleWrite, hregion, hrow, State.writeRegister]

/-- R29: the bits that IE keeps are the enable bits. -/
theorem ie_mask_bits (v : Word) :
    (v &&& 6).getLsbD 1 = v.getLsbD 1 ∧ (v &&& 6).getLsbD 2 = v.getLsbD 2 := by
  have h1 : (6 : Word).getLsbD 1 = true := by decide
  have h2 : (6 : Word).getLsbD 2 = true := by decide
  simp only [BitVec.getLsbD_and, h1, h2, Bool.and_true, and_self]

/-- R310: after a write to IE the line is what STATUS and the written enable bits say. -/
theorem State.setReg_ie_irq (s : State) (v : Word) :
    (s.setReg .ie (v &&& 6)).irq = ((s.status.done && v.getLsbD 1) || (s.status.fault && v.getLsbD 2)) := by
  obtain ⟨hdone, hfault⟩ := ie_mask_bits v
  rw [State.irq, State.reg_setReg_same, hdone, hfault, State.setReg_status]

/-! ### The steps -/

/-- R27 (a), R310: the step that starts a command lowers the line. -/
theorem step_start_irq {s t : State} {w : Word} {rest : List Event} (hi : s.inflight = none)
    (hh : s.host = .access (.write 0x004 4 w) :: rest) (ht : step s = .next t) (hf : s.status.fault = false)
    (h1 : w ≠ 0x00000001) (h2 : w ≠ 0x00000002) : t.irq = false := by
  have hcmd := cmdWrite_start (s := s.tick.withReply .written) (decode_filter_none h1 h2) hf
  rw [step_cmdWrite hi hh, hcmd] at ht
  cases ht
  exact State.start_irq (s := s.tick.withReply .written) hf w

/-- R29, R310: the step that writes IE sets the line to what the new enable bits say. -/
theorem step_writeIe_irq {s t : State} {v : Word} {rest : List Event} (hi : s.inflight = none)
    (hh : s.host = .access (.write 0x00C 4 v) :: rest) (ht : step s = .next t) :
    t.irq = ((s.status.done && v.getLsbD 1) || (s.status.fault && v.getLsbD 2)) := by
  rw [step_idleWrite hi hh (by decide) (by decide) (by decide), idleWrite_ie] at ht
  cases ht
  exact s.tick.setReg_ie_irq v

/-- Settles O25: the line by its definition, then each way it falls. -/
theorem interruptLine : Obligations.InterruptLine := by
  unfold Obligations.InterruptLine
  refine ⟨fun s => ?_, fun s => State.irq_of_ie_zero, fun s t => exec_system_irq, fun s t off v rest hi hh ht => ?_⟩
  · obtain ⟨hdone, hfault⟩ := s.statusWord_bits
    rw [hdone, hfault, State.irq]
  · refine ⟨?_, ?_, ?_⟩
    · rintro rfl hf h1 h2
      exact step_start_irq hi hh ht hf h1 h2
    · rintro rfl
      exact step_writeIe_irq hi hh ht
    · rintro rfl hdone hfault
      rw [step_writeIe_irq hi hh ht, Bool.or_eq_false_iff, Bool.and_eq_false_imp, Bool.and_eq_false_imp]
      exact ⟨hdone, hfault⟩

end Sys2Proof.Machine
end

section
/-! The writers table (R49) over all effects, and what a step can do to FAULT and to PHASE (R28, R305). -/

namespace Sys2Proof.Machine

/-! ### The registers an effect writes -/

/-- R49: every effect writes at most the registers of its row of the writers table. -/
theorem effectOf_writes (i : Instr) (s : State) : ∃ b, Frame s (effectOf i s) (writesOf i) b := by
  cases i with
  | clr => exact ⟨_, (Frame.refl s).mono (by simp) fun _ h => h⟩
  | srst => exact ⟨_, Frame.refl s⟩
  | ctFwd => exact ⟨_, Frame.ctFwdEffect s⟩
  | gridEnc => exact ⟨_, Frame.gridEncEffect s⟩
  | dctFwd => exact ⟨_, Frame.dctFwdEffect s⟩
  | pack => exact ⟨_, Frame.packEffect_writes s⟩
  | unpackHdr => exact ⟨_, Frame.unpackHdrEffect s⟩
  | gridDec => exact ⟨_, Frame.gridDecEffect s⟩
  | unpackAc => exact ⟨_, Frame.unpackAcEffect s⟩
  | dctInv => exact ⟨_, Frame.dctInvEffect s⟩
  | ctInv => exact ⟨_, Frame.ctInvEffect s⟩
  | scanCnt => exact ⟨_, Frame.scanCntEffect s⟩
  | scanNth => exact ⟨_, Frame.scanNthEffect s⟩
  | encode =>
    exact ⟨_, (((Frame.ctFwdEffect s).then (Frame.gridEncEffect _)).then (Frame.dctFwdEffect _)).then
      (Frame.packEffect_writes _)⟩
  | decode =>
    have f := ((((Frame.unpackHdrEffect s).then (Frame.gridDecEffect _)).then (Frame.unpackAcEffect _)).then
      (Frame.dctInvEffect _)).then (Frame.ctInvEffect _)
    exact ⟨_, f.mono (by decide) fun _ h => h⟩
  | avgColor => exact ⟨_, Frame.avgColorEffect s⟩
  | aspect => exact ⟨_, Frame.aspectEffect s⟩

/-! ### FAULT and PHASE, step by step -/

/-- R62 to R72: an access that is over leaves FAULT and PHASE. -/
theorem AccessOutcome.keeps_fault_phase {s t : State} {a : HostAccess} (h : AccessOutcome s a (.done t)) :
    t.status.fault = s.status.fault ∧ t.status.phase = s.status.phase := by
  cases h with
  | idleWrite off width v =>
    obtain ⟨hstatus, -⟩ := idleWrite_status s off width v
    simp only [State.withReply_status, hstatus, and_self]
  | _ => exact ⟨rfl, rfl⟩

/-- R27 (d): the word of a command that acts in the step of the CMD write. -/
theorem decode_system_word {v : Word} {i : Instr} (hd : decode v = .ok i) (hi : i = .clr ∨ i = .srst) :
    (i = .clr ∧ v = 0x00000001) ∨ (i = .srst ∧ v = 0x00000002) := by
  rcases hi with rfl | rfl
  · exact .inl ⟨rfl, (decode_clr_iff v).mp hd⟩
  · exact .inr ⟨rfl, (decode_srst_iff v).mp hd⟩

/-- The list of events that begins with `e`. -/
theorem host_of_head {s : State} {e : Event} (h : s.host.head? = some e) : ∃ rest, s.host = e :: rest :=
  ⟨s.host.tail, List.eq_cons_of_mem_head? h⟩

/-- Settles O26: of the steps from a state with a fault, only CLR, SRST and the reset input clear it; no command runs there
(`Inv.busyAlone`). -/
theorem onlyClearAndResetEndAFault : Obligations.OnlyClearAndResetEndAFault := by
  unfold Obligations.OnlyClearAndResetEndAFault
  intro s t hs hstep hfault hcleared
  cases step_cases hstep with
  | rest _ _ ht => simp [ht, hfault] at hcleared
  | idleTurn _ _ ht => simp [ht, hfault] at hcleared
  | completion w _ hw _ =>
    obtain ⟨-, hnofault⟩ := hs.busyAlone ((busy_iff s).mpr ⟨w, hw⟩)
    simp [hfault] at hnofault
  | reset hh _ => exact .inr (.inr (host_of_head hh))
  | access a _ ho => simp [ho.keeps_fault_phase.1, hfault] at hcleared
  | system v i hh _ hd hi _ =>
    rcases decode_system_word hd hi with ⟨-, rfl⟩ | ⟨-, rfl⟩
    · exact .inl (host_of_head hh)
    · exact .inr (.inl (host_of_head hh))

/-- R28: the rows of the commands that set PHASE, each with the phase it sets. -/
theorem phaseAfter_row {i : Instr} {p : Phase} (hi : immediate i = false) (h : phaseAfter i p ≠ p) :
    (i, phaseAfter i p) ∈ ([(.ctFwd, .ePlanes), (.gridEnc, .eGrid), (.dctFwd, .eCoef), (.pack, .eHash),
      (.encode, .eHash), (.unpackHdr, .dHdr), (.gridDec, .dGrid), (.unpackAc, .dCoef), (.dctInv, .dPlanes),
      (.ctInv, .dPix), (.decode, .dPix)] : List (Instr × Phase)) := by
  cases i with
  | clr => cases hi
  | srst => cases hi
  | scanCnt => exact absurd rfl h
  | scanNth => exact absurd rfl h
  | avgColor => exact absurd rfl h
  | aspect => exact absurd rfl h
  | _ => simp [phaseAfter]

/-- R27 (b), R28: a completion that changes PHASE is a success of a command that sets it. -/
theorem completion_phase {s t : State} {w : Word} (hw : w ≠ 0x00000001 ∧ w ≠ 0x00000002) (hr : runWord w s = .next t)
    (hp : t.status.phase ≠ s.status.phase) :
    ∃ i, decode w = .ok i ∧ t.inflight = none ∧ t.status.done = true ∧
      (i, t.status.phase) ∈ ([(.ctFwd, .ePlanes), (.gridEnc, .eGrid), (.dctFwd, .eCoef), (.pack, .eHash),
        (.encode, .eHash), (.unpackHdr, .dHdr), (.gridDec, .dGrid), (.unpackAc, .dCoef), (.dctInv, .dPlanes),
        (.ctInv, .dPix), (.decode, .dPix)] : List (Instr × Phase)) := by
  rcases runWord_cases hr with ⟨-, rfl⟩ | ⟨i, hd, he⟩
  · exact absurd rfl hp
  · have hi := decode_not_immediate hw.1 hw.2 hd
    rcases exec_cases hi he with ⟨-, hf⟩ | ⟨-, f, -, rfl⟩ | ⟨-, -, rfl⟩
    · exact absurd (congrArg Status.phase hf.status) hp
    · exact absurd rfl hp
    · have hphase : (effectOf i s).complete.status.phase = phaseAfter i s.status.phase :=
        effectOf_phase i s fun e => absurd (e ▸ hi) (by decide)
      obtain ⟨hidle, hdone, -⟩ := success_flags i s
      rw [hphase] at hp ⊢
      exact ⟨i, hd, hidle, hdone, phaseAfter_row hi hp⟩

/-- Settles O27: a completion changes PHASE by a success only, and of the other steps SRST and the reset input set it to
NONE. -/
theorem onlySuccessesChangeThePhase : Obligations.OnlySuccessesChangeThePhase := by
  unfold Obligations.OnlySuccessesChangeThePhase
  intro s t hs hstep hp
  cases step_cases hstep with
  | rest _ _ ht => exact absurd (ht ▸ rfl) hp
  | idleTurn _ _ ht => exact absurd (ht ▸ rfl) hp
  | completion w _ hw hr =>
    obtain ⟨i, hd, hrow⟩ := completion_phase (hs.started w hw) hr hp
    exact .inl ⟨w, i, hw, hd, hrow⟩
  | reset hh ht => exact .inr ⟨ht ▸ rfl, .inr (host_of_head hh)⟩
  | access a _ ho => exact absurd ho.keeps_fault_phase.2 hp
  | system v i hh _ hd hi hr =>
    rcases decode_system_word hd hi with ⟨rfl, -⟩ | ⟨rfl, rfl⟩
    · cases (exec_clr _).symm.trans hr
      exact absurd rfl hp
    · cases (exec_srst _).symm.trans hr
      exact .inr ⟨rfl, .inl (host_of_head hh)⟩

end Sys2Proof.Machine
end

section
/-! The invariant of registers, STATUS and memories (R26, R29 to R31, R35, R37): each kind of step keeps it. -/

namespace Sys2Proof.Machine

/-! ### What the invariant depends on -/

/-- `Inv` is a property of the registers, the memories, STATUS and the word in flight. -/
theorem Inv.congr {s t : State} (hregs : t.regs = s.regs) (hmem : t.mem = s.mem) (hstatus : t.status = s.status)
    (hinflight : t.inflight = s.inflight) (hs : Inv s) : Inv t := by
  cases s; cases t
  cases hregs; cases hmem; cases hstatus; cases hinflight
  exact ⟨hs.mem, hs.busyAlone, hs.doneAlone, hs.started, hs.ie, hs.noCause, hs.cause, hs.hasAlpha, hs.isLandscape,
    hs.lfield, hs.hdr24, hs.hdr16, hs.hdrA⟩

/-- R35, R37: the ranges of the small result registers. -/
structure SmallResults (s : State) : Prop where
  hasAlpha : s.nat .hasAlpha ≤ 1
  isLandscape : s.nat .isLandscape ≤ 1
  lfield : s.nat .lfield ≤ 7
  hdr24 : s.nat .hdr24 < 2 ^ 24
  hdr16 : s.nat .hdr16 < 2 ^ 16
  hdrA : s.nat .hdrA < 2 ^ 8

/-- The registers `SmallResults` reads. -/
def smallRegs : List Reg := [.hasAlpha, .isLandscape, .lfield, .hdr24, .hdr16, .hdrA]

theorem SmallResults.congr {s t : State} (h : ∀ r ∈ smallRegs, t.reg r = s.reg r) (hs : SmallResults s) :
    SmallResults t where
  hasAlpha := State.nat_eq (h .hasAlpha (by decide)) ▸ hs.hasAlpha
  isLandscape := State.nat_eq (h .isLandscape (by decide)) ▸ hs.isLandscape
  lfield := State.nat_eq (h .lfield (by decide)) ▸ hs.lfield
  hdr24 := State.nat_eq (h .hdr24 (by decide)) ▸ hs.hdr24
  hdr16 := State.nat_eq (h .hdr16 (by decide)) ▸ hs.hdr16
  hdrA := State.nat_eq (h .hdrA (by decide)) ▸ hs.hdrA

theorem Inv.small {s : State} (h : Inv s) : SmallResults s :=
  ⟨h.hasAlpha, h.isLandscape, h.lfield, h.hdr24, h.hdr16, h.hdrA⟩

/-! ### The effects keep the ranges -/

theorem boolWord_le (b : Bool) : (boolWord b).toNat ≤ 1 := by
  cases b <;> decide

theorem setWidth_toNat_lt {n : Nat} (v : BitVec n) (hn : n ≤ 32) : (v.setWidth 32).toNat < 2 ^ n := by
  rw [BitVec.toNat_setWidth_of_le hn]
  exact v.isLt

theorem ctFwdEffect_small {s : State} (h : SmallResults s) : SmallResults (ctFwdEffect s) := by
  have keep : ∀ r ∈ smallRegs.tail, (ctFwdEffect s).nat r = s.nat r := fun r hr =>
    State.nat_eq ((Frame.ctFwdEffect s).keep (by decide : ∀ r ∈ smallRegs.tail, r ∉ ctFwdWrites) r hr)
  have hha := ctFwdEffect_reg s (.hasAlpha, boolWord (anyTransparent s.image)) (by simp)
  refine ⟨?_, ?_, ?_, ?_, ?_, ?_⟩
  · rw [State.nat_of_reg hha]; exact boolWord_le _
  · rw [keep .isLandscape (by decide)]; exact h.isLandscape
  · rw [keep .lfield (by decide)]; exact h.lfield
  · rw [keep .hdr24 (by decide)]; exact h.hdr24
  · rw [keep .hdr16 (by decide)]; exact h.hdr16
  · rw [keep .hdrA (by decide)]; exact h.hdrA

theorem gridEncEffect_small {s : State} (h : SmallResults s) : SmallResults (gridEncEffect s) := by
  have f := Frame.gridEncEffect s
  obtain ⟨-, -, hland, hfield, -⟩ := gridEncEffect_reg s
  have hb := encL_bounds Config.tie (s.nat .plW) (s.nat .plH) s.hasAlpha
  have hl := lLimit_cases s.hasAlpha
  refine ⟨?_, ?_, ?_, ?_, ?_, ?_⟩
  · rw [State.nat_eq (f.regs .hasAlpha (by decide))]; exact h.hasAlpha
  · rw [State.nat_of_reg hland]; exact boolWord_le _
  · rw [State.nat_of_reg hfield, natWord_toNat] <;> split <;> omega
  · rw [State.nat_eq (f.regs .hdr24 (by decide))]; exact h.hdr24
  · rw [State.nat_eq (f.regs .hdr16 (by decide))]; exact h.hdr16
  · rw [State.nat_eq (f.regs .hdrA (by decide))]; exact h.hdrA

theorem packEffect_small {s : State} (h : SmallResults s) : SmallResults (packEffect s) := by
  have f := Frame.packEffect_writes s
  have h24 := packEffect_reg s (.hdr24, s.packHdr24.setWidth 32) (by simp)
  have h16 := packEffect_reg s (.hdr16, s.packHdr16.setWidth 32) (by simp)
  have hA := packEffect_reg s (.hdrA, s.packHdrA.setWidth 32) (by simp)
  refine ⟨?_, ?_, ?_, ?_, ?_, ?_⟩
  · rw [State.nat_eq (f.regs .hasAlpha (by decide))]; exact h.hasAlpha
  · rw [State.nat_eq (f.regs .isLandscape (by decide))]; exact h.isLandscape
  · rw [State.nat_eq (f.regs .lfield (by decide))]; exact h.lfield
  · rw [State.nat_of_reg h24]; exact setWidth_toNat_lt _ (by decide)
  · rw [State.nat_of_reg h16]; exact setWidth_toNat_lt _ (by decide)
  · rw [State.nat_of_reg hA]; exact setWidth_toNat_lt _ (by decide)

/-- UNPACK.HDR writes all the small results. -/
theorem unpackHdrEffect_small (s : State) : SmallResults (unpackHdrEffect s) := by
  have get : ∀ r v, (r, v) ∈ s.unpackedHeader → (unpackHdrEffect s).nat r = v.toNat := fun r v h =>
    State.nat_of_reg (unpackHdrEffect_reg s (r, v) h)
  refine ⟨?_, ?_, ?_, ?_, ?_, ?_⟩
  · rw [get .hasAlpha (boolWord (hasAlphaField s.hashHdr24)) (by simp [State.unpackedHeader])]; exact boolWord_le _
  · rw [get .isLandscape (boolWord (landscapeField s.hashHdr16)) (by simp [State.unpackedHeader])]
    exact boolWord_le _
  · rw [get .lfield ((lfieldField s.hashHdr16).setWidth 32) (by simp [State.unpackedHeader])]
    exact Nat.le_of_lt_succ (setWidth_toNat_lt _ (by decide))
  · rw [get .hdr24 (s.hashHdr24.setWidth 32) (by simp [State.unpackedHeader])]; exact setWidth_toNat_lt _ (by decide)
  · rw [get .hdr16 (s.hashHdr16.setWidth 32) (by simp [State.unpackedHeader])]; exact setWidth_toNat_lt _ (by decide)
  · rw [get .hdrA (s.unpackHdrA.setWidth 32) (by simp [State.unpackedHeader])]; exact setWidth_toNat_lt _ (by decide)

/-- Every effect keeps the ranges. -/
theorem effectOf_small (i : Instr) {s : State} (h : SmallResults s) : SmallResults (effectOf i s) := by
  cases i with
  | clr => exact h
  | srst => exact h
  | ctFwd => exact ctFwdEffect_small h
  | gridEnc => exact gridEncEffect_small h
  | dctFwd => exact h.congr ((Frame.dctFwdEffect s).keep (by decide))
  | pack => exact packEffect_small h
  | unpackHdr => exact unpackHdrEffect_small s
  | gridDec => exact h.congr ((Frame.gridDecEffect s).keep (by decide))
  | unpackAc => exact h.congr ((Frame.unpackAcEffect s).keep (by decide))
  | dctInv => exact h.congr ((Frame.dctInvEffect s).keep (by decide))
  | ctInv => exact h.congr ((Frame.ctInvEffect s).keep (by decide))
  | scanCnt => exact h.congr ((Frame.scanCntEffect s).keep (by decide))
  | scanNth => exact h.congr ((Frame.scanNthEffect s).keep (by decide))
  | encode =>
    exact packEffect_small ((gridEncEffect_small (ctFwdEffect_small h)).congr ((Frame.dctFwdEffect _).keep (by decide)))
  | decode =>
    have f := (((Frame.gridDecEffect (unpackHdrEffect s)).then (Frame.unpackAcEffect _)).then
      (Frame.dctInvEffect _)).then (Frame.ctInvEffect _)
    exact (unpackHdrEffect_small s).congr (f.keep (by decide))
  | avgColor => exact h.congr ((Frame.avgColorEffect s).keep (by decide))
  | aspect => exact h.congr ((Frame.aspectEffect s).keep (by decide))

/-! ### The ends of a command -/

theorem not_busy_of_idle {s : State} (h : s.inflight = none) : ¬ s.busy = true :=
  Bool.eq_false_iff.mp ((not_busy_iff s).mpr h)

/-- R304: a fault taken by a running command keeps the invariant. -/
theorem Inv.takeFault {s : State} (hs : Inv s) (hb : s.busy = true) (op : BitVec 8) (f : EngineFault) :
    Inv (s.takeFault op f) := by
  have hreg : ∀ r, r ≠ .cause → r ≠ .finfo → (s.takeFault op f).reg r = s.reg r := fun r h1 h2 => by
    rw [State.reg_takeFault, if_neg h1, if_neg h2]
  have hsmall : SmallResults (s.takeFault op f) := hs.small.congr fun r hr =>
    hreg r (by rintro rfl; revert hr; decide) (by rintro rfl; revert hr; decide)
  have hcause : (s.takeFault op f).nat .cause = 256 * op.toNat + f.code.number.toNat := by
    have hop := op.isLt
    have hcode := f.code.number.isLt
    rw [State.nat, (faulted_takeFault s op f).cause, BitVec.toNat_ofNat, Nat.mod_eq_of_lt (by omega)]
  obtain ⟨hlow, hhigh⟩ := (faulted_takeFault s op f).codes
  have hop := op.isLt
  exact {
    mem := hs.mem
    busyAlone := fun h => absurd h (not_busy_of_idle (State.takeFault_inflight s op f))
    doneAlone := fun h => absurd (hs.busyAlone hb).1 (by simp [show s.status.done = true from h.1])
    started := fun _ h => nomatch h
    ie := by rw [hreg .ie (by decide) (by decide)]; exact hs.ie
    noCause := fun h => nomatch h
    cause := fun _ => by rw [hcause]; omega
    hasAlpha := hsmall.hasAlpha
    isLandscape := hsmall.isLandscape
    lfield := hsmall.lfield
    hdr24 := hsmall.hdr24
    hdr16 := hsmall.hdr16
    hdrA := hsmall.hdrA }

/-- R27 (b): the success of a running command keeps the invariant. -/
theorem Inv.success {s : State} (hs : Inv s) (hb : s.busy = true) {i : Instr} (hi : immediate i = false) :
    Inv (effectOf i s).complete := by
  obtain ⟨b, f⟩ := effectOf_writes i s
  have hnot : ∀ r ∈ [Reg.ie, .cause, .finfo], r ∉ writesOf i := by
    cases i <;> first | (cases hi; done) | decide
  have hfault : (effectOf i s).complete.status.fault = false := f.fault.trans (hs.busyAlone hb).2
  have hsmall := effectOf_small i hs.small
  exact {
    mem := effectOf_wf i s hs.mem
    busyAlone := fun h => absurd h (not_busy_of_idle (State.complete_inflight _))
    doneAlone := fun h => absurd (hfault.symm.trans h.2) Bool.false_ne_true
    started := fun _ h => nomatch h
    ie := by rw [State.complete_reg, f.regs .ie (hnot .ie (by decide))]; exact hs.ie
    noCause := fun _ => by
      rw [State.complete_reg, State.complete_reg, f.regs .cause (hnot .cause (by decide)),
        f.regs .finfo (hnot .finfo (by decide))]
      exact hs.noCause (hs.busyAlone hb).2
    cause := fun h => absurd (hfault.symm.trans h) Bool.false_ne_true
    hasAlpha := hsmall.hasAlpha
    isLandscape := hsmall.isLandscape
    lfield := hsmall.lfield
    hdr24 := hsmall.hdr24
    hdr16 := hsmall.hdr16
    hdrA := hsmall.hdrA }

/-- R27 (b), R92: whatever the running word is, its completion keeps the invariant. -/
theorem Inv.completion {s t : State} {w : Word} (hs : Inv s) (hw : s.inflight = some w) (hr : runWord w s = .next t) :
    Inv t := by
  have hb : s.busy = true := (busy_iff s).mpr ⟨w, hw⟩
  obtain ⟨h1, h2⟩ := hs.started w hw
  rcases runWord_cases hr with ⟨-, rfl⟩ | ⟨i, hd, he⟩
  · exact hs.takeFault hb _ _
  · have hi := decode_not_immediate h1 h2 hd
    rw [exec_eq_runCommand i s hi] at he
    rcases runCommand_cases he with ⟨-, rfl⟩ | ⟨-, f, -, rfl⟩ | ⟨-, -, rfl⟩
    · exact hs.takeFault hb _ _
    · exact hs.takeFault hb _ _
    · exact hs.success hb hi

/-! ### CLR, SRST, reset and accesses -/

/-- R281: CLR to the idle engine keeps the invariant. -/
theorem Inv.acknowledge {s : State} (hs : Inv s) (hb : s.inflight = none) : Inv s.acknowledge := by
  have hreg : ∀ r, r ≠ .cause → r ≠ .finfo → s.acknowledge.reg r = s.reg r := fun r h1 h2 => by
    rw [State.reg_acknowledge, if_neg (not_or.mpr ⟨h1, h2⟩)]
  have hsmall : SmallResults s.acknowledge := hs.small.congr fun r hr =>
    hreg r (by rintro rfl; revert hr; decide) (by rintro rfl; revert hr; decide)
  exact {
    mem := hs.mem
    busyAlone := fun _ => ⟨rfl, rfl⟩
    doneAlone := fun h => nomatch h.1
    started := fun w h => by rw [State.acknowledge_inflight, hb] at h; cases h
    ie := by rw [hreg .ie (by decide) (by decide)]; exact hs.ie
    noCause := fun _ => ⟨State.reg_acknowledge s .cause, State.reg_acknowledge s .finfo⟩
    cause := fun h => nomatch h
    hasAlpha := hsmall.hasAlpha
    isLandscape := hsmall.isLandscape
    lfield := hsmall.lfield
    hdr24 := hsmall.hdr24
    hdr16 := hsmall.hdr16
    hdrA := hsmall.hdrA }

/-- R48, R282, R340: a state with the reset values and a canonical memory meets the invariant. -/
theorem Inv.of_reset {s : State} (hmem : Memory.wf s.mem) (hregs : s.regs = resetRegs)
    (hstatus : s.status = { done := false, fault := false, ovr := false, phase := .none }) (hidle : s.inflight = none) :
    Inv s := by
  have hzero : ∀ r, r ≠ .hashCap → r ≠ .pixoutCap → s.reg r = 0 := fun r h1 h2 => by
    rw [reset_reg r s hregs, if_neg h1, if_neg h2]
  have hnat : ∀ r, r ≠ .hashCap → r ≠ .pixoutCap → s.nat r = 0 := fun r h1 h2 => by rw [State.nat, hzero r h1 h2]; rfl
  exact {
    mem := hmem
    busyAlone := fun _ => by rw [hstatus]; exact ⟨rfl, rfl⟩
    doneAlone := by rw [hstatus]; decide
    started := fun w h => by rw [hidle] at h; cases h
    ie := by rw [hzero .ie (by decide) (by decide)]; decide
    noCause := fun _ => ⟨hzero .cause (by decide) (by decide), hzero .finfo (by decide) (by decide)⟩
    cause := fun h => by rw [hstatus] at h; cases h
    hasAlpha := by rw [hnat .hasAlpha (by decide) (by decide)]; decide
    isLandscape := by rw [hnat .isLandscape (by decide) (by decide)]; decide
    lfield := by rw [hnat .lfield (by decide) (by decide)]; decide
    hdr24 := by rw [hnat .hdr24 (by decide) (by decide)]; decide
    hdr16 := by rw [hnat .hdr16 (by decide) (by decide)]; decide
    hdrA := by rw [hnat .hdrA (by decide) (by decide)]; decide }

/-- R72: OVR plays no part in the invariant. -/
theorem Inv.setOvr {s : State} (hs : Inv s) : Inv s.setOvr :=
  ⟨hs.mem, hs.busyAlone, hs.doneAlone, hs.started, hs.ie, hs.noCause, hs.cause, hs.hasAlpha, hs.isLandscape, hs.lfield,
    hs.hdr24, hs.hdr16, hs.hdrA⟩

theorem Inv.withReply {s : State} (hs : Inv s) (r : Reply) : Inv (s.withReply r) :=
  Inv.congr (s := s) rfl rfl rfl rfl hs

/-- R27 (a): starting a word that is neither CLR nor SRST keeps the invariant. -/
theorem Inv.start {s : State} (hs : Inv s) (hf : s.status.fault = false) {w : Word} (h1 : w ≠ 0x00000001)
    (h2 : w ≠ 0x00000002) : Inv (s.start w) where
  mem := hs.mem
  busyAlone := fun _ => ⟨rfl, hf⟩
  doneAlone := fun h => nomatch h.1
  started := fun v h => by cases h; exact ⟨h1, h2⟩
  ie := hs.ie
  noCause := hs.noCause
  cause := hs.cause
  hasAlpha := hs.hasAlpha
  isLandscape := hs.isLandscape
  lfield := hs.lfield
  hdr24 := hs.hdr24
  hdr16 := hs.hdr16
  hdrA := hs.hdrA

/-- The mask of IE's bits 1 and 2 does nothing twice. -/
theorem ie_mask_idem (v : Word) : v &&& 6 &&& 6 = v &&& 6 := by
  rw [BitVec.and_assoc, BitVec.and_self]

/-- R29, R64: an accepted write of the idle engine keeps the invariant. -/
theorem Inv.idleWrite {s : State} (hs : Inv s) {off width : Nat} (v : Word) (ha : acceptedAccess off width = true) :
    Inv (s.idleWrite off width v) := by
  have hmem := idleWrite_wf s off width v hs.mem ha
  rcases idleWrite_cases s off width v with e | ⟨r, x, hr, hie, e⟩ | ⟨-, e⟩
  · rw [e]; exact hs
  · have hne : ∀ q ∈ Reg.cause :: Reg.finfo :: smallRegs, (s.setReg r x).reg q = s.reg q := fun q hq =>
      State.reg_setReg_ne s x fun h => absurd (h ▸ hr)
        ((by decide : ∀ q ∈ Reg.cause :: Reg.finfo :: smallRegs, q ∉ hostWritable) q hq)
    have hsmall : SmallResults (s.setReg r x) := hs.small.congr fun q hq =>
      hne q (List.mem_cons_of_mem _ (List.mem_cons_of_mem _ hq))
    rw [e] at hmem ⊢
    exact {
      mem := hmem
      busyAlone := hs.busyAlone
      doneAlone := hs.doneAlone
      started := hs.started
      ie := by
        by_cases h : r = .ie
        · rw [h, State.reg_setReg_same, hie h, ie_mask_idem]
        · rw [State.reg_setReg_ne s x h]; exact hs.ie
      noCause := by rw [hne .cause (by decide), hne .finfo (by decide)]; exact hs.noCause
      cause := by rw [State.nat_eq (hne .cause (by decide))]; exact hs.cause
      hasAlpha := hsmall.hasAlpha
      isLandscape := hsmall.isLandscape
      lfield := hsmall.lfield
      hdr24 := hsmall.hdr24
      hdr16 := hsmall.hdr16
      hdrA := hsmall.hdrA }
  · rw [e] at hmem ⊢
    exact ⟨hmem, hs.busyAlone, hs.doneAlone, hs.started, hs.ie, hs.noCause, hs.cause, hs.hasAlpha, hs.isLandscape,
      hs.lfield, hs.hdr24, hs.hdr16, hs.hdrA⟩

/-- R62 to R72: an access that is over keeps the invariant. -/
theorem Inv.access {s t : State} {a : HostAccess} (hs : Inv s) (h : AccessOutcome s a (.done t)) : Inv t := by
  cases h with
  | read off width r => exact hs.withReply r
  | refusedWrite off width v _ => exact hs.withReply _
  | busyWrite off width v _ => exact hs.setOvr.withReply _
  | idleWrite off width v _ ha _ => exact (hs.idleWrite v ha).withReply _
  | overrun v _ _ _ => exact (hs.withReply _).setOvr
  | start v _ hf hd =>
    have h1 : v ≠ 0x00000001 := fun e => absurd rfl (hd .clr ((decode_clr_iff v).mpr e)).1
    have h2 : v ≠ 0x00000002 := fun e => absurd rfl (hd .srst ((decode_srst_iff v).mpr e)).2
    exact (hs.withReply .written).start hf h1 h2

/-! ### The step -/

/-- Settles O29: one lemma per kind of step. -/
theorem stepKeepsInv : Obligations.StepKeepsInv := by
  unfold Obligations.StepKeepsInv
  intro s t hs hstep
  have htick : Inv s.tick := Inv.congr (s := s) rfl rfl rfl rfl hs
  cases step_cases hstep with
  | rest _ _ ht => exact ht ▸ hs
  | idleTurn _ _ ht => exact ht ▸ htick
  | completion w _ hw hr => exact htick.completion hw hr
  | reset _ ht => exact ht ▸ Inv.of_reset Memory.wf_nil rfl rfl rfl
  | access a _ ho => exact htick.access ho
  | system v i _ hb _ hi hr =>
    rcases hi with rfl | rfl
    · cases (exec_clr _).symm.trans hr
      exact (htick.withReply _).acknowledge hb
    · cases (exec_srst _).symm.trans hr
      exact Inv.of_reset hs.mem rfl rfl rfl

/-- Settles O28: the reset state has the reset values and nothing written; PHASE is NONE. -/
theorem resetMeetsTheInvariants : Obligations.ResetMeetsTheInvariants := by
  unfold Obligations.ResetMeetsTheInvariants
  exact ⟨Inv.of_reset reset_memory_wf rfl rfl rfl, trivial⟩

end Sys2Proof.Machine
end

section
/-! What STATUS.PHASE says of the registers (R28): each command establishes it for the phase it sets, and no other step
touches the registers it speaks of. -/

namespace Sys2Proof.Machine

/-! ### What a phase that accepts a command gives -/

theorem PhaseInv.planes {s : State} (h : PhaseInv s) (ha : accepts .gridEnc s.status.phase = true) :
    PlanesOfImage s := by
  unfold PhaseInv at h
  cases hp : s.status.phase <;> rw [hp] at h ha
  case ePlanes => exact h
  case eGrid => exact h.1
  case eCoef => exact h.1
  case eHash => exact h.1
  all_goals cases ha

theorem PhaseInv.encoder {s : State} (h : PhaseInv s) (ha : accepts .dctFwd s.status.phase = true) :
    PlanesOfImage s ∧ EncoderGrid s := by
  unfold PhaseInv at h
  cases hp : s.status.phase <;> rw [hp] at h ha
  case eGrid => exact h
  case eCoef => exact ⟨h.1, h.2.1⟩
  case eHash => exact ⟨h.1, h.2.1⟩
  all_goals cases ha

theorem PhaseInv.coefficients {s : State} (h : PhaseInv s) (ha : accepts .pack s.status.phase = true) :
    PlanesOfImage s ∧ EncoderGrid s ∧ AlphaFixed s := by
  unfold PhaseInv at h
  cases hp : s.status.phase <;> rw [hp] at h ha
  case eCoef => exact h
  case eHash => exact ⟨h.1, h.2.1, h.2.2.1⟩
  all_goals cases ha

theorem PhaseInv.header {s : State} (h : PhaseInv s) (ha : accepts .gridDec s.status.phase = true) :
    HeaderAgrees s ∧ AlphaFixed s := by
  unfold PhaseInv at h
  cases hp : s.status.phase <;> rw [hp] at h ha
  case dHdr => exact h
  case dGrid => exact ⟨h.1, h.2.1⟩
  case dCoef => exact ⟨h.1, h.2.1⟩
  case dPlanes => exact ⟨h.1, h.2.1⟩
  case dPix => exact ⟨h.1, h.2.1⟩
  all_goals cases ha

theorem PhaseInv.decoder {s : State} (h : PhaseInv s) (ha : accepts .unpackAc s.status.phase = true) :
    HeaderAgrees s ∧ AlphaFixed s ∧ DecoderGrid s := by
  unfold PhaseInv at h
  cases hp : s.status.phase <;> rw [hp] at h ha
  case dGrid => exact h
  case dCoef => exact h
  case dPlanes => exact ⟨h.1, h.2.1, h.2.2.1⟩
  case dPix => exact ⟨h.1, h.2.1, h.2.2.1⟩
  all_goals cases ha

theorem PhaseInv.raster {s : State} (h : PhaseInv s) (ha : accepts .ctInv s.status.phase = true) :
    HeaderAgrees s ∧ AlphaFixed s ∧ DecoderGrid s ∧ PlanesOfRaster s := by
  unfold PhaseInv at h
  cases hp : s.status.phase <;> rw [hp] at h ha
  case dPlanes => exact h
  case dPix => exact h
  all_goals cases ha

/-- DCT.INV is accepted only where UNPACK.AC is. -/
theorem accepts_unpackAc_of_dctInv {p : Phase} (h : accepts .dctInv p = true) : accepts .unpackAc p = true := by
  revert h
  cases p <;> decide

/-! ### A success establishes its phase -/

/-- R250: the stages of ENCODE, each on what the one before it left. -/
theorem encodeEffect_phaseInv {s : State} (h : ImageValid s) :
    PlanesOfImage (encodeEffect s) ∧ EncoderGrid (encodeEffect s) ∧ AlphaFixed (encodeEffect s) ∧
      HeaderAgrees (encodeEffect s) :=
  pack_header (dctFwd_alpha (gridEnc_grid (ctFwd_planes h)))

/-- R255: the stages of DECODE, each on what the one before it left. -/
theorem decodeEffect_phaseInv (s : State) :
    HeaderAgrees (decodeEffect s) ∧ AlphaFixed (decodeEffect s) ∧ DecoderGrid (decodeEffect s) ∧
      PlanesOfRaster (decodeEffect s) :=
  ctInv_keeps (dctInv_planes (unpackAc_keeps (gridDec_grid (unpackHdr_header s))))

/-- R163: what the tests of ENCODE say of the image operands. -/
theorem checkEncode_valid {s : State} (h : checkEncode s = none) : ImageValid s := by
  refine checkImage_none_iff.mp ?_
  cases hc : checkImage s with
  | none => rfl
  | some f => rw [checkEncode_image hc] at h; cases h

/-- R28: the writes of a command that its phase and its own tests let through establish what the phase they set says. -/
theorem effectOf_phaseInv {i : Instr} {s : State} (hs : PhaseInv s) (ha : accepts i s.status.phase = true)
    (hc : checkOf i s = none) : PhaseInv (effectOf i s) := by
  cases i with
  | clr => exact hs
  | srst => exact hs
  | ctFwd => exact ctFwd_planes (checkImage_none_iff.mp hc)
  | gridEnc => exact gridEnc_grid (hs.planes ha)
  | dctFwd => exact dctFwd_alpha (hs.encoder ha)
  | pack => exact pack_header (hs.coefficients ha)
  | unpackHdr => exact unpackHdr_header s
  | gridDec => exact gridDec_grid (hs.header ha)
  | unpackAc => exact unpackAc_keeps (hs.decoder ha)
  | dctInv => exact dctInv_planes (hs.decoder (accepts_unpackAc_of_dctInv ha))
  | ctInv => exact ctInv_keeps (hs.raster ha)
  | scanCnt => exact hs.congr (effectOf_phase .scanCnt s (by decide)) ((Frame.scanCntEffect s).keep (by decide))
  | scanNth => exact hs.congr (effectOf_phase .scanNth s (by decide)) ((Frame.scanNthEffect s).keep (by decide))
  | encode => exact encodeEffect_phaseInv (checkEncode_valid hc)
  | decode => exact decodeEffect_phaseInv s
  | avgColor => exact hs.congr (effectOf_phase .avgColor s (by decide)) ((Frame.avgColorEffect s).keep (by decide))
  | aspect => exact hs.congr (effectOf_phase .aspect s (by decide)) ((Frame.aspectEffect s).keep (by decide))

/-! ### The other ends of a command, and accesses -/

theorem PhaseInv.takeFault {s : State} (hs : PhaseInv s) (op : BitVec 8) (f : EngineFault) :
    PhaseInv (s.takeFault op f) :=
  PhaseInv.congr (s := s) rfl (hs := hs) fun r hr => by
    rw [State.reg_takeFault, if_neg (by rintro rfl; revert hr; decide), if_neg (by rintro rfl; revert hr; decide)]

theorem PhaseInv.acknowledge {s : State} (hs : PhaseInv s) : PhaseInv s.acknowledge :=
  PhaseInv.congr (s := s) rfl (hs := hs) fun r hr => by
    rw [State.reg_acknowledge, if_neg (by rintro (rfl | rfl) <;> revert hr <;> decide)]

/-- R28: whatever a command does, PHASE says what holds. -/
theorem PhaseInv.exec {i : Instr} {s t : State} (hs : PhaseInv s) (h : exec i s = .next t) : PhaseInv t := by
  cases hi : immediate i with
  | true =>
    rcases (immediate_iff i).mp hi with rfl | rfl
    · cases (exec_clr s).symm.trans h
      exact hs.acknowledge
    · cases (exec_srst s).symm.trans h
      exact trivial
  | false =>
    rw [exec_eq_runCommand i s hi] at h
    rcases runCommand_cases h with ⟨-, rfl⟩ | ⟨-, f, -, rfl⟩ | ⟨ha, hc, rfl⟩
    · exact hs.takeFault _ _
    · exact hs.takeFault _ _
    · exact PhaseInv.congr (t := (effectOf i s).complete) rfl (fun _ _ => rfl) (effectOf_phaseInv hs ha hc)

/-- R64: no register that PHASE speaks of is host-writable. -/
theorem AccessOutcome.keeps_phaseRegs {s t : State} {a : HostAccess} (h : AccessOutcome s a (.done t)) :
    ∀ r ∈ phaseRegs, t.reg r = s.reg r := by
  intro r hr
  cases h with
  | idleWrite off width v =>
    rw [State.withReply_reg]
    rcases idleWrite_cases s off width v with e | ⟨q, x, hq, -, e⟩ | ⟨-, e⟩
    · rw [e]
    · rw [e]
      exact State.reg_setReg_ne s x fun h => absurd (h ▸ hr)
        ((by decide : ∀ q ∈ hostWritable, q ∉ phaseRegs) q hq)
    · rw [e]; rfl
  | _ => rfl

/-- Settles O30: commands by `PhaseInv.exec`; every other step keeps PHASE and the registers it speaks of, or sets it to
NONE. -/
theorem stepKeepsPhaseInv : Obligations.StepKeepsPhaseInv := by
  unfold Obligations.StepKeepsPhaseInv
  intro s t hs hstep
  have htick : PhaseInv s.tick := PhaseInv.congr (t := s.tick) rfl (fun _ _ => rfl) hs
  cases step_cases hstep with
  | rest _ _ ht => exact ht ▸ hs
  | idleTurn _ _ ht => exact ht ▸ htick
  | completion w _ _ hr =>
    rcases runWord_cases hr with ⟨-, rfl⟩ | ⟨i, -, he⟩
    · exact htick.takeFault _ _
    · exact htick.exec he
  | reset _ ht => subst ht; exact trivial
  | access a _ ho => exact htick.congr ho.keeps_fault_phase.2 ho.keeps_phaseRegs
  | system v i _ _ _ _ hr =>
    have hwritten : PhaseInv (s.tick.withReply .written) :=
      PhaseInv.congr (t := s.tick.withReply .written) rfl (fun _ _ => rfl) htick
    exact hwritten.exec hr

end Sys2Proof.Machine
end

section
/-! Decoding and encoding (R90, R91), and the step that runs a decoded command (R27, R93). -/

namespace Sys2Proof

theorem decode_encode (i : Instr) : decode (encode i) = .ok i := by
  cases i <;> rfl

/-- R90: a command word is its opcode under a zero RSV field. -/
theorem eq_encode_of_decode {w : Word} {i : Instr} (h : decode w = .ok i) : w = encode i := by
  obtain ⟨hrsv, -⟩ := (decode_ok_iff w i).mp h
  rw [word_fields w, hrsv, opcode_of_decode h, encode]

/-- Settles O2: the fields of a command word are fixed by its command. -/
theorem decodeInvertsEncode : Obligations.DecodeInvertsEncode := by
  unfold Obligations.DecodeInvertsEncode
  exact fun w i => ⟨eq_encode_of_decode, fun h => h ▸ decode_encode i⟩

/-- Settles O3: the legal words are `encode` of their commands; the last two fail one test of `decode` each. -/
theorem writtenOutWordsDecode : Obligations.WrittenOutWordsDecode := by
  unfold Obligations.WrittenOutWordsDecode
  exact ⟨decode_encode .clr, decode_encode .dctFwd, decode_encode .ctInv, decode_encode .scanNth, decode_encode .encode,
    rfl, rfl⟩

end Sys2Proof

namespace Sys2Proof.Machine

/-! ### The steps that run a command -/

/-- With no event left only the answer of the last access and the draws change. -/
theorem tick_nil {s : State} (hh : s.host = []) : s.tick = { s with reply := .idle, draws := s.draws + 1 } := by
  simp [State.tick, hh]

/-- R352: with no event left a running command completes. -/
theorem step_noEvent {s : State} {w : Word} (hh : s.host = []) (hw : s.inflight = some w) :
    step s = runWord w s.tick := by
  have hb : s.busy = true := (busy_iff s).mpr ⟨w, hw⟩
  simp only [step_eq, hh, hb, if_true, engineTurn, State.tick_inflight, hw]

/-- R27 (d): the CMD write of CLR or SRST to the idle engine runs it in the same step. -/
theorem step_system {s : State} {w : Word} {i : Instr} {rest : List Event} (hd : decode w = .ok i)
    (hi : i = .clr ∨ i = .srst) (hidle : s.inflight = none) (hh : s.host = .access (.write 0x004 4 w) :: rest) :
    step s = exec i { s with host := rest, reply := .written, draws := s.draws + 1 } := by
  rw [step_cmdWrite hidle hh, cmdWrite_immediate hd ((immediate_iff i).mpr hi), tick_written hh]
  rfl

/-- The word that `withFetchWord` places for a command. -/
theorem fetchWord_encode (i : Instr) : BitVec.ofNat 32 ((encode i).toNat % 2 ^ 32) = encode i := by
  rw [Nat.mod_eq_of_lt (encode i).isLt, BitVec.ofNat_toNat, BitVec.setWidth_eq]

theorem withFetchWord_immediate (s : State) {i : Instr} (hi : immediate i = true) :
    s.withFetchWord 32 (encode i).toNat =
      { s with inflight := none, host := .access (.write cmdOffset 4 (encode i)) :: s.host } := by
  simp only [State.withFetchWord, fetchWord_encode, decode_encode, Except.toOption, Option.filter, hi, if_true]

theorem withFetchWord_started (s : State) {i : Instr} (hi : immediate i = false) :
    s.withFetchWord 32 (encode i).toNat =
      { s with
        inflight := some (encode i), status := { s.status with done := false, fault := false },
        host := .engine :: s.host } := by
  simp only [State.withFetchWord, fetchWord_encode, decode_encode, Except.toOption, Option.filter, hi,
    Bool.false_eq_true, if_false]

/-- Log entry 8: the step of a state with a fetched word runs the command. -/
theorem step_withFetchWord (s : State) (i : Instr) : step (s.withFetchWord 32 (encode i).toNat) =
    exec i
      (if i = .clr ∨ i = .srst then { s with inflight := none, reply := .written, draws := s.draws + 1 }
       else { s with
              inflight := some (encode i), status := { s.status with done := false, fault := false },
              reply := .idle, draws := s.draws + 1 }) := by
  cases hi : immediate i with
  | true =>
    have hsys := (immediate_iff i).mp hi
    rw [withFetchWord_immediate s hi, if_pos hsys, step_system (decode_encode i) hsys rfl rfl]
  | false =>
    have hsys : ¬ (i = .clr ∨ i = .srst) := fun h => by rw [(immediate_iff i).mpr h] at hi; cases hi
    rw [withFetchWord_started s hi, if_neg hsys, step_turn rfl rfl, runWord_legal (decode_encode i), tick_eq rfl]

/-- Settles O4: one step lemma per clause. -/
theorem stepRunsDecodedCommand : Obligations.StepRunsDecodedCommand := by
  unfold Obligations.StepRunsDecodedCommand
  refine ⟨fun s w i rest hd hw hh => ?_, fun s w i hd hw hh => ?_, fun s w i rest hd hi hidle hh => ?_,
    step_withFetchWord⟩
  · rw [step_turn hh hw, runWord_legal hd, tick_eq hh]
  · rw [step_noEvent hh hw, runWord_legal hd, tick_nil hh]
  · exact step_system hd hi hidle hh

end Sys2Proof.Machine
end

section
/-! The end of a started command (R27 (b), R300, R352): it comes whatever accesses precede it, and is a success or a listed
fault. -/

namespace Sys2Proof.Machine

/-- R300: the commands that have a phase to be out of. -/
theorem seq_row {i : Instr} {p : Phase} (h : accepts i p = false) :
    i ∈ ([.gridEnc, .dctFwd, .pack, .gridDec, .unpackAc, .dctInv, .ctInv] : List Instr) := by
  cases i <;> first | cases h | decide

/-- Settles O8: E_SEQ, a fault of the command's own tests by `checkOf_code`, or the success. -/
theorem completionIsSuccessOrFault : Obligations.CompletionIsSuccessOrFault := by
  unfold Obligations.CompletionIsSuccessOrFault
  intro i s h1 h2
  obtain ⟨t, ht⟩ := exec_next i s
  refine ⟨t, ht, ?_⟩
  rcases exec_cases (not_imm h1 h2) ht with ⟨ha, hf⟩ | ⟨-, f, hc, rfl⟩ | ⟨-, -, rfl⟩
  · refine .inr ⟨7, _, hf, ?_⟩
    have hrow := seq_row ha
    fin_cases hrow <;> decide
  · refine .inr ⟨_, _, faulted_takeFault s i.opcode f, ?_⟩
    refine (?_ : ∀ row ∈ _, row ∈ _) _ (checkOf_code hc)
    decide
  · exact .inl (success_flags i s)

/-- R27 (b): the completion of a started word ends with exactly one of DONE and FAULT, and leaves the events. -/
theorem completion_flags {s t : State} {w : Word} (h1 : w ≠ 0x00000001) (h2 : w ≠ 0x00000002)
    (hdone : s.status.done = false) (hfault : s.status.fault = false) (hr : runWord w s = .next t) :
    t.inflight = none ∧ t.host = s.host ∧
      ((t.status.done = true ∧ t.status.fault = false) ∨ (t.status.done = false ∧ t.status.fault = true)) := by
  rcases runWord_cases hr with ⟨-, rfl⟩ | ⟨i, hd, he⟩
  · exact ⟨rfl, rfl, .inr ⟨hdone, rfl⟩⟩
  · rcases exec_cases (decode_not_immediate h1 h2 hd) he with ⟨-, hf⟩ | ⟨-, f, -, rfl⟩ | ⟨-, -, rfl⟩
    · refine ⟨hf.idle, hf.host, .inr ?_⟩
      rw [hf.status]
      exact ⟨hdone, rfl⟩
    · exact ⟨rfl, rfl, .inr ⟨hdone, rfl⟩⟩
    · obtain ⟨b, f⟩ := effectOf_writes i s
      exact ⟨rfl, f.host, .inl ⟨rfl, f.fault.trans hfault⟩⟩

/-- R72: a list of accesses of the window while a command runs changes no register, no byte, no flag but OVR. -/
theorem run_busyAccesses {w : Word} (accesses : List HostAccess) {s : State} {rest : List Event}
    (hw : s.inflight = some w)
    (hin : ∀ a ∈ accesses, match a with
      | .read off _ => off < 0x80000
      | .write off _ _ => off < 0x80000)
    (hh : s.host = accesses.map .access ++ rest) :
    ∃ u, run accesses.length s = some u ∧ u.regs = s.regs ∧ u.mem = s.mem ∧ u.inflight = some w ∧
      u.status.phase = s.status.phase ∧ u.status.done = s.status.done ∧ u.status.fault = s.status.fault ∧
      u.host = rest := by
  induction accesses generalizing s with
  | nil => exact ⟨s, rfl, rfl, rfl, hw, rfl, rfl, rfl, hh⟩
  | cons a l ih =>
    obtain ⟨v, hstep, hregs, hmem, hv, hphase, hdone, hfault, hhost⟩ :=
      step_busyAccess hw (hin a List.mem_cons_self) hh
    obtain ⟨u, hrun, hregs', hmem', hu, hphase', hdone', hfault', hhost'⟩ :=
      ih hv (fun b hb => hin b (List.mem_cons_of_mem a hb)) hhost
    exact ⟨u, (run_cons hstep).trans hrun, hregs'.trans hregs, hmem'.trans hmem, hu, hphase'.trans hphase,
      hdone'.trans hdone, hfault'.trans hfault, hhost'⟩

/-- Settles O7: the accesses one by one, then the engine's turn. -/
theorem startedCommandCompletes : Obligations.StartedCommandCompletes := by
  unfold Obligations.StartedCommandCompletes
  intro s w accesses rest hw h1 h2 hdone hfault hin hh
  obtain ⟨u, hrun, hregs, hmem, hu, hphase, hdone', hfault', hhost⟩ := run_busyAccesses accesses hw hin hh
  obtain ⟨t, ht⟩ := runWord_next w u.tick
  obtain ⟨hidle, hrest, hflags⟩ :=
    completion_flags (s := u.tick) h1 h2 (hdone'.trans hdone) (hfault'.trans hfault) ht
  refine ⟨u, t, hrun, (step_turn hhost hu).trans ht, hregs, hmem, hu, hphase, hidle, ?_, hflags⟩
  rw [hrest, State.tick_host, hhost, List.tail_cons]

end Sys2Proof.Machine
end

section
/-! The writers table (R49) with its extents in bytes: what a command that succeeds leaves alone. -/

namespace Sys2Proof.Machine

/-- The extent of the coefficients depends on HAS_ALPHA and the counts alone. -/
theorem coefBytes_congr {s t : State} (hha : t.reg .hasAlpha = s.reg .hasAlpha)
    (hnac : ∀ c, t.reg (.nac c) = s.reg (.nac c)) : coefBytes t = coefBytes s := by
  unfold coefBytes
  rw [State.hasAlpha_eq hha]
  funext x
  simp only [State.nat_eq (hnac _)]

/-- R200: PACK writes the header and the payload bytes, and these are the REQ_LEN bytes of its grid. -/
theorem Frame.packEffect {s : State} {g : Nat × Nat} (h : GridOf s g) :
    Frame s (packEffect s) packWrites (bytesFrom hashBase (s.nat .reqLen)) := by
  obtain ⟨hsum, hreq, hhdr, -, -⟩ := h.total
  refine (Frame.packEffect_writes s).mono (fun _ h => h) fun a ha => ?_
  rw [packHeader_length, pairNibbles_length, packNibbles_length, hsum] at ha
  unfold bytesFrom at ha ⊢
  omega

/-- R160: the planes that CT.FWD leaves have the size of the image. -/
theorem ctFwdEffect_size (s : State) :
    (ctFwdEffect s).nat .plW = s.nat .imgW ∧ (ctFwdEffect s).nat .plH = s.nat .imgH :=
  ⟨congrArg BitVec.toNat (ctFwdEffect_reg s (.plW, s.reg .imgW) (by simp)),
    congrArg BitVec.toNat (ctFwdEffect_reg s (.plH, s.reg .imgH) (by simp))⟩

/-- R49, R250: ENCODE writes the planes of the image, the coefficients of its grid and REQ_LEN bytes of HASH. -/
theorem Frame.encodeEffect {s : State} (h : ImageValid s) :
    Frame s (encodeEffect s) (writesOf .encode) (storesOf .encode (encodeEffect s)) := by
  have hgrid := gridEnc_grid (ctFwd_planes h)
  have hdct := dctFwd_alpha hgrid
  -- the registers that the later stages keep
  have f₂ := Frame.gridEncEffect (Machine.ctFwdEffect s)
  have f₃ := Frame.dctFwdEffect (Machine.gridEncEffect (Machine.ctFwdEffect s))
  have f₄ := Frame.packEffect (s := Machine.dctFwdEffect (Machine.gridEncEffect (Machine.ctFwdEffect s))) hdct.2.1.gridOf
  have f₃₄ := f₃.then f₄
  have hplanes : (Machine.encodeEffect s).nat .plW * (Machine.encodeEffect s).nat .plH = s.nat .imgW * s.nat .imgH := by
    have hw := (State.nat_eq ((f₂.then f₃₄).regs .plW (by decide))).trans (ctFwdEffect_size s).1
    have hh := (State.nat_eq ((f₂.then f₃₄).regs .plH (by decide))).trans (ctFwdEffect_size s).2
    exact congrArg₂ (· * ·) hw hh
  have hcoef : coefBytes (Machine.encodeEffect s) = coefBytes (Machine.gridEncEffect (Machine.ctFwdEffect s)) :=
    coefBytes_congr (f₃₄.regs .hasAlpha (by decide)) fun c => f₃₄.regs (.nac c) (by cases c <;> decide)
  have hreq : (Machine.encodeEffect s).nat .reqLen =
      (Machine.dctFwdEffect (Machine.gridEncEffect (Machine.ctFwdEffect s))).nat .reqLen :=
    State.nat_eq (f₄.regs .reqLen (by decide))
  refine (((Frame.ctFwdEffect s).then f₂).then f₃₄).mono (by decide) fun a ha => ?_
  show _ ∨ _ ∨ _
  rw [hplanes, hcoef, hreq]
  rcases ha with (ha | ha) | ha | ha
  · exact .inl ha
  · exact ha.elim
  · exact .inr (.inl ha)
  · exact .inr (.inr ha)

/-- R170, R235: CT.INV writes the PIXOUT_LEN bytes of the raster. -/
theorem pixoutLen_of_raster {s : State} (h : HeaderAgrees s ∧ AlphaFixed s ∧ DecoderGrid s ∧ PlanesOfRaster s) :
    s.nat .pixoutLen = 4 * (s.nat .plW * s.nat .plH) := by
  obtain ⟨hheader, -, hgrid, hw, hh⟩ := h
  rw [(hgrid.raster hheader.lfield_le).2.2.1, State.nat, State.nat, State.nat, State.nat, hw, hh]

/-- R49, R255: DECODE writes the coefficients of the header's grid, the planes of its raster and PIXOUT_LEN bytes of
PIXOUT. -/
theorem Frame.decodeEffect (s : State) :
    Frame s (decodeEffect s) (writesOf .decode) (storesOf .decode (decodeEffect s)) := by
  have hgrid := gridDec_grid (unpackHdr_header s)
  have hplanes := dctInv_planes (unpackAc_keeps hgrid)
  have f₁₂ := (Frame.unpackHdrEffect s).then (Frame.gridDecEffect (Machine.unpackHdrEffect s))
  have f₃ := Frame.unpackAcEffect (Machine.gridDecEffect (Machine.unpackHdrEffect s))
  have f₄ := Frame.dctInvEffect (Machine.unpackAcEffect (Machine.gridDecEffect (Machine.unpackHdrEffect s)))
  have f₅ := Frame.ctInvEffect
    (Machine.dctInvEffect (Machine.unpackAcEffect (Machine.gridDecEffect (Machine.unpackHdrEffect s))))
  rw [← pixoutLen_of_raster hplanes] at f₅
  have f₄₅ := f₄.then f₅
  have f₃₄₅ := f₃.then f₄₅
  have hcoef : coefBytes (Machine.decodeEffect s) = coefBytes (Machine.gridDecEffect (Machine.unpackHdrEffect s)) :=
    coefBytes_congr (f₃₄₅.regs .hasAlpha (by decide)) fun c => f₃₄₅.regs (.nac c) (by cases c <;> decide)
  have hraster : (Machine.decodeEffect s).nat .outW * (Machine.decodeEffect s).nat .outH =
      (Machine.unpackAcEffect (Machine.gridDecEffect (Machine.unpackHdrEffect s))).nat .outW *
        (Machine.unpackAcEffect (Machine.gridDecEffect (Machine.unpackHdrEffect s))).nat .outH :=
    congrArg₂ (· * ·) (State.nat_eq (f₄₅.regs .outW (by decide))) (State.nat_eq (f₄₅.regs .outH (by decide)))
  have hlen : (Machine.decodeEffect s).nat .pixoutLen = (Machine.dctInvEffect
      (Machine.unpackAcEffect (Machine.gridDecEffect (Machine.unpackHdrEffect s)))).nat .pixoutLen :=
    State.nat_eq (f₅.regs .pixoutLen (by decide))
  refine (f₁₂.then f₃₄₅).mono (by decide) fun a ha => ?_
  show _ ∨ _ ∨ _
  rw [hcoef, hraster, hlen]
  rcases ha with (ha | ha) | ha | ha | ha
  · exact ha.elim
  · exact ha.elim
  · exact .inl ha
  · exact .inr (.inl ha)
  · exact .inr (.inr ha)

/-- R49: the writes of a command that its phase and its own tests let through lie in its row of the writers table. -/
theorem effectOf_row {i : Instr} {s : State} (hs : PhaseInv s) (ha : accepts i s.status.phase = true)
    (hc : checkOf i s = none) : Frame s (effectOf i s) (writesOf i) (storesOf i (effectOf i s)) := by
  cases i with
  | clr => exact (Frame.refl s).mono (by simp) fun _ h => h
  | srst => exact Frame.refl s
  | ctFwd =>
    have f := Frame.ctFwdEffect s
    rwa [← (ctFwdEffect_size s).1, ← (ctFwdEffect_size s).2] at f
  | gridEnc => exact Frame.gridEncEffect s
  | dctFwd =>
    have f := Frame.dctFwdEffect s
    have hcoef : coefBytes (dctFwdEffect s) = coefBytes s :=
      coefBytes_congr (f.regs .hasAlpha (by decide)) fun c => f.regs (.nac c) (by cases c <;> decide)
    rwa [← hcoef] at f
  | pack =>
    have f := Frame.packEffect (hs.coefficients ha).2.1.gridOf
    rwa [← State.nat_eq (f.regs .reqLen (by decide))] at f
  | unpackHdr => exact Frame.unpackHdrEffect s
  | gridDec => exact Frame.gridDecEffect s
  | unpackAc =>
    have f := Frame.unpackAcEffect s
    have hcoef : coefBytes (unpackAcEffect s) = coefBytes s :=
      coefBytes_congr (f.regs .hasAlpha (by decide)) fun c => f.regs (.nac c) (by cases c <;> decide)
    rwa [← hcoef] at f
  | dctInv =>
    have f := Frame.dctInvEffect s
    rwa [← State.nat_eq (f.regs .outW (by decide)), ← State.nat_eq (f.regs .outH (by decide))] at f
  | ctInv =>
    have f := Frame.ctInvEffect s
    rwa [← pixoutLen_of_raster (hs.raster ha), ← State.nat_eq (f.regs .pixoutLen (by decide))] at f
  | scanCnt => exact Frame.scanCntEffect s
  | scanNth => exact Frame.scanNthEffect s
  | encode => exact Frame.encodeEffect (checkEncode_valid hc)
  | decode => exact Frame.decodeEffect s
  | avgColor => exact Frame.avgColorEffect s
  | aspect => exact Frame.aspectEffect s

/-- A command that sets DONE succeeded. -/
theorem exec_done {i : Instr} {s t : State} (hi : immediate i = false) (h : exec i s = .next t)
    (hdone : s.status.done = false) (hdone' : t.status.done = true) :
    accepts i s.status.phase = true ∧ checkOf i s = none ∧ t = (effectOf i s).complete := by
  rcases exec_cases hi h with ⟨-, hf⟩ | ⟨-, f, -, rfl⟩ | hsuccess
  · rw [hf.status] at hdone'
    exact absurd (hdone.symm.trans hdone') Bool.false_ne_true
  · exact absurd (hdone.symm.trans hdone') Bool.false_ne_true
  · exact hsuccess

/-- Settles O10: a success by `effectOf_row`; CLR by what an acknowledgement leaves. -/
theorem commandsWriteOnlyTheirRow : Obligations.CommandsWriteOnlyTheirRow := by
  unfold Obligations.CommandsWriteOnlyTheirRow
  intro i s t hsrst hs he hend hdone hfault
  by_cases hclr : i = .clr
  · subst hclr
    cases (exec_clr s).symm.trans he
    refine ⟨fun r hr => ?_, fun _ _ => rfl, rfl, rfl, rfl, rfl, rfl, fun h => absurd rfl h⟩
    rw [State.reg_acknowledge, if_neg]
    simpa [writesOf] using hr
  · obtain ⟨ha, hc, rfl⟩ := exec_done (not_imm hclr hsrst) he hdone (hend.resolve_right hclr)
    have f := (effectOf_row hs ha hc).completed.frame
    exact ⟨f.regs, f.bytes, f.host, f.reply, f.draws, f.resets, f.fault.trans hfault, fun _ => f.ovr⟩

end Sys2Proof.Machine
end

section
/-! The capacity and length faults (R170, R200, R210, R215, R251, R256), each a failing test in a phase that accepts the
command. -/

namespace Sys2Proof.Machine

/-- R200, R205: PACK's test fails below REQ_LEN. -/
theorem checkHashCap_fault {s : State} (h : s.nat .hashCap < s.nat .reqLen) :
    checkHashCap s = some { code := .eHashCap, info := s.reg .reqLen } := by
  rw [checkHashCap, if_pos (hashCapacity_lt h)]

/-- R251: with a valid image ENCODE's test fails below the length the hash will have. -/
theorem checkEncode_fault {s : State} {ha : Bool} (h : ImageValid s)
    (hha : ha = true ↔ ∃ i < s.nat .imgW * s.nat .imgH, (s.pixin (4 * i + 3)).toNat < 255)
    (hcap : s.nat .hashCap < encRequiredLength (s.nat .imgW) (s.nat .imgH) ha) :
    checkEncode s =
      some { code := .eHashCap, info := natWord (encRequiredLength (s.nat .imgW) (s.nat .imgH) ha) } := by
  rw [checkEncode_cap (checkImage_none h), image_transparent hha]
  exact if_pos hcap

/-- Settles O12: PACK's own test, and the last of ENCODE's. -/
theorem hashCapacityFaults : Obligations.HashCapacityFaults := by
  unfold Obligations.HashCapacityFaults
  refine ⟨fun s hp hcap => ?_, fun s ha h hha hcap => ?_⟩
  · have haccepts : accepts .pack s.status.phase = true := by rcases hp with hp | hp <;> rw [hp] <;> rfl
    exact exec_fault .pack rfl haccepts (checkHashCap_fault hcap)
  · exact exec_fault .encode rfl rfl (checkEncode_fault h hha hcap)

/-! ### The header -/

theorem checkHeaderLength_five {s : State} (h : s.nat .hashLen < 5) :
    checkHeaderLength s = some { code := .eHashLen, info := 5 } := by
  rw [checkHeaderLength, if_pos h]

theorem checkHeaderLength_six {s : State} (h : s.nat .hashLen = 5) (ha : (s.hash 2).getLsbD 7 = true) :
    checkHeaderLength s = some { code := .eHashLen, info := 6 } := by
  have hbit : hasAlphaField s.hashHdr24 = true := (hdr24_bit s).trans ha
  rw [checkHeaderLength, if_neg (by omega), if_pos ⟨hbit, by omega⟩]

/-- R210, R256, R270: UNPACK.HDR, DECODE and AVGCOLOR begin with the header test, in any phase. -/
theorem exec_header_fault {i : Instr} (hi : i = .unpackHdr ∨ i = .decode ∨ i = .avgColor) {s : State} {f : EngineFault}
    (hc : checkHeaderLength s = some f) :
    ∃ t, exec i s = .next t ∧ Faulted s t i.opcode f.code.number.toNat f.info := by
  rcases hi with rfl | rfl | rfl
  · exact exec_fault .unpackHdr rfl rfl hc
  · exact exec_fault .decode rfl rfl (checkDecode_hdr hc)
  · exact exec_fault .avgColor rfl rfl hc

/-- Settles O13: the two header tests; ASPECT makes the first one only. -/
theorem headerLengthFaults : Obligations.HeaderLengthFaults := by
  unfold Obligations.HeaderLengthFaults
  refine ⟨fun i s hi hlen => ?_, fun i s hi hlen ha => exec_header_fault hi (checkHeaderLength_six hlen ha)⟩
  have hheader := fun hi => exec_header_fault (i := i) hi (checkHeaderLength_five hlen)
  rcases hi with hi | hi | hi | rfl
  · exact hheader (.inl hi)
  · exact hheader (.inr (.inl hi))
  · exact hheader (.inr (.inr hi))
  · exact exec_fault .aspect rfl rfl (f := { code := .eHashLen, info := 5 }) (if_pos hlen)

/-- Settles O14: DECODE's tests after the header's, in their order. -/
theorem decodeCapacityFaults : Obligations.DecodeCapacityFaults := by
  unfold Obligations.DecodeCapacityFaults
  intro s h ha land f
  have hc := checkDecode_eq h
  refine ⟨fun hcap => ?_, fun hcap hlen => ?_⟩
  · exact exec_fault .decode rfl rfl (hc.trans (if_pos hcap))
  · exact exec_fault .decode rfl rfl (hc.trans ((if_neg (not_lt.mpr hcap)).trans (if_pos hlen)))

/-- Settles O15: the own tests of CT.INV and UNPACK.AC. -/
theorem unitLengthFaults : Obligations.UnitLengthFaults := by
  unfold Obligations.UnitLengthFaults
  refine ⟨fun s hp hcap => ?_, fun s hp hlen => ?_⟩
  · have haccepts : accepts .ctInv s.status.phase = true := by rcases hp with hp | hp <;> rw [hp] <;> rfl
    have hc : checkPixoutCap s = some { code := .ePixCap, info := s.reg .pixoutLen } :=
      if_pos (pixoutCapacity_lt hcap)
    exact exec_fault .ctInv rfl haccepts hc
  · have haccepts : accepts .unpackAc s.status.phase = true := by
      rcases hp with hp | hp | hp | hp <;> rw [hp] <;> rfl
    have hc : checkTruncated s = some { code := .eTrunc, info := s.reg .reqLen } := if_pos hlen
    exact exec_fault .unpackAc rfl haccepts hc

end Sys2Proof.Machine
end

section
/-! Reads of the slave interface (R62, R66, R67, R72): what they return and that they change nothing. -/

namespace Sys2Proof.Machine

/-- R62: what an idle read returns depends on the registers, the memories, STATUS, the word in flight and the number of
resets alone; the events, the answers and the draws play no part. -/
theorem idleRead_fields (s : State) (host : List Event) (reply : Reply) (draws : Nat) (off width : Nat) :
    State.idleRead { s with host := host, reply := reply, draws := draws } off width = s.idleRead off width := rfl

/-- A step that is an accepted read while idle. -/
theorem step_idleRead {s : State} {off width : Nat} {rest : List Event} (hi : s.inflight = none)
    (hh : s.host = .access (.read off width) :: rest) (ho : off < 0x80000) (ha : acceptedAccess off width = true) :
    step s = .next { s with host := rest, reply := .data (s.idleRead off width), draws := s.draws + 1 } := by
  rw [step_read hh ho ha, idle_readData (s := s.tick) hi, State.tick, idleRead_fields]

/-- The answer of a read step, refused or not; nothing else changes but the events and the draws. -/
theorem step_read_any {s : State} {off width : Nat} {rest : List Event} (ho : off < 0x80000)
    (hh : s.host = .access (.read off width) :: rest) :
    ∃ r, step s = .next { s with host := rest, reply := r, draws := s.draws + 1 } ∧ r ≠ .written ∧ r ≠ .idle := by
  cases ha : acceptedAccess off width with
  | true => exact ⟨_, step_read hh ho ha, by simp, by simp⟩
  | false => exact ⟨_, step_refused (.inl rfl) ho hh ha, by simp, by simp⟩

/-- Settles O17: the second read finds the state of the first. -/
theorem readsChangeNothing : Obligations.ReadsChangeNothing := by
  unfold Obligations.ReadsChangeNothing
  refine ⟨fun s off width rest ho hh => step_read_any ho hh, fun s off width rest hi ho hh => ?_⟩
  cases ha : acceptedAccess off width with
  | true => exact ⟨_, _, step_idleRead hi hh ho ha, step_idleRead hi rfl ho ha, rfl⟩
  | false => exact ⟨_, _, step_refused (.inl rfl) ho hh ha, step_refused (.inl rfl) ho rfl ha, rfl⟩

/-! ### Idle reads, region by region -/

theorem idleRead_register {s : State} {off width : Nat} {n : RegName} {a : RegAccess} (ho : off < 0x200)
    (h : registerAt off = some (n, a)) : s.idleRead off width = s.readRegister n := by
  simp only [State.idleRead, regionOf_registers ho, h]

theorem idleRead_reserved {s : State} {off width : Nat} (ho : off < 0x200) (h : registerAt off = none) :
    s.idleRead off width = 0 := by
  simp only [State.idleRead, regionOf_registers ho, h]

/-- R43: a stored register is read at its offset. -/
theorem idleRead_stored {s : State} {off width : Nat} {r : Reg}
    (h : (off, r) ∈ controlOffsets ++ gridOffsets ++ floatOffsets) : s.idleRead off width = s.reg r := by
  obtain ⟨hat, ho, -⟩ := registerAt_offsets (off, r) h
  obtain ⟨⟨n, a⟩, hrow, rfl⟩ := Option.map_eq_some_iff.mp hat
  exact idleRead_register ho hrow

/-- R23: the aligned offsets below 0x200 that no row of the register map names. -/
theorem registerAt_reserved : ∀ k < 128,
    (0x018 ≤ 4 * k ∧ 4 * k < 0x020) ∨ (0x044 ≤ 4 * k ∧ 4 * k < 0x050) ∨ 4 * k = 0x0BC ∨
      (0x11C ≤ 4 * k ∧ 4 * k < 0x200) → registerAt (4 * k) = none := by decide

/-- R61, R62: a word read of a memory is the four bytes at its offset. -/
theorem idleRead_memory {s : State} {off : Nat} (h : mappedByte off = true) : s.idleRead off 4 = s.wordAt off := by
  unfold mappedByte at h
  unfold State.idleRead
  cases hr : regionOf off <;> rw [hr] at h <;> first | rfl | cases h

/-- R62: a byte read of a byte memory is the byte, zero-extended. -/
theorem idleRead_byte {s : State} {off : Nat}
    (h : (0x200 ≤ off ∧ off < 0x220) ∨ (0x2000 ≤ off ∧ off < 0x4000) ∨ (0x10000 ≤ off ∧ off < 0x19C40)) :
    s.idleRead off 1 = (s.byteAt off).setWidth 32 := by
  unfold State.idleRead
  rcases h with h | h | h
  · rw [regionOf_hash h.1 h.2]; rfl
  · rw [regionOf_pixout h.1 h.2]; rfl
  · rw [regionOf_pixin h.1 h.2]; rfl

/-- R61: byte k of a word. -/
theorem wordAt_byte (s : State) (off : Nat) {k : Nat} (hk : k < 4) :
    (s.wordAt off).extractLsb' (8 * k) 8 = s.byteAt (off + k) := by
  obtain ⟨h0, h1, h2, h3⟩ :=
    wordOfBytes_extract (s.byteAt off) (s.byteAt (off + 1)) (s.byteAt (off + 2)) (s.byteAt (off + 3))
  have hcases : k = 0 ∨ k = 1 ∨ k = 2 ∨ k = 3 := by omega
  rcases hcases with rfl | rfl | rfl | rfl
  · exact h0
  · exact h1
  · exact h2
  · exact h3

theorem byteAt_of_read {s : State} {a : Nat} {b : Byte} (h : s.mem.read a = some b) : s.byteAt a = b := by
  rw [State.byteAt, h, Option.getD_some]

/-- R26: STATUS as the idle engine shows it. -/
theorem statusWord_idle {s : State} (hi : s.inflight = none) : s.statusWord.toNat =
    (if s.status.done then 2 else 0) + (if s.status.fault then 4 else 0) + (if s.status.ovr then 8 else 0) +
      256 * s.status.phase.code.toNat := by
  rw [State.statusWord_toNat, (not_busy_iff s).mpr hi, if_neg Bool.false_ne_true, Nat.zero_add]

/-- Settles O18: the read step with the value of the region that the offset lies in. -/
theorem idleReadsReturnTheState : Obligations.IdleReadsReturnTheState := by
  unfold Obligations.IdleReadsReturnTheState
  intro s off rest hi
  constructor
  · intro hh hal
    have read : ∀ v, off < 0x80000 → s.idleRead off 4 = v →
        step s = .next { s with host := rest, reply := .data v, draws := s.draws + 1 } := fun v ho hv => by
      rw [step_idleRead hi hh ho ((acceptedAccess_iff ho).mpr (.inl ⟨rfl, hal⟩)), hv]
    refine ⟨fun r hr => ?_, fun h => ?_, fun h => ?_, fun h => ?_, fun h => ?_⟩
    · have hbound : off < 0x200 := (registerAt_offsets (off, r) hr).2.1
      exact read _ (by omega) (idleRead_stored hr)
    · subst h
      exact read _ (by decide) (idleRead_register (off := 0) (n := .id) (a := .ro) (by decide) (by decide))
    · subst h
      have hstatus : s.idleRead 8 4 = s.statusWord :=
        idleRead_register (off := 8) (n := .status) (a := .ro) (by decide) (by decide)
      exact ⟨_, read _ (by decide) hstatus, statusWord_idle hi⟩
    · by_cases hreg : off < 0x200
      · refine read _ (by omega) ?_
        by_cases hcmd : off = 0x004
        · subst hcmd
          exact idleRead_register (off := 4) (n := .cmd) (a := .wo) (by decide) (by decide)
        · have hreserved := registerAt_reserved (off / 4) (by omega)
          rw [show 4 * (off / 4) = off by omega] at hreserved
          exact idleRead_reserved hreg (hreserved (by omega))
      · exact read _ (by omega) (idle_hole (by omega))
    · have hbound := (mappedByte_iff off).mp h
      exact ⟨_, read _ (by omega) (idleRead_memory h), fun k hk => wordAt_byte s off hk,
        fun k hk b hb => (wordAt_byte s off hk).trans (byteAt_of_read hb)⟩
  · intro hh
    have read : ∀ v, off < 0x80000 →
        ¬ (off < 0x200 ∨ (0x400 ≤ off ∧ off < 0x600) ∨ (0x40000 ≤ off ∧ off % 0x10000 < 0x9C40)) →
        s.idleRead off 1 = v →
        step s = .next { s with host := rest, reply := .data v, draws := s.draws + 1 } := fun v ho hbytes hv => by
      rw [step_idleRead hi hh ho ((acceptedAccess_iff ho).mpr (.inr ⟨rfl, hbytes⟩)), hv]
    refine ⟨fun b h hb => ?_, fun h => ?_, fun h => ?_⟩
    · exact read _ (by omega) (by omega) ((idleRead_byte h).trans (by rw [byteAt_of_read hb]))
    · exact read _ (by omega) (by omega) (idleRead_byte h)
    · exact read _ (by omega) (by omega) (idle_hole h)

/-! ### The reset values -/

/-- R43: the map's rows hold the reset values that `State.reset` reads as. -/
theorem reset_idleRead : ∀ k < 128, State.reset.idleRead (4 * k) 4 =
    if 4 * k = 0x000 then 0x54480100 else if 4 * k = 0x02C then 32 else if 4 * k = 0x034 then 8192 else 0 := by
  decide

/-- Settles O23: the read step on the reset state, offset by offset. -/
theorem registersReadTheirResetValues : Obligations.RegistersReadTheirResetValues := by
  unfold Obligations.RegistersReadTheirResetValues
  intro k hk
  have ho : 4 * k < 0x80000 := by omega
  refine ⟨_, step_idleRead rfl rfl ho ((acceptedAccess_iff ho).mpr (.inl ⟨rfl, by omega⟩)), ?_⟩
  rw [← reset_idleRead k hk]
  rfl

end Sys2Proof.Machine
end

section
/-! Writes of the slave interface (R23, R29, R61, R64, R66), and all accesses while a command runs (R72). -/

namespace Sys2Proof.Machine

/-! ### Registers -/

/-- The RW rows of R43 that hold a stored register. -/
def writableOffsets : List (Nat × Reg) :=
  [(0x00C, .ie), (0x020, .imgW), (0x024, .imgH), (0x028, .pixinLen), (0x02C, .hashCap), (0x030, .hashLen),
    (0x034, .pixoutCap), (0x038, .scanNx), (0x03C, .scanNy), (0x040, .scanIdx)]

/-- The stored register of an RW row. -/
def rwRegister : Option (RegName × RegAccess) → Option Reg
  | some (.stored r, .rw) => some r
  | _ => none

/-- The writable register at an offset, if there is one. -/
def writableAt (off : Nat) : Option Reg := (writableOffsets.find? (fun row => row.1 == off)).map Prod.snd

/-- R43: the map's RW rows are `writableOffsets`, offset by offset. -/
theorem rwRegister_registerAt : ∀ k < 128, rwRegister (registerAt (4 * k)) = writableAt (4 * k) := by decide

theorem writableOffsets_unique : ∀ p ∈ writableOffsets, ∀ q ∈ writableOffsets, p.1 = q.1 → p.2 = q.2 := by decide

theorem writableOffsets_lt : ∀ p ∈ writableOffsets, p.1 < 0x200 := by decide

/-- R23, R29: a write replaces an RW register; of IE it keeps bits 1 and 2. -/
theorem writeRegister_rw (s : State) (r : Reg) (v : Word) :
    s.writeRegister (.stored r) .rw v = s.setReg r (if r = .ie then v &&& 6 else v) := by
  by_cases h : r = .ie
  · subst h; rfl
  · rw [if_neg h]
    cases r <;> first | rfl | exact absurd rfl h

/-- R23: a write to a register that is not RW changes nothing. -/
theorem writeRegister_not_rw (s : State) (n : RegName) {a : RegAccess} (h : ∀ r, (n, a) ≠ (.stored r, .rw)) (v : Word) :
    s.writeRegister n a v = s := by
  unfold State.writeRegister
  split
  · exact absurd rfl (h .ie)
  · exact absurd rfl (h _)
  · rfl

theorem writableAt_eq_none {off : Nat} (h : 0x200 ≤ off) : writableAt off = none := by
  rw [writableAt, List.find?_eq_none.mpr, Option.map_none]
  intro row hrow heq
  have hlt := writableOffsets_lt row hrow
  rw [eq_of_beq heq] at hlt
  omega

theorem mem_writableOffsets_iff (off : Nat) (r : Reg) : (off, r) ∈ writableOffsets ↔ writableAt off = some r := by
  constructor
  · intro h
    cases hf : writableOffsets.find? (fun row => row.1 == off) with
    | none => exact absurd (beq_self_eq_true off) (List.find?_eq_none.mp hf (off, r) h)
    | some row =>
      have hrow := writableOffsets_unique row (List.mem_of_find?_eq_some hf) (off, r) h
        (eq_of_beq (List.find?_some (p := fun row : Nat × Reg => row.1 == off) hf))
      rw [writableAt, hf, Option.map_some, hrow]
  · intro h
    obtain ⟨row, hf, rfl⟩ := Option.map_eq_some_iff.mp h
    have hoff := eq_of_beq (List.find?_some (p := fun row : Nat × Reg => row.1 == off) hf)
    exact hoff ▸ List.mem_of_find?_eq_some hf

/-- R23, R64: an idle write below 0x200 replaces the writable register at the offset, or nothing. -/
theorem idleWrite_registers (s : State) {off : Nat} (ho : off < 0x200) (hal : off % 4 = 0) (width : Nat) (v : Word) :
    s.idleWrite off width v =
      ((writableAt off).map fun r => s.setReg r (if r = .ie then v &&& 6 else v)).getD s := by
  have hrow := rwRegister_registerAt (off / 4) (by omega)
  rw [show 4 * (off / 4) = off by omega] at hrow
  rw [← hrow, State.idleWrite, regionOf_registers ho]
  show (match registerAt off with | some (n, access) => s.writeRegister n access v | none => s) = _
  cases registerAt off with
  | none => rfl
  | some p =>
    obtain ⟨n, a⟩ := p
    show s.writeRegister n a v = _
    unfold rwRegister
    split
    next r heq =>
      cases heq
      exact writeRegister_rw s r v
    next hne => exact writeRegister_not_rw s n (fun r h => hne r (congrArg some h)) v

/-- R64, R66: outside the byte memories an idle write replaces the writable register at the offset, or nothing. -/
theorem idleWrite_outside_buffers (s : State) {off width : Nat} (v : Word) (ho : off < 0x80000)
    (ha : acceptedAccess off width = true) (h1 : ¬ (0x200 ≤ off ∧ off < 0x220))
    (h2 : ¬ (0x2000 ≤ off ∧ off < 0x4000)) (h3 : ¬ (0x10000 ≤ off ∧ off < 0x19C40)) :
    s.idleWrite off width v =
      ((writableAt off).map fun r => s.setReg r (if r = .ie then v &&& 6 else v)).getD s := by
  by_cases hreg : off < 0x200
  · have hal := (acceptedAccess_iff ho).mp ha
    exact idleWrite_registers s hreg (by omega) width v
  · rw [writableAt_eq_none (not_lt.mp hreg)]
    exact idleWrite_other hreg h1 h2 h3 width

/-- Settles O19: the idle write step, with the writable register at the offset or without one. -/
theorem registerWrites : Obligations.RegisterWrites := by
  unfold Obligations.RegisterWrites
  intro s off width v rest hi ho hcmd h1 h2 h3 hw hh
  have ha : acceptedAccess off width = true := (acceptedAccess_iff ho).mpr (by omega)
  have htail : s.tick.host = rest := by rw [State.tick_host, hh, List.tail_cons]
  have hstep := step_idleWrite hi hh ho ha hcmd
  rw [idleWrite_outside_buffers s.tick v ho ha h1 h2 h3] at hstep
  refine ⟨_, hstep, ?_⟩
  simp only [← writableOffsets.eq_1, mem_writableOffsets_iff]
  cases writableAt off with
  | none => exact ⟨rfl, hi, rfl, htail, rfl, fun _ => rfl⟩
  | some r =>
    refine ⟨rfl, hi, rfl, htail, rfl, fun q => ?_⟩
    show State.reg (s.tick.setReg r _) q = _
    rw [State.reg_setReg, State.tick_reg]
    by_cases hq : r = q
    · subst hq
      rw [if_pos rfl, if_pos rfl]
    · rw [if_neg hq, if_neg fun h => hq (Option.some.inj h)]

/-! ### Byte memories -/

/-- R64: an idle write to a byte memory replaces the bytes at the offset. -/
theorem idleWrite_buffer (s : State) {off : Nat} (width : Nat) (v : Word)
    (h : (0x200 ≤ off ∧ off < 0x220) ∨ (0x2000 ≤ off ∧ off < 0x4000) ∨ (0x10000 ≤ off ∧ off < 0x19C40)) :
    s.idleWrite off width v = s.writeBytes off ((bytesOfWord v).take width) := by
  unfold State.idleWrite
  rcases h with h | h | h
  · rw [regionOf_hash h.1 h.2]
  · rw [regionOf_pixout h.1 h.2]
  · rw [regionOf_pixin h.1 h.2]

/-- R61: byte k of the bytes that a write of `width` bytes brings. -/
theorem bytesOfWord_take_getElem? (v : Word) {k width : Nat} (hk : k < width) (hw : width = 1 ∨ width = 4) :
    ((bytesOfWord v).take width)[k]? = some (v.extractLsb' (8 * k) 8) := by
  have hcases : k = 0 ∨ k = 1 ∨ k = 2 ∨ k = 3 := by omega
  rw [List.getElem?_take_of_lt hk]
  rcases hcases with rfl | rfl | rfl | rfl <;> rfl

/-- R61, R62: a word written at an offset of a memory reads back there. -/
theorem wordAt_writeBytes_word (s : State) (off : Nat) (v : Word) : (s.writeBytes off (bytesOfWord v)).wordAt off = v := by
  have h := s.wordAt_writeWords off [v] 0 Nat.zero_lt_one
  rwa [List.flatMap_cons, List.flatMap_nil, List.append_nil] at h

/-- R62: a zero-extended low byte is the word masked. -/
theorem lowByte_setWidth (v : Word) : (v.extractLsb' 0 8).setWidth 32 = v &&& 0x000000FF := by
  apply BitVec.eq_of_toNat_eq
  rw [BitVec.toNat_and, show (0x000000FF : Word).toNat = 2 ^ 8 - 1 from rfl, Nat.and_two_pow_sub_one_eq_mod,
    BitVec.toNat_setWidth_of_le (by decide), BitVec.extractLsb'_toNat, Nat.shiftRight_zero]

/-- R61, R62: what a read of the offset and width of the last write to a byte memory returns. -/
theorem idleRead_writeBytes (s : State) {off width : Nat} (v : Word) (hw : width = 1 ∨ width = 4)
    (h : (0x200 ≤ off ∧ off < 0x220) ∨ (0x2000 ≤ off ∧ off < 0x4000) ∨ (0x10000 ≤ off ∧ off < 0x19C40)) :
    (s.writeBytes off ((bytesOfWord v).take width)).idleRead off width =
      if width = 1 then v &&& 0x000000FF else v := by
  rcases hw with rfl | rfl
  · rw [if_pos rfl, idleRead_byte h, State.byteAt_writeBytes, if_pos ⟨le_refl _, by simp [bytesOfWord]⟩, Nat.sub_self]
    exact lowByte_setWidth v
  · rw [if_neg (by decide), idleRead_memory ((mappedByte_iff off).mpr (by omega)), List.take_of_length_le (le_refl 4)]
    exact wordAt_writeBytes_word s off v

/-- Settles O20: the write step, then the read step on the bytes it left. -/
theorem bufferReadAfterWrite : Obligations.BufferReadAfterWrite := by
  unfold Obligations.BufferReadAfterWrite
  intro s off width v rest hi hbuf hw hh
  have ho : off < 0x80000 := by omega
  have ha : acceptedAccess off width = true := (acceptedAccess_iff ho).mpr (by omega)
  have hwidth : width = 1 ∨ width = 4 := hw.imp_right And.left
  have hlen : ((bytesOfWord v).take width).length = width := by
    rw [List.length_take, bytesOfWord_length]; omega
  have hwrite := step_idleWrite hi hh ho ha (by omega)
  rw [idleWrite_buffer s.tick width v hbuf] at hwrite
  have hhost : ((s.tick.writeBytes off ((bytesOfWord v).take width)).withReply .written).host =
      .access (.read off width) :: rest := by
    rw [State.withReply_host, State.writeBytes_host, State.tick_host, hh, List.tail_cons]
  refine ⟨_, _, hwrite, step_idleRead hi hhost ho ha, ?_, fun k hk => ?_, fun a ha => ?_, rfl, rfl, hi, rfl, rfl, rfl,
    rfl⟩
  · exact congrArg Reply.data (idleRead_writeBytes s.tick v hwidth hbuf)
  · rw [State.withReply_mem, State.writeBytes_mem, Memory.read_write, hlen, if_pos (by omega), Nat.add_sub_cancel_left]
    exact bytesOfWord_take_getElem? v hk hwidth
  · rw [State.withReply_mem, State.writeBytes_mem, Memory.read_write_outside _ _ _ _ (by rw [hlen]; exact ha)]
    rfl

/-! ### While a command runs -/

theorem registerMap_lt : ∀ row ∈ registerMap, row.1 < 0x200 := by decide

theorem registerAt_eq_none {off : Nat} (h : 0x200 ≤ off) : registerAt off = none := by
  cases hr : registerAt off with
  | none => rfl
  | some p =>
    obtain ⟨row, hrow, rfl, -⟩ := registerAt_mem (n := p.1) (a := p.2) hr
    have := registerMap_lt row hrow
    omega

/-- R62, R72: a byte read while BUSY = 1 has one byte, whatever it is. -/
theorem busyReadValue_byte (s : State) {off : Nat} (h : 0x200 ≤ off) : (s.busyReadValue off 1).toNat < 256 := by
  rw [State.busyReadValue, registerAt_eq_none h]
  show (BitVec.setWidth 32 _).toNat < 256
  rw [BitVec.toNat_setWidth_of_le (by decide)]
  exact BitVec.isLt _

/-- R72: an accepted write while BUSY = 1 is dropped and sets OVR. -/
theorem step_busyWrite {s : State} {off width : Nat} {v : Word} {rest : List Event} (hb : s.busy = true)
    (ho : off < 0x80000) (ha : acceptedAccess off width = true) (hh : s.host = .access (.write off width v) :: rest) :
    step s = .next { s with
      host := rest, reply := .written, draws := s.draws + 1, status := { s.status with ovr := true } } := by
  have hb' : s.tick.busy = true := hb
  rw [step_access hh]
  simp only [busAccess, if_neg (not_le.mpr ho), if_pos ha, hb', if_true]
  rw [tick_eq hh]
  rfl

/-- Settles O21: a dropped write; a read of `busyReadValue`, which shows STATUS, ID and IE. -/
theorem accessesWhileBusy : Obligations.AccessesWhileBusy := by
  unfold Obligations.AccessesWhileBusy
  intro s w off width rest hw ho ha
  have hb : s.busy = true := (busy_iff s).mpr ⟨w, hw⟩
  refine ⟨fun v hh => step_busyWrite hb ho ha hh, fun hh => ?_⟩
  have hdata : s.tick.readData off width = s.tick.busyReadValue off width := if_pos hb
  refine ⟨_, (step_read hh ho ha).trans (by rw [hdata]), ?_, ?_, ?_, ?_⟩
  · rintro rfl; rfl
  · rintro rfl; rfl
  · rintro rfl
    have hstatus := s.statusWord_toNat
    rw [hb, if_pos rfl] at hstatus
    exact hstatus
  · rintro rfl
    have hout := (acceptedAccess_iff ho).mp ha
    exact busyReadValue_byte s.tick (by omega)

/-! ### The one stop of the model -/

/-- A write to CMD is in the window. -/
theorem cmdWrite_ne_outside (s : State) (v : Word) (off : Nat) : cmdWrite s v ≠ .outside off := by
  unfold cmdWrite
  split
  · exact fun h => nomatch h
  · split <;> exact fun h => nomatch h

/-- R66: an access is not the engine's exactly when its offset is at or beyond 0x80000. -/
theorem busAccess_outside_iff (a : HostAccess) (s : State) (off : Nat) : busAccess a s = .outside off ↔
    0x80000 ≤ off ∧ ((∃ width, a = .read off width) ∨ ∃ width v, a = .write off width v) := by
  constructor
  · intro h
    cases a with
    | read o width =>
      by_cases ho : 0x80000 ≤ o
      · cases (if_pos ho).symm.trans h
        exact ⟨ho, .inl ⟨width, rfl⟩⟩
      · simp only [busAccess, if_neg ho] at h
        split at h <;> cases h
    | write o width v =>
      by_cases ho : 0x80000 ≤ o
      · cases (if_pos ho).symm.trans h
        exact ⟨ho, .inr ⟨width, v, rfl⟩⟩
      · simp only [busAccess, if_neg ho] at h
        split_ifs at h
        exact absurd h (cmdWrite_ne_outside _ v off)
  · rintro ⟨ho, ⟨width, rfl⟩ | ⟨width, v, rfl⟩⟩
    · exact if_pos ho
    · exact if_pos ho

/-- The stop of an access is the one of an offset outside the window; commands do not stop. -/
theorem ofBusResult_stop (r : BusResult) : (∀ e, ofBusResult r ≠ .refused e) ∧
    ∀ f, ofBusResult r = .fault f ↔ ∃ off, r = .outside off ∧ f = .outsideWindow off := by
  cases r with
  | outside off =>
    refine ⟨fun e h => (nomatch h), fun f => ⟨fun h => ⟨off, rfl, (Host.Outcome.fault.inj h).symm⟩, ?_⟩⟩
    rintro ⟨o, ho, rfl⟩
    cases ho
    rfl
  | done t => exact ⟨fun e h => (nomatch h), fun f => ⟨fun h => (nomatch h), fun ⟨_, h, _⟩ => (nomatch h)⟩⟩
  | run i t =>
    obtain ⟨u, hu⟩ := exec_next i t
    have hrun : ofBusResult (.run i t) = .next u := hu
    exact ⟨fun e h => (nomatch hrun.symm.trans h),
      fun f => ⟨fun h => (nomatch hrun.symm.trans h), fun ⟨_, h, _⟩ => (nomatch h)⟩⟩

/-- The engine's turn always answers. -/
theorem engineTurn_next (s : State) : ∃ t, engineTurn s = .next t := by
  unfold engineTurn
  cases s.inflight with
  | none => exact ⟨s, rfl⟩
  | some w => exact runWord_next w s

/-- A step that is no access answers a next state. -/
theorem step_no_access {s : State} (h : ∀ a rest, s.host ≠ .access a :: rest) : ∃ t, step s = .next t := by
  rw [step_eq]
  cases hh : s.host with
  | nil =>
    cases s.busy with
    | true => exact engineTurn_next s.tick
    | false => exact ⟨s, rfl⟩
  | cons e rest =>
    cases e with
    | access a => exact absurd hh (h a rest)
    | engine => exact engineTurn_next s.tick
    | reset => exact ⟨_, rfl⟩

/-- Settles O22: only accesses can stop, and only with `busAccess_outside_iff`. -/
theorem onlyAccessesOutsideTheWindowStop : Obligations.OnlyAccessesOutsideTheWindowStop := by
  unfold Obligations.OnlyAccessesOutsideTheWindowStop
  intro s
  by_cases h : ∃ a rest, s.host = .access a :: rest
  · obtain ⟨a, rest, hh⟩ := h
    obtain ⟨hrefused, hfault⟩ := ofBusResult_stop (busAccess a s.tick)
    rw [step_access hh]
    refine ⟨hrefused, fun f => (hfault f).trans ?_⟩
    simp only [busAccess_outside_iff]
    constructor
    · rintro ⟨off, ⟨ho, ha⟩, rfl⟩
      exact ⟨a, off, rest, hh, rfl, ho, ha⟩
    · rintro ⟨b, off, rest', hh', rfl, ho, hb⟩
      cases hh.symm.trans hh'
      exact ⟨off, ⟨ho, hb⟩, rfl⟩
  · obtain ⟨t, ht⟩ := step_no_access fun a rest hh => h ⟨a, rest, hh⟩
    refine ⟨fun r hr => (nomatch ht.symm.trans hr), fun f => ⟨fun hf => (nomatch ht.symm.trans hf), ?_⟩⟩
    rintro ⟨a, -, rest, hh, -⟩
    exact absurd ⟨a, rest, hh⟩ h

end Sys2Proof.Machine
end

section
/-! The reset input (R340), SRST (R282) and CLR (R281). -/

namespace Sys2Proof.Machine

/-- Settles O24: what `State.hardReset` leaves, field by field. -/
theorem resetInput : Obligations.ResetInput := by
  unfold Obligations.ResetInput
  intro s rest hh
  have hstep : step s = .next s.tick.hardReset := by simp only [step_eq, hh]
  have hhost : s.tick.hardReset.host = rest := by rw [State.hardReset_host, State.tick_host, hh, List.tail_cons]
  exact ⟨_, hstep, rfl, rfl, fun r => reset_reg r _ rfl, fun a => ⟨rfl, rfl⟩, rfl,
    State.irq_of_not_done_not_fault rfl rfl, hhost⟩

/-- Settles O32: what `State.resetRegisters` leaves, field by field. -/
theorem srstResetsRegisters : Obligations.SrstResetsRegisters := by
  unfold Obligations.SrstResetsRegisters
  exact fun s => ⟨_, exec_srst s, rfl, rfl, fun _ => rfl, fun r => reset_reg r _ rfl, rfl, rfl, rfl, rfl, rfl⟩

/-- A started command that leaves FAULT where there was none took a fault. -/
theorem exec_took_fault {i : Instr} {s t : State} (hi : immediate i = false) (hf : s.status.fault = false)
    (h : exec i s = .next t) (ht : t.status.fault = true) : ∃ f, t = s.takeFault i.opcode f := by
  rw [exec_eq_runCommand i s hi] at h
  rcases runCommand_cases h with ⟨-, ht⟩ | ⟨-, f, -, ht⟩ | ⟨-, -, rfl⟩
  · exact ⟨_, ht⟩
  · exact ⟨f, ht⟩
  · obtain ⟨-, -, hfault, -⟩ := success_flags i s
    exact absurd ((hfault.trans hf).symm.trans ht) Bool.false_ne_true

/-- R281, R304: acknowledging the fault of a command restores the state before its CMD write, with DONE and OVR 0. -/
theorem acknowledge_takeFault_start {s : State} (hidle : s.inflight = none) (hf : s.status.fault = false)
    (hcause : s.reg .cause = 0) (hfinfo : s.reg .finfo = 0) (w : Word) (op : BitVec 8) (f : EngineFault) :
    ((s.start w).takeFault op f).acknowledge = { s with status := { s.status with done := false, ovr := false } } := by
  have hregs : ((s.start w).takeFault op f).acknowledge.regs = s.regs := State.regs_ext fun r => by
    rw [State.reg_acknowledge, State.reg_takeFault, State.start_reg]
    by_cases h1 : r = .cause
    · rw [if_pos (.inl h1), h1, hcause]
    · by_cases h2 : r = .finfo
      · rw [if_pos (.inr h2), h2, hfinfo]
      · rw [if_neg (not_or.mpr ⟨h1, h2⟩), if_neg h1, if_neg h2]
  obtain ⟨⟨done, fault, ovr, phase⟩, inflight, regs, mem, host, reply, draws, resets⟩ := s
  cases hidle; cases hf
  exact congrArg (fun x => State.mk _ _ x _ _ _ _ _) hregs

/-- Settles O31: `State.acknowledge`, alone and after a fault. -/
theorem clrAcknowledges : Obligations.ClrAcknowledges := by
  unfold Obligations.ClrAcknowledges
  refine ⟨fun s => ⟨_, exec_clr s, rfl, s.reg_acknowledge, rfl, rfl, rfl, rfl, rfl, rfl⟩, ?_⟩
  intro i s t w h1 h2 hidle hf hcause hfinfo he hfault
  obtain ⟨f, rfl⟩ := exec_took_fault (s := s.start w) (not_imm h1 h2) hf he hfault
  rw [exec_clr, acknowledge_takeFault_start hidle hf hcause hfinfo]

end Sys2Proof.Machine
end

section
/-! The grid-size unit (R230 to R232, R235 to R237): the registers that GRID.ENC and GRID.DEC leave. -/

namespace Sys2Proof.Machine

theorem totalCount_eq (ha : Bool) (nx ny : Nat) :
    totalCount ha nx ny = scanCount nx ny + 10 + (if ha = true then 14 else 0) := by
  rw [totalCount, alphaCount, Nat.add_assoc (scanCount nx ny) 5 5]

/-- R230, R235: what the grid registers of a luminance grid read as, with the formulas written out. -/
theorem gridRegs_formulas {s : State} {ha : Bool} {g : Nat × Nat} (hg : GridSize g)
    (h : ∀ p ∈ gridRegs ha g.1 g.2, s.reg p.1 = p.2) :
    let nacL := (scan g.1 g.2).length
    let total := nacL + 10 + (if ha = true then 14 else 0)
    let hdr := if ha = true then 6 else 5
    s.nat (.nx .L) = g.1 ∧ s.nat (.ny .L) = g.2 ∧ s.nat (.nx .P) = 3 ∧ s.nat (.ny .P) = 3 ∧ s.nat (.nx .Q) = 3 ∧
      s.nat (.ny .Q) = 3 ∧ s.nat (.nx .A) = (if ha = true then 5 else 0) ∧
      s.nat (.ny .A) = (if ha = true then 5 else 0) ∧ s.nat (.nac .L) = nacL ∧ s.nat (.nac .P) = 5 ∧
      s.nat (.nac .Q) = 5 ∧ s.nat (.nac .A) = (if ha = true then 14 else 0) ∧ s.nat .nacTotal = total ∧
      s.nat .hdrLen = hdr ∧ s.nat .reqLen = hdr + (total + 1) / 2 := by
  intro nacL total hdr
  have hvalues := gridRegs_values s hg h
  rw [requiredLength, totalCount_eq] at hvalues
  exact hvalues

/-! ### GRID.ENC -/

/-- R231: the encoder's lx, ly and LFIELD as registers. -/
theorem gridEncEffect_nat (s : State) :
    (gridEncEffect s).nat .lx = (encL Config.tie (s.nat .plW) (s.nat .plH) s.hasAlpha).1 ∧
      (gridEncEffect s).nat .ly = (encL Config.tie (s.nat .plW) (s.nat .plH) s.hasAlpha).2 ∧
      (gridEncEffect s).nat .isLandscape = (if s.nat .plH < s.nat .plW then 1 else 0) ∧
      (gridEncEffect s).nat .lfield = (if s.nat .plH < s.nat .plW
        then (encL Config.tie (s.nat .plW) (s.nat .plH) s.hasAlpha).2
        else (encL Config.tie (s.nat .plW) (s.nat .plH) s.hasAlpha).1) := by
  obtain ⟨hlx, hly, hland, hfield, -⟩ := gridEncEffect_reg s
  have hb := encL_bounds Config.tie (s.nat .plW) (s.nat .plH) s.hasAlpha
  have hlimit := lLimit_cases s.hasAlpha
  refine ⟨?_, ?_, ?_, ?_⟩
  · rw [State.nat_of_reg hlx, natWord_toNat (by omega)]
  · rw [State.nat_of_reg hly, natWord_toNat (by omega)]
  · rw [State.nat_of_reg hland, boolWord_toNat]
    simp only [decide_eq_true_eq]
  · rw [State.nat_of_reg hfield, natWord_toNat]
    split <;> omega

/-- Settles O34: the encoder's sides, then the grid registers of the grid they give. -/
theorem gridEncCompletes : Obligations.GridEncCompletes := by
  unfold Obligations.GridEncCompletes
  intro s hp w h ha limit lx ly nacL total hdr
  have haccepts : accepts .gridEnc s.status.phase = true := by
    rcases hp with hp | hp | hp | hp <;> rw [hp] <;> rfl
  obtain ⟨hlx, hly, hland, hfield⟩ := gridEncEffect_nat s
  obtain ⟨-, -, -, -, hgrid⟩ := gridEncEffect_reg s
  exact ⟨_, exec_success .gridEnc rfl haccepts rfl, (Frame.gridEncEffect s).completed, hlx, hly, hland, hfield,
    gridRegs_formulas (encGrid_size w h ha) hgrid⟩

/-! ### GRID.DEC -/

/-- R236, R237: the ratio under NUM = binary32, which has the infinity of a zero divisor. -/
theorem aspectOf_num (clamp ha land : Bool) (f : Nat) : aspectOf num clamp ha land f =
    some (num.fdiv (num.i2f (if clamp then decGrid ha land f else rawGrid ha land f).1)
      (num.i2f (if clamp then decGrid ha land f else rawGrid ha land f).2)) :=
  if_neg fun h => Bool.false_ne_true h.2.symm

theorem decRatio_eq (ha land : Bool) (f : Nat) : decRatio ha land f =
    if Config.aspectClamp = true then
      num.fdiv (num.i2f (decGrid ha land f).1) (num.i2f (decGrid ha land f).2)
    else num.fdiv (num.i2f (rawGrid ha land f).1) (num.i2f (rawGrid ha land f).2) := by
  rw [decRatio, ratioOf, aspectOf_num, ratioWord, Option.map_some, Option.getD_some, num_bits32]
  split <;> rfl

/-- R235: the raster of a header from its ratio. -/
theorem decRaster_eq (ha land : Bool) (f : Nat) : decRaster ha land f =
    (if land = true then 32 else num.rnd (num.fmul (num.lit 32 1) (decRatio ha land f)),
      if land = true then num.rnd (num.fdiv (num.lit 32 1) (decRatio ha land f)) else 32) := by
  have hratio : aspectOf num Config.aspectClamp ha land f = some (decRatio ha land f) := by
    rw [decRatio, ratioOf, ratioWord, aspectOf_num, Option.map_some, Option.getD_some, num_bits32]
  rw [decRaster, rasterOf, hratio, rasterSize]
  cases land
  · simp only [Bool.false_eq_true, if_false]
  · simp only [if_true]

/-- R235: the registers of GRID.DEC besides the grid's. -/
theorem gridDecEffect_nat {s : State} (hf : s.nat .lfield ≤ 7) :
    (gridDecEffect s).nat .lx = (decGrid s.hasAlpha s.landscape (s.nat .lfield)).1 ∧
      (gridDecEffect s).nat .ly = (decGrid s.hasAlpha s.landscape (s.nat .lfield)).2 ∧
      (gridDecEffect s).reg .ratio = decRatio s.hasAlpha s.landscape (s.nat .lfield) ∧
      (gridDecEffect s).nat .outW = (decRaster s.hasAlpha s.landscape (s.nat .lfield)).1 ∧
      (gridDecEffect s).nat .outH = (decRaster s.hasAlpha s.landscape (s.nat .lfield)).2 ∧
      (gridDecEffect s).nat .pixoutLen = decPixoutLen s.hasAlpha s.landscape (s.nat .lfield) := by
  have hregs : ∀ r v, (r, v) ∈ decRegs s.hasAlpha s.landscape (s.nat .lfield) → (gridDecEffect s).reg r = v :=
    fun r v h => gridDecEffect_reg s (r, v) h
  obtain ⟨-, hx7, -, hy7⟩ := decGrid_size s.hasAlpha s.landscape hf
  obtain ⟨hw45, hh45, hlen⟩ := decRaster_bounds s.hasAlpha s.landscape hf
  obtain ⟨hw, hh, hp⟩ := decRegs_raster s.hasAlpha s.landscape (s.nat .lfield)
  refine ⟨?_, ?_, ?_, ?_, ?_, ?_⟩
  · rw [State.nat_of_reg (hregs .lx _ List.mem_cons_self), natWord_toNat (by omega)]
  · rw [State.nat_of_reg (hregs .ly _ (List.mem_cons_of_mem _ List.mem_cons_self)), natWord_toNat (by omega)]
  · exact hregs .ratio _ (List.mem_append_right _ List.mem_cons_self)
  · rw [State.nat_of_reg (hregs .outW _ hw), natWord_toNat (by omega)]
  · rw [State.nat_of_reg (hregs .outH _ hh), natWord_toNat (by omega)]
  · rw [State.nat_of_reg (hregs .pixoutLen _ hp), natWord_toNat (by omega)]

/-- Settles O38: the decoder's sides and ratio, then the grid registers of the grid they give, and the raster. -/
theorem gridDecCompletes : Obligations.GridDecCompletes := by
  unfold Obligations.GridDecCompletes
  intro s hp hf ha land f limit lx ly nacL total hdr ratio outW outH
  have haccepts : accepts .gridDec s.status.phase = true := by
    rcases hp with hp | hp | hp | hp | hp <;> rw [hp] <;> rfl
  have hgrid : ∀ p ∈ gridRegs ha (decGrid ha land f).1 (decGrid ha land f).2, (gridDecEffect s).reg p.1 = p.2 :=
    fun p hp => gridDecEffect_reg s p (List.mem_append_left _ (List.mem_append_right _ hp))
  obtain ⟨hlx, hly, hratio, hw, hh, hlen⟩ := gridDecEffect_nat hf
  obtain ⟨hnxL, hnyL, hnxP, hnyP, hnxQ, hnyQ, hnxA, hnyA, hnacL, hnacP, hnacQ, hnacA, htotal, hhdr, hreq⟩ :=
    gridRegs_formulas (decGrid_size ha land hf) hgrid
  have eratio : ratio = decRatio ha land f := (decRatio_eq ha land f).symm
  have eraster : decRaster ha land f = (outW, outH) := by
    rw [decRaster_eq, ← eratio]
  rw [← eratio] at hratio
  rw [eraster] at hw hh
  rw [decPixoutLen_eq, eraster] at hlen
  -- from here on the formulas are opaque names, so that no comparison of terms evaluates binary32
  clear_value outW outH ratio
  exact ⟨_, exec_success .gridDec rfl haccepts rfl, (Frame.gridDecEffect s).completed, hlx, hly, hnxL, hnyL, hnxP, hnyP,
    hnxQ, hnyQ, hnxA, hnyA, hnacL, hnacP, hnacQ, hnacA, htotal, hhdr, hreq, hratio, hw, hh, hlen⟩

end Sys2Proof.Machine
end

section
/-! The header of a hash (R99 to R102, R210, R211): its fields as numbers, UNPACK.HDR, AVGCOLOR (R270) and ASPECT (R273). -/

namespace Sys2Proof.Machine

/-! ### Fields as numbers -/

theorem toNat_extract {n : Nat} (v : BitVec n) (lo width : Nat) :
    (v.extractLsb' lo width).toNat = v.toNat / 2 ^ lo % 2 ^ width := by
  rw [BitVec.extractLsb'_toNat, Nat.shiftRight_eq_div_pow]

theorem toNat_append_add {m n : Nat} (a : BitVec m) (b : BitVec n) :
    (a ++ b).toNat = b.toNat + 2 ^ n * a.toNat := by
  rw [BitVec.toNat_append, ← Nat.shiftLeft_add_eq_or_of_lt b.isLt, Nat.shiftLeft_eq]
  ring

/-- The highest bit of a word as a number. -/
theorem highBit_toNat {k : Nat} (v : BitVec (k + 1)) : (if v.getLsbD k = true then 1 else 0) = v.toNat / 2 ^ k := by
  have hlt : v.toNat / 2 ^ k < 2 := by
    rw [Nat.div_lt_iff_lt_mul (by positivity)]
    have := v.isLt
    omega
  rw [BitVec.getLsbD, Nat.testBit_eq_decide_div_mod_eq]
  simp only [decide_eq_true_eq]
  generalize v.toNat / 2 ^ k = bit at hlt ⊢
  split <;> omega

/-- R99: the 24-bit header word from its bytes. -/
theorem State.hashHdr24_toNat (s : State) :
    s.hashHdr24.toNat = (s.hash 0).toNat + 2 ^ 8 * (s.hash 1).toNat + 2 ^ 16 * (s.hash 2).toNat := by
  rw [State.hashHdr24, toNat_append_add, toNat_append_add]
  ring

/-- R99: the 16-bit header word from its bytes. -/
theorem State.hashHdr16_toNat (s : State) :
    s.hashHdr16.toNat = (s.hash 3).toNat + 2 ^ 8 * (s.hash 4).toNat := by
  rw [State.hashHdr16, toNat_append_add]

/-! ### De-quantised fields (R211), written out -/

theorem dequantLDc_field (h : BitVec 24) : dequantLDc num (lDcField h) =
    num.fdiv (num.i2f (h.toNat / 2 ^ 0 % 2 ^ 6)) (num.lit 63 1) := by
  rw [dequantLDc, lDcField, toNat_extract]

theorem dequantPqDc_pField (h : BitVec 24) : dequantPqDc num (pDcField h) =
    num.fsub (num.fdiv (num.i2f (h.toNat / 2 ^ 6 % 2 ^ 6)) (num.lit 63 2)) (num.lit 1 1) := by
  rw [dequantPqDc, pDcField, toNat_extract, Numerics.one]

theorem dequantPqDc_qField (h : BitVec 24) : dequantPqDc num (qDcField h) =
    num.fsub (num.fdiv (num.i2f (h.toNat / 2 ^ 12 % 2 ^ 6)) (num.lit 63 2)) (num.lit 1 1) := by
  rw [dequantPqDc, qDcField, toNat_extract, Numerics.one]

theorem dequantLScale_field (h : BitVec 24) : dequantLScale num (lScaleField h) =
    num.fdiv (num.i2f (h.toNat / 2 ^ 18 % 2 ^ 5)) (num.lit 31 1) := by
  rw [dequantLScale, lScaleField, toNat_extract]

theorem dequantPqScale_pField (h : BitVec 16) : dequantPqScale num (pScaleField h) =
    num.fdiv (num.i2f (h.toNat / 2 ^ 3 % 2 ^ 6)) (num.lit 63 1) := by
  rw [dequantPqScale, pScaleField, toNat_extract]

theorem dequantPqScale_qField (h : BitVec 16) : dequantPqScale num (qScaleField h) =
    num.fdiv (num.i2f (h.toNat / 2 ^ 9 % 2 ^ 6)) (num.lit 63 1) := by
  rw [dequantPqScale, qScaleField, toNat_extract]

theorem dequantA_dcField (b : Byte) : dequantA num (aDcField b) =
    num.fdiv (num.i2f (b.toNat % 16)) (num.lit 15 1) := by
  rw [dequantA, aDcField, toNat_extract, Nat.pow_zero, Nat.div_one, show 2 ^ 4 = 16 from rfl]

theorem dequantA_scaleField (b : Byte) : dequantA num (aScaleField b) =
    num.fdiv (num.i2f (b.toNat / 16)) (num.lit 15 1) := by
  have hlt : b.toNat / 2 ^ 4 < 2 ^ 4 := by
    have := b.isLt
    omega
  rw [dequantA, aScaleField, toNat_extract, Nat.mod_eq_of_lt hlt, show 2 ^ 4 = 16 from rfl]

/-! ### UNPACK.HDR -/

/-- R210: the header words, the flags and the lengths that UNPACK.HDR leaves, as numbers. -/
theorem unpackHdrEffect_nat (s : State) :
    (unpackHdrEffect s).nat .hdr24 = s.hashHdr24.toNat ∧ (unpackHdrEffect s).nat .hdr16 = s.hashHdr16.toNat ∧
      (unpackHdrEffect s).nat .hasAlpha = s.hashHdr24.toNat / 2 ^ 23 ∧
      (unpackHdrEffect s).nat .isLandscape = s.hashHdr16.toNat / 2 ^ 15 ∧
      (unpackHdrEffect s).nat .lfield = s.hashHdr16.toNat % 8 ∧
      (unpackHdrEffect s).nat .hdrLen = 5 + s.hashHdr24.toNat / 2 ^ 23 ∧
      (unpackHdrEffect s).nat .hdrA = s.unpackHdrA.toNat := by
  have get : ∀ r v, (r, v) ∈ s.unpackedHeader → (unpackHdrEffect s).nat r = v.toNat := fun r v h =>
    State.nat_of_reg (unpackHdrEffect_reg s (r, v) h)
  have hha := get .hasAlpha (boolWord (hasAlphaField s.hashHdr24)) (by simp [State.unpackedHeader])
  have hland := get .isLandscape (boolWord (landscapeField s.hashHdr16)) (by simp [State.unpackedHeader])
  have hlen := get .hdrLen (if hasAlphaField s.hashHdr24 then 6 else 5) (by simp [State.unpackedHeader])
  have hbit : (if hasAlphaField s.hashHdr24 = true then 1 else 0) = s.hashHdr24.toNat / 2 ^ 23 :=
    highBit_toNat (k := 23) s.hashHdr24
  refine ⟨?_, ?_, ?_, ?_, ?_, ?_, ?_⟩
  · rw [get .hdr24 (s.hashHdr24.setWidth 32) (by simp [State.unpackedHeader]), BitVec.toNat_setWidth_of_le (by decide)]
  · rw [get .hdr16 (s.hashHdr16.setWidth 32) (by simp [State.unpackedHeader]), BitVec.toNat_setWidth_of_le (by decide)]
  · rw [hha, boolWord_toNat, hbit]
  · rw [hland, boolWord_toNat]
    exact highBit_toNat (k := 15) s.hashHdr16
  · rw [get .lfield ((lfieldField s.hashHdr16).setWidth 32) (by simp [State.unpackedHeader]),
      BitVec.toNat_setWidth_of_le (by decide), lfieldField_toNat]
  · rw [hlen, ← hbit]
    cases hasAlphaField s.hashHdr24 <;> rfl
  · rw [get .hdrA (s.unpackHdrA.setWidth 32) (by simp [State.unpackedHeader]), BitVec.toNat_setWidth_of_le (by decide)]

/-- R211: a float register of the header after UNPACK.HDR. -/
theorem unpackHdrEffect_dequant (s : State) : ∀ p ∈ dequantHeader num s.hashHdr24 s.hashHdr16 s.unpackHdrA,
    (unpackHdrEffect s).reg p.1 = p.2 := fun p hp =>
  unpackHdrEffect_reg s p (List.mem_append_right _ hp)

/-- R211: the alpha fields after UNPACK.HDR, with and without the alpha header byte. -/
theorem unpackHdrEffect_alpha (s : State) :
    (s.hashHdr24.getLsbD 23 = true → s.unpackHdrA = s.hash 5 ∧
      (unpackHdrEffect s).reg (.dc .A) = num.fdiv (num.i2f ((s.hash 5).toNat % 16)) (num.lit 15 1) ∧
      (unpackHdrEffect s).reg (.sc .A) = num.fdiv (num.i2f ((s.hash 5).toNat / 16)) (num.lit 15 1)) ∧
    (s.hashHdr24.getLsbD 23 = false → s.unpackHdrA = 0 ∧ (unpackHdrEffect s).reg (.dc .A) = 0x3F800000 ∧
      (unpackHdrEffect s).reg (.sc .A) = 0x3F800000) := by
  have hdc := unpackHdrEffect_dequant s (.dc .A, if hasAlphaField s.hashHdr24 then
    dequantA num (aDcField s.unpackHdrA) else num.one) (by simp [dequantHeader])
  have hsc := unpackHdrEffect_dequant s (.sc .A, if hasAlphaField s.hashHdr24 then
    dequantA num (aScaleField s.unpackHdrA) else num.one) (by simp [dequantHeader])
  simp only at hdc hsc
  refine ⟨fun h => ?_, fun h => ?_⟩
  · have hfield : hasAlphaField s.hashHdr24 = true := h
    have hA : s.unpackHdrA = s.hash 5 := by rw [State.unpackHdrA, if_pos hfield]
    rw [if_pos hfield, hA] at hdc hsc
    exact ⟨hA, hdc.trans (dequantA_dcField _), hsc.trans (dequantA_scaleField _)⟩
  · have hfield : ¬ hasAlphaField s.hashHdr24 = true := Bool.eq_false_iff.mp h
    have hA : s.unpackHdrA = 0 := by rw [State.unpackHdrA, if_neg hfield]
    rw [if_neg hfield] at hdc hsc
    exact ⟨hA, hdc.trans num_one, hsc.trans num_one⟩

/-- Settles O37: the header words as numbers, then field by field. -/
theorem unpackHdrCompletes : Obligations.UnpackHdrCompletes := by
  unfold Obligations.UnpackHdrCompletes
  intro s h h24 h16 field field'
  obtain ⟨hh24, hh16, hha, hland, hfield, hlen, hhdrA⟩ := unpackHdrEffect_nat s
  obtain ⟨halpha, hopaque⟩ := unpackHdrEffect_alpha s
  have hreg := unpackHdrEffect_dequant s
  simp only [dequantHeader, List.forall_mem_cons, dequantLDc_field, dequantPqDc_pField, dequantPqDc_qField,
    dequantLScale_field, dequantPqScale_pField, dequantPqScale_qField] at hreg
  obtain ⟨hdcL, hdcP, hdcQ, hscL, hscP, hscQ, -⟩ := hreg
  refine ⟨_, exec_success .unpackHdr rfl rfl (checkHeaderLength_none_iff.mpr h), (Frame.unpackHdrEffect s).completed,
    hh24.trans s.hashHdr24_toNat, hh24, hh16.trans s.hashHdr16_toNat, hh16, hha, hland, hfield, hlen, hdcL, hdcP, hdcQ,
    hscL, hscP, hscQ, fun ha => ?_, fun ha => ?_⟩
  · obtain ⟨hA, hdc, hsc⟩ := halpha ha
    exact ⟨hhdrA.trans (congrArg BitVec.toNat hA), hdc, hsc⟩
  · obtain ⟨hA, hdc, hsc⟩ := hopaque ha
    exact ⟨hhdrA.trans (congrArg BitVec.toNat hA), hdc, hsc⟩

/-! ### AVGCOLOR and ASPECT -/

/-- R171, R270: the colour of a header, written out. -/
theorem headerColor_eq (h : BitVec 24) {l p q b r : Word} (hl : dequantLDc num (lDcField h) = l)
    (hp : dequantPqDc num (pDcField h) = p) (hq : dequantPqDc num (qDcField h) = q)
    (hb : num.fsub l (num.fmul num.twoThirds p) = b)
    (hr : num.fdiv (num.fadd (num.fsub (num.fmul (num.lit 3 1) l) b) q) (num.lit 2 1) = r) :
    headerColor num h = { r := r, g := num.fsub r q, b := b } := by
  rw [headerColor, hl, hp, hq, lpqToRgb]
  simp only [hb, hr]

/-- Settles O46: the colour of the header's DC fields, and the alpha by the header's bit. -/
theorem avgColorCompletes : Obligations.AvgColorCompletes := by
  unfold Obligations.AvgColorCompletes
  intro s h hdr l p q b r
  have hhdr : hdr = s.hashHdr24.toNat := s.hashHdr24_toNat.symm
  have hl : dequantLDc num (lDcField s.hashHdr24) = l := by
    rw [dequantLDc_field, ← hhdr, Nat.pow_zero, Nat.div_one]
    rfl
  have hp : dequantPqDc num (pDcField s.hashHdr24) = p := by
    rw [dequantPqDc_pField, ← hhdr]
    rfl
  have hq : dequantPqDc num (qDcField s.hashHdr24) = q := by
    rw [dequantPqDc_qField, ← hhdr]
    rfl
  have hcolor := headerColor_eq s.hashHdr24 hl hp hq (b := b) (r := r) rfl rfl
  clear_value r b q p l
  obtain ⟨hR, hG, hB, hA⟩ := avgColorEffect_reg s
  rw [hcolor] at hR hG hB
  have hphase : (avgColorEffect s).status.phase = s.status.phase := effectOf_phase .avgColor s (by decide)
  refine ⟨_, exec_success .avgColor rfl rfl (checkHeaderLength_none_iff.mpr h),
    hphase ▸ (Frame.avgColorEffect s).completed, hR, hG, hB, Eq.trans hA ?_⟩
  rw [dequantA_dcField, num_one, hasAlphaField, hdr24_bit]

/-- Settles O47: the ratio that ASPECT leaves is GRID.DEC's for the header's bits. -/
theorem aspectCompletes : Obligations.AspectCompletes := by
  unfold Obligations.AspectCompletes
  intro s h limit f rx ry
  have hreg : (aspectEffect s).reg .aspectRatio = decRatio ((s.hash 2).getLsbD 7) ((s.hash 4).getLsbD 7) f := by
    rw [aspectEffect, State.reg_setReg_same, lfield_hash, hasAlphaField, landscapeField, hdr24_bit, hdr16_bit]
  have hcheck : checkAspectLength s = none := if_neg (by omega)
  have hphase : (aspectEffect s).status.phase = s.status.phase := effectOf_phase .aspect s (by decide)
  refine ⟨_, exec_success .aspect rfl rfl hcheck, hphase ▸ (Frame.aspectEffect s).completed, fun hc => ?_, fun hc => ?_,
    hreg⟩
  · exact hreg.trans ((decRatio_eq _ _ f).trans (if_pos hc))
  · exact hreg.trans ((decRatio_eq _ _ f).trans (if_neg (Bool.eq_false_iff.mp hc)))

end Sys2Proof.Machine
end

section
/-! DCT.FWD (R182, R183): the terms of the scan list, their largest magnitude, and the normalised coefficients. -/

namespace Sys2Proof.Machine

/-! ### The largest magnitude (R183) -/

/-- R131: when one value is greater than another. -/
theorem num_fgt_iff (a b : Word) : num.fgt a b = true ↔
    Binary32.isNaN a = false ∧ Binary32.isNaN b = false ∧ Binary32.orderKey b < Binary32.orderKey a := by
  show Binary32.flt b a = true ↔ _
  rw [Binary32.flt, Bool.and_eq_true, Bool.and_eq_true, Bool.not_eq_true', Bool.not_eq_true', decide_eq_true_eq]
  tauto

/-- What is not above `m` is not above what is above `m`. -/
theorem num_fgt_eq_false_of_fgt {a b m : Word} (ha : num.fgt a m = false) (hb : num.fgt b m = true) :
    num.fgt a b = false := by
  rw [← Bool.not_eq_true, num_fgt_iff] at ha ⊢
  rw [num_fgt_iff] at hb
  rintro ⟨hna, -, hlt⟩
  exact ha ⟨hna, hb.2.1, hb.2.2.trans hlt⟩

theorem num_fgt_self (a : Word) : num.fgt a a = false := by
  rw [← Bool.not_eq_true, num_fgt_iff]
  exact fun h => absurd h.2.2 (lt_irrefl _)

/-- One step of R183's maximum. -/
def maxStep (m v : Word) : Word := if num.fgt (num.fabs v) m then num.fabs v else m

/-- The running maximum never falls. -/
theorem maxStep_keeps {x m : Word} (v : Word) (h : num.fgt x m = false) : num.fgt x (maxStep m v) = false := by
  unfold maxStep
  split
  next hv => exact num_fgt_eq_false_of_fgt h hv
  next => exact h

theorem fabs_not_above_maxStep (m v : Word) : num.fgt (num.fabs v) (maxStep m v) = false := by
  unfold maxStep
  split
  next => exact num_fgt_self _
  next hv => exact Bool.eq_false_iff.mpr hv

theorem foldl_maxStep_keeps {x m : Word} (raw : List Word) (h : num.fgt x m = false) :
    num.fgt x (raw.foldl maxStep m) = false := by
  induction raw generalizing m with
  | nil => exact h
  | cons v raw ih => exact ih (maxStep_keeps v h)

/-- No magnitude of the list is above the running maximum. -/
theorem fabs_not_above_foldl (raw : List Word) (m : Word) :
    ∀ v ∈ raw, num.fgt (num.fabs v) (raw.foldl maxStep m) = false := by
  induction raw generalizing m with
  | nil => exact fun _ h => (nomatch h)
  | cons u raw ih =>
    intro v hv
    rcases List.mem_cons.mp hv with rfl | hv
    · exact foldl_maxStep_keeps raw (fabs_not_above_maxStep m v)
    · exact ih _ v hv

/-- The running maximum is its start or one of the magnitudes. -/
theorem foldl_maxStep_mem (raw : List Word) (m : Word) :
    raw.foldl maxStep m = m ∨ ∃ v ∈ raw, raw.foldl maxStep m = num.fabs v := by
  induction raw generalizing m with
  | nil => exact .inl rfl
  | cons u raw ih =>
    rw [List.foldl_cons]
    rcases ih (maxStep m u) with h | ⟨v, hv, h⟩
    · by_cases hu : num.fgt (num.fabs u) m = true
      · exact .inr ⟨u, List.mem_cons_self, h.trans (if_pos hu)⟩
      · exact .inl (h.trans (if_neg hu))
    · exact .inr ⟨v, List.mem_cons_of_mem u hv, h⟩

theorem maxMagnitude_eq (raw : List Word) : maxMagnitude num raw = raw.foldl maxStep 0x00000000 := by
  have hstep : (fun m v => if num.fgt (num.fabs v) m = true then num.fabs v else m) = maxStep := by
    funext m v
    rw [maxStep]
  rw [maxMagnitude, num_zero, hstep]

/-! ### The terms -/

/-- R183: F(cx, cy) with the cosine and the sum written out. -/
theorem fwdTerm_eq (cosAt : Nat → Nat → Nat → Word)
    (hcos : ∀ n freq pos, cosAt n freq pos = num.cosf (num.fmul (num.fmul (num.fdiv num.pi (num.i2f n)) (num.i2f freq))
      (num.fadd (num.i2f pos) (num.lit 1 2)))) (plane : Nat → Word) (w h cx cy : Nat) : fwdTerm num plane w h cx cy =
    num.fmul (num.fdiv (num.lit 1 1) (num.i2f (w * h)))
      ((List.range h).foldl (fun sum y => (List.range w).foldl (fun sum x =>
        num.fadd sum (num.fmul (num.fmul (plane (y * w + x)) (cosAt w cx x)) (cosAt h cy y))) sum)
        0x00000000) := by
  have hfwdCos : fwdCos num = cosAt := by
    funext n freq pos
    rw [hcos, fwdCos]
  rw [fwdTerm, num_zero, Numerics.one, hfwdCos]

/-- R183: the raw terms of a channel's scan list. -/
def State.rawTerms (s : State) (c : Channel) : List Word :=
  (scan (s.nat (.nx c)) (s.nat (.ny c))).map
    (fun f => fwdTerm num (s.plane c) (s.nat .plW) (s.nat .plH) f.1 f.2)

theorem State.rawTerms_length (s : State) (c : Channel) :
    (s.rawTerms c).length = scanCount (s.nat (.nx c)) (s.nat (.ny c)) := List.length_map _

/-- Raw term j is the term of entry j of the scan list. -/
theorem State.rawTerms_getD (s : State) (c : Channel) {j : Nat}
    (hj : j < scanCount (s.nat (.nx c)) (s.nat (.ny c))) : (s.rawTerms c).getD j 0 =
      fwdTerm num (s.plane c) (s.nat .plW) (s.nat .plH) ((scan (s.nat (.nx c)) (s.nat (.ny c))).getD j (0, 0)).1
        ((scan (s.nat (.nx c)) (s.nat (.ny c))).getD j (0, 0)).2 := by
  have hlt : j < (scan (s.nat (.nx c)) (s.nat (.ny c))).length := hj
  rw [List.getD_eq_getElem?_getD, List.getD_eq_getElem?_getD, State.rawTerms, List.getElem?_map,
    List.getElem?_eq_getElem hlt, Option.map_some, Option.getD_some, Option.getD_some]

theorem State.fwdResult_dc (s : State) (c : Channel) :
    (s.fwdResult c).dc = fwdTerm num (s.plane c) (s.nat .plW) (s.nat .plH) 0 0 := by
  rw [State.fwdResult, fwdChannel]

theorem State.fwdResult_scale (s : State) (c : Channel) :
    (s.fwdResult c).scale = maxMagnitude num (s.rawTerms c) := by
  rw [State.fwdResult, fwdChannel, State.rawTerms]

theorem State.fwdResult_ac (s : State) (c : Channel) :
    (s.fwdResult c).ac = normalise num (maxMagnitude num (s.rawTerms c)) (s.rawTerms c) := by
  rw [State.fwdResult, fwdChannel, State.rawTerms]

/-- R183: coefficient j, normalised where the scale is positive. -/
theorem normalise_getD (scale : Word) (raw : List Word) {j : Nat} (hj : j < raw.length) :
    (normalise num scale raw).getD j 0 = if num.fgt scale 0x00000000 = true then
      num.fadd (num.lit 1 2) (num.fdiv (num.fmul (num.lit 1 2) (raw.getD j 0)) scale) else raw.getD j 0 := by
  rw [normalise, num_zero]
  split
  · rw [List.getD_eq_getElem?_getD, List.getD_eq_getElem?_getD, List.getElem?_map, List.getElem?_eq_getElem hj,
      Option.map_some, Option.getD_some, Option.getD_some]
  · rfl

/-- R182: what DCT.FWD leaves of a channel that is present, term by term. -/
theorem dctFwdEffect_channel {s : State} (h : EncoderGrid s) {c : Channel} (hc : c ∈ channels s.hasAlpha)
    (mean : Word) (raw : Nat → Word) (hmean : fwdTerm num (s.plane c) (s.nat .plW) (s.nat .plH) 0 0 = mean)
    (hraw : ∀ j, fwdTerm num (s.plane c) (s.nat .plW) (s.nat .plH)
      ((scan (s.nat (.nx c)) (s.nat (.ny c))).getD j (0, 0)).1
      ((scan (s.nat (.nx c)) (s.nat (.ny c))).getD j (0, 0)).2 = raw j) :
    (scan (s.nat (.nx c)) (s.nat (.ny c))).length = s.nat (.nac c) ∧
      (dctFwdEffect s).reg (.dc c) = mean ∧
      (∀ j < s.nat (.nac c), num.fgt (num.fabs (raw j)) ((dctFwdEffect s).reg (.sc c)) = false) ∧
      ((dctFwdEffect s).reg (.sc c) = 0x00000000 ∨
        ∃ j < s.nat (.nac c), (dctFwdEffect s).reg (.sc c) = num.fabs (raw j)) ∧
      ∀ j < s.nat (.nac c), (dctFwdEffect s).coef c j =
        if num.fgt ((dctFwdEffect s).reg (.sc c)) 0x00000000 = true then
          num.fadd (num.lit 1 2) (num.fdiv (num.fmul (num.lit 1 2) (raw j)) ((dctFwdEffect s).reg (.sc c)))
        else raw j := by
  obtain ⟨hnac, h27⟩ := h.gridOf.nac hc
  obtain ⟨hdc, hsc⟩ := dctFwdEffect_reg s c hc
  have hlen : (s.rawTerms c).length = s.nat (.nac c) := (s.rawTerms_length c).trans hnac.symm
  have hget : ∀ j < s.nat (.nac c), (s.rawTerms c).getD j 0 = raw j := fun j hj =>
    (s.rawTerms_getD c (hnac ▸ hj)).trans (hraw j)
  have hmem : ∀ j < s.nat (.nac c), raw j ∈ s.rawTerms c := fun j hj => by
    have hlt : j < (s.rawTerms c).length := hlen ▸ hj
    rw [← hget j hj, List.getD_eq_getElem _ _ hlt]
    exact List.getElem_mem hlt
  rw [s.fwdResult_dc] at hdc
  rw [s.fwdResult_scale] at hsc
  refine ⟨hnac.symm, hdc.trans hmean, fun j hj => ?_, ?_, fun j hj => ?_⟩
  · rw [hsc, maxMagnitude_eq]
    exact fabs_not_above_foldl _ _ _ (hmem j hj)
  · rw [hsc, maxMagnitude_eq]
    refine (foldl_maxStep_mem (s.rawTerms c) 0x00000000).imp id ?_
    rintro ⟨v, hv, he⟩
    obtain ⟨j, hj, rfl⟩ := List.mem_iff_getElem.mp hv
    have hj' : j < s.nat (.nac c) := hlen ▸ hj
    refine ⟨j, hj', he.trans ?_⟩
    rw [← hget j hj', List.getD_eq_getElem _ _ hj]
  · have hac : (s.fwdResult c).ac.length = s.nat (.nac c) :=
      (fwdChannel_ac_length num _ _ _ _ _).trans hnac.symm
    rw [dctFwdEffect_coef s c hc hj (by omega) (by omega), hsc, s.fwdResult_ac,
      normalise_getD _ _ (by omega), hget j hj]

/-- Settles O35: `dctFwdEffect_channel` with the statement's own terms. -/
theorem dctFwdCompletes : Obligations.DctFwdCompletes := by
  unfold Obligations.DctFwdCompletes
  intro s hp hs w h cosAt term
  have haccepts : accepts .dctFwd s.status.phase = true := by
    rcases hp with hp | hp | hp <;> rw [hp] <;> rfl
  have hterm : ∀ c cx cy, fwdTerm num (s.plane c) w h cx cy = term c cx cy := fun c cx cy =>
    fwdTerm_eq cosAt (fun _ _ _ => rfl) (s.plane c) w h cx cy
  clear_value term
  refine ⟨_, exec_success .dctFwd rfl haccepts rfl, (Frame.dctFwdEffect s).completed, fun c hc => ?_,
    fun ha => dctFwdEffect_alpha s ha⟩
  intro list raw scale
  have hchannel := dctFwdEffect_channel (hs.encoder haccepts).2 hc (term c 0 0) raw (hterm c 0 0) fun j => hterm c _ _
  clear_value raw
  exact hchannel

end Sys2Proof.Machine
end

section
/-! The decoder's units: UNPACK.AC (R215, R216), DCT.INV (R184) and CT.INV (R170 to R173). -/

namespace Sys2Proof.Machine

/-! ### UNPACK.AC -/

theorem Numerics.dequantNibble_eq {F : Type} (N : Numerics F) (n : BitVec 4) (scale : F) : dequantNibble N n scale =
    N.fmul (N.fsub (N.fdiv (N.i2f n.toNat) (N.lit 15 2)) (N.lit 1 1)) scale := rfl

/-- R215, R216: only the scales of P and Q are boosted. -/
theorem Numerics.boostedScale_eq {F : Type} (N : Numerics F) (c : Channel) (v : F) :
    boostedScale N c v = if c = .P ∨ c = .Q then N.fmul v (N.lit 5 4) else v := by
  cases c with
  | L => exact (if_neg (by decide)).symm
  | P => exact (if_pos (.inl rfl)).symm
  | Q => exact (if_pos (.inr rfl)).symm
  | A => exact (if_neg (by decide)).symm

/-- R77, R104: nibble k as a number. -/
theorem State.nibble_toNat (s : State) (hdrLen k : Nat) :
    (s.nibble hdrLen k).toNat = (s.hash (hdrLen + k / 2)).toNat / 2 ^ (4 * (k % 2)) % 16 :=
  toNat_extract _ _ _

theorem GridOf.unpackAc_nibcur {s : State} {g : Nat × Nat} (h : GridOf s g) :
    (unpackAcEffect s).reg .nibcur = s.reg .nacTotal := by
  rw [unpackAcEffect_nibcur, h.total.1, State.nat, natWord_toNat_self]

/-- Settles O39: the cells are `unpackAcEffect_coef`'s, with the nibble and the scale written out. -/
theorem unpackAcCompletes : Obligations.UnpackAcCompletes := by
  unfold Obligations.UnpackAcCompletes
  intro s hp hs hlen
  have haccepts : accepts .unpackAc s.status.phase = true := by
    rcases hp with hp | hp | hp | hp <;> rw [hp] <;> rfl
  obtain ⟨hheader, -, hgrid⟩ := hs.decoder haccepts
  have hof := hgrid.gridOf hheader.lfield_le
  have hcheck : checkTruncated s = none := if_neg (by omega)
  refine ⟨(unpackAcEffect s).complete, exec_success .unpackAc rfl haccepts hcheck, (Frame.unpackAcEffect s).completed, hof.unpackAc_nibcur,
    fun c hc j hj => ?_⟩
  intro k nib scale
  have h27 := (hof.nac hc).2
  have hcoef := unpackAcEffect_coef s c hc hj (by omega)
  rw [State.unpackedCoef, Numerics.dequantNibble_eq, Numerics.boostedScale_eq, State.nibble_toNat] at hcoef
  rw [State.complete_coef, hcoef]

/-! ### DCT.INV -/

/-- The cells of a raster, counted row by row. -/
theorem cell_index {w h x y : Nat} (hx : x < w) (hy : y < h) :
    y * w + x < w * h ∧ (y * w + x) % w = x ∧ (y * w + x) / w = y := by
  have hw : 0 < w := by omega
  refine ⟨?_, ?_, ?_⟩
  · calc y * w + x < y * w + w := by omega
      _ = w * (y + 1) := by ring
      _ ≤ w * h := Nat.mul_le_mul_left w hy
  · exact Nat.mul_add_mod_of_lt hx
  · rw [Nat.mul_comm, Nat.mul_add_div hw, Nat.div_eq_of_lt hx, Nat.add_zero]

/-- Settles O40: the planes are `dctInvEffect_plane`'s, on a raster that fits them. -/
theorem dctInvCompletes : Obligations.DctInvCompletes := by
  unfold Obligations.DctInvCompletes
  intro s hp hs
  have haccepts : accepts .dctInv s.status.phase = true := by
    rcases hp with hp | hp | hp <;> rw [hp] <;> rfl
  obtain ⟨hheader, -, hgrid⟩ := hs.decoder (accepts_unpackAc_of_dctInv haccepts)
  obtain ⟨-, -, -, hw, hh, -⟩ := hgrid.raster hheader.lfield_le
  have hsize : s.nat .outW * s.nat .outH ≤ 45 * 45 := Nat.mul_le_mul hw hh
  refine ⟨(dctInvEffect s).complete, exec_success .dctInv rfl haccepts rfl, (Frame.dctInvEffect s).completed, (dctInvEffect_reg s).1,
    (dctInvEffect_reg s).2, fun x hx y hy => ?_⟩
  obtain ⟨hi, hmod, hdiv⟩ := cell_index hx hy
  have hcell : ∀ c, (dctInvEffect s).plane c (y * s.nat .outW + x) = s.invCell c (y * s.nat .outW + x) := fun c =>
    dctInvEffect_plane s c hi (by omega)
  refine ⟨fun c hc => ?_, fun ha => ?_⟩ <;> rw [State.complete_plane, hcell]
  · have hpresent : ¬ (c = .A ∧ s.hasAlpha = false) := fun ⟨h, ha⟩ => alpha_not_mem ha (h ▸ hc)
    rw [State.invCell, if_neg hpresent, hmod, hdiv]
  · rw [State.invCell, if_pos ⟨rfl, ha⟩, num_one]

/-! ### CT.INV -/

/-- R170 to R173: the four bytes of a sample, with the inverse colour formulas. -/
theorem Numerics.pixelBytes_getD {F : Type} (N : Numerics F) (v : Lpqa F) {r b : F}
    (hb : b = N.fsub v.l (N.fmul N.twoThirds v.p))
    (hr : r = N.fdiv (N.fadd (N.fsub (N.fmul (N.lit 3 1) v.l) b) v.q) (N.lit 2 1)) :
    (pixelBytes N v).getD 0 0 = N.toU8 r ∧ (pixelBytes N v).getD 1 0 = N.toU8 (N.fsub r v.q) ∧
      (pixelBytes N v).getD 2 0 = N.toU8 b ∧ (pixelBytes N v).getD 3 0 = N.toU8 v.a := by
  subst hb
  subst hr
  exact ⟨rfl, rfl, rfl, rfl⟩

/-- Settles O41: the bytes are `ctInvEffect_byte`'s, on a raster that fits PIXOUT. -/
theorem ctInvCompletes : Obligations.CtInvCompletes := by
  unfold Obligations.CtInvCompletes
  intro s hp hs hcap toU8
  have hU8 : toU8 = num.toU8 := by
    funext v
    rw [Numerics.toU8]
  clear_value toU8
  have haccepts : accepts .ctInv s.status.phase = true := by
    rcases hp with hp | hp <;> rw [hp] <;> rfl
  have hraster := hs.raster haccepts
  have hlen := pixoutLen_of_raster hraster
  obtain ⟨-, -, -, -, -, h5760⟩ := hraster.2.2.1.raster hraster.1.lfield_le
  have hcheck : checkPixoutCap s = none := if_neg (by rw [pixoutCapacity_lt_iff (by omega)]; omega)
  have hframe := (Frame.ctInvEffect s).completed
  rw [← hlen] at hframe
  refine ⟨(ctInvEffect s).complete, exec_success .ctInv rfl haccepts hcheck, hframe, hlen, fun i hi => ?_⟩
  intro l q b r
  have hbyte : ∀ k < 4, (ctInvEffect s).byteAt (pixoutBase + (4 * i + k)) = (pixelBytes num (s.sample i)).getD k 0 :=
    fun k hk => ctInvEffect_byte s hi hk (by omega)
  obtain ⟨h0, h1, h2, h3⟩ := num.pixelBytes_getD (s.sample i) (r := r) (b := b) rfl rfl
  clear_value r b
  simp only [State.complete_byteAt, hU8]
  exact ⟨(hbyte 0 (by decide)).trans h0, (hbyte 1 (by decide)).trans h1, (hbyte 2 (by decide)).trans h2,
    (hbyte 3 (by decide)).trans h3⟩

end Sys2Proof.Machine
end

section
/-! PACK (R200, R202, R204): the header words, the bytes of HASH and the nibbles. -/

namespace Sys2Proof.Machine

/-! ### The header words as numbers (R202) -/

theorem packed24 (l p q scale : Nat) (b : Bool) : l + 2 ^ 6 * (p + 2 ^ 6 * (q + 2 ^ 6 * (scale + 2 ^ 5 * b.toNat))) =
    l + 2 ^ 6 * p + 2 ^ 12 * q + 2 ^ 18 * scale + (if b = true then 2 ^ 23 else 0) := by
  cases b
  · rw [Bool.toNat_false, if_neg (by decide)]; omega
  · rw [Bool.toNat_true, if_pos rfl]; omega

theorem packed16 (f p q : Nat) (b : Bool) : f + 2 ^ 3 * (p + 2 ^ 6 * (q + 2 ^ 6 * b.toNat)) =
    f + 2 ^ 3 * p + 2 ^ 9 * q + (if b = true then 2 ^ 15 else 0) := by
  cases b
  · rw [Bool.toNat_false, if_neg (by decide)]; omega
  · rw [Bool.toNat_true, if_pos rfl]; omega

theorem State.packHdr24_toNat (s : State) : s.packHdr24.toNat =
    (num.quant 6 (num.fmul (num.lit 63 1) (s.reg (.dc .L)))).toNat +
      2 ^ 6 * (num.quant 6 (num.fadd (num.lit 63 2) (num.fmul (num.lit 63 2) (s.reg (.dc .P))))).toNat +
      2 ^ 12 * (num.quant 6 (num.fadd (num.lit 63 2) (num.fmul (num.lit 63 2) (s.reg (.dc .Q))))).toNat +
      2 ^ 18 * (num.quant 5 (num.fmul (num.lit 31 1) (s.reg (.sc .L)))).toNat +
      (if s.hasAlpha = true then 2 ^ 23 else 0) := by
  rw [State.packHdr24, toNat_append_add, toNat_append_add, toNat_append_add, toNat_append_add, BitVec.toNat_ofBool,
    packed24, quantLDc, quantPqDc, quantPqDc, quantLScale]

theorem State.packHdr16_toNat {s : State} (h : s.nat .lfield ≤ 7) : s.packHdr16.toNat =
    s.nat .lfield + 2 ^ 3 * (num.quant 6 (num.fmul (num.lit 63 1) (s.reg (.sc .P)))).toNat +
      2 ^ 9 * (num.quant 6 (num.fmul (num.lit 63 1) (s.reg (.sc .Q)))).toNat +
      (if s.landscape = true then 2 ^ 15 else 0) := by
  have hfield : ((s.reg .lfield).extractLsb' 0 3).toNat = s.nat .lfield := by
    rw [toNat_extract, Nat.pow_zero, Nat.div_one]
    exact Nat.mod_eq_of_lt (by rw [State.nat] at h; omega)
  rw [State.packHdr16, toNat_append_add, toNat_append_add, toNat_append_add, BitVec.toNat_ofBool, hfield, packed16,
    quantPqScale, quantPqScale]

theorem State.packHdrA_toNat (s : State) : s.packHdrA.toNat =
    if s.hasAlpha = true then (num.quant 4 (num.fmul (num.lit 15 1) (s.reg (.dc .A)))).toNat +
      2 ^ 4 * (num.quant 4 (num.fmul (num.lit 15 1) (s.reg (.sc .A)))).toNat else 0 := by
  rw [State.packHdrA]
  split
  · rw [toNat_append_add, quantA, quantA]
  · rfl

theorem packEffect_nat (s : State) : (packEffect s).nat .hdr24 = s.packHdr24.toNat ∧
    (packEffect s).nat .hdr16 = s.packHdr16.toNat ∧ (packEffect s).nat .hdrA = s.packHdrA.toNat := by
  have h24 := packEffect_reg s (.hdr24, s.packHdr24.setWidth 32) (by simp)
  have h16 := packEffect_reg s (.hdr16, s.packHdr16.setWidth 32) (by simp)
  have hA := packEffect_reg s (.hdrA, s.packHdrA.setWidth 32) (by simp)
  rw [State.nat_of_reg h24, State.nat_of_reg h16, State.nat_of_reg hA]
  refine ⟨?_, ?_, ?_⟩ <;> exact BitVec.toNat_setWidth_of_le (by decide)

theorem packEffect_cursor {s : State} {g : Nat × Nat} (h : GridOf s g) :
    (packEffect s).nat .nibcur = s.nat .nacTotal ∧ (packEffect s).reg .hashLen = s.reg .reqLen := by
  refine ⟨?_, packEffect_reg s (.hashLen, s.reg .reqLen) (by simp)⟩
  rw [State.nat_of_reg (packEffect_reg s (.nibcur, natWord s.packNibbles.length) (by simp)), packNibbles_length,
    h.total.1, State.nat, natWord_toNat_self]

/-! ### The bytes of HASH (R200) -/

theorem headerLength_bounds (ha : Bool) : 5 ≤ headerLength ha ∧ headerLength ha ≤ 6 := by
  cases ha <;> decide

theorem packEffect_headerByte {s : State} {g : Nat × Nat} (h : GridOf s g) {k : Nat} (hk : k < headerLength s.hasAlpha) :
    (packEffect s).hash k = s.packHeader.getD k 0 :=
  packEffect_header s (by rw [packHeader_length]; exact hk) (by rw [h.total.2.2.1]; exact hk)

/-- R99 to R102: HASH begins with the header words, byte by byte. -/
theorem packEffect_bytes {s : State} {g : Nat × Nat} (h : GridOf s g) :
    (∀ k < 3, ((packEffect s).hash k).toNat = s.packHdr24.toNat / 256 ^ k % 256) ∧
      (∀ k < 2, ((packEffect s).hash (3 + k)).toNat = s.packHdr16.toNat / 256 ^ k % 256) ∧
      (s.hasAlpha = true → (packEffect s).hash 5 = s.packHdrA) := by
  have h5 := (headerLength_bounds s.hasAlpha).1
  refine ⟨fun k hk => ?_, fun k hk => ?_, fun ha => ?_⟩
  · rw [packEffect_headerByte h (by omega)]
    obtain rfl | rfl | rfl : k = 0 ∨ k = 1 ∨ k = 2 := by omega
    all_goals exact toNat_extract _ _ _
  · rw [packEffect_headerByte h (by omega)]
    obtain rfl | rfl : k = 0 ∨ k = 1 := by omega
    all_goals exact toNat_extract _ _ _
  · rw [packEffect_headerByte h (by rw [ha]; decide), State.packHeader, if_pos ha]
    rfl

/-! ### The nibbles (R104, R204) -/

/-- R104: the nibbles of every channel lie within the payload. -/
theorem GridOf.payload_lt {s : State} {g : Nat × Nat} (h : GridOf s g) {c : Channel} (hc : c ∈ channels s.hasAlpha)
    {j : Nat} (hj : j < s.nat (.nac c)) : payloadStart s c + j < s.nat .nacTotal := by
  rw [← h.total.1]
  cases c
  case A =>
    have ha : s.hasAlpha = true := Bool.eq_true_of_not_eq_false fun ha => alpha_not_mem ha hc
    rw [if_pos ha]
    exact Nat.add_lt_add_left hj _
  all_goals
    simp only [payloadStart]
    omega

theorem packEffect_payload {s : State} {g : Nat × Nat} (h : GridOf s g) {k : Nat}
    (hk : k / 2 < (s.nat .nacTotal + 1) / 2) :
    (packEffect s).nibble (s.nat .hdrLen) k = s.packNibbles.getD k 0 := by
  obtain ⟨hsum, hreq, -, h32, -⟩ := h.total
  have hlen : s.packNibbles.length = s.nat .nacTotal := (packNibbles_length s).trans hsum
  exact packEffect_nibble s (by omega) (by omega)

theorem packEffect_coefNibble {s : State} {g : Nat × Nat} (h : GridOf s g) {c : Channel}
    (hc : c ∈ channels s.hasAlpha) {j : Nat} (hj : j < s.nat (.nac c)) :
    (packEffect s).nibble (s.nat .hdrLen) (payloadStart s c + j) = quantNibble num (s.coef c j) := by
  have hlt := h.payload_lt hc hj
  rw [packEffect_payload h (by omega), packNibbles_getD s c hc hj]

/-- R106: an odd last nibble has 0 above it. -/
theorem packEffect_padding {s : State} {g : Nat × Nat} (h : GridOf s g) (hodd : s.nat .nacTotal % 2 = 1) :
    (packEffect s).nibble (s.nat .hdrLen) (s.nat .nacTotal) = 0 := by
  have hlen : s.packNibbles.length = s.nat .nacTotal := (packNibbles_length s).trans h.total.1
  rw [packEffect_payload h (by omega), List.getD_eq_default _ _ (by omega)]

/-- Settles O36: the words, bytes and nibbles that PACK leaves, on the encoder's grid. -/
theorem packCompletes : Obligations.PackCompletes := by
  unfold Obligations.PackCompletes
  intro s hp hs hcap h24 h16 hA
  have haccepts : accepts .pack s.status.phase = true := by
    rcases hp with hp | hp <;> rw [hp] <;> rfl
  obtain ⟨-, hgrid, -⟩ := hs.coefficients haccepts
  have hof := hgrid.gridOf
  have hcheck : checkHashCap s = none := if_neg (by rw [hashCapacity_lt_iff hof.total.2.2.2.1]; omega)
  have e24 : s.packHdr24.toNat = h24 := s.packHdr24_toNat
  have e16 : s.packHdr16.toNat = h16 := State.packHdr16_toNat hgrid.lfield_le
  have eA : s.packHdrA.toNat = hA := s.packHdrA_toNat
  clear_value h24 h16 hA
  obtain ⟨n24, n16, nA⟩ := packEffect_nat s
  obtain ⟨hcursor, hlen⟩ := packEffect_cursor hof
  obtain ⟨b24, b16, bA⟩ := packEffect_bytes hof
  rw [e24] at n24 b24
  rw [e16] at n16 b16
  rw [eA] at nA
  refine ⟨(packEffect s).complete, exec_success .pack rfl haccepts hcheck, (Frame.packEffect hof).completed, ?_⟩
  simp only [State.complete_nat, State.complete_reg, State.complete_hash, State.complete_nibble]
  refine ⟨n24, n16, nA, hcursor, hlen, b24, b16, fun ha => ?_, fun c hc j hj => ?_, packEffect_padding hof⟩
  · rw [bA ha, eA]
  · rw [packEffect_coefNibble hof hc hj, quantNibble]

end Sys2Proof.Machine
end

section
/-! ENCODE and DECODE (R250, R255): what the last stage finds, and what the composite command leaves. -/

namespace Sys2Proof.Machine

/-! ### The completion of a command -/

/-- Completing after writes of a known frame, in a phase that is known. -/
theorem Frame.completed_at {s t : State} {p : Phase} {w : List Reg} {b : Nat → Prop} (f : Frame s t w b)
    (hp : t.status.phase = p) : Completed s t.complete p w b := by
  subst hp
  exact f.completed

theorem storesOf_complete (i : Instr) (t : State) : storesOf i t.complete = storesOf i t := by
  cases i <;> rfl

theorem encodeEffect_phase (s : State) : (encodeEffect s).status.phase = .eHash := effectOf_phase .encode s (by decide)

theorem decodeEffect_phase (s : State) : (decodeEffect s).status.phase = .dPix := effectOf_phase .decode s (by decide)

theorem exec_encode {s : State} (h : checkEncode s = none) : exec .encode s = .next (encodeEffect s).complete :=
  exec_success .encode rfl rfl h

theorem exec_decode {s : State} (h : checkDecode num s = none) : exec .decode s = .next (decodeEffect s).complete :=
  exec_success .decode rfl rfl h

/-! ### ENCODE -/

/-- The state that ENCODE's PACK stage starts from. -/
def State.beforePack (s : State) : State := dctFwdEffect (gridEncEffect (ctFwdEffect s))

theorem encodeEffect_eq_pack (s : State) : encodeEffect s = packEffect s.beforePack := by
  rw [encodeEffect, State.beforePack]

theorem State.beforePack_grid {s : State} (h : ImageValid s) : PlanesOfImage s.beforePack ∧ EncoderGrid s.beforePack ∧
    AlphaFixed s.beforePack := by
  rw [State.beforePack]
  exact dctFwd_alpha (gridEnc_grid (ctFwd_planes h))

/-- The registers that PACK does not write are its own state's. -/
theorem encodeEffect_reg_beforePack (s : State) {r : Reg} (hr : r ∉ packWrites) :
    (encodeEffect s).reg r = s.beforePack.reg r := by
  rw [encodeEffect_eq_pack]
  exact (Frame.packEffect_writes s.beforePack).regs r hr

/-- Only CT.FWD writes PL_W, PL_H and HAS_ALPHA. -/
theorem State.beforePack_reg_ctFwd (s : State) {r : Reg} (hr : r ∉ gridEncWrites ++ channelWrites) :
    s.beforePack.reg r = (ctFwdEffect s).reg r := by
  rw [State.beforePack]
  exact ((Frame.gridEncEffect (ctFwdEffect s)).then (Frame.dctFwdEffect (gridEncEffect (ctFwdEffect s)))).regs r hr

theorem encodeEffect_planes (s : State) :
    (encodeEffect s).reg .plW = s.reg .imgW ∧ (encodeEffect s).reg .plH = s.reg .imgH := by
  rw [encodeEffect_reg_beforePack s (by decide), encodeEffect_reg_beforePack s (by decide),
    s.beforePack_reg_ctFwd (by decide), s.beforePack_reg_ctFwd (by decide)]
  exact ⟨ctFwdEffect_reg s (.plW, s.reg .imgW) (by simp), ctFwdEffect_reg s (.plH, s.reg .imgH) (by simp)⟩

theorem encodeEffect_alpha (s : State) : (encodeEffect s).reg .hasAlpha = boolWord (anyTransparent s.image) := by
  rw [encodeEffect_reg_beforePack s (by decide), s.beforePack_reg_ctFwd (by decide)]
  exact ctFwdEffect_reg s (.hasAlpha, boolWord (anyTransparent s.image)) (by simp)

theorem State.hasAlpha_of_boolWord {s : State} {b : Bool} (h : s.reg .hasAlpha = boolWord b) : s.hasAlpha = b := by
  rw [State.hasAlpha, h, boolWord_eq_one]

/-- R251: the length of the hash is the one that ENCODE's capacity test computes from the image. -/
theorem encodeEffect_reqLen {s : State} (h : ImageValid s) :
    (encodeEffect s).nat .reqLen = encRequiredLength (s.nat .imgW) (s.nat .imgH) (anyTransparent s.image) := by
  obtain ⟨-, hgrid, -, -⟩ := encodeEffect_phaseInv h
  obtain ⟨hw, hh⟩ := encodeEffect_planes s
  have hof := hgrid.gridOf
  obtain ⟨-, -, -, -, -, -, -, -, -, -, -, -, -, -, hreq⟩ := gridRegs_values _ hof.1 hof.2
  rw [hreq, encRequiredLength, State.hasAlpha_of_boolWord (encodeEffect_alpha s), State.nat, State.nat, hw, hh, State.nat,
    State.nat]

/-- Settles O44: PACK's results on the state that the first three stages leave. -/
theorem encodeCompletes : Obligations.EncodeCompletes := by
  unfold Obligations.EncodeCompletes
  intro s ha hvalid hha hcap
  have halpha : anyTransparent s.image = ha := image_transparent hha
  have hcheck : checkEncode s = none := by
    rw [checkEncode_cap (checkImage_none_iff.mpr hvalid), halpha]
    exact if_neg (by omega)
  have hof := (State.beforePack_grid hvalid).2.1.gridOf
  obtain ⟨n24, n16, -⟩ := packEffect_nat s.beforePack
  obtain ⟨hcursor, hlen⟩ := packEffect_cursor hof
  obtain ⟨b24, b16, -⟩ := packEffect_bytes hof
  rw [← n24] at b24
  rw [← n16] at b16
  rw [← encodeEffect_eq_pack] at hcursor hlen b24 b16
  obtain ⟨hw, hh⟩ := encodeEffect_planes s
  have hreg := encodeEffect_alpha s
  have hreq := encodeEffect_reqLen hvalid
  rw [halpha] at hreg hreq
  have hlenNat : (encodeEffect s).nat .hashLen = (encodeEffect s).nat .reqLen := by
    rw [State.nat, hlen, ← encodeEffect_reg_beforePack s (by decide), State.nat]
  have hbit := (encodeEffect_phaseInv hvalid).2.2.2.1
  rw [State.hasAlpha_of_boolWord hreg] at hbit
  have hdone := (Frame.encodeEffect hvalid).completed_at (encodeEffect_phase s)
  rw [← storesOf_complete] at hdone
  refine ⟨(encodeEffect s).complete, exec_encode hcheck, hdone, ?_⟩
  simp only [State.complete_nat, State.complete_reg, State.complete_hash]
  refine ⟨hlenNat.trans hreq, hlenNat.symm, ?_, hbit.symm, hw, hh, ?_, b24, b16⟩
  · rw [State.nat, hreg, boolWord_toNat]
  · rw [hcursor, State.nat, State.nat, encodeEffect_reg_beforePack s (by decide)]

/-! ### DECODE -/

/-- The state that DECODE's DCT.INV stage starts from. -/
def State.beforeDctInv (s : State) : State := unpackAcEffect (gridDecEffect (unpackHdrEffect s))

theorem decodeEffect_eq_planes (s : State) : decodeEffect s = ctInvEffect (dctInvEffect s.beforeDctInv) := by
  rw [decodeEffect, State.beforeDctInv]

theorem State.beforeDctInv_grid (s : State) : HeaderAgrees s.beforeDctInv ∧ AlphaFixed s.beforeDctInv ∧
    DecoderGrid s.beforeDctInv := by
  rw [State.beforeDctInv]
  exact unpackAc_keeps (gridDec_grid (unpackHdr_header s))

/-- The last two stages write no register but PL_W and PL_H. -/
theorem decodeEffect_reg_beforeDctInv (s : State) {r : Reg} (hr : r ∉ [Reg.plW, .plH]) :
    (decodeEffect s).reg r = s.beforeDctInv.reg r := by
  rw [decodeEffect_eq_planes]
  exact ((Frame.dctInvEffect s.beforeDctInv).then (Frame.ctInvEffect (dctInvEffect s.beforeDctInv))).regs r
    (by rwa [List.append_nil])

/-- The header registers that GRID.DEC keeps are UNPACK.HDR's. -/
theorem decodeEffect_reg_header (s : State) {r : Reg} (hr : r ∉ gridDecWrites ++ [.nibcur] ++ [.plW, .plH]) :
    (decodeEffect s).reg r = (unpackHdrEffect s).reg r := by
  rw [decodeEffect_reg_beforeDctInv s fun h => hr (List.mem_append_right _ h), State.beforeDctInv]
  exact ((Frame.gridDecEffect (unpackHdrEffect s)).then (Frame.unpackAcEffect (gridDecEffect (unpackHdrEffect s)))).regs r
    fun h => hr (List.mem_append_left _ h)

/-- R210: the header registers that DECODE leaves hold the header of HASH. -/
theorem decodeEffect_header (s : State) : (decodeEffect s).reg .hasAlpha = boolWord ((s.hash 2).getLsbD 7) ∧
    (decodeEffect s).hasAlpha = (s.hash 2).getLsbD 7 ∧ (decodeEffect s).landscape = (s.hash 4).getLsbD 7 ∧
    (decodeEffect s).nat .lfield = (s.hash 3).toNat % 8 := by
  have hreg : (decodeEffect s).reg .hasAlpha = boolWord ((s.hash 2).getLsbD 7) := by
    rw [decodeEffect_reg_header s (by decide), ← hdr24_bit]
    exact unpackHdrEffect_reg s (.hasAlpha, boolWord (hasAlphaField s.hashHdr24)) (by simp [State.unpackedHeader])
  have hland : (decodeEffect s).reg .isLandscape = boolWord ((s.hash 4).getLsbD 7) := by
    rw [decodeEffect_reg_header s (by decide), ← hdr16_bit]
    exact unpackHdrEffect_reg s (.isLandscape, boolWord (landscapeField s.hashHdr16)) (by simp [State.unpackedHeader])
  have hfield : (decodeEffect s).nat .lfield = (unpackHdrEffect s).nat .lfield :=
    State.nat_eq (decodeEffect_reg_header s (by decide))
  refine ⟨hreg, State.hasAlpha_of_boolWord hreg, by rw [State.landscape, hland, boolWord_eq_one], ?_⟩
  rw [hfield, (unpackHdrEffect_nat s).2.2.2.2.1, ← lfield_hash, lfieldField_toNat]

theorem decodeEffect_nibcur (s : State) : (decodeEffect s).reg .nibcur = (decodeEffect s).reg .nacTotal := by
  have hgrid := gridDec_grid (unpackHdr_header s)
  rw [decodeEffect_reg_beforeDctInv s (by decide), decodeEffect_reg_beforeDctInv s (by decide), State.beforeDctInv,
    (hgrid.2.2.gridOf hgrid.1.lfield_le).unpackAc_nibcur]
  exact ((Frame.unpackAcEffect (gridDecEffect (unpackHdrEffect s))).regs .nacTotal (by decide)).symm

/-- R172: the constant alpha sample 1.0 is the byte 255. -/
theorem toU8_one : num.toU8 num.one = 255 := by decide +kernel

/-- R184: without an alpha channel DCT.INV leaves 1.0 in every cell of its plane. -/
theorem dctInvEffect_opaque {s : State} (ha : s.hasAlpha = false) {i : Nat} (hi : i < s.nat .outW * s.nat .outH)
    (hsize : s.nat .outW * s.nat .outH ≤ 10000) : (dctInvEffect s).plane .A i = num.one := by
  rw [dctInvEffect_plane s .A hi (by omega), State.invCell, if_pos ⟨rfl, ha⟩]

/-- R258: without an alpha channel DECODE leaves the byte 255 as the alpha of every pixel. -/
theorem decodeEffect_opaque {s : State} (ha : (s.hash 2).getLsbD 7 = false) {i : Nat}
    (hi : i < (decodeEffect s).nat .outW * (decodeEffect s).nat .outH) :
    (decodeEffect s).byteAt (pixoutBase + 4 * i + 3) = 255 := by
  obtain ⟨hheader, -, hgrid⟩ := s.beforeDctInv_grid
  obtain ⟨-, -, -, hw45, hh45, -⟩ := hgrid.raster hheader.lfield_le
  have hsize : s.beforeDctInv.nat .outW * s.beforeDctInv.nat .outH ≤ 45 * 45 := Nat.mul_le_mul hw45 hh45
  rw [State.nat_eq (decodeEffect_reg_beforeDctInv s (by decide)),
    State.nat_eq (decodeEffect_reg_beforeDctInv s (by decide))] at hi
  have halpha : s.beforeDctInv.hasAlpha = false := by
    rw [← ha, ← (decodeEffect_header s).2.1, State.hasAlpha_eq (decodeEffect_reg_beforeDctInv s (by decide))]
  have hplane := dctInvEffect_opaque halpha hi (by omega)
  obtain ⟨hplW, hplH⟩ := dctInvEffect_reg s.beforeDctInv
  have hi' : i < (dctInvEffect s.beforeDctInv).nat .plW * (dctInvEffect s.beforeDctInv).nat .plH := by
    rw [State.nat, State.nat, hplW, hplH]
    exact hi
  obtain ⟨-, -, -, h3⟩ := num.pixelBytes_getD ((dctInvEffect s.beforeDctInv).sample i) rfl rfl
  have hsample : ((dctInvEffect s.beforeDctInv).sample i).a = num.one := by
    rw [← hplane]
    rfl
  rw [decodeEffect_eq_planes, Nat.add_assoc, ctInvEffect_byte _ hi' (by decide) (by omega), h3, hsample, toU8_one]

/-- Settles O45: the header's grid and raster, and the bytes of CT.INV. -/
theorem decodeCompletes : Obligations.DecodeCompletes := by
  unfold Obligations.DecodeCompletes
  intro s hheader ha land f hcap hlen
  have eha : (s.hash 2).getLsbD 7 = ha := rfl
  have eland : (s.hash 4).getLsbD 7 = land := rfl
  have efield : (s.hash 3).toNat % 8 = f := rfl
  clear_value ha land f
  have hcheck : checkDecode num s = none := by
    rw [checkDecode_eq hheader, eha, eland, efield]
    exact (if_neg (Nat.not_lt.mpr hcap)).trans (if_neg (Nat.not_lt.mpr hlen))
  obtain ⟨hagrees, -, hgrid, -⟩ := decodeEffect_phaseInv s
  obtain ⟨hw, hh, hpix, -, -, -⟩ := hgrid.raster hagrees.lfield_le
  have hof := hgrid.gridOf hagrees.lfield_le
  obtain ⟨-, -, -, -, -, -, -, -, -, -, -, -, -, -, hreq⟩ := gridRegs_values _ hof.1 hof.2
  obtain ⟨hreg, halpha, hland, hfield⟩ := decodeEffect_header s
  rw [halpha, hland, hfield, eha, eland, efield] at hw hh hreq
  have hdone := (Frame.decodeEffect s).completed_at (decodeEffect_phase s)
  rw [← storesOf_complete] at hdone
  refine ⟨(decodeEffect s).complete, exec_decode hcheck, hdone, ?_⟩
  refine ⟨?_, ?_, ?_, ?_, ?_, ?_, fun hopaque i hi => ?_⟩
  · rw [State.complete_nat, hw]
  · rw [State.complete_nat, hh]
  · rw [State.complete_nat, State.complete_nat, State.complete_nat, hpix, Nat.mul_comm]
  · rw [State.complete_nat, hreq, decRequiredLength]
  · rw [State.complete_nat, State.nat, hreg, boolWord_toNat, eha]
  · rw [State.complete_nat, State.complete_nat, State.nat, State.nat, decodeEffect_nibcur]
  · rw [State.complete_nat, State.complete_nat] at hi
    rw [State.complete_byteAt]
    exact decodeEffect_opaque (eha.trans hopaque) hi

end Sys2Proof.Machine
end

section
/-! The formulas under NUM = exact (R132): the two colour transforms (R166, R171) and the DCT sums (R183, R185). -/

namespace Sys2Proof.Machine

/-! ### The real arithmetic -/

theorem exact_fadd (a b : ℝ) : Exact.numerics.fadd a b = a + b := rfl
theorem exact_fsub (a b : ℝ) : Exact.numerics.fsub a b = a - b := rfl
theorem exact_fmul (a b : ℝ) : Exact.numerics.fmul a b = a * b := rfl
theorem exact_fdiv (a b : ℝ) : Exact.numerics.fdiv a b = a / b := rfl
theorem exact_i2f (n : Nat) : Exact.numerics.i2f n = n := rfl
theorem exact_lit (n d : Nat) : Exact.numerics.lit n d = n / d := rfl
theorem exact_cosf (a : ℝ) : Exact.numerics.cosf a = Real.cos a := rfl
theorem exact_pi : Exact.numerics.pi = Real.pi := rfl
theorem exact_twoThirds : Exact.numerics.twoThirds = 2 / 3 := rfl
theorem exact_fabs (a : ℝ) : Exact.numerics.fabs a = |a| := rfl

theorem exact_zero : Exact.numerics.zero = 0 := by
  rw [Numerics.zero, exact_lit]
  norm_num

theorem exact_fgt (a b : ℝ) : Exact.numerics.fgt a b = true ↔ b < a := decide_eq_true_iff

/-! ### The colour transforms -/

/-- R166 in real numbers. -/
theorem exact_lpqOfRgb (r g b a : ℝ) : lpqOfRgb Exact.numerics { r := r, g := g, b := b } a =
    { l := (r + g + b) / 3, p := (r + g) / 2 - b, q := r - g, a := a } := by
  simp only [lpqOfRgb, exact_fadd, exact_fsub, exact_fdiv, exact_lit]
  norm_num

/-- R171 in real numbers. -/
theorem exact_lpqToRgb (l p q : ℝ) : lpqToRgb Exact.numerics l p q =
    { r := (3 * l - (l - 2 / 3 * p) + q) / 2, g := (3 * l - (l - 2 / 3 * p) + q) / 2 - q, b := l - 2 / 3 * p } := by
  simp only [lpqToRgb, exact_fadd, exact_fsub, exact_fmul, exact_fdiv, exact_lit, exact_twoThirds]
  norm_num

/-- Settles O59: component by component, by the field axioms. -/
theorem exactColourTransformIsInverse : Obligations.ExactColourTransformIsInverse := by
  unfold Obligations.ExactColourTransformIsInverse
  refine ⟨fun r g b a => ?_, fun l p q a => ?_⟩
  · intro v
    have hv : v = { l := (r + g + b) / 3, p := (r + g) / 2 - b, q := r - g, a := a } := exact_lpqOfRgb r g b a
    rw [hv, exact_lpqToRgb, Rgb.mk.injEq]
    refine ⟨?_, ?_, ?_⟩ <;> ring
  · rw [exact_lpqToRgb, exact_lpqOfRgb, Lpqa.mk.injEq]
    refine ⟨?_, ?_, ?_, rfl⟩ <;> ring

/-! ### The sums of the DCT -/

theorem foldl_range_add (f : Nat → ℝ) (n : Nat) (a : ℝ) :
    (List.range n).foldl (fun sum x => sum + f x) a = a + ∑ x ∈ Finset.range n, f x := by
  induction n with
  | zero => simp
  | succ n ih => rw [List.range_succ, List.foldl_append, ih, Finset.sum_range_succ, List.foldl_cons, List.foldl_nil,
      add_assoc]

/-- A sum over the entries of a list, each with its number, counted from `k`. -/
theorem foldl_zipIdx_add {α : Type} (f : Nat → α → ℝ) (l : List α) (d : α) (k : Nat) (a : ℝ) :
    (l.zipIdx k).foldl (fun sum t => sum + f t.2 t.1) a =
      a + ∑ j ∈ Finset.range l.length, f (k + j) (l.getD j d) := by
  induction l generalizing k a with
  | nil => simp
  | cons e l ih =>
    rw [List.zipIdx_cons, List.foldl_cons, ih, List.length_cons, Finset.sum_range_succ']
    simp only [List.getD_cons_succ, List.getD_cons_zero, Nat.add_zero]
    rw [add_assoc, add_comm (f k e)]
    simp only [Nat.add_assoc, Nat.add_comm 1]

theorem exact_fwdCos (n freq pos : Nat) :
    fwdCos Exact.numerics n freq pos = Real.cos (Real.pi / n * freq * (pos + 1 / 2)) := by
  simp only [fwdCos, exact_cosf, exact_fmul, exact_fdiv, exact_fadd, exact_pi, exact_i2f, exact_lit]
  norm_num

theorem exact_invCos (n freq pos : Nat) :
    invCos Exact.numerics n freq pos = Real.cos (Real.pi / n * (pos + 1 / 2) * freq) := by
  simp only [invCos, exact_cosf, exact_fmul, exact_fdiv, exact_fadd, exact_pi, exact_i2f, exact_lit]
  norm_num

/-- R183: the forward term is the double sum. -/
theorem exact_fwdTerm (plane : Nat → ℝ) (w h cx cy : Nat) : fwdTerm Exact.numerics plane w h cx cy =
    1 / (w * h : ℝ) * ∑ y ∈ Finset.range h, ∑ x ∈ Finset.range w,
      plane (y * w + x) * Real.cos (Real.pi / w * cx * (x + 1 / 2)) * Real.cos (Real.pi / h * cy * (y + 1 / 2)) := by
  simp only [fwdTerm, exact_fadd, exact_fmul, exact_fdiv, exact_i2f, exact_zero, exact_fwdCos, foldl_range_add, zero_add,
    Numerics.one, exact_lit]
  norm_num

/-- R185: the sample is the sum over the scan list. -/
theorem exact_invSample (dc : ℝ) (coef : Nat → ℝ) (nx ny w h x y : Nat) :
    invSample Exact.numerics dc coef nx ny w h x y = dc + ∑ j ∈ Finset.range (scan nx ny).length,
      coef j * Real.cos (Real.pi / w * (x + 1 / 2) * ((scan nx ny).getD j (0, 0)).1) *
        (2 * Real.cos (Real.pi / h * (y + 1 / 2) * ((scan nx ny).getD j (0, 0)).2)) := by
  simp only [invSample, exact_fadd, exact_fmul, exact_invCos, exact_lit]
  rw [foldl_zipIdx_add (fun j (f : Nat × Nat) => coef j * Real.cos (Real.pi / w * (x + 1 / 2) * f.1) *
    ((2 : Nat) / (1 : Nat) * Real.cos (Real.pi / h * (y + 1 / 2) * f.2))) _ (0, 0)]
  simp only [Nat.zero_add, Nat.cast_ofNat, Nat.cast_one, div_one]

/-! ### The normalised terms -/

/-- R183: the running maximum in real numbers. -/
theorem exact_maxMagnitude (raw : List ℝ) :
    maxMagnitude Exact.numerics raw = raw.foldl (fun m v => max m |v|) 0 := by
  have hstep : (fun m v => if Exact.numerics.fgt (Exact.numerics.fabs v) m = true then Exact.numerics.fabs v else m) =
      fun m v => max m |v| := by
    funext m v
    simp only [exact_fgt, exact_fabs, max_def_lt]
  rw [maxMagnitude, exact_zero, hstep]

theorem le_foldl_max (raw : List ℝ) (m : ℝ) : m ≤ raw.foldl (fun m v => max m |v|) m := by
  induction raw generalizing m with
  | nil => exact le_rfl
  | cons u raw ih => exact (le_max_left m |u|).trans (ih _)

theorem abs_le_foldl_max (raw : List ℝ) (m : ℝ) : ∀ v ∈ raw, |v| ≤ raw.foldl (fun m v => max m |v|) m := by
  induction raw generalizing m with
  | nil => exact fun _ h => nomatch h
  | cons u raw ih =>
    intro v hv
    rcases List.mem_cons.mp hv with rfl | hv
    · exact (le_max_right m |v|).trans (le_foldl_max raw _)
    · exact ih _ v hv

theorem exact_normalise {scale : ℝ} (h : 0 < scale) (raw : List ℝ) :
    normalise Exact.numerics scale raw = raw.map (fun v => 1 / 2 + 1 / 2 * v / scale) := by
  rw [normalise, exact_zero, if_pos ((exact_fgt scale 0).mpr h)]
  simp only [exact_fadd, exact_fdiv, exact_fmul, exact_lit]
  norm_num

/-- A term of magnitude at most the scale is normalised into [0, 1]. -/
theorem normalised_bounds {scale v : ℝ} (h : 0 < scale) (hv : |v| ≤ scale) :
    0 ≤ 1 / 2 + 1 / 2 * v / scale ∧ 1 / 2 + 1 / 2 * v / scale ≤ 1 := by
  obtain ⟨hlo, hhi⟩ := abs_le.mp hv
  have hlo' : -(1 / 2) ≤ 1 / 2 * v / scale := (le_div_iff₀ h).mpr (by linarith)
  have hhi' : 1 / 2 * v / scale ≤ 1 / 2 := (div_le_iff₀ h).mpr (by linarith)
  exact ⟨by linarith, by linarith⟩

/-- Settles O60: the two sums, and every raw term is at most the scale. -/
theorem exactDctFormulas : Obligations.ExactDctFormulas := by
  unfold Obligations.ExactDctFormulas
  refine ⟨exact_fwdTerm, exact_invSample, fun plane w h nx ny => ?_⟩
  intro result hscale v hv
  have hmax := abs_le_foldl_max ((scan nx ny).map fun f => fwdTerm Exact.numerics plane w h f.1 f.2) 0
  rw [← exact_maxMagnitude] at hmax
  have hac : result.ac = normalise Exact.numerics result.scale
    ((scan nx ny).map fun f => fwdTerm Exact.numerics plane w h f.1 f.2) := rfl
  rw [hac, exact_normalise hscale] at hv
  obtain ⟨u, hu, rfl⟩ := List.mem_map.mp hv
  exact normalised_bounds hscale (hmax u hu)

end Sys2Proof.Machine
end

section
/-! The grids of the encoder and the decoder (R231, R233, R240), and the decoder's table (R238) under both NUMs. -/

namespace Sys2Proof.Machine

/-! ### The encoder's grid and the decoder's (R231, R240) -/

/-- R231: the side of the longer edge takes the limit. -/
theorem encL_longer (tie : Tie) {w h : Nat} (ha : Bool) (hw : 1 ≤ w) (hh : 1 ≤ h) :
    if h < w then (encL tie w h ha).1 = lLimit ha else (encL tie w h ha).2 = lLimit ha := by
  have hside := encSide_longer tie ha (w := w) (h := h) (by omega)
  split
  next hlt => rwa [max_eq_left (by omega)] at hside
  next hlt => rwa [max_eq_right (by omega)] at hside

/-- R240: the header fields of the encoder give the decoder the same grid. -/
theorem decGrid_of_encL (w h : Nat) (ha : Bool) (hw : 1 ≤ w) (hh : 1 ≤ h) : decGrid ha (decide (h < w))
    (if h < w then (encL Config.tie w h ha).2 else (encL Config.tie w h ha).1) = encGrid w h ha := by
  have hlonger := encL_longer Config.tie ha hw hh
  rw [decGrid, rawGrid, encGrid]
  by_cases hlt : h < w
  · rw [if_pos hlt] at hlonger ⊢
    rw [decide_eq_true hlt, if_pos rfl, if_pos rfl, hlonger, max_comm 3, max_comm 3]
  · rw [if_neg hlt] at hlonger ⊢
    rw [decide_eq_false hlt, if_neg (by decide), if_neg (by decide), hlonger, max_comm 3, max_comm 3]

/-- R233: the lengths of a grid with one side the limit. -/
def encLengths (ha : Bool) : List Nat := if ha then [23, 25] else [17, 19, 21, 23, 24]

theorem requiredLength_listed : ∀ ha : Bool, ∀ k ≤ lLimit ha,
    requiredLength ha (max (lLimit ha) 3) (max k 3) ∈ encLengths ha ∧
      requiredLength ha (max k 3) (max (lLimit ha) 3) ∈ encLengths ha := by decide

theorem encRequiredLength_listed (w h : Nat) (ha : Bool) (hw : 1 ≤ w) (hh : 1 ≤ h) :
    encRequiredLength w h ha ∈ encLengths ha := by
  have hlonger := encL_longer Config.tie ha hw hh
  obtain ⟨-, hx, -, hy⟩ := encL_bounds Config.tie w h ha
  rw [encRequiredLength, encGrid]
  by_cases hlt : h < w
  · rw [if_pos hlt] at hlonger
    rw [hlonger]
    exact (requiredLength_listed ha _ hy).1
  · rw [if_neg hlt] at hlonger
    rw [hlonger]
    exact (requiredLength_listed ha _ hx).2

/-- Settles O51: the longer side takes the limit, so the header fields fix the grid. -/
theorem encoderAndDecoderGridsAgree : Obligations.EncoderAndDecoderGridsAgree := by
  unfold Obligations.EncoderAndDecoderGridsAgree
  intro w h ha hw _ hh _ lx ly land f limit
  obtain ⟨hx1, hx, hy1, hy⟩ := encL_bounds Config.tie w h ha
  have hlonger := encL_longer Config.tie ha hw hh
  have hf : f = if h < w then ly else lx := if_congr decide_eq_true_iff rfl rfl
  have hgrid : decGrid ha land f = encGrid w h ha := hf ▸ decGrid_of_encL w h ha hw hh
  refine ⟨hx1, hx, hy1, hy, ?_, hgrid, ?_, encRequiredLength_listed w h ha hw hh⟩
  · rwa [if_congr decide_eq_true_iff rfl rfl]
  · rw [decRequiredLength, hgrid, encRequiredLength]

/-! ### NUM = exact on rationals -/

/-- The real rounding of a quotient is the rational one. -/
theorem roundTie_ratio (tie : Tie) (n : Nat) {d : Nat} (hd : 0 < d) :
    Exact.roundTie tie ((n : ℝ) / d) = rndRatio tie n d := by
  have hd' : (0 : ℝ) < d := Nat.cast_pos.mpr hd
  have hfloor : ⌊(n : ℝ) / d⌋₊ = n / d := Nat.floor_div_eq_div n d
  have hfrac : (n : ℝ) / d - (n / d : Nat) = (n % d : Nat) / d := by
    have h := congrArg (Nat.cast (R := ℝ)) (Nat.div_add_mod n d)
    push_cast at h
    field_simp
    linarith
  have hlow : ((n % d : Nat) : ℝ) / d < 1 / 2 ↔ 2 * (n % d) < d := by
    rw [div_lt_div_iff₀ hd' two_pos, one_mul, ← Nat.cast_lt (α := ℝ), mul_comm]
    push_cast
    rfl
  have hhigh : 1 / 2 < ((n % d : Nat) : ℝ) / d ↔ d < 2 * (n % d) := by
    rw [div_lt_div_iff₀ two_pos hd', one_mul, ← Nat.cast_lt (α := ℝ), mul_comm]
    push_cast
    rfl
  unfold Exact.roundTie rndRatio
  rw [hfloor, hfrac]
  cases tie <;> simp only [hlow, hhigh]

/-- R132: the real rounding to a pattern is `roundUnits` on rationals. -/
theorem exact_bits32_ratio (n : Nat) {d : Nat} (hd : 0 < d) :
    Exact.bits32 ((n : ℝ) / d) = Binary32.ofRatio n d := by
  have hnonneg : (0 : ℝ) ≤ (n : ℝ) / d := by positivity
  have hunits : (n : ℝ) / d * 2 ^ 149 = (n * 2 ^ 149 : Nat) / d := by
    push_cast
    ring
  have hsteps : ∀ k : Nat, ((n * 2 ^ 149 : Nat) : ℝ) / d / 2 ^ k = (n * 2 ^ 149 : Nat) / (d * 2 ^ k : Nat) := by
    intro k
    push_cast
    rw [div_div]
  have hmag : Exact.nearestMagnitude ((n : ℝ) / d) = Binary32.roundUnits (n * 2 ^ 149) d := by
    rw [Exact.nearestMagnitude, hunits, Nat.floor_div_eq_div, Binary32.roundUnits]
    simp only [hsteps]
    rw [roundTie_ratio _ _ (by positivity), Binary32.nearestEven, Binary32.infMagnitude]
  rw [Exact.bits32, if_neg (not_lt.mpr hnonneg), abs_of_nonneg hnonneg, hmag, Nat.zero_add, Binary32.ofRatio,
    Binary32.ofParts, if_neg (by decide)]

theorem exact_rnd_ratio (n : Nat) {d : Nat} (hd : 0 < d) :
    Exact.numerics.rnd ((n : ℝ) / d) = rndRatio Config.tie n d := by
  have hrnd : Exact.numerics.rnd ((n : ℝ) / d) = Exact.roundTie Config.tie ((n : ℝ) / d) :=
    if_pos (by positivity : (0 : ℝ) ≤ (n : ℝ) / d)
  rw [hrnd, roundTie_ratio _ _ hd]

/-! ### The ratio and the raster under NUM = exact (R236, R237) -/

/-- The sides whose quotient is the ratio. -/
def ratioSides (clamp ha land : Bool) (f : Nat) : Nat × Nat := if clamp then decGrid ha land f else rawGrid ha land f

theorem exact_aspectOf (clamp ha land : Bool) (f : Nat) : aspectOf Exact.numerics clamp ha land f =
    if (ratioSides clamp ha land f).2 = 0 then none
    else some (((ratioSides clamp ha land f).1 : ℝ) / (ratioSides clamp ha land f).2) := by
  rw [aspectOf, ratioSides]
  refine if_congr ?_ rfl ?_
  · exact ⟨fun h => h.1, fun h => ⟨h, rfl⟩⟩
  · rw [exact_fdiv, exact_i2f, exact_i2f]

/-- R237: RATIO under NUM = exact, in whole numbers. -/
def exactRatioWord (g : Nat × Nat) : Word := if g.2 = 0 then 0x7F800000 else Binary32.ofRatio g.1 g.2

theorem exact_ratioWord (clamp ha land : Bool) (f : Nat) : ratioWord Exact.numerics
    (aspectOf Exact.numerics clamp ha land f) = exactRatioWord (ratioSides clamp ha land f) := by
  rw [exact_aspectOf, exactRatioWord]
  split
  · rfl
  next h => exact exact_bits32_ratio _ (Nat.pos_of_ne_zero h)

/-- R235: the portrait raster under NUM = exact; the height of a portrait grid is the limit. -/
theorem exact_portrait (clamp ha : Bool) (f : Nat) : rasterSize Exact.numerics false
    (aspectOf Exact.numerics clamp ha false f) =
      (rndRatio Config.tie (32 * (ratioSides clamp ha false f).1) (ratioSides clamp ha false f).2, 32) := by
  have hpos : 0 < (ratioSides clamp ha false f).2 := by
    have hl := lLimit_cases ha
    rw [ratioSides, decGrid, rawGrid]
    cases clamp
    · exact (by omega : 0 < lLimit ha)
    · exact lt_of_lt_of_le (by decide) (le_max_left 3 _)
  rw [exact_aspectOf, if_neg (by omega), rasterSize, if_neg (by decide), exact_fmul, exact_lit, ← exact_rnd_ratio _ hpos]
  congr 2
  push_cast
  ring

/-- R235: the landscape raster under NUM = exact; the width of a landscape grid is the limit, and 32 over the infinite ratio
is 0 (R237). -/
theorem exact_landscape (clamp ha : Bool) (f : Nat) : rasterSize Exact.numerics true
    (aspectOf Exact.numerics clamp ha true f) =
      (32, rndRatio Config.tie (32 * (ratioSides clamp ha true f).2) (ratioSides clamp ha true f).1) := by
  have hpos : 0 < (ratioSides clamp ha true f).1 := by
    have hl := lLimit_cases ha
    rw [ratioSides, decGrid, rawGrid]
    cases clamp
    · exact (by omega : 0 < lLimit ha)
    · exact lt_of_lt_of_le (by decide) (le_max_left 3 _)
  rw [exact_aspectOf]
  split
  next h =>
    have hzero := rndRatio_mul Config.tie 0 hpos
    rw [Nat.zero_mul] at hzero
    rw [h, Nat.mul_zero, hzero, rasterSize, if_pos rfl]
  next h =>
    rw [rasterSize, if_pos rfl, exact_fdiv, exact_lit, ← exact_rnd_ratio _ hpos]
    congr 2
    push_cast
    rw [div_one, div_div_eq_mul_div]

/-! ### The table (R238) -/

/-- The ratios and the raster sides of a portrait header and its landscape mirror, in whole numbers and patterns. -/
def RatioRow (clamp ha : Bool) (f : Nat) (ratio ratio' : Word) (side : Nat) : Prop :=
  ratioWord num (aspectOf num clamp ha false f) = ratio ∧ ratioWord num (aspectOf num clamp ha true f) = ratio' ∧
    rasterSize num false (aspectOf num clamp ha false f) = (side, 32) ∧
    rasterSize num true (aspectOf num clamp ha true f) = (32, side) ∧
    exactRatioWord (ratioSides clamp ha false f) = ratio ∧ exactRatioWord (ratioSides clamp ha true f) = ratio' ∧
    rndRatio Config.tie (32 * (ratioSides clamp ha false f).1) (ratioSides clamp ha false f).2 = side ∧
    rndRatio Config.tie (32 * (ratioSides clamp ha true f).2) (ratioSides clamp ha true f).1 = side

/-- Both NUMs, from whole numbers and patterns. -/
theorem RatioRow.clause {clamp ha : Bool} {f side : Nat} {ratio ratio' : Word} (hc : Config.aspectClamp = clamp)
    (h : RatioRow clamp ha f ratio ratio' side) :
    decRatio ha false f = ratio ∧ decRatio ha true f = ratio' ∧ decRaster ha false f = (side, 32) ∧
      decRaster ha true f = (32, side) ∧ ratioOf Exact.numerics ha false f = ratio ∧
      ratioOf Exact.numerics ha true f = ratio' ∧ rasterOf Exact.numerics ha false f = (side, 32) ∧
      rasterOf Exact.numerics ha true f = (32, side) := by
  subst hc
  obtain ⟨h1, h2, h3, h4, h5, h6, h7, h8⟩ := h
  refine ⟨h1, h2, h3, h4, ?_, ?_, ?_, ?_⟩
  · rw [ratioOf, exact_ratioWord, h5]
  · rw [ratioOf, exact_ratioWord, h6]
  · rw [rasterOf, exact_portrait, h7]
  · rw [rasterOf, exact_landscape, h8]

/-- R235: the grid, the counts and the length of a portrait header and of its landscape mirror. -/
def GridRow (ha : Bool) (f lx ly nac total req : Nat) : Prop :=
  decGrid ha false f = (lx, ly) ∧ decGrid ha true f = (ly, lx) ∧ scanCount lx ly = nac ∧ scanCount ly lx = nac ∧
    totalCount ha lx ly = total ∧ totalCount ha ly lx = total ∧
    decRequiredLength ha false f = req ∧ decRequiredLength ha true f = req

/-- A row of the table, from its parts. -/
theorem decoderTable_row {ha : Bool} {f lx ly nac total req side rawSide : Nat} {ratio ratio' raw raw' : Word}
    (hf : f ≤ 7) (hgrid : GridRow ha f lx ly nac total req) (hclamp : RatioRow true ha f ratio ratio' side)
    (hraw : RatioRow false ha f raw raw' rawSide) :
    decGrid ha false f = (lx, ly) ∧ decGrid ha true f = (ly, lx) ∧ scanCount lx ly = nac ∧ scanCount ly lx = nac ∧
      totalCount ha lx ly = total ∧ totalCount ha ly lx = total ∧
      decRequiredLength ha false f = req ∧ decRequiredLength ha true f = req ∧
      (Config.aspectClamp = true → decRatio ha false f = ratio ∧ decRatio ha true f = ratio' ∧
        decRaster ha false f = (side, 32) ∧ decRaster ha true f = (32, side) ∧
        ratioOf Exact.numerics ha false f = ratio ∧ ratioOf Exact.numerics ha true f = ratio' ∧
        rasterOf Exact.numerics ha false f = (side, 32) ∧ rasterOf Exact.numerics ha true f = (32, side)) ∧
      (Config.aspectClamp = false → decRatio ha false f = raw ∧ decRatio ha true f = raw' ∧
        decRaster ha false f = (rawSide, 32) ∧ decRaster ha true f = (32, rawSide) ∧
        ratioOf Exact.numerics ha false f = raw ∧ ratioOf Exact.numerics ha true f = raw' ∧
        rasterOf Exact.numerics ha false f = (rawSide, 32) ∧ rasterOf Exact.numerics ha true f = (32, rawSide)) ∧
      decPixoutLen ha false f ≤ 5760 ∧ decPixoutLen ha true f ≤ 5760 := by
  obtain ⟨h1, h2, h3, h4, h5, h6, h7, h8⟩ := hgrid
  exact ⟨h1, h2, h3, h4, h5, h6, h7, h8, hclamp.clause, hraw.clause, (decRaster_bounds ha false hf).2.2,
    (decRaster_bounds ha true hf).2.2⟩

/-- Settles O52: each row evaluated in whole numbers and patterns, which `RatioRow.clause` ties to both NUMs. -/
theorem decoderTable : Obligations.DecoderTable := by
  unfold Obligations.DecoderTable
  repeat' refine List.forall_mem_cons.mpr ⟨decoderTable_row (by decide) (by unfold GridRow; decide +kernel)
    (by unfold RatioRow; decide +kernel) (by unfold RatioRow; decide +kernel), ?_⟩
  exact List.forall_mem_nil _

end Sys2Proof.Machine
end

section
/-! PACK and the unpacker (R218): the header and the nibbles that PACK wrote, read back. -/

namespace Sys2Proof.Machine

/-! ### Reading through a frame -/

theorem Frame.byteAt_eq {s t : State} {w : List Reg} {b : Nat → Prop} (f : Frame s t w b) {a : Nat} (h : ¬ b a) :
    t.byteAt a = s.byteAt a := by
  rw [State.byteAt, State.byteAt, f.bytes a h, f.resets]

theorem Frame.hash_eq {s t : State} {w : List Reg} (f : Frame s t w noBytes) (k : Nat) : t.hash k = s.hash k := by
  rw [State.hash, State.hash, f.byteAt_eq fun h => h]

theorem Frame.nibble_eq {s t : State} {w : List Reg} (f : Frame s t w noBytes) (n k : Nat) :
    t.nibble n k = s.nibble n k := by
  rw [State.nibble, State.nibble, f.hash_eq]

theorem State.complete_hashHdr24 (s : State) : s.complete.hashHdr24 = s.hashHdr24 := rfl
theorem State.complete_hashHdr16 (s : State) : s.complete.hashHdr16 = s.hashHdr16 := rfl
theorem State.complete_unpackHdrA (s : State) : s.complete.unpackHdrA = s.unpackHdrA := rfl

/-! ### A state whose registers and HASH hold one header -/

/-- R218: the encoder's grid, and header registers that repeat the header of HASH. -/
structure PackedHash (t : State) : Prop where
  size : PlanesOfImage t
  grid : EncoderGrid t
  header : HeaderAgrees t
  hdr24 : t.reg .hdr24 = t.hashHdr24.setWidth 32
  hdr16 : t.reg .hdr16 = t.hashHdr16.setWidth 32
  hdrA : t.reg .hdrA = t.unpackHdrA.setWidth 32
  length : t.reg .hashLen = t.reg .reqLen

/-- Three bytes make up the word they were cut from. -/
theorem packEffect_hashHdr24 {s : State} {g : Nat × Nat} (h : GridOf s g) : (packEffect s).hashHdr24 = s.packHdr24 := by
  obtain ⟨b24, -, -⟩ := packEffect_bytes h
  have b0 := b24 0 (by decide)
  have b1 := b24 1 (by decide)
  have b2 := b24 2 (by decide)
  have hlt := s.packHdr24.isLt
  refine BitVec.eq_of_toNat_eq ?_
  rw [State.hashHdr24_toNat, b0, b1, b2]
  omega

theorem packEffect_hashHdr16 {s : State} {g : Nat × Nat} (h : GridOf s g) : (packEffect s).hashHdr16 = s.packHdr16 := by
  obtain ⟨-, b16, -⟩ := packEffect_bytes h
  have b0 : ((packEffect s).hash 3).toNat = s.packHdr16.toNat / 256 ^ 0 % 256 := b16 0 (by decide)
  have b1 : ((packEffect s).hash 4).toNat = s.packHdr16.toNat / 256 ^ 1 % 256 := b16 1 (by decide)
  have hlt := s.packHdr16.isLt
  refine BitVec.eq_of_toNat_eq ?_
  rw [State.hashHdr16_toNat, b0, b1]
  omega

theorem packEffect_unpackHdrA {s : State} {g : Nat × Nat} (h : GridOf s g) :
    (packEffect s).unpackHdrA = s.packHdrA := by
  rw [State.unpackHdrA, packEffect_hashHdr24 h, hasAlphaField, packHdr24_alpha]
  cases ha : s.hasAlpha with
  | true => rw [if_pos rfl, (packEffect_bytes h).2.2 ha]
  | false => rw [if_neg (by decide), State.packHdrA, ha, if_neg (by decide)]

theorem PackedHash.of_pack {s : State} (h : PlanesOfImage s ∧ EncoderGrid s ∧ AlphaFixed s) :
    PackedHash (packEffect s).complete := by
  obtain ⟨hsize, hgrid, -, hheader⟩ := pack_header h
  have hof := h.2.1.gridOf
  have hregs : ∀ r, (packEffect s).complete.reg r = (packEffect s).reg r := State.complete_reg _
  refine ⟨hsize.congr fun r _ => hregs r, hgrid.congr fun r _ => hregs r, hheader.congr fun r _ => hregs r, ?_, ?_, ?_, ?_⟩
  · rw [hregs, State.complete_hashHdr24, packEffect_hashHdr24 hof]
    exact packEffect_reg s (.hdr24, s.packHdr24.setWidth 32) (by simp)
  · rw [hregs, State.complete_hashHdr16, packEffect_hashHdr16 hof]
    exact packEffect_reg s (.hdr16, s.packHdr16.setWidth 32) (by simp)
  · rw [hregs, State.complete_unpackHdrA, packEffect_unpackHdrA hof]
    exact packEffect_reg s (.hdrA, s.packHdrA.setWidth 32) (by simp)
  · rw [hregs, hregs, (packEffect_cursor hof).2, (Frame.packEffect_writes s).regs .reqLen (by decide)]

/-! ### The header registers, read back -/

/-- The bit that the header word holds is HAS_ALPHA. -/
theorem PackedHash.alpha {t : State} (h : PackedHash t) : t.hashHdr24.getLsbD 23 = t.hasAlpha := by
  rw [h.header.1, h.hdr24, hashHdr24_alpha, hasAlphaField]

theorem PackedHash.present {t : State} (h : PackedHash t) : HeaderPresent t := by
  obtain ⟨-, hreq, hhdr, -, -⟩ := h.grid.gridOf.total
  have hlen : t.nat .hashLen = t.nat .reqLen := by rw [State.nat, h.length, State.nat]
  have h5 := (headerLength_bounds t.hasAlpha).1
  refine ⟨by omega, fun ha => ?_⟩
  rw [h.alpha] at ha
  rw [ha] at hhdr
  have h6 : headerLength true = 6 := rfl
  omega

/-- Registers that agree with the same header words agree. -/
theorem HeaderAgrees.fields_eq {t u : State} (ht : HeaderAgrees t) (hu : HeaderAgrees u)
    (h24 : u.reg .hdr24 = t.reg .hdr24) (h16 : u.reg .hdr16 = t.reg .hdr16) :
    u.hasAlpha = t.hasAlpha ∧ u.landscape = t.landscape ∧ u.reg .lfield = t.reg .lfield ∧
      u.reg .hdrLen = t.reg .hdrLen := by
  obtain ⟨ta, tl, tf, tn, -⟩ := ht
  obtain ⟨ua, ul, uf, un, -⟩ := hu
  have ha : u.hasAlpha = t.hasAlpha := by rw [ua, ta, h24]
  refine ⟨ha, by rw [ul, tl, h16], BitVec.eq_of_toNat_eq ?_, BitVec.eq_of_toNat_eq ?_⟩
  · rw [State.nat_eq h16, ← tf] at uf
    exact uf
  · rw [ha, ← tn] at un
    exact un

/-- R218: UNPACK.HDR reads back the header registers that PACK wrote. -/
theorem PackedHash.unpackHdr {t : State} (h : PackedHash t) :
    (∀ r ∈ [Reg.hdr24, .hdr16, .hdrA, .lfield, .hdrLen], (unpackHdrEffect t).reg r = t.reg r) ∧
      (unpackHdrEffect t).hasAlpha = t.hasAlpha ∧ (unpackHdrEffect t).landscape = t.landscape := by
  have e24 : (unpackHdrEffect t).reg .hdr24 = t.reg .hdr24 :=
    (unpackHdrEffect_reg t (.hdr24, t.hashHdr24.setWidth 32) (by simp [State.unpackedHeader])).trans h.hdr24.symm
  have e16 : (unpackHdrEffect t).reg .hdr16 = t.reg .hdr16 :=
    (unpackHdrEffect_reg t (.hdr16, t.hashHdr16.setWidth 32) (by simp [State.unpackedHeader])).trans h.hdr16.symm
  have eA : (unpackHdrEffect t).reg .hdrA = t.reg .hdrA :=
    (unpackHdrEffect_reg t (.hdrA, t.unpackHdrA.setWidth 32) (by simp [State.unpackedHeader])).trans h.hdrA.symm
  obtain ⟨ha, hl, hf, hn⟩ := h.header.fields_eq (unpackHdr_header t).1 e24 e16
  refine ⟨?_, ha, hl⟩
  simp only [List.forall_mem_cons, List.not_mem_nil, false_imp_iff, implies_true, and_true]
  exact ⟨e24, e16, eA, hf, hn⟩

/-! ### The grids -/

/-- R218, R240: the decoder's grid registers for the encoder's header are the encoder's. -/
theorem decoderGrid_eq_encoderGrid {t v : State} (ht : EncoderGrid t) (hsize : PlanesOfImage t) (hv : DecoderGrid v)
    (ha : v.hasAlpha = t.hasAlpha) (hl : v.landscape = t.landscape) (hf : v.reg .lfield = t.reg .lfield) :
    ∀ r ∈ gridWrites.drop 2, v.reg r = t.reg r := by
  obtain ⟨hw, -, hh, -⟩ := hsize
  have hfield : v.nat .lfield ≤ 7 := State.nat_eq hf ▸ ht.lfield_le
  have hgrid : decGrid v.hasAlpha v.landscape (v.nat .lfield) =
      encGrid (t.nat .plW) (t.nat .plH) t.hasAlpha := by
    obtain ⟨-, hland, hlx, hly, hlf⟩ := ht
    rw [ha, hl, State.nat_eq hf, hlf, hland, if_congr decide_eq_true_iff rfl rfl, hlx, hly,
      decGrid_of_encL _ _ _ hw hh]
  have hvregs := (hv.gridOf hfield).2
  rw [hgrid, ha] at hvregs
  intro r hr
  rw [← gridRegs_fst t.hasAlpha (encGrid (t.nat .plW) (t.nat .plH) t.hasAlpha).1
    (encGrid (t.nat .plW) (t.nat .plH) t.hasAlpha).2] at hr
  obtain ⟨p, hp, rfl⟩ := List.mem_map.mp hr
  rw [hvregs p hp, ht.1 p hp]

theorem payloadStart_eq {s t : State} (h : ∀ c, t.nat (.nac c) = s.nat (.nac c)) (c : Channel) :
    payloadStart t c = payloadStart s c := by
  cases c <;> simp only [payloadStart, h]

/-! ### The chain -/

/-- Settles O50: PACK leaves a `PackedHash`; the unpacker's stages read its header, its grid and its nibbles. -/
theorem unpackInvertsPack : Obligations.UnpackInvertsPack := by
  unfold Obligations.UnpackInvertsPack
  intro s hp hs hcap
  have haccepts : accepts .pack s.status.phase = true := by
    rcases hp with hp | hp <;> rw [hp] <;> rfl
  have hcoefs := hs.coefficients haccepts
  have hof := hcoefs.2.1.gridOf
  have hcheck : checkHashCap s = none := if_neg (by rw [hashCapacity_lt_iff hof.total.2.2.2.1]; omega)
  obtain ⟨t, ht⟩ : ∃ t, t = (packEffect s).complete := ⟨_, rfl⟩
  have hst : Frame s t packWrites (bytesFrom hashBase (s.nat .reqLen)) := ht ▸ (Frame.packEffect hof).completed.frame
  have hpacked : PackedHash t := ht ▸ PackedHash.of_pack hcoefs
  have hnibbles : ∀ c ∈ channels s.hasAlpha, ∀ j < s.nat (.nac c),
      t.nibble (s.nat .hdrLen) (payloadStart s c + j) = quantNibble num (s.coef c j) := fun c hc j hj => by
    rw [ht, State.complete_nibble, packEffect_coefNibble hof hc hj]
  have hcursor : t.reg .nibcur = t.reg .nacTotal := by
    refine BitVec.eq_of_toNat_eq ?_
    rw [hst.regs .nacTotal (by decide), ht]
    exact (packEffect_cursor hof).1
  obtain ⟨u, hu⟩ : ∃ u, u = (unpackHdrEffect t).complete := ⟨_, rfl⟩
  have htu : Frame t u unpackHdrWrites noBytes := hu ▸ (Frame.unpackHdrEffect t).completed.frame
  have hupd : u.status.phase = .dHdr := by rw [hu]; exact effectOf_phase .unpackHdr t (by decide)
  have huheader : HeaderAgrees u ∧ AlphaFixed u := by
    obtain ⟨h1, h2⟩ := unpackHdr_header t
    rw [hu]
    exact ⟨h1.congr fun r _ => State.complete_reg _ r, h2.congr fun r _ => State.complete_reg _ r⟩
  have hread : (∀ r ∈ [Reg.hdr24, .hdr16, .hdrA, .lfield, .hdrLen], u.reg r = t.reg r) ∧
      u.hasAlpha = t.hasAlpha ∧ u.landscape = t.landscape := by
    rw [hu]
    exact hpacked.unpackHdr
  obtain ⟨v, hv⟩ : ∃ v, v = (gridDecEffect u).complete := ⟨_, rfl⟩
  have huv : Frame u v gridDecWrites noBytes := hv ▸ (Frame.gridDecEffect u).completed.frame
  have hvpd : v.status.phase = .dGrid := by rw [hv]; exact effectOf_phase .gridDec u (by decide)
  have hvgrid : HeaderAgrees v ∧ DecoderGrid v := by
    obtain ⟨h1, -, h3⟩ := gridDec_grid huheader
    rw [hv]
    exact ⟨h1.congr fun r _ => State.complete_reg _ r, h3.congr fun r _ => State.complete_reg _ r⟩
  have halpha : v.hasAlpha = t.hasAlpha := (State.hasAlpha_eq (huv.regs .hasAlpha (by decide))).trans hread.2.1
  have hland : v.landscape = t.landscape := (State.landscape_eq (huv.regs .isLandscape (by decide))).trans hread.2.2
  have hfield : v.reg .lfield = t.reg .lfield := (huv.regs .lfield (by decide)).trans (hread.1 .lfield (by decide))
  have hgrids := decoderGrid_eq_encoderGrid hpacked.grid hpacked.size hvgrid.2 halpha hland hfield
  have hvof := hvgrid.2.gridOf hvgrid.1.lfield_le
  have hsv : ∀ r ∈ [Reg.nac .L, .nac .P, .nac .Q, .nac .A, .hdrLen, .reqLen], v.reg r = s.reg r := fun r hr =>
    (hgrids r ((by decide : ∀ r ∈ [Reg.nac .L, .nac .P, .nac .Q, .nac .A, .hdrLen, .reqLen], r ∈ gridWrites.drop 2) r hr)).trans
      (hst.regs r ((by decide : ∀ r ∈ [Reg.nac .L, .nac .P, .nac .Q, .nac .A, .hdrLen, .reqLen], r ∉ packWrites) r hr))
  have hlen : v.nat .reqLen = v.nat .hashLen := by
    rw [State.nat, State.nat, huv.regs .hashLen (by decide), htu.regs .hashLen (by decide), hpacked.length,
      hgrids .reqLen (by decide)]
  have hvcheck : checkTruncated v = none := if_neg (by omega)
  refine ⟨t, u, v, (unpackAcEffect v).complete, ht ▸ exec_success .pack rfl haccepts hcheck,
    hu ▸ exec_success .unpackHdr rfl rfl (checkHeaderLength_none_iff.mpr hpacked.present),
    hv ▸ exec_success .gridDec rfl (by rw [hupd]; rfl) rfl, exec_success .unpackAc rfl (by rw [hvpd]; rfl) hvcheck,
    hread.1, hread.2.1, hread.2.2, hgrids, effectOf_phase .unpackAc v (by decide), ?_, fun c hc j hj => ?_⟩
  · rw [State.complete_reg, hvof.unpackAc_nibcur, hcursor, hgrids .nacTotal (by decide)]
  · have hnac : ∀ d, v.nat (.nac d) = s.nat (.nac d) := fun d => State.nat_eq (hsv (.nac d) (by cases d <;> decide))
    have hc' : c ∈ channels v.hasAlpha := by
      rwa [halpha, State.hasAlpha_eq (hst.regs .hasAlpha (by decide))]
    have hj' : j < v.nat (.nac c) := (hnac c).symm ▸ hj
    have h27 := (hvof.nac hc').2
    rw [State.complete_coef, unpackAcEffect_coef v c hc' hj' (by omega), State.unpackedCoef, payloadStart_eq hnac,
      State.nat_eq (hsv .hdrLen (by decide)), huv.nibble_eq, htu.nibble_eq, hnibbles c hc j hj,
      huv.regs (.sc c) (by cases c <;> decide), Numerics.dequantNibble_eq, Numerics.boostedScale_eq, quantNibble]

end Sys2Proof.Machine
end

section
/-! What a command's writes depend on (R252, R253, R257, R258, R342): two states that agree on what a stage reads are written
alike. -/

namespace Sys2Proof.Machine

/-! ### Agreement on registers and bytes -/

/-- The two states read alike at the registers `R` and the bytes `B`. -/
structure Agree (R : List Reg) (B : Nat → Prop) (s t : State) : Prop where
  regs : ∀ r ∈ R, s.reg r = t.reg r
  bytes : ∀ a, B a → s.byteAt a = t.byteAt a

section
variable {R R' : List Reg} {B B' : Nat → Prop} {s t : State}

theorem Agree.mono (h : Agree R B s t) (hR : ∀ r ∈ R', r ∈ R) (hB : ∀ a, B' a → B a) : Agree R' B' s t :=
  ⟨fun r hr => h.regs r (hR r hr), fun a ha => h.bytes a (hB a ha)⟩

theorem Agree.nat (h : Agree R B s t) {r : Reg} (hr : r ∈ R) : s.nat r = t.nat r := State.nat_eq (h.regs r hr)

theorem Agree.hasAlpha (h : Agree R B s t) (hr : Reg.hasAlpha ∈ R) : s.hasAlpha = t.hasAlpha :=
  State.hasAlpha_eq (h.regs _ hr)

theorem Agree.landscape (h : Agree R B s t) (hr : Reg.isLandscape ∈ R) : s.landscape = t.landscape :=
  State.landscape_eq (h.regs _ hr)

theorem Agree.wordAt (h : Agree R B s t) {a : Nat} (hB : ∀ k < 4, B (a + k)) : s.wordAt a = t.wordAt a := by
  rw [State.wordAt, State.wordAt, h.bytes a (hB 0 (by decide)), h.bytes _ (hB 1 (by decide)),
    h.bytes _ (hB 2 (by decide)), h.bytes _ (hB 3 (by decide))]

end

/-! ### The registers and bytes of a write -/

/-- The register a write sets. -/
def Write.regs {F : Type} : Write F → List Reg
  | .word r _ | .value r _ | .ratio r _ => [r]
  | .plane _ _ | .coef _ _ | .hash _ _ | .pixout _ | .phase _ => []

/-- The bytes a write stores. -/
def Write.stores {F : Type} : Write F → Nat → Prop
  | .plane c cells => bytesFrom (planeBase c) (4 * min 10000 cells.length)
  | .coef c cells => bytesFrom (coefBase c) (4 * min 32 cells.length)
  | .hash i bytes => bytesFrom (hashBase + i) (min (32 - i) bytes.length)
  | .pixout bytes => bytesFrom pixoutBase (min 8192 bytes.length)
  | .word _ _ | .value _ _ | .ratio _ _ | .phase _ => noBytes

/-- One write replaces a register, a run of bytes, or PHASE, by what does not depend on the state. -/
theorem State.apply_cases {F : Type} (bits : F → Word) (w : Write F) :
    (∃ r v, w.regs = [r] ∧ w.stores = noBytes ∧ ∀ s : State, s.apply bits w = s.setReg r v) ∨
      (∃ a bs, w.regs = [] ∧ w.stores = bytesFrom a bs.length ∧ ∀ s : State, s.apply bits w = s.writeBytes a bs) ∨
      ∃ p, w.regs = [] ∧ w.stores = noBytes ∧ ∀ s : State, s.apply bits w = s.setPhase p := by
  cases w with
  | word r v => exact .inl ⟨r, _, rfl, rfl, fun _ => rfl⟩
  | value r v => exact .inl ⟨r, _, rfl, rfl, fun _ => rfl⟩
  | ratio r v => exact .inl ⟨r, _, rfl, rfl, fun _ => rfl⟩
  | plane c cells =>
    refine .inr (.inl ⟨_, _, rfl, ?_, fun _ => rfl⟩)
    rw [flatMap_bytesOfWord_length, List.length_take, List.length_map, Write.stores]
  | coef c cells =>
    refine .inr (.inl ⟨_, _, rfl, ?_, fun _ => rfl⟩)
    rw [flatMap_bytesOfWord_length, List.length_take, List.length_map, Write.stores]
  | hash i bytes =>
    refine .inr (.inl ⟨_, _, rfl, ?_, fun _ => rfl⟩)
    rw [List.length_take, Write.stores]
  | pixout bytes =>
    refine .inr (.inl ⟨_, _, rfl, ?_, fun _ => rfl⟩)
    rw [List.length_take, Write.stores]
  | phase p => exact .inr (.inr ⟨p, rfl, rfl, fun _ => rfl⟩)

/-- The bytes that one of the writes stores. -/
def storedBy {F : Type} (l : List (Write F)) : Nat → Prop := fun a => ∃ w ∈ l, w.stores a

/-- The same write leaves agreement, on what it writes too. -/
theorem Agree.apply {F : Type} {R : List Reg} {B : Nat → Prop} {s t : State} (h : Agree R B s t) (bits : F → Word)
    (w : Write F) : Agree (w.regs ++ R) (fun a => w.stores a ∨ B a) (s.apply bits w) (t.apply bits w) := by
  rcases State.apply_cases bits w with ⟨r, v, hr, hs, hw⟩ | ⟨a, bs, hr, hs, hw⟩ | ⟨p, hr, hs, hw⟩ <;>
    rw [hr, hs, hw, hw]
  · refine ⟨fun r' hr' => ?_, fun x hx => h.bytes x (hx.resolve_left fun h => h)⟩
    rw [State.reg_setReg, State.reg_setReg]
    split
    next => rfl
    next hne => exact h.regs r' ((List.mem_cons.mp hr').resolve_left (Ne.symm hne))
  · refine ⟨fun r' hr' => h.regs r' hr', fun x hx => ?_⟩
    rw [State.byteAt_writeBytes, State.byteAt_writeBytes]
    split
    next => rfl
    next hout => exact h.bytes x (hx.resolve_left hout)
  · exact ⟨fun r' hr' => h.regs r' hr', fun x hx => h.bytes x (hx.resolve_left fun h => h)⟩

theorem Agree.commit {F : Type} {R : List Reg} {B : Nat → Prop} {s t : State} (h : Agree R B s t) (bits : F → Word)
    (l : List (Write F)) :
    Agree (l.flatMap Write.regs ++ R) (fun a => storedBy l a ∨ B a) (s.commit bits l) (t.commit bits l) := by
  induction l generalizing R B s t with
  | nil => exact h.mono (fun _ h => h) fun a ha => ha.resolve_left fun ⟨_, hw, _⟩ => nomatch hw
  | cons w l ih =>
    rw [State.commit_cons, State.commit_cons]
    refine (ih (h.apply bits w)).mono (fun r hr => ?_) fun a ha => ?_
    · simp only [List.flatMap_cons, List.mem_append] at hr ⊢
      tauto
    · rcases ha with ⟨x, hx, hxa⟩ | ha
      · rcases List.mem_cons.mp hx with rfl | hx
        · exact .inr (.inl hxa)
        · exact .inl ⟨x, hx, hxa⟩
      · exact .inr (.inr ha)

/-! ### The same registers and memories -/

/-- The two states hold the same registers and memories, and the bytes `B` are written. -/
structure SameData (B : Nat → Prop) (s t : State) : Prop where
  regs : s.regs = t.regs
  mem : s.mem = t.mem
  written : ∀ a, B a → (s.mem.read a).isSome = true

theorem SameData.agree {B : Nat → Prop} {s t : State} (h : SameData B s t) (R : List Reg) : Agree R B s t := by
  refine ⟨fun r _ => State.reg_congr h.regs r, fun a ha => ?_⟩
  obtain ⟨b, hb⟩ := Option.isSome_iff_exists.mp (h.written a ha)
  rw [byteAt_of_read hb, byteAt_of_read (h.mem ▸ hb)]

theorem SameData.mono {B B' : Nat → Prop} {s t : State} (h : SameData B s t) (hB : ∀ a, B' a → B a) : SameData B' s t :=
  ⟨h.regs, h.mem, fun a ha => h.written a (hB a ha)⟩

theorem SameData.trans {B : Nat → Prop} {s t u : State} (h : SameData B s t) (hr : u.regs = t.regs) (hm : u.mem = t.mem) :
    SameData B s u := ⟨h.regs.trans hr.symm, h.mem.trans hm.symm, h.written⟩

theorem SameData.apply {F : Type} {B : Nat → Prop} {s t : State} (h : SameData B s t) (bits : F → Word) (w : Write F) :
    SameData (fun a => w.stores a ∨ B a) (s.apply bits w) (t.apply bits w) := by
  rcases State.apply_cases bits w with ⟨r, v, -, hs, hw⟩ | ⟨a, bs, -, hs, hw⟩ | ⟨p, -, hs, hw⟩ <;> rw [hs, hw, hw]
  · refine ⟨?_, h.mem, fun x hx => h.written x (hx.resolve_left fun h => h)⟩
    rw [State.setReg, State.setReg, h.regs]
  · refine ⟨h.regs, ?_, fun x hx => ?_⟩
    · rw [State.writeBytes_mem, State.writeBytes_mem, h.mem]
    · rw [State.writeBytes_mem, Memory.read_write]
      split
      next hin => rw [List.getElem?_eq_getElem (by omega), Option.isSome_some]
      next hout => exact h.written x (hx.resolve_left hout)
  · exact ⟨h.regs, h.mem, fun x hx => h.written x (hx.resolve_left fun h => h)⟩

theorem SameData.commit {F : Type} {B : Nat → Prop} {s t : State} (h : SameData B s t) (bits : F → Word)
    (l : List (Write F)) : SameData (fun a => storedBy l a ∨ B a) (s.commit bits l) (t.commit bits l) := by
  induction l generalizing B s t with
  | nil => exact h.mono fun a ha => ha.resolve_left fun ⟨_, hw, _⟩ => nomatch hw
  | cons w l ih =>
    rw [State.commit_cons, State.commit_cons]
    refine (ih (h.apply bits w)).mono fun a ha => ?_
    rcases ha with ⟨x, hx, hxa⟩ | ha
    · rcases List.mem_cons.mp hx with rfl | hx
      · exact .inr (.inl hxa)
      · exact .inl ⟨x, hx, hxa⟩
    · exact .inr (.inr ha)

/-! ### What each stage reads

Each lemma holds for any arithmetic: the values of the formulas play no part. -/

section
variable (N : Numerics Word) {R : List Reg} {B : Nat → Prop} {s t : State}

/-- R160: CT.FWD reads the image. -/
theorem Agree.image (h : Agree R B s t) (hR : ∀ r ∈ [Reg.imgW, .imgH], r ∈ R)
    (hB : ∀ k < 4 * (s.nat .imgW * s.nat .imgH), B (pixinBase + k)) : s.image = t.image := by
  rw [State.image, State.image, ← h.nat (hR .imgW (by decide)), ← h.nat (hR .imgH (by decide)), State.pixels, State.pixels]
  refine List.map_congr_left fun i hi => ?_
  have hi := List.mem_range.mp hi
  have hpixin : ∀ k < 4, s.pixin (4 * i + k) = t.pixin (4 * i + k) := fun k hk => h.bytes _ (hB _ (by omega))
  rw [State.pixel, State.pixel, hpixin 1 (by decide), hpixin 2 (by decide), hpixin 3 (by decide)]
  exact congrArg (fun r => Pixel.mk r _ _ _) (hpixin 0 (by decide))

theorem ctFwdStage_congr (himage : s.image = t.image) (h : Agree R B s t) (hR : ∀ r ∈ [Reg.imgW, .imgH], r ∈ R) :
    ctFwdStage N s.view = ctFwdStage N t.view := by
  simp only [ctFwdStage, State.view, himage, h.regs .imgW (hR _ (by decide)), h.regs .imgH (hR _ (by decide))]

theorem gridEncStage_congr (h : Agree R B s t) (hR : ∀ r ∈ [Reg.plW, .plH, .hasAlpha], r ∈ R) :
    gridEncStage N s.view = gridEncStage N t.view := by
  simp only [gridEncStage, State.view, h.nat (hR .plW (by decide)), h.nat (hR .plH (by decide)),
    h.hasAlpha (hR _ (by decide))]

theorem fwdTerm_congr {p q : Nat → Word} {w h : Nat} (hpq : ∀ x < w, ∀ y < h, p (y * w + x) = q (y * w + x)) (cx cy : Nat) :
    fwdTerm N p w h cx cy = fwdTerm N q w h cx cy := by
  rw [fwdTerm, fwdTerm]
  congr 1
  refine List.foldl_ext _ _ _ fun sum y hy => List.foldl_ext _ _ _ fun sum x hx => ?_
  rw [hpq x (List.mem_range.mp hx) y (List.mem_range.mp hy)]

theorem fwdChannel_congr {p q : Nat → Word} {w h : Nat} (hpq : ∀ x < w, ∀ y < h, p (y * w + x) = q (y * w + x))
    (nx ny : Nat) : fwdChannel N p w h nx ny = fwdChannel N q w h nx ny := by
  simp only [fwdChannel, fwdTerm_congr N hpq]

/-- R182: DCT.FWD reads the grid registers and the planes. -/
theorem dctFwdStage_congr (h : Agree R B s t)
    (hR : ∀ r ∈ [Reg.plW, .plH, .hasAlpha, .nx .L, .nx .P, .nx .Q, .nx .A, .ny .L, .ny .P, .ny .Q, .ny .A, .nac .L, .nac .P,
      .nac .Q, .nac .A], r ∈ R) (hB : ∀ a, planeBytes (s.nat .plW * s.nat .plH) a → B a) :
    dctFwdStage N s.view = dctFwdStage N t.view := by
  have hplane : ∀ c, ∀ x < s.nat .plW, ∀ y < s.nat .plH,
      s.plane c (y * s.nat .plW + x) = t.plane c (y * s.nat .plW + x) := fun c x hx y hy => by
    obtain ⟨hi, -, -⟩ := cell_index hx hy
    refine h.wordAt fun k hk => hB _ ⟨c, ?_⟩
    unfold bytesFrom
    omega
  have hstage : ∀ c, fwdStage N s.view c = fwdStage N t.view c := fun c => by
    have hnx := h.nat (hR (.nx c) (by cases c <;> decide))
    have hny := h.nat (hR (.ny c) (by cases c <;> decide))
    have hnac := h.nat (hR (.nac c) (by cases c <;> decide))
    simp only [fwdStage, fwdResult, State.view, ← hnx, ← hny, ← hnac, ← h.nat (hR .plW (by decide)),
      ← h.nat (hR .plH (by decide)), fwdChannel_congr N (hplane c)]
  have ha : s.view.state.hasAlpha = t.view.state.hasAlpha := h.hasAlpha (hR _ (by decide))
  rw [dctFwdStage, dctFwdStage, ha, funext hstage]

/-- R200: PACK reads the header fields' registers and the coefficients. -/
theorem packStage_congr (h : Agree R B s t)
    (hR : ∀ r ∈ [Reg.hasAlpha, .isLandscape, .lfield, .hdrLen, .reqLen, .nac .L, .nac .P, .nac .Q, .nac .A, .dc .L, .dc .P,
      .dc .Q, .dc .A, .sc .L, .sc .P, .sc .Q, .sc .A], r ∈ R) (hB : ∀ a, coefBytes s a → B a) :
    packStage N s.view = packStage N t.view := by
  have hcoef : ∀ c ∈ channels s.hasAlpha, ∀ j < s.nat (.nac c), s.coef c j = t.coef c j := fun c hc j hj =>
    h.wordAt fun k hk => hB _ ⟨c, hc, by unfold bytesFrom; omega⟩
  have ha := h.hasAlpha (hR _ (by decide))
  have hchannel : ∀ c ∈ channels s.hasAlpha, packChannel N s.view c = packChannel N t.view c := fun c hc => by
    have hnac := h.nat (hR (.nac c) (by cases c <;> decide))
    simp only [packChannel, State.view, ← hnac]
    exact List.map_congr_left fun j hj => by rw [hcoef c hc j (List.mem_range.mp hj)]
  have hnibbles : packNibbles N s.view = packNibbles N t.view := by
    simp only [packNibbles, State.view, ← ha]
    exact List.flatMap_congr hchannel
  have hdc : ∀ c, s.reg (.dc c) = t.reg (.dc c) := fun c => h.regs _ (hR (.dc c) (by cases c <;> decide))
  have hsc : ∀ c, s.reg (.sc c) = t.reg (.sc c) := fun c => h.regs _ (hR (.sc c) (by cases c <;> decide))
  have h24 : packHdr24 N s.view = packHdr24 N t.view := by
    simp only [packHdr24, State.view, ha, hdc, hsc]
  have h16 : packHdr16 N s.view = packHdr16 N t.view := by
    simp only [packHdr16, State.view, h.landscape (hR _ (by decide)), h.regs .lfield (hR _ (by decide)), hsc]
  have ha' : s.view.state.hasAlpha = t.view.state.hasAlpha := ha
  have hA : packHdrA N s.view = packHdrA N t.view := by
    have hdcA : s.view.value (.dc .A) = t.view.value (.dc .A) := hdc .A
    have hscA : s.view.value (.sc .A) = t.view.value (.sc .A) := hsc .A
    rw [packHdrA, packHdrA, ha', hdcA, hscA]
  have hheader : packHeader N s.view = packHeader N t.view := by
    rw [packHeader, packHeader, h24, h16, hA, ha']
  have hlen : s.view.state.nat .hdrLen = t.view.state.nat .hdrLen := h.nat (hR _ (by decide))
  have hreq : s.view.state.reg .reqLen = t.view.state.reg .reqLen := h.regs _ (hR _ (by decide))
  simp only [packStage, hheader, hnibbles, h24, h16, hA, hlen, hreq]

/-- R210: the header of HASH, byte 5 only with alpha. -/
theorem Agree.header (h : Agree R B s t) (hB : ∀ k < 5, B (hashBase + k))
    (h5 : s.hashHdr24.getLsbD 23 = true → B (hashBase + 5)) :
    s.hashHdr24 = t.hashHdr24 ∧ s.hashHdr16 = t.hashHdr16 ∧ s.unpackHdrA = t.unpackHdrA := by
  have hhash : ∀ k < 5, s.hash k = t.hash k := fun k hk => h.bytes _ (hB k hk)
  have h24 : s.hashHdr24 = t.hashHdr24 := by
    rw [State.hashHdr24, State.hashHdr24, hhash 0 (by decide), hhash 1 (by decide), hhash 2 (by decide)]
  refine ⟨h24, ?_, ?_⟩
  · rw [State.hashHdr16, State.hashHdr16, hhash 3 (by decide), hhash 4 (by decide)]
  · rw [State.unpackHdrA, State.unpackHdrA, ← h24]
    split
    next ha => exact h.bytes _ (h5 ha)
    next => rfl

theorem unpackHdrStage_congr
    (h : s.hashHdr24 = t.hashHdr24 ∧ s.hashHdr16 = t.hashHdr16 ∧ s.unpackHdrA = t.unpackHdrA) :
    unpackHdrStage N s.view = unpackHdrStage N t.view := by
  obtain ⟨h24, h16, hA⟩ := h
  have hwords : s.headerWords = t.headerWords := by rw [State.headerWords, State.headerWords, h24, h16, hA]
  simp only [unpackHdrStage, State.view, hwords, h24, h16, hA]

theorem gridDecStage_congr (h : Agree R B s t) (hR : ∀ r ∈ [Reg.hasAlpha, .isLandscape, .lfield], r ∈ R) :
    gridDecStage N s.view = gridDecStage N t.view := by
  simp only [gridDecStage, State.view, h.hasAlpha (hR _ (by decide)), h.landscape (hR _ (by decide)),
    h.nat (hR .lfield (by decide))]

/-- R215: the channels read their nibbles one after the other. -/
theorem unpackFrom_congr (h : Agree R B s t)
    (hR : ∀ r ∈ [Reg.hdrLen, .nac .L, .nac .P, .nac .Q, .nac .A, .sc .L, .sc .P, .sc .Q, .sc .A], r ∈ R)
    (cs : List Channel) (k : Nat)
    (hnibble : ∀ m < k + (cs.map fun c => s.nat (.nac c)).sum, s.nibble (s.nat .hdrLen) m = t.nibble (s.nat .hdrLen) m) :
    unpackFrom N s.view cs k = unpackFrom N t.view cs k := by
  induction cs generalizing k with
  | nil => rfl
  | cons c cs ih =>
    have hnac := h.nat (hR (.nac c) (by cases c <;> decide))
    rw [List.map_cons, List.sum_cons] at hnibble
    have hrest := ih (k + s.nat (.nac c)) fun m hm => hnibble m (by omega)
    have hchannel : unpackChannel N s.view c k = unpackChannel N t.view c k := by
      simp only [unpackChannel, State.view, ← hnac, ← h.nat (hR .hdrLen (by decide)),
        ← h.regs (.sc c) (hR _ (by cases c <;> decide))]
      refine List.map_congr_left fun j hj => ?_
      rw [hnibble (k + j) (by have := List.mem_range.mp hj; omega)]
    have hnac' : s.view.state.nat (.nac c) = t.view.state.nat (.nac c) := hnac
    rw [unpackFrom, unpackFrom, hchannel, ← hnac']
    exact congrArg _ hrest

theorem unpackAcStage_congr (h : Agree R B s t)
    (hR : ∀ r ∈ [Reg.hasAlpha, .hdrLen, .nac .L, .nac .P, .nac .Q, .nac .A, .sc .L, .sc .P, .sc .Q, .sc .A], r ∈ R)
    (hB : ∀ m < ((channels s.hasAlpha).map fun c => s.nat (.nac c)).sum, B (hashBase + (s.nat .hdrLen + m / 2))) :
    unpackAcStage N s.view = unpackAcStage N t.view := by
  have ha : s.view.state.hasAlpha = t.view.state.hasAlpha := h.hasAlpha (hR _ (by decide))
  rw [unpackAcStage, unpackAcStage, ← ha, unpackFrom_congr N h (fun r hr => hR r (List.mem_cons_of_mem _ hr))]
  intro m hm
  rw [Nat.zero_add] at hm
  rw [State.nibble, State.nibble, State.hash, State.hash, h.bytes _ (hB m hm)]

theorem invSample_congr {p q : Nat → Word} {nx ny : Nat} (hpq : ∀ j < scanCount nx ny, p j = q j) (dc : Word)
    (w h x y : Nat) : invSample N dc p nx ny w h x y = invSample N dc q nx ny w h x y := by
  rw [invSample, invSample]
  refine List.foldl_ext _ _ _ fun v e he => ?_
  have hlt : e.2 < scanCount nx ny := by
    have := List.snd_lt_of_mem_zipIdx he
    rwa [scanCount]
  rw [hpq e.2 hlt]

/-- R184: DCT.INV reads the grid, the raster and the coefficients. -/
theorem dctInvStage_congr (h : Agree R B s t)
    (hR : ∀ r ∈ [Reg.hasAlpha, .outW, .outH, .nx .L, .nx .P, .nx .Q, .nx .A, .ny .L, .ny .P, .ny .Q, .ny .A, .dc .L, .dc .P,
      .dc .Q, .dc .A], r ∈ R)
    (hnac : ∀ c ∈ channels s.hasAlpha, s.nat (.nac c) = scanCount (s.nat (.nx c)) (s.nat (.ny c)))
    (hB : ∀ a, coefBytes s a → B a) : dctInvStage N s.view = dctInvStage N t.view := by
  have hcoef : ∀ c ∈ channels s.hasAlpha, ∀ j < scanCount (s.nat (.nx c)) (s.nat (.ny c)), s.coef c j = t.coef c j :=
    fun c hc j hj => h.wordAt fun k hk => hB _ ⟨c, hc, by rw [← hnac c hc] at hj; unfold bytesFrom; omega⟩
  have hw : s.view.state.nat .outW = t.view.state.nat .outW := h.nat (hR _ (by decide))
  have hh : s.view.state.nat .outH = t.view.state.nat .outH := h.nat (hR _ (by decide))
  have hcell : ∀ c i, invCell N s.view c i = invCell N t.view c i := fun c i => by
    have ha : s.view.state.hasAlpha = t.view.state.hasAlpha := h.hasAlpha (hR _ (by decide))
    have hdc : s.view.value (.dc c) = t.view.value (.dc c) := h.regs _ (hR _ (by cases c <;> decide))
    have hnx : s.view.state.nat (.nx c) = t.view.state.nat (.nx c) := h.nat (hR _ (by cases c <;> decide))
    have hny : s.view.state.nat (.ny c) = t.view.state.nat (.ny c) := h.nat (hR _ (by cases c <;> decide))
    rw [invCell, invCell, ← ha, ← hdc, ← hnx, ← hny, ← hw, ← hh]
    split
    next => rfl
    next hpresent =>
      refine invSample_congr N (hcoef c ?_) _ _ _ _ _
      cases c with
      | A =>
        have ha : s.hasAlpha = true := Bool.eq_true_of_not_eq_false fun ha => hpresent ⟨rfl, ha⟩
        rw [ha]
        decide
      | _ => cases s.hasAlpha <;> decide
  have hplane : invPlane N s.view = invPlane N t.view := by
    funext c
    rw [invPlane, invPlane, ← hw, ← hh]
    exact List.map_congr_left fun i _ => hcell c i
  have hrw : s.view.state.reg .outW = t.view.state.reg .outW := h.regs _ (hR _ (by decide))
  have hrh : s.view.state.reg .outH = t.view.state.reg .outH := h.regs _ (hR _ (by decide))
  simp only [dctInvStage, hplane, hrw, hrh]

/-- R170: CT.INV reads the planes. -/
theorem ctInvStage_congr (h : Agree R B s t) (hR : ∀ r ∈ [Reg.plW, .plH], r ∈ R)
    (hB : ∀ a, planeBytes (s.nat .plW * s.nat .plH) a → B a) : ctInvStage N s.view = ctInvStage N t.view := by
  have hw : s.view.state.nat .plW = t.view.state.nat .plW := h.nat (hR _ (by decide))
  have hh : s.view.state.nat .plH = t.view.state.nat .plH := h.nat (hR _ (by decide))
  have hplane : ∀ c, ∀ i < s.nat .plW * s.nat .plH, s.plane c i = t.plane c i := fun c i hi =>
    h.wordAt fun k hk => hB _ ⟨c, by unfold bytesFrom; omega⟩
  have hbytes : (List.range (s.view.state.nat .plW * s.view.state.nat .plH)).flatMap
      (fun i => pixelBytes N (s.view.sample i)) = (List.range (s.view.state.nat .plW * s.view.state.nat .plH)).flatMap
      (fun i => pixelBytes N (t.view.sample i)) := by
    refine List.flatMap_congr fun i hi => ?_
    have hi := List.mem_range.mp hi
    simp only [View.sample, State.view, hplane _ i hi]
  rw [ctInvStage, ctInvStage, ← hw, ← hh, hbytes]

end

end Sys2Proof.Machine
end

section
/-! The stages on two states that agree on what the stage reads: the same writes, on the registers and bytes of its row. -/

namespace Sys2Proof.Machine

/-! ### What a stage writes, whatever the arithmetic -/

section
variable {F : Type} (N : Numerics F) (v : View F)

theorem storedBy_append_left {l l' : List (Write F)} {a : Nat} (h : storedBy l a) : storedBy (l ++ l') a := by
  obtain ⟨w, hw, ha⟩ := h
  exact ⟨w, List.mem_append_left _ hw, ha⟩

/-- R49: the writes of all four planes store their cells. -/
theorem storedBy_planeWrites {cells : Channel → List F} {n : Nat} (hlen : ∀ c, (cells c).length = n) (hn : n ≤ 10000)
    {a : Nat} (ha : planeBytes n a) : storedBy (planeWrites cells) a := by
  obtain ⟨c, hc⟩ := ha
  refine ⟨.plane c (cells c), by cases c <;> simp [planeWrites], ?_⟩
  rw [Write.stores, hlen, min_eq_right hn]
  exact hc

theorem ctFwdStage_regs : (ctFwdStage N v).flatMap Write.regs =
    [.plW, .plH, .hasAlpha, .bgR, .bgG, .bgB, .alphaSum] := rfl

theorem ctFwdStage_stores {n : Nat} (hlen : v.state.image.length = n) (hn : n ≤ 10000) {a : Nat} (ha : planeBytes n a) :
    storedBy (ctFwdStage N v) a := by
  refine storedBy_append_left (storedBy_planeWrites (fun c => ?_) hn ha)
  rw [List.length_map, List.length_map, hlen]

theorem gridEncStage_regs : (gridEncStage N v).flatMap Write.regs =
    [Reg.lx, .ly, .isLandscape, .lfield] ++ gridWrites.drop 2 := rfl

/-- R182: DC_c and SC_c of all four channels, of A also without alpha. -/
theorem dctFwdStage_regs : ∀ r ∈ channelWrites, r ∈ (dctFwdStage N v).flatMap Write.regs := by
  rw [dctFwdStage]
  cases v.state.hasAlpha <;> simp [channelWrites, channels, fwdStage, Write.regs]

theorem dctFwdStage_stores {c : Channel} (hc : c ∈ channels v.state.hasAlpha)
    (hnac : v.state.nat (.nac c) = scanCount (v.state.nat (.nx c)) (v.state.nat (.ny c)))
    (h32 : v.state.nat (.nac c) ≤ 32) {a : Nat} (ha : bytesFrom (coefBase c) (4 * v.state.nat (.nac c)) a) :
    storedBy (dctFwdStage N v) a := by
  have hmem : Write.coef c ((fwdResult N v c).ac.take (v.state.nat (.nac c))) ∈
      (channels v.state.hasAlpha).flatMap (fwdStage N v) := List.mem_flatMap.mpr ⟨c, hc, List.mem_cons_self⟩
  refine ⟨_, List.mem_append_left _ (List.mem_append_left _ hmem), ?_⟩
  have hlen : (fwdResult N v c).ac.length = v.state.nat (.nac c) :=
    (fwdChannel_ac_length N _ _ _ _ _).trans hnac.symm
  rw [Write.stores, List.length_take, hlen, min_self, min_eq_right h32]
  exact ha

theorem packStage_regs : (packStage N v).flatMap Write.regs = [.hdr24, .hdr16, .hdrA, .nibcur, .hashLen] := rfl

theorem packHeader_length_eq : (packHeader N v).length = headerLength v.state.hasAlpha := by
  rw [packHeader, headerLength]
  cases v.state.hasAlpha <;> rfl

theorem packNibbles_length_eq : (packNibbles N v).length =
    ((channels v.state.hasAlpha).map fun c => v.state.nat (.nac c)).sum := by
  rw [packNibbles, List.length_flatMap]
  congr 1
  refine List.map_congr_left fun c _ => ?_
  rw [packChannel, List.length_map, List.length_range]

/-- R200: the header bytes and then the payload. -/
theorem packStage_stores {total : Nat} (hhdr : v.state.nat .hdrLen = headerLength v.state.hasAlpha)
    (htotal : ((channels v.state.hasAlpha).map fun c => v.state.nat (.nac c)).sum = total)
    (h32 : v.state.nat .hdrLen + (total + 1) / 2 ≤ 32) {a : Nat}
    (ha : bytesFrom hashBase (v.state.nat .hdrLen + (total + 1) / 2) a) : storedBy (packStage N v) a := by
  unfold bytesFrom at ha
  by_cases hlow : a < hashBase + v.state.nat .hdrLen
  · refine ⟨.hash 0 (packHeader N v), List.mem_cons_self, ?_⟩
    rw [Write.stores, packHeader_length_eq, ← hhdr]
    unfold bytesFrom
    omega
  · refine ⟨.hash (v.state.nat .hdrLen) (pairNibbles (packNibbles N v)), List.mem_cons_of_mem _ List.mem_cons_self, ?_⟩
    rw [Write.stores, pairNibbles_length, packNibbles_length_eq, htotal]
    unfold bytesFrom
    omega

theorem unpackHdrStage_regs : (unpackHdrStage N v).flatMap Write.regs =
    [.hdr24, .hdr16, .hdrA, .hasAlpha, .isLandscape, .lfield, .hdrLen, .dc .L, .dc .P, .dc .Q, .sc .L, .sc .P, .sc .Q,
      .dc .A, .sc .A] := rfl

theorem gridDecStage_regs : (gridDecStage N v).flatMap Write.regs =
    ([Reg.lx, .ly] ++ gridWrites.drop 2) ++ [.ratio, .outW, .outH, .pixoutLen] := rfl

theorem unpackAcStage_regs : Reg.nibcur ∈ (unpackAcStage N v).flatMap Write.regs := by
  rw [unpackAcStage]
  cases v.state.hasAlpha <;> simp [channels, unpackFrom, Write.regs]

/-- R215: every channel of the list is stored, wherever its nibbles begin. -/
theorem unpackFrom_stores {cs : List Channel} (k : Nat) {c : Channel} (hc : c ∈ cs)
    (h32 : v.state.nat (.nac c) ≤ 32) {a : Nat} (ha : bytesFrom (coefBase c) (4 * v.state.nat (.nac c)) a) :
    storedBy (unpackFrom N v cs k) a := by
  induction cs generalizing k with
  | nil => exact nomatch hc
  | cons d cs ih =>
    rw [unpackFrom]
    rcases List.mem_cons.mp hc with rfl | hc
    · refine ⟨_, List.mem_cons_self, ?_⟩
      rw [Write.stores, unpackChannel, List.length_map, List.length_range, min_eq_right h32]
      exact ha
    · obtain ⟨w, hw, hwa⟩ := ih (k + v.state.nat (.nac d)) hc
      exact ⟨w, List.mem_cons_of_mem _ hw, hwa⟩

theorem dctInvStage_regs : (dctInvStage N v).flatMap Write.regs = [.plW, .plH] := rfl

theorem dctInvStage_stores (hn : v.state.nat .outW * v.state.nat .outH ≤ 10000) {a : Nat}
    (ha : planeBytes (v.state.nat .outW * v.state.nat .outH) a) : storedBy (dctInvStage N v) a := by
  refine storedBy_append_left (storedBy_planeWrites (fun c => ?_) hn ha)
  rw [invPlane, List.length_map, List.length_range]

theorem ctInvStage_stores (hn : 4 * (v.state.nat .plW * v.state.nat .plH) ≤ 8192) {a : Nat}
    (ha : bytesFrom pixoutBase (4 * (v.state.nat .plW * v.state.nat .plH)) a) : storedBy (ctInvStage N v) a := by
  refine ⟨_, List.mem_cons_self, ?_⟩
  rw [Write.stores, flatMap_pixelBytes_length, List.length_range, min_eq_right hn]
  exact ha

end

/-! ### Stages that two states determine alike -/

/-- The stage `w` makes the same writes on both states, and they reach the registers `W` and the bytes `S`. -/
structure Determined (w : Numerics Word → View Word → List (Write Word)) (W : List Reg) (S : Nat → Prop) (s t : State) :
    Prop where
  same : w num s.view = w num t.view
  regs : ∀ r ∈ W, r ∈ (w num s.view).flatMap Write.regs
  stores : ∀ a, S a → storedBy (w num s.view) a

theorem Agree.stage {w : Numerics Word → View Word → List (Write Word)} {R W : List Reg} {B S : Nat → Prop} {s t : State}
    (h : Agree R B s t) (d : Determined w W S s t) :
    Agree (W ++ R) (fun a => S a ∨ B a) (binary32.stage w s) (binary32.stage w t) := by
  rw [binary32_stage, binary32_stage, ← d.same]
  exact (h.commit _ _).mono (fun r hr => List.mem_append.mpr ((List.mem_append.mp hr).imp (d.regs r) id))
    fun a ha => ha.imp (d.stores a) id

theorem SameData.stage {w : Numerics Word → View Word → List (Write Word)} {W : List Reg} {B S : Nat → Prop} {s t : State}
    (h : SameData B s t) (d : Determined w W S s t) :
    SameData (fun a => S a ∨ B a) (binary32.stage w s) (binary32.stage w t) := by
  rw [binary32_stage, binary32_stage, ← d.same]
  exact (h.commit _ _).mono fun a ha => ha.imp (d.stores a) id

/-! ### The encoder's stages -/

section
variable {R : List Reg} {B : Nat → Prop} {s t : State}

theorem ImageValid.size {s : State} (h : ImageValid s) : s.nat .imgW * s.nat .imgH ≤ 10000 := by
  obtain ⟨-, hw, -, hh, -⟩ := h
  exact Nat.mul_le_mul hw hh

theorem Agree.ctFwd (h : Agree R B s t) (hs : ImageValid s) (hR : ∀ r ∈ [Reg.imgW, .imgH], r ∈ R)
    (hB : ∀ k < 4 * (s.nat .imgW * s.nat .imgH), B (pixinBase + k)) :
    Determined ctFwdStage ctFwdWrites (planeBytes (s.nat .imgW * s.nat .imgH)) s t := by
  refine ⟨ctFwdStage_congr num (h.image hR hB) h hR, ?_, fun a ha => ctFwdStage_stores num s.view ?_ hs.size ha⟩
  · rw [ctFwdStage_regs]
    decide
  · rw [State.view, State.image, State.pixels, List.length_map, List.length_range]

theorem Agree.gridEnc (h : Agree R B s t) (hR : ∀ r ∈ [Reg.plW, .plH, .hasAlpha], r ∈ R) :
    Determined gridEncStage gridEncWrites noBytes s t := by
  refine ⟨gridEncStage_congr num h hR, ?_, fun _ ha => ha.elim⟩
  rw [gridEncStage_regs]
  decide

theorem Agree.dctFwd (h : Agree R B s t) {g : Nat × Nat} (hs : GridOf s g)
    (hR : ∀ r ∈ [Reg.plW, .plH, .hasAlpha, .nx .L, .nx .P, .nx .Q, .nx .A, .ny .L, .ny .P, .ny .Q, .ny .A, .nac .L, .nac .P,
      .nac .Q, .nac .A], r ∈ R) (hB : ∀ a, planeBytes (s.nat .plW * s.nat .plH) a → B a) :
    Determined dctFwdStage channelWrites (coefBytes s) s t := by
  refine ⟨dctFwdStage_congr num h hR hB, dctFwdStage_regs num s.view, ?_⟩
  rintro a ⟨c, hc, ha⟩
  obtain ⟨hnac, h27⟩ := hs.nac hc
  exact dctFwdStage_stores num s.view hc hnac (Nat.le_trans h27 (by decide)) ha

/-- The counts of the channels present add up to NAC_TOTAL. -/
theorem GridOf.sum_nac {g : Nat × Nat} (h : GridOf s g) :
    ((channels s.hasAlpha).map fun c => s.nat (.nac c)).sum = s.nat .nacTotal := by
  rw [← h.total.1]
  cases s.hasAlpha <;> simp [channels] <;> omega

theorem Agree.pack (h : Agree R B s t) {g : Nat × Nat} (hs : GridOf s g)
    (hR : ∀ r ∈ [Reg.hasAlpha, .isLandscape, .lfield, .hdrLen, .reqLen, .nac .L, .nac .P, .nac .Q, .nac .A, .dc .L, .dc .P,
      .dc .Q, .dc .A, .sc .L, .sc .P, .sc .Q, .sc .A], r ∈ R) (hB : ∀ a, coefBytes s a → B a) :
    Determined packStage packWrites (bytesFrom hashBase (s.nat .reqLen)) s t := by
  obtain ⟨-, hreq, hhdr, h32, -⟩ := hs.total
  refine ⟨packStage_congr num h hR hB, ?_, fun a ha => ?_⟩
  · rw [packStage_regs]
    decide
  · rw [hreq] at ha h32
    exact packStage_stores num s.view hhdr hs.sum_nac h32 ha

/-! ### The decoder's stages -/

theorem Agree.unpackHdr (h : Agree R B s t) (hB : ∀ k < 5, B (hashBase + k))
    (h5 : s.hashHdr24.getLsbD 23 = true → B (hashBase + 5)) :
    Determined unpackHdrStage unpackHdrWrites noBytes s t := by
  refine ⟨unpackHdrStage_congr num (h.header hB h5), ?_, fun _ ha => ha.elim⟩
  rw [unpackHdrStage_regs]
  decide

theorem Agree.gridDec (h : Agree R B s t) (hR : ∀ r ∈ [Reg.hasAlpha, .isLandscape, .lfield], r ∈ R) :
    Determined gridDecStage gridDecWrites noBytes s t := by
  refine ⟨gridDecStage_congr num h hR, ?_, fun _ ha => ha.elim⟩
  rw [gridDecStage_regs]
  decide

theorem Agree.unpackAc (h : Agree R B s t) {g : Nat × Nat} (hs : GridOf s g)
    (hR : ∀ r ∈ [Reg.hasAlpha, .hdrLen, .nac .L, .nac .P, .nac .Q, .nac .A, .sc .L, .sc .P, .sc .Q, .sc .A], r ∈ R)
    (hB : ∀ k < s.nat .reqLen, B (hashBase + k)) : Determined unpackAcStage [.nibcur] (coefBytes s) s t := by
  obtain ⟨-, hreq, -, -, -⟩ := hs.total
  refine ⟨unpackAcStage_congr num h hR fun m hm => hB _ ?_, ?_, ?_⟩
  · rw [hs.sum_nac] at hm
    omega
  · exact List.forall_mem_singleton.mpr (unpackAcStage_regs num s.view)
  · rintro a ⟨c, hc, ha⟩
    exact storedBy_append_left (unpackFrom_stores num s.view 0 hc (Nat.le_trans (hs.nac hc).2 (by decide)) ha)

theorem Agree.dctInv (h : Agree R B s t) {g : Nat × Nat} (hs : GridOf s g)
    (hsize : s.nat .outW * s.nat .outH ≤ 10000)
    (hR : ∀ r ∈ [Reg.hasAlpha, .outW, .outH, .nx .L, .nx .P, .nx .Q, .nx .A, .ny .L, .ny .P, .ny .Q, .ny .A, .dc .L, .dc .P,
      .dc .Q, .dc .A], r ∈ R) (hB : ∀ a, coefBytes s a → B a) :
    Determined dctInvStage [.plW, .plH] (planeBytes (s.nat .outW * s.nat .outH)) s t := by
  refine ⟨dctInvStage_congr num h hR (fun c hc => (hs.nac hc).1) hB, ?_,
    fun a ha => dctInvStage_stores num s.view hsize ha⟩
  rw [dctInvStage_regs]
  exact fun r hr => hr

theorem Agree.ctInv (h : Agree R B s t) (hsize : 4 * (s.nat .plW * s.nat .plH) ≤ 8192)
    (hR : ∀ r ∈ [Reg.plW, .plH], r ∈ R) (hB : ∀ a, planeBytes (s.nat .plW * s.nat .plH) a → B a) :
    Determined ctInvStage [] (bytesFrom pixoutBase (4 * (s.nat .plW * s.nat .plH))) s t :=
  ⟨ctInvStage_congr num h hR hB, fun _ hr => (nomatch hr), fun _ => ctInvStage_stores num s.view hsize⟩

end

end Sys2Proof.Machine
end

section
/-! ENCODE and DECODE depend on nothing but their operands (R253 (a), R258 (a), (e), R342). -/

namespace Sys2Proof.Machine

/-! ### ENCODE -/

/-- R230: GRID.ENC keeps the size of the planes. -/
theorem gridEnc_planeSize (s : State) : (gridEncEffect (ctFwdEffect s)).nat .plW = s.nat .imgW ∧
    (gridEncEffect (ctFwdEffect s)).nat .plH = s.nat .imgH := by
  obtain ⟨hw, hh⟩ := ctFwdEffect_size s
  have f := Frame.gridEncEffect (ctFwdEffect s)
  exact ⟨(State.nat_eq (f.regs .plW (by decide))).trans hw, (State.nat_eq (f.regs .plH (by decide))).trans hh⟩

/-- R182: DCT.FWD keeps the registers that count its cells. -/
theorem coefBytes_beforePack (s : State) : coefBytes s.beforePack = coefBytes (gridEncEffect (ctFwdEffect s)) := by
  have f := Frame.dctFwdEffect (gridEncEffect (ctFwdEffect s))
  rw [State.beforePack]
  exact coefBytes_congr (f.regs .hasAlpha (by decide)) fun c => f.regs (.nac c) (by cases c <;> decide)

/-- R253 (a): ENCODE's results depend on the image alone. -/
theorem encodeEffect_agree {s s' : State} (hs : ImageValid s)
    (h : Agree [.imgW, .imgH] (bytesFrom pixinBase (4 * (s.nat .imgW * s.nat .imgH))) s s') :
    Agree (writesOf .encode) (bytesFrom hashBase ((encodeEffect s).nat .reqLen)) (encodeEffect s) (encodeEffect s') := by
  have h1 := h.stage (h.ctFwd hs (fun _ h => h) fun k hk => by unfold bytesFrom; omega)
  rw [ctFwdEffect_eq, ctFwdEffect_eq] at h1
  have h2 := h1.stage (h1.gridEnc (by decide))
  rw [gridEncEffect_eq, gridEncEffect_eq] at h2
  obtain ⟨hw, hh⟩ := gridEnc_planeSize s
  have hgrid := (gridEnc_grid (ctFwd_planes hs)).2.gridOf
  have h3 := h2.stage (h2.dctFwd hgrid (by decide) fun a ha => .inr (.inl (by rwa [hw, hh] at ha)))
  rw [dctFwdEffect_eq, dctFwdEffect_eq, ← State.beforePack, ← State.beforePack] at h3
  have h4 := h3.stage (h3.pack (State.beforePack_grid hs).2.1.gridOf (by decide) fun a ha => .inl (coefBytes_beforePack s ▸ ha))
  rw [packEffect_eq, packEffect_eq, ← encodeEffect_eq_pack, ← encodeEffect_eq_pack] at h4
  refine h4.mono (by decide) fun a ha => .inl ?_
  rwa [State.nat_eq (encodeEffect_reg_beforePack s (r := .reqLen) (by decide))] at ha

theorem checkImage_congr {R : List Reg} {B : Nat → Prop} {s t : State} (h : Agree R B s t)
    (hR : ∀ r ∈ [Reg.imgW, .imgH, .pixinLen], r ∈ R) : checkImage s = checkImage t := by
  rw [checkImage, checkImage, h.nat (hR .imgW (by decide)), h.nat (hR .imgH (by decide)),
    h.nat (hR .pixinLen (by decide))]

theorem checkEncode_congr {R : List Reg} {B : Nat → Prop} {s t : State} (h : Agree R B s t)
    (hR : ∀ r ∈ [Reg.imgW, .imgH, .pixinLen, .hashCap], r ∈ R) (himage : s.image = t.image) :
    checkEncode s = checkEncode t := by
  have hcheck := checkImage_congr h fun r hr => hR r (by revert r; decide)
  cases hc : checkImage s with
  | some f => rw [checkEncode_image hc, checkEncode_image (hcheck ▸ hc)]
  | none =>
    rw [checkEncode_cap hc, checkEncode_cap (hcheck ▸ hc), himage, h.nat (hR .imgW (by decide)),
      h.nat (hR .imgH (by decide)), h.nat (hR .hashCap (by decide))]

/-- The same failing test leaves the same fault record. -/
theorem exec_fault_alike {i : Instr} {s s' t t' : State} {f : EngineFault} (hi : immediate i = false)
    (ha : ∀ p, accepts i p = true) (hc : checkOf i s = some f) (hc' : checkOf i s' = some f) (ht : exec i s = .next t)
    (ht' : exec i s' = .next t') : t.status.fault = true ∧ t'.status.fault = true ∧ t.reg .cause = t'.reg .cause ∧
      t.reg .finfo = t'.reg .finfo := by
  obtain ⟨u, hu, hfault⟩ := exec_fault i hi (ha _) hc
  obtain ⟨u', hu', hfault'⟩ := exec_fault i hi (ha _) hc'
  obtain rfl : u = t := Host.Outcome.next.inj (hu.symm.trans ht)
  obtain rfl : u' = t' := Host.Outcome.next.inj (hu'.symm.trans ht')
  exact ⟨by rw [hfault.status], by rw [hfault'.status], hfault.cause.trans hfault'.cause.symm,
    hfault.finfo.trans hfault'.finfo.symm⟩

/-- Settles O55: the tests read the operands and the image, and so do the stages. -/
theorem encodeDependsOnlyOnItsOperands : Obligations.EncodeDependsOnlyOnItsOperands := by
  unfold Obligations.EncodeDependsOnlyOnItsOperands
  intro s s' t t' hf hf' hregs hpix ht ht'
  have hagree : Agree [.imgW, .imgH, .pixinLen, .hashCap] (bytesFrom pixinBase (4 * (s.nat .imgW * s.nat .imgH))) s s' := by
    refine ⟨hregs, fun a ha => ?_⟩
    unfold bytesFrom at ha
    obtain ⟨k, rfl⟩ := Nat.exists_eq_add_of_le ha.1
    exact hpix k (by rw [Nat.mul_assoc]; omega)
  have himage := hagree.image (by decide) fun k hk => by unfold bytesFrom; omega
  have hcheck := checkEncode_congr hagree (fun r hr => hr) himage
  cases hc : checkEncode s with
  | some f =>
    obtain ⟨h1, h2, h3, h4⟩ := exec_fault_alike (i := .encode) rfl (fun _ => rfl) hc (hcheck.symm.trans hc) ht ht'
    exact ⟨h1.trans h2.symm, fun _ => ⟨h3, h4⟩, fun h => absurd (h1.symm.trans h) (by decide)⟩
  | none =>
    have hs := checkEncode_valid hc
    obtain rfl : (encodeEffect s).complete = t := Host.Outcome.next.inj ((exec_encode hc).symm.trans ht)
    obtain rfl : (encodeEffect s').complete = t' :=
      Host.Outcome.next.inj ((exec_encode (hcheck ▸ hc)).symm.trans ht')
    have hfault : (encodeEffect s).complete.status.fault = false := (success_flags .encode s).2.2.1.trans hf
    have hfault' : (encodeEffect s').complete.status.fault = false := (success_flags .encode s').2.2.1.trans hf'
    have hresult := encodeEffect_agree hs (hagree.mono (by decide) fun _ h => h)
    have hlen : (encodeEffect s).nat .hashLen = (encodeEffect s).nat .reqLen := by
      rw [State.nat_eq (encodeEffect_reg_beforePack s (r := .reqLen) (by decide)), encodeEffect_eq_pack, State.nat,
        (packEffect_cursor (State.beforePack_grid hs).2.1.gridOf).2, State.nat]
    refine ⟨hfault.trans hfault'.symm, fun h => absurd (hfault.symm.trans h) (by decide), fun _ => ⟨fun r hr => ?_,
      fun k hk => ?_⟩⟩
    · rw [State.complete_reg, State.complete_reg, hresult.regs r hr]
    · rw [State.complete_nat, hlen] at hk
      rw [State.complete_hash, State.complete_hash, State.hash, State.hash,
        hresult.bytes _ (by unfold bytesFrom; omega)]

/-! ### DECODE -/

/-- R215: UNPACK.AC keeps the registers that DCT.INV reads. -/
theorem coefBytes_beforeDctInv (s : State) :
    coefBytes s.beforeDctInv = coefBytes (gridDecEffect (unpackHdrEffect s)) := by
  have f := Frame.unpackAcEffect (gridDecEffect (unpackHdrEffect s))
  rw [State.beforeDctInv]
  exact coefBytes_congr (f.regs .hasAlpha (by decide)) fun c => f.regs (.nac c) (by cases c <;> decide)

/-- R210, R235: the grid that DECODE's GRID.DEC stage leaves, and the length it implies. -/
theorem gridDec_required (s : State) : GridOf (gridDecEffect (unpackHdrEffect s))
    (decGrid ((s.hash 2).getLsbD 7) ((s.hash 4).getLsbD 7) ((s.hash 3).toNat % 8)) ∧
      (gridDecEffect (unpackHdrEffect s)).nat .reqLen =
        decRequiredLength ((s.hash 2).getLsbD 7) ((s.hash 4).getLsbD 7) ((s.hash 3).toNat % 8) := by
  obtain ⟨hheader, -, hgrid⟩ := gridDec_grid (unpackHdr_header s)
  have f := Frame.gridDecEffect (unpackHdrEffect s)
  obtain ⟨-, ha, hl, hf⟩ := decodeEffect_header s
  have e : ∀ r ∈ [Reg.hasAlpha, .isLandscape, .lfield],
      (gridDecEffect (unpackHdrEffect s)).reg r = (decodeEffect s).reg r := fun r hr =>
    (f.regs r ((by decide : ∀ r ∈ [Reg.hasAlpha, .isLandscape, .lfield], r ∉ gridDecWrites) r hr)).trans
      (decodeEffect_reg_header s ((by decide : ∀ r ∈ [Reg.hasAlpha, .isLandscape, .lfield],
        r ∉ gridDecWrites ++ [.nibcur] ++ [.plW, .plH]) r hr)).symm
  have ha' := (State.hasAlpha_eq (e .hasAlpha (by decide))).trans ha
  have hl' := (State.landscape_eq (e .isLandscape (by decide))).trans hl
  have hf' := (State.nat_eq (e .lfield (by decide))).trans hf
  have hof := hgrid.gridOf hheader.lfield_le
  rw [ha', hl', hf'] at hof
  obtain ⟨-, -, -, -, -, -, -, -, -, -, -, -, -, -, hreq⟩ := gridRegs_values _ hof.1 hof.2
  exact ⟨hof, by rw [hreq, ha', decRequiredLength]⟩

/-- R233, R238: the lengths that a header implies. -/
theorem decRequiredLength_bounds : ∀ ha land : Bool, ∀ f < 8,
    (if ha then 6 else 5) ≤ decRequiredLength ha land f ∧ decRequiredLength ha land f ≤ 29 := by decide

/-- The size of the raster, in pixels and in the bytes of PIXOUT. -/
theorem beforeDctInv_raster (s : State) : s.beforeDctInv.nat .outW * s.beforeDctInv.nat .outH ≤ 10000 ∧
    4 * (s.beforeDctInv.nat .outW * s.beforeDctInv.nat .outH) ≤ 8192 ∧
    s.beforeDctInv.nat .pixoutLen = 4 * (s.beforeDctInv.nat .outW * s.beforeDctInv.nat .outH) := by
  obtain ⟨hheader, -, hgrid⟩ := s.beforeDctInv_grid
  obtain ⟨-, -, hlen, -, -, h5760⟩ := hgrid.raster hheader.lfield_le
  omega

/-- R184: the planes that DECODE's DCT.INV stage leaves are those of the raster. -/
theorem dctInv_planeSize (s : State) : (dctInvEffect s).nat .plW * (dctInvEffect s).nat .plH =
    s.nat .outW * s.nat .outH := by
  obtain ⟨hw, hh⟩ := dctInvEffect_reg s
  rw [State.nat_of_reg hw, State.nat_of_reg hh, State.nat, State.nat]

/-- R258 (a), (e): DECODE's results depend on the bytes below the length that the header implies. -/
theorem decodeEffect_agree {s s' : State} {R : List Reg}
    (h : Agree R (bytesFrom hashBase (decRequiredLength ((s.hash 2).getLsbD 7) ((s.hash 4).getLsbD 7)
      ((s.hash 3).toNat % 8))) s s') :
    Agree (writesOf .decode) (bytesFrom pixoutBase ((decodeEffect s).nat .pixoutLen)) (decodeEffect s)
      (decodeEffect s') := by
  obtain ⟨hof, hreq⟩ := gridDec_required s
  obtain ⟨hmin, -⟩ := decRequiredLength_bounds ((s.hash 2).getLsbD 7) ((s.hash 4).getLsbD 7) ((s.hash 3).toNat % 8)
    (Nat.mod_lt _ (by decide))
  have h5 : 5 ≤ decRequiredLength ((s.hash 2).getLsbD 7) ((s.hash 4).getLsbD 7) ((s.hash 3).toNat % 8) := by
    refine le_trans ?_ hmin
    split <;> decide
  have h1 := h.stage (h.unpackHdr (fun k hk => by unfold bytesFrom; omega) fun ha => by
    rw [hdr24_bit] at ha
    rw [ha, if_pos rfl] at hmin
    rw [ha]
    unfold bytesFrom
    omega)
  rw [unpackHdrEffect_eq, unpackHdrEffect_eq] at h1
  have h2 := h1.stage (h1.gridDec fun r hr => List.mem_append_left _ ((by decide :
    ∀ r ∈ [Reg.hasAlpha, .isLandscape, .lfield], r ∈ unpackHdrWrites) r hr))
  rw [gridDecEffect_eq, gridDecEffect_eq, ← List.append_assoc] at h2
  have h3 := h2.stage (h2.unpackAc hof (fun r hr => List.mem_append_left _ ((by decide :
    ∀ r ∈ [Reg.hasAlpha, .hdrLen, .nac .L, .nac .P, .nac .Q, .nac .A, .sc .L, .sc .P, .sc .Q, .sc .A],
      r ∈ gridDecWrites ++ unpackHdrWrites) r hr)) fun k hk => .inr (.inr (by rw [hreq] at hk; unfold bytesFrom; omega)))
  rw [unpackAcEffect_eq, unpackAcEffect_eq, ← State.beforeDctInv, ← State.beforeDctInv, ← List.append_assoc] at h3
  obtain ⟨hsize, hbytes, hlen⟩ := beforeDctInv_raster s
  obtain ⟨hheader, -, hgrid⟩ := s.beforeDctInv_grid
  have h4 := h3.stage (h3.dctInv (hgrid.gridOf hheader.lfield_le) hsize (fun r hr => List.mem_append_left _ ((by decide :
    ∀ r ∈ [Reg.hasAlpha, .outW, .outH, .nx .L, .nx .P, .nx .Q, .nx .A, .ny .L, .ny .P, .ny .Q, .ny .A, .dc .L, .dc .P,
      .dc .Q, .dc .A], r ∈ [.nibcur] ++ (gridDecWrites ++ unpackHdrWrites)) r hr))
    fun a ha => .inl (coefBytes_beforeDctInv s ▸ ha))
  rw [dctInvEffect_eq, dctInvEffect_eq, ← List.append_assoc] at h4
  have hplanes := dctInv_planeSize s.beforeDctInv
  have h5 := h4.stage (h4.ctInv (by rw [hplanes]; exact hbytes) (fun r hr => List.mem_append_left _ ((by decide :
    ∀ r ∈ [Reg.plW, .plH], r ∈ [Reg.plW, .plH] ++ ([.nibcur] ++ (gridDecWrites ++ unpackHdrWrites))) r hr))
    fun a ha => .inl (by rwa [hplanes] at ha))
  rw [ctInvEffect_eq, ctInvEffect_eq, ← decodeEffect_eq_planes, ← decodeEffect_eq_planes, List.nil_append] at h5
  refine h5.mono (fun r hr => List.mem_append_left _ ((by decide :
    ∀ r ∈ writesOf .decode, r ∈ [Reg.plW, .plH] ++ ([.nibcur] ++ (gridDecWrites ++ unpackHdrWrites))) r hr))
    fun a ha => .inl ?_
  rwa [State.nat_eq (decodeEffect_reg_beforeDctInv s (r := .pixoutLen) (by decide)), hlen, ← hplanes] at ha

theorem checkDecode_congr {R : List Reg} {B : Nat → Prop} {s t : State} (h : Agree R B s t)
    (hR : ∀ r ∈ [Reg.hashLen, .pixoutCap], r ∈ R) (h24 : s.hashHdr24 = t.hashHdr24) (h16 : s.hashHdr16 = t.hashHdr16) :
    checkDecode num s = checkDecode num t := by
  have hlen := h.nat (hR .hashLen (by decide))
  have hcheck : checkHeaderLength s = checkHeaderLength t := by
    rw [checkHeaderLength, checkHeaderLength, h24, hlen]
  have hcap : s.pixoutCapacity = t.pixoutCapacity := by
    rw [State.pixoutCapacity, State.pixoutCapacity, h.nat (hR .pixoutCap (by decide))]
  cases hc : checkHeaderLength s with
  | some f => rw [checkDecode_hdr hc, checkDecode_hdr (hcheck ▸ hc)]
  | none =>
    have hc' : checkHeaderLength t = none := hcheck ▸ hc
    simp only [checkDecode, hc, hc', h24, h16, hlen, hcap]

/-- Settles O56: the tests read the header and the operands, the stages the bytes below the implied length. -/
theorem decodeDependsOnlyOnItsOperands : Obligations.DecodeDependsOnlyOnItsOperands := by
  unfold Obligations.DecodeDependsOnlyOnItsOperands
  intro s s' t t' hf hf' hregs hhash ht ht'
  have hagree : Agree [.hashLen, .pixoutCap] (bytesFrom hashBase (decRequiredLength ((s.hash 2).getLsbD 7)
      ((s.hash 4).getLsbD 7) ((s.hash 3).toNat % 8))) s s' := by
    refine ⟨hregs, fun a ha => ?_⟩
    unfold bytesFrom at ha
    obtain ⟨k, rfl⟩ := Nat.exists_eq_add_of_le ha.1
    exact hhash k (by omega)
  obtain ⟨hmin, -⟩ := decRequiredLength_bounds ((s.hash 2).getLsbD 7) ((s.hash 4).getLsbD 7) ((s.hash 3).toNat % 8)
    (Nat.mod_lt _ (by decide))
  have h5 : 5 ≤ decRequiredLength ((s.hash 2).getLsbD 7) ((s.hash 4).getLsbD 7) ((s.hash 3).toNat % 8) := by
    refine le_trans ?_ hmin
    split <;> decide
  have h24 : s.hashHdr24 = s'.hashHdr24 := by
    rw [State.hashHdr24, State.hashHdr24, hhash 0 (by omega), hhash 1 (by omega), hhash 2 (by omega)]
  have h16 : s.hashHdr16 = s'.hashHdr16 := by
    rw [State.hashHdr16, State.hashHdr16, hhash 3 (by omega), hhash 4 (by omega)]
  have hcheck := checkDecode_congr hagree (fun r hr => hr) h24 h16
  cases hc : checkDecode num s with
  | some f =>
    obtain ⟨h1, h2, h3, h4⟩ := exec_fault_alike (i := .decode) rfl (fun _ => rfl) hc (hcheck.symm.trans hc) ht ht'
    exact ⟨h1.trans h2.symm, fun _ => ⟨h3, h4⟩, fun h => absurd (h1.symm.trans h) (by decide)⟩
  | none =>
    obtain rfl : (decodeEffect s).complete = t := Host.Outcome.next.inj ((exec_decode hc).symm.trans ht)
    obtain rfl : (decodeEffect s').complete = t' :=
      Host.Outcome.next.inj ((exec_decode (hcheck ▸ hc)).symm.trans ht')
    have hfault : (decodeEffect s).complete.status.fault = false := (success_flags .decode s).2.2.1.trans hf
    have hfault' : (decodeEffect s').complete.status.fault = false := (success_flags .decode s').2.2.1.trans hf'
    have hresult := decodeEffect_agree hagree
    refine ⟨hfault.trans hfault'.symm, fun h => absurd (hfault.symm.trans h) (by decide), fun _ => ⟨fun r hr => ?_,
      fun k hk => ?_⟩⟩
    · rw [State.complete_reg, State.complete_reg, hresult.regs r hr]
    · rw [State.complete_nat] at hk
      rw [State.complete_byteAt, State.complete_byteAt, hresult.bytes _ (by unfold bytesFrom; omega)]

end Sys2Proof.Machine
end

section
/-! The host programs of R252 and R257: a composite command leaves what its unit commands leave. -/

namespace Sys2Proof.Machine

/-! ### A faulted engine stays faulted while the program runs on (R305) -/

/-- The events of a program of RUN statements. -/
def Scripted (e : Event) : Prop :=
  e = .engine ∨ e = rdEvent .status ∨ ∃ i, immediate i = false ∧ e = cmdEvent i

theorem scripted_run {i : Instr} (hi : immediate i = false) (polls : Nat) : ∀ e ∈ (Stmt.run i polls).expand, Scripted e := by
  intro e he
  rcases List.mem_cons.mp he with rfl | he
  · exact .inr (.inr ⟨i, hi, rfl⟩)
  · rcases List.mem_append.mp he with he | he
    · exact .inr (.inl (List.eq_of_mem_replicate he))
    · rcases List.mem_cons.mp he with rfl | he
      · exact .inl rfl
      · exact .inr (.inl (List.mem_singleton.mp he))

theorem scripted_cons {i : Instr} (hi : immediate i = false) (polls : Nat) {p : List Event} (hp : ∀ e ∈ p, Scripted e) :
    ∀ e ∈ (Stmt.run i polls).expand ++ p, Scripted e :=
  List.forall_mem_append.mpr ⟨scripted_run hi polls, hp⟩

/-- No scripted event is the reset input or a CMD write of CLR or SRST. -/
theorem Scripted.not_clearing {e : Event} (h : Scripted e) : e ≠ .reset ∧
    ∀ v i, decode v = .ok i → i = .clr ∨ i = .srst → e ≠ .access (.write cmdOffset 4 v) := by
  rcases h with rfl | rfl | ⟨j, hj, rfl⟩
  · exact ⟨by decide, fun _ _ _ _ h => by cases h⟩
  · exact ⟨by decide, fun _ _ _ _ h => by cases h⟩
  · refine ⟨by simp [cmdEvent, wrEvent], fun v i hd hi h => ?_⟩
    obtain rfl : encode j = v := by
      simp only [cmdEvent, wrEvent, Event.access.injEq, HostAccess.write.injEq] at h
      exact h.2.2
    obtain rfl : j = i := Except.ok.inj ((decode_encode j).symm.trans hd)
    rw [(immediate_iff j).mpr hi] at hj
    cases hj

/-- R287: the idle engine with a fault: a scripted event starts nothing and clears nothing. -/
structure Stuck (s : State) : Prop where
  idle : s.inflight = none
  fault : s.status.fault = true
  host : ∀ e ∈ s.host, Scripted e

theorem AccessOutcome.stuck {s t : State} {a : HostAccess} (h : AccessOutcome s a (.done t)) (hi : s.inflight = none)
    (hf : s.status.fault = true) : t.inflight = none ∧ t.host = s.host := by
  cases h with
  | idleWrite off width v =>
    obtain ⟨-, hinflight, hhost, -⟩ := idleWrite_status s off width v
    exact ⟨hinflight.trans hi, hhost⟩
  | start v hb hfault => exact absurd (hfault.symm.trans hf) (by decide)
  | _ => exact ⟨hi, rfl⟩

theorem Stuck.step {s t : State} (h : Stuck s) (hstep : step s = .next t) : Stuck t := by
  have hhead : ∀ {e}, s.host.head? = some e → Scripted e := fun he => h.host _ (List.mem_of_mem_head? he)
  cases step_cases hstep with
  | rest _ _ ht => exact ht ▸ h
  | idleTurn _ _ ht => exact ht ▸ ⟨h.idle, h.fault, fun e he => h.host e (List.mem_of_mem_tail he)⟩
  | completion w _ hw _ => exact absurd (h.idle.symm.trans hw) (by simp)
  | reset hh _ => exact absurd rfl (hhead hh).not_clearing.1
  | access a _ ho =>
    obtain ⟨hidle, hhost⟩ := ho.stuck h.idle h.fault
    rw [State.tick_host] at hhost
    exact ⟨hidle, ho.keeps_fault_phase.1.trans h.fault, fun e he => h.host e (List.mem_of_mem_tail (hhost ▸ he))⟩
  | system v i hh _ hd hi _ => exact absurd rfl ((hhead hh).not_clearing.2 v i hd hi)

theorem Stuck.run {n : Nat} {s t : State} (h : Stuck s) (hrun : Machine.run n s = some t) : t.status.fault = true := by
  induction n generalizing s with
  | zero =>
    cases hrun
    exact h.fault
  | succ n ih =>
    rw [Machine.run] at hrun
    cases hstep : Machine.step s with
    | next u =>
      rw [hstep] at hrun
      exact ih (h.step hstep) hrun
    | fault f =>
      rw [hstep] at hrun
      cases hrun
    | refused r =>
      rw [hstep] at hrun
      cases hrun

/-! ### A RUN statement that ends without a fault -/

/-- `RUN i` from `s` to `v`: the command was executed on `u`, which held what `s` held, and succeeded. -/
structure StmtDone (i : Instr) (s u v : State) : Prop where
  regs : u.regs = s.regs
  mem : u.mem = s.mem
  passed : checkOf i u = none
  newRegs : v.regs = (effectOf i u).regs
  newMem : v.mem = (effectOf i u).mem
  idle : v.inflight = none
  done : v.status.done = true
  fault : v.status.fault = false
  ovr : v.status.ovr = s.status.ovr
  phase : v.status.phase = phaseAfter i s.status.phase

/-- The execution of `i` that ends in a success is a `StmtDone`. -/
theorem StmtDone.of_exec {i : Instr} {s u t v : State} (hi : immediate i = false) (hf : s.status.fault = false)
    (hregs : u.regs = s.regs) (hmem : u.mem = s.mem) (hstatus : u.status = { s.status with done := false })
    (hpassed : checkOf i u = none) (ht : t = (effectOf i u).complete) (hvregs : v.regs = t.regs) (hvmem : v.mem = t.mem)
    (hvstatus : v.status = t.status) (hvidle : v.inflight = t.inflight) : StmtDone i s u v := by
  obtain ⟨hidle, hdone, hfault, hovr⟩ := success_flags i u
  have hphase : (effectOf i u).complete.status.phase = phaseAfter i u.status.phase :=
    effectOf_phase i u fun h => by rw [h] at hi; cases hi
  rw [hstatus] at hfault hovr hphase
  exact ⟨hregs, hmem, hpassed, by rw [hvregs, ht, State.complete_regs], by rw [hvmem, ht, State.complete_mem],
    by rw [hvidle, ht, hidle], by rw [hvstatus, ht, hdone], by rw [hvstatus, ht, hfault, hf], by rw [hvstatus, ht, hovr],
    by rw [hvstatus, ht, hphase]⟩

/-- The first statement of a program that ends without a fault succeeds. -/
theorem run_first {s t : State} {i : Instr} {polls m : Nat} {p : List Event} (hi : immediate i = false)
    (h0 : s.inflight = none) (hf : s.status.fault = false) (hh : s.host = (Stmt.run i polls).expand ++ p)
    (hp : ∀ e ∈ p, Scripted e) (hrun : run (runSteps polls + m) s = some t) (ht : t.status.fault = false) :
    ∃ u v, StmtDone i s u v ∧ v.host = p ∧ run m v = some t := by
  obtain ⟨u, x, v, hregs, hmem, -, hstatus, hexec, hv, h1, h2, h3, h4, h5⟩ := run_stmt polls hi h0 hf hh
  rw [run_add, hv, Option.bind_some] at hrun
  have stuck : x.inflight = none → x.status.fault = true → False := fun hidle hfault => by
    have hs : Stuck v := ⟨h4.trans hidle, by rw [h3, hfault], fun e he => hp e (h5 ▸ he)⟩
    exact absurd (ht.symm.trans (hs.run hrun)) (by decide)
  rcases exec_cases hi hexec with ⟨-, hfault⟩ | ⟨-, f, -, rfl⟩ | ⟨-, hpassed, hx⟩
  · exact (stuck hfault.idle (by rw [hfault.status])).elim
  · exact (stuck rfl (by rw [(faulted_takeFault u i.opcode f).status])).elim
  · exact ⟨u, v, .of_exec hi hf hregs hmem hstatus hpassed hx h1 h2 h3 h4, h5, hrun⟩

theorem SameData.next {B : Nat → Prop} {i : Instr} {x s u v : State} (h : SameData B x s) (d : StmtDone i s u v) :
    SameData B x u := h.trans d.regs d.mem

/-- One stage of the composite command beside one statement of the chain. -/
theorem SameData.statement {w : Numerics Word → View Word → List (Write Word)} {W : List Reg} {B S : Nat → Prop}
    {i : Instr} {effect : State → State} {x s u v : State} (h : SameData B x u)
    (hw : ∀ y, binary32.stage w y = effect y) (he : effectOf i = effect) (h' : Determined w W S x u)
    (d : StmtDone i s u v) : SameData (fun a => S a ∨ B a) (effect x) v := by
  have hstage := h.stage h'
  rw [hw, hw, ← he] at hstage
  rw [← he]
  exact hstage.trans d.newRegs d.newMem

/-! ### ENCODE and its chain (R252) -/

/-- A composite command that passes its tests, as one statement. -/
theorem run_composite {s v : State} {i : Instr} {polls : Nat} (hi : immediate i = false)
    (ha : ∀ p, accepts i p = true) (h0 : s.inflight = none) (hf : s.status.fault = false)
    (hh : s.host = script [.run i polls]) (hrun : run (runSteps polls) s = some v)
    (hpassed : ∀ u : State, u.regs = s.regs → u.mem = s.mem → checkOf i u = none) : ∃ u, StmtDone i s u v := by
  have hh' : s.host = (Stmt.run i polls).expand ++ [] := hh
  obtain ⟨u, x, w, hregs, hmem, -, hstatus, hexec, hw, h1, h2, h3, h4, -⟩ := run_stmt polls hi h0 hf hh'
  obtain rfl : w = v := Option.some.inj (hw.symm.trans hrun)
  have hx : x = (effectOf i u).complete :=
    Host.Outcome.next.inj (hexec.symm.trans (exec_success i hi (ha _) (hpassed u hregs hmem)))
  exact ⟨u, .of_exec hi hf hregs hmem hstatus (hpassed u hregs hmem) hx h1 h2 h3 h4⟩

theorem status_ext {a b : Status} (hdone : a.done = b.done) (hfault : a.fault = b.fault) (hovr : a.ovr = b.ovr)
    (hphase : a.phase = b.phase) : a = b := by
  cases a
  cases b
  cases hdone
  cases hfault
  cases hovr
  cases hphase
  rfl

/-- Two programs that leave the same data, in the same phase, leave the same registers, memories and STATUS. -/
theorem same_end {u t : State} (hregs : u.regs = t.regs) (hmem : u.mem = t.mem) (hphase : u.status.phase = t.status.phase)
    (hdone : u.status.done = true) (hdone' : t.status.done = true) (hfault : u.status.fault = false)
    (hfault' : t.status.fault = false) (hovr : u.status.ovr = t.status.ovr) (hidle : u.inflight = none) :
    u.regs = t.regs ∧ u.mem = t.mem ∧ u.status = t.status ∧ u.inflight = none ∧ u.status.done = true := by
  refine ⟨hregs, hmem, ?_, hidle, hdone⟩
  exact status_ext (hdone.trans hdone'.symm) (hfault.trans hfault'.symm) hovr hphase

theorem encRequiredLength_le (w h : Nat) (ha : Bool) : encRequiredLength w h ha ≤ 32 :=
  requiredLength_grid ha (encGrid_size w h ha)

theorem checkHashCap_fault_of_lt {s : State} (h : s.hashCapacity < s.nat .reqLen) :
    checkHashCap s = some { code := .eHashCap, info := s.reg .reqLen } := if_pos h

/-- R252: the data that the four unit commands leave from `x` are ENCODE's from `x`, and PACK's capacity test is ENCODE's. -/
theorem encode_chain {x s u₁ v₁ u₂ v₂ u₃ v₃ u₄ v₄ : State}
    (h : SameData (bytesFrom pixinBase (4 * (x.nat .imgW * x.nat .imgH))) x s)
    (d₁ : StmtDone .ctFwd s u₁ v₁) (d₂ : StmtDone .gridEnc v₁ u₂ v₂) (d₃ : StmtDone .dctFwd v₂ u₃ v₃)
    (d₄ : StmtDone .pack v₃ u₄ v₄) :
    checkEncode x = none ∧ (encodeEffect x).regs = v₄.regs ∧ (encodeEffect x).mem = v₄.mem := by
  have hs : ImageValid x := by
    have hcheck : checkImage x = checkImage u₁ := checkImage_congr ((h.next d₁).agree _) fun _ h => h
    exact checkImage_none_iff.mp (hcheck.trans d₁.passed)
  have h1 := (h.next d₁).statement (i := .ctFwd) (w := ctFwdStage) (effect := ctFwdEffect) ctFwdEffect_eq rfl
    (((h.next d₁).agree [.imgW, .imgH]).ctFwd hs (fun _ h => h) fun k hk => by unfold bytesFrom; omega) d₁
  have h2 := (h1.next d₂).statement (i := .gridEnc) (w := gridEncStage) (effect := gridEncEffect) gridEncEffect_eq rfl (((h1.next d₂).agree _).gridEnc fun _ h => h) d₂
  obtain ⟨hw, hh⟩ := gridEnc_planeSize x
  have hgrid := (gridEnc_grid (ctFwd_planes hs)).2.gridOf
  have h3 := (h2.next d₃).statement (i := .dctFwd) (w := dctFwdStage) (effect := dctFwdEffect) dctFwdEffect_eq rfl
    (((h2.next d₃).agree _).dctFwd hgrid (fun _ h => h) fun a ha => .inr (.inl (by rwa [hw, hh] at ha))) d₃
  rw [← State.beforePack] at h3
  have hof := (State.beforePack_grid hs).2.1.gridOf
  have h4 := (h3.next d₄).statement (i := .pack) (w := packStage) (effect := packEffect) packEffect_eq rfl
    (((h3.next d₄).agree _).pack hof (fun _ h => h) fun a ha => .inl (coefBytes_beforePack x ▸ ha)) d₄
  rw [← encodeEffect_eq_pack] at h4
  refine ⟨?_, h4.regs, h4.mem⟩
  have hagree := (h3.next d₄).agree [.reqLen, .hashCap]
  have hreq : u₄.nat .reqLen = encRequiredLength (x.nat .imgW) (x.nat .imgH) (anyTransparent x.image) := by
    rw [← encodeEffect_reqLen hs, ← hagree.nat (by decide)]
    exact (State.nat_eq (encodeEffect_reg_beforePack x (by decide))).symm
  have hcap : u₄.nat .hashCap = x.nat .hashCap := by
    rw [← hagree.nat (by decide), State.nat, x.beforePack_reg_ctFwd (by decide),
      (Frame.ctFwdEffect x).regs .hashCap (by decide), State.nat]
  have hpack : ¬ u₄.hashCapacity < u₄.nat .reqLen := fun hlt => by
    have := (checkHashCap_fault_of_lt hlt).symm.trans d₄.passed
    cases this
  rw [hashCapacity_lt_iff (by rw [hreq]; exact encRequiredLength_le _ _ _), hreq, hcap] at hpack
  rw [checkEncode_cap (checkImage_none_iff.mpr hs)]
  exact if_neg hpack

theorem scripted_script_nil : ∀ e ∈ script [], Scripted e := fun _ h => nomatch h

theorem scripted_script_cons {i : Instr} (hi : immediate i = false) (polls : Nat) {l : List Stmt}
    (hl : ∀ e ∈ script l, Scripted e) : ∀ e ∈ script (.run i polls :: l), Scripted e := by
  rw [script, List.flatMap_cons]
  exact scripted_cons hi polls hl

/-- A state with the data of `s` holds the same data as `s` before any program. -/
theorem SameData.load {B : Nat → Prop} {s x : State} (p : List Stmt) (hr : x.regs = s.regs) (hm : x.mem = s.mem)
    (hB : ∀ a, B a → (s.mem.read a).isSome = true) : SameData B x (s.load p) :=
  ⟨hr, hm, fun a ha => hm ▸ hB a ha⟩

/-- Settles O48: `encode_chain` on the states that the two programs run through. -/
theorem encodeEqualsTheChain : Obligations.EncodeEqualsTheChain := by
  unfold Obligations.EncodeEqualsTheChain
  intro s t u n₁ n₂ n₃ n₄ m h0 hf hpix hrun ht hu
  rw [Nat.add_assoc, Nat.add_assoc] at hrun
  have hp₄ := scripted_script_nil
  have hp₃ := scripted_script_cons (i := .pack) rfl n₄ hp₄
  have hp₂ := scripted_script_cons (i := .dctFwd) rfl n₃ hp₃
  have hp₁ := scripted_script_cons (i := .gridEnc) rfl n₂ hp₂
  obtain ⟨u₁, v₁, d₁, hh₁, hrun₁⟩ := run_first (s := s.load _) (i := .ctFwd) rfl h0 hf rfl hp₁ hrun ht
  obtain ⟨u₂, v₂, d₂, hh₂, hrun₂⟩ := run_first (i := .gridEnc) rfl d₁.idle d₁.fault hh₁ hp₂ hrun₁ ht
  obtain ⟨u₃, v₃, d₃, hh₃, hrun₃⟩ := run_first (i := .dctFwd) rfl d₂.idle d₂.fault hh₂ hp₃ hrun₂ ht
  obtain ⟨u₄, v₄, d₄, -, hrun₄⟩ := run_first (i := .pack) (m := 0) rfl d₃.idle d₃.fault hh₃ hp₄ hrun₃ ht
  obtain rfl : v₄ = t := Option.some.inj hrun₄
  have hchain : ∀ x : State, x.regs = s.regs → x.mem = s.mem →
      checkEncode x = none ∧ (encodeEffect x).regs = v₄.regs ∧ (encodeEffect x).mem = v₄.mem := fun x hr hm => by
    refine encode_chain (SameData.load _ hr hm fun a ha => ?_) d₁ d₂ d₃ d₄
    rw [State.nat_eq (State.reg_congr hr .imgW), State.nat_eq (State.reg_congr hr .imgH)] at ha
    unfold bytesFrom at ha
    obtain ⟨k, rfl⟩ := Nat.exists_eq_add_of_le ha.1
    exact hpix k (by rw [Nat.mul_assoc]; omega)
  obtain ⟨x, d⟩ := run_composite (s := s.load _) (i := .encode) rfl (fun _ => rfl) h0 hf rfl hu fun x hr hm => (hchain x hr hm).1
  obtain ⟨-, hregs, hmem⟩ := hchain x d.regs d.mem
  refine same_end (d.newRegs.trans hregs) (d.newMem.trans hmem) (d.phase.trans d₄.phase.symm) d.done d₄.done d.fault
    d₄.fault ?_ d.idle
  rw [d.ovr, d₄.ovr, d₃.ovr, d₂.ovr, d₁.ovr]
  rfl

/-! ### DECODE and its chain (R257) -/

/-- R257: the data that the five unit commands leave from `x` are DECODE's from `x`, and the units' tests are DECODE's. -/
theorem decode_chain {x s u₁ v₁ u₂ v₂ u₃ v₃ u₄ v₄ u₅ v₅ : State}
    (h : SameData (bytesFrom hashBase (min (x.nat .hashLen) 29)) x s)
    (d₁ : StmtDone .unpackHdr s u₁ v₁) (d₂ : StmtDone .gridDec v₁ u₂ v₂) (d₃ : StmtDone .unpackAc v₂ u₃ v₃)
    (d₄ : StmtDone .dctInv v₃ u₄ v₄) (d₅ : StmtDone .ctInv v₄ u₅ v₅) :
    checkDecode num x = none ∧ (decodeEffect x).regs = v₅.regs ∧ (decodeEffect x).mem = v₅.mem := by
  have hlen₁ : u₁.nat .hashLen = x.nat .hashLen := ((h.next d₁).agree [.hashLen]).nat (by decide) |>.symm
  have hpresent₁ : HeaderPresent u₁ := checkHeaderLength_none_iff.mp d₁.passed
  have h5 : 5 ≤ x.nat .hashLen := hlen₁ ▸ hpresent₁.1
  have hbytes : ∀ k < 5, bytesFrom hashBase (min (x.nat .hashLen) 29) (hashBase + k) := fun k hk => by
    unfold bytesFrom
    omega
  have h24 : x.hashHdr24 = u₁.hashHdr24 := by
    have hhash : ∀ k < 5, x.hash k = u₁.hash k := fun k hk => ((h.next d₁).agree []).bytes _ (hbytes k hk)
    rw [State.hashHdr24, State.hashHdr24, hhash 0 (by decide), hhash 1 (by decide), hhash 2 (by decide)]
  have hpresent : HeaderPresent x := ⟨h5, fun ha => hlen₁ ▸ hpresent₁.2 (h24 ▸ ha)⟩
  have h1 := (h.next d₁).statement (i := .unpackHdr) (w := unpackHdrStage) (effect := unpackHdrEffect) unpackHdrEffect_eq
    rfl (((h.next d₁).agree []).unpackHdr hbytes fun ha => by
      have := hpresent.2 ha
      unfold bytesFrom
      omega) d₁
  have h2 := (h1.next d₂).statement (i := .gridDec) (w := gridDecStage) (effect := gridDecEffect) gridDecEffect_eq rfl
    (((h1.next d₂).agree _).gridDec fun _ h => h) d₂
  obtain ⟨hof, hreq⟩ := gridDec_required x
  obtain ⟨-, h29⟩ := decRequiredLength_bounds ((x.hash 2).getLsbD 7) ((x.hash 4).getLsbD 7) ((x.hash 3).toNat % 8)
    (Nat.mod_lt _ (by decide))
  have hcap : decRequiredLength ((x.hash 2).getLsbD 7) ((x.hash 4).getLsbD 7) ((x.hash 3).toNat % 8) ≤
      x.nat .hashLen := by
    have hagree := (h2.next d₃).agree [.reqLen, .hashLen]
    have hlen₃ : u₃.nat .hashLen = x.nat .hashLen := by
      rw [← hagree.nat (by decide), State.nat, (Frame.gridDecEffect _).regs .hashLen (by decide),
        (Frame.unpackHdrEffect x).regs .hashLen (by decide), State.nat]
    have hreq₃ := hagree.nat (r := .reqLen) (by decide)
    rw [hreq] at hreq₃
    rw [hreq₃, ← hlen₃]
    by_contra hlt
    have hfault : checkTruncated u₃ = some { code := .eTrunc, info := u₃.reg .reqLen } := if_pos (Nat.not_le.mp hlt)
    cases hfault.symm.trans d₃.passed
  have h3 := (h2.next d₃).statement (i := .unpackAc) (w := unpackAcStage) (effect := unpackAcEffect) unpackAcEffect_eq rfl
    (((h2.next d₃).agree _).unpackAc hof (fun _ h => h) fun k hk => .inr (.inr (by
      rw [hreq] at hk
      unfold bytesFrom
      omega))) d₃
  rw [← State.beforeDctInv] at h3
  obtain ⟨hsize, hpixout, hpixlen⟩ := beforeDctInv_raster x
  obtain ⟨hheader, -, hgrid⟩ := x.beforeDctInv_grid
  have h4 := (h3.next d₄).statement (i := .dctInv) (w := dctInvStage) (effect := dctInvEffect) dctInvEffect_eq rfl
    (((h3.next d₄).agree _).dctInv (hgrid.gridOf hheader.lfield_le) hsize (fun _ h => h)
      fun a ha => .inl (coefBytes_beforeDctInv x ▸ ha)) d₄
  have hplanes := dctInv_planeSize x.beforeDctInv
  have h5 := (h4.next d₅).statement (i := .ctInv) (w := ctInvStage) (effect := ctInvEffect) ctInvEffect_eq rfl
    (((h4.next d₅).agree _).ctInv (by rw [hplanes]; exact hpixout) (fun _ h => h)
      fun a ha => .inl (by rwa [hplanes] at ha)) d₅
  rw [← decodeEffect_eq_planes] at h5
  refine ⟨?_, h5.regs, h5.mem⟩
  have hpixcap : decPixoutLen ((x.hash 2).getLsbD 7) ((x.hash 4).getLsbD 7) ((x.hash 3).toNat % 8) ≤
      x.nat .pixoutCap := by
    have hagree := (h4.next d₅).agree [.pixoutLen, .pixoutCap]
    have hframe := (Frame.unpackHdrEffect x).then (Frame.gridDecEffect _) |>.then (Frame.unpackAcEffect _)
      |>.then (Frame.dctInvEffect _)
    have hcap₅ : u₅.nat .pixoutCap = x.nat .pixoutCap := by
      rw [← hagree.nat (by decide), State.beforeDctInv]
      exact State.nat_eq (hframe.regs .pixoutCap (by decide))
    have hlen₅ : u₅.nat .pixoutLen = decPixoutLen ((x.hash 2).getLsbD 7) ((x.hash 4).getLsbD 7) ((x.hash 3).toNat % 8) := by
      rw [← hagree.nat (by decide), State.nat_eq ((Frame.dctInvEffect _).regs .pixoutLen (by decide)), hpixlen,
        decPixoutLen_eq]
      obtain ⟨hw, hh, -⟩ := hgrid.raster hheader.lfield_le
      obtain ⟨-, ha, hl, hf⟩ := decodeEffect_header x
      rw [State.hasAlpha_eq (decodeEffect_reg_beforeDctInv x (by decide))] at ha
      rw [State.landscape_eq (decodeEffect_reg_beforeDctInv x (by decide))] at hl
      rw [State.nat_eq (decodeEffect_reg_beforeDctInv x (by decide))] at hf
      rw [hw, hh, ha, hl, hf, Nat.mul_comm]
    have h5760 : u₅.nat .pixoutLen ≤ 8192 := by
      rw [← hagree.nat (by decide), State.nat_eq ((Frame.dctInvEffect _).regs .pixoutLen (by decide)), hpixlen]
      exact hpixout
    by_contra hlt
    have hfault : checkPixoutCap u₅ = some { code := .ePixCap, info := u₅.reg .pixoutLen } :=
      if_pos ((pixoutCapacity_lt_iff h5760).mpr (by omega))
    cases hfault.symm.trans d₅.passed
  rw [checkDecode_eq hpresent]
  exact (if_neg (Nat.not_lt.mpr hpixcap)).trans (if_neg (Nat.not_lt.mpr hcap))

/-- Settles O49: `decode_chain` on the states that the two programs run through. -/
theorem decodeEqualsTheChain : Obligations.DecodeEqualsTheChain := by
  unfold Obligations.DecodeEqualsTheChain
  intro s t u n₁ n₂ n₃ n₄ n₅ m h0 hf hhash hrun ht hu
  rw [Nat.add_assoc, Nat.add_assoc, Nat.add_assoc] at hrun
  have hp₅ := scripted_script_nil
  have hp₄ := scripted_script_cons (i := .ctInv) rfl n₅ hp₅
  have hp₃ := scripted_script_cons (i := .dctInv) rfl n₄ hp₄
  have hp₂ := scripted_script_cons (i := .unpackAc) rfl n₃ hp₃
  have hp₁ := scripted_script_cons (i := .gridDec) rfl n₂ hp₂
  obtain ⟨u₁, v₁, d₁, hh₁, hrun₁⟩ := run_first (s := s.load _) (i := .unpackHdr) rfl h0 hf rfl hp₁ hrun ht
  obtain ⟨u₂, v₂, d₂, hh₂, hrun₂⟩ := run_first (i := .gridDec) rfl d₁.idle d₁.fault hh₁ hp₂ hrun₁ ht
  obtain ⟨u₃, v₃, d₃, hh₃, hrun₃⟩ := run_first (i := .unpackAc) rfl d₂.idle d₂.fault hh₂ hp₃ hrun₂ ht
  obtain ⟨u₄, v₄, d₄, hh₄, hrun₄⟩ := run_first (i := .dctInv) rfl d₃.idle d₃.fault hh₃ hp₄ hrun₃ ht
  obtain ⟨u₅, v₅, d₅, -, hrun₅⟩ := run_first (i := .ctInv) (m := 0) rfl d₄.idle d₄.fault hh₄ hp₅ hrun₄ ht
  obtain rfl : v₅ = t := Option.some.inj hrun₅
  have hchain : ∀ x : State, x.regs = s.regs → x.mem = s.mem →
      checkDecode num x = none ∧ (decodeEffect x).regs = v₅.regs ∧ (decodeEffect x).mem = v₅.mem := fun x hr hm => by
    refine decode_chain (SameData.load _ hr hm fun a ha => ?_) d₁ d₂ d₃ d₄ d₅
    rw [State.nat_eq (State.reg_congr hr .hashLen)] at ha
    unfold bytesFrom at ha
    obtain ⟨k, rfl⟩ := Nat.exists_eq_add_of_le ha.1
    exact hhash k (by omega)
  obtain ⟨x, d⟩ := run_composite (s := s.load _) (i := .decode) rfl (fun _ => rfl) h0 hf rfl hu fun x hr hm => (hchain x hr hm).1
  obtain ⟨-, hregs, hmem⟩ := hchain x d.regs d.mem
  refine same_end (d.newRegs.trans hregs) (d.newMem.trans hmem) (d.phase.trans d₅.phase.symm) d.done d₅.done d.fault
    d₅.fault ?_ d.idle
  rw [d.ovr, d₅.ovr, d₄.ovr, d₃.ovr, d₂.ovr, d₁.ovr]
  rfl

end Sys2Proof.Machine
end

section
/-! Rounding (R131): the binary32 patterns as whole numbers of units, the nearest of them to a quotient, and the four
operations. -/

namespace Sys2Proof.Machine

open Binary32

/-! ### Rounding to an integer (R138, R145) -/

/-- The rounding is the floor or the next integer, whichever is not farther. -/
theorem rndRatio_cases (tie : Tie) (n d : Nat) :
    (rndRatio tie n d = n / d ∧ 2 * (n % d) ≤ d) ∨ (rndRatio tie n d = n / d + 1 ∧ d ≤ 2 * (n % d)) := by
  unfold rndRatio
  split
  next h => exact .inl ⟨rfl, h.le⟩
  next h =>
    split
    next h' => exact .inr ⟨rfl, h'.le⟩
    next h' =>
      cases tie with
      | halfEven =>
        rcases Nat.mod_two_eq_zero_or_one (n / d) with h2 | h2
        · exact .inl ⟨by simp only [h2, Nat.add_zero], by omega⟩
        · exact .inr ⟨by simp only [h2], by omega⟩
      | halfAway => exact .inr ⟨rfl, by omega⟩

/-- An exact half goes to the even neighbour, or away from 0. -/
theorem rndRatio_half (tie : Tie) {n d : Nat} (h : 2 * (n % d) = d) :
    match tie with
    | .halfEven => rndRatio tie n d % 2 = 0
    | .halfAway => rndRatio tie n d = n / d + 1 := by
  cases tie <;> simp only [rndRatio, if_neg (show ¬ 2 * (n % d) < d by omega), if_neg (show ¬ d < 2 * (n % d) by omega)]
  omega

/-- R138: no integer is nearer to n/d, and another one that is as near lies at an exact half. -/
theorem rndRatio_nearest (tie : Tie) (n : Nat) {d : Nat} (hd : 0 < d) (v : ℤ) :
    |(rndRatio tie n d : ℤ) * d - n| ≤ |v * d - n| ∧
      (|(rndRatio tie n d : ℤ) * d - n| = |v * d - n| → v = rndRatio tie n d ∨ 2 * (n % d) = d) := by
  have hdm : (d : ℤ) * (n / d : Nat) + (n % d : Nat) = n := by exact_mod_cast Nat.div_add_mod n d
  have hlt : ((n % d : Nat) : ℤ) < d := by exact_mod_cast Nat.mod_lt n hd
  have hd' : (0 : ℤ) < d := by exact_mod_cast hd
  generalize hq : n / d = q at *
  generalize ht : n % d = t at *
  have hv : v * d - n = (v - q) * d - t := by rw [← hdm]; ring
  have hcases : v = q ∨ v = q + 1 ∨ v ≤ q - 1 ∨ q + 2 ≤ v := by omega
  have hfar : (v ≤ q - 1 → (v - q) * d ≤ -d) ∧ (q + 2 ≤ v → 2 * (d : ℤ) ≤ (v - q) * d) :=
    ⟨fun h => by nlinarith, fun h => by nlinarith⟩
  have hzero : v = q → (v - q) * (d : ℤ) = 0 := fun h => by rw [h, sub_self, zero_mul]
  have hone : v = q + 1 → (v - q) * (d : ℤ) = d := fun h => by rw [h, add_sub_cancel_left, one_mul]
  rcases rndRatio_cases tie n d with ⟨hr, hle⟩ | ⟨hr, hle⟩ <;> rw [hq] at hr <;> rw [ht] at hle <;> rw [hr, hv]
  · have hself : ((q : Nat) : ℤ) * d - n = -t := by rw [← hdm]; ring
    rw [hself]
    simp only [Int.abs_eq_natAbs]
    omega
  · have hself : ((q + 1 : Nat) : ℤ) * d - n = d - t := by rw [← hdm]; push_cast; ring
    rw [hself]
    simp only [Int.abs_eq_natAbs]
    omega

theorem le_rndRatio (tie : Tie) {n d k : Nat} (hd : 0 < d) (h : k * d ≤ n) : k ≤ rndRatio tie n d := by
  have hq : k ≤ n / d := (Nat.le_div_iff_mul_le hd).mpr h
  rcases rndRatio_cases tie n d with ⟨hr, -⟩ | ⟨hr, -⟩ <;> omega

/-! ### Patterns as units (R61) -/

/-- The units of 2^-149 that a magnitude pattern stands for, with no bound on the exponent. -/
def patternUnits (m : Nat) : Nat :=
  if m / 2 ^ 23 = 0 then m % 2 ^ 23 else (2 ^ 23 + m % 2 ^ 23) * 2 ^ (m / 2 ^ 23 - 1)

theorem units_eq (w : Word) : units w = patternUnits (magnitude w) := rfl

/-- The pattern of `j` steps of 2^k, also where `j` is the next power of two. -/
theorem patternUnits_steps {k j : Nat} (hj : j ≤ 2 ^ 24) (hk : k = 0 ∨ 2 ^ 23 ≤ j) :
    patternUnits (k * 2 ^ 23 + j) = j * 2 ^ k := by
  unfold patternUnits
  by_cases h23 : j < 2 ^ 23
  · obtain rfl : k = 0 := hk.resolve_right (by omega)
    rw [if_pos (by omega), pow_zero]
    omega
  · by_cases h24 : j = 2 ^ 24
    · have he : (k * 2 ^ 23 + j) / 2 ^ 23 = k + 2 := by omega
      have hf : (k * 2 ^ 23 + j) % 2 ^ 23 = 0 := by omega
      rw [he, hf, if_neg (by omega), h24, show k + 2 - 1 = k + 1 from rfl, pow_succ 2 k]
      ring
    · have he : (k * 2 ^ 23 + j) / 2 ^ 23 = k + 1 := by omega
      have hf : 2 ^ 23 + (k * 2 ^ 23 + j) % 2 ^ 23 = j := by omega
      rw [he, hf, if_neg (by omega), Nat.add_sub_cancel]

/-- Every pattern counts fewer than 2^24 steps of a power of two. -/
theorem pattern_steps (m : Nat) : ∃ k j, m = k * 2 ^ 23 + j ∧ j < 2 ^ 24 ∧ (k = 0 ∨ 2 ^ 23 ≤ j) := by
  by_cases h : m / 2 ^ 23 = 0
  · exact ⟨0, m, by omega, by omega, .inl rfl⟩
  · exact ⟨m / 2 ^ 23 - 1, 2 ^ 23 + m % 2 ^ 23, by omega, by omega, .inr (by omega)⟩

/-- Patterns are in the order of their values. -/
theorem patternUnits_strictMono : StrictMono patternUnits := by
  refine strictMono_nat_of_lt_succ fun m => ?_
  obtain ⟨k, j, rfl, hj, hk⟩ := pattern_steps m
  rw [Nat.add_assoc, patternUnits_steps hj.le hk, patternUnits_steps hj (hk.imp id fun h => by omega)]
  exact Nat.mul_lt_mul_of_pos_right (Nat.lt_succ_self j) (by positivity)

theorem patternUnits_zero : patternUnits 0 = 0 := rfl

/-! ### The pattern nearest to a quotient -/

/-- The exponent of the steps that a quotient is rounded to. -/
def roundExp (n d : Nat) : Nat := Nat.log2 (n / d) - 23

/-- The rounded pattern, with no bound on the exponent. -/
def roundPattern (n d : Nat) : Nat := roundExp n d * 2 ^ 23 + nearestEven n (d * 2 ^ roundExp n d)

theorem roundUnits_eq (n d : Nat) : roundUnits n d = min (roundPattern n d) infMagnitude := rfl

/-- The number of steps, and where the quotient lies. -/
theorem roundSteps_bounds (n : Nat) {d : Nat} (hd : 0 < d) : nearestEven n (d * 2 ^ roundExp n d) ≤ 2 ^ 24 ∧
    (roundExp n d = 0 ∨ 2 ^ 23 * (d * 2 ^ roundExp n d) ≤ n ∧ 2 ^ 23 ≤ nearestEven n (d * 2 ^ roundExp n d)) := by
  have hpos : 0 < d * 2 ^ roundExp n d := by positivity
  have hupper : n < d * 2 ^ (roundExp n d + 24) := by
    have h1 : n / d < 2 ^ (Nat.log2 (n / d) + 1) := Nat.lt_log2_self
    have h2 : 2 ^ (Nat.log2 (n / d) + 1) ≤ 2 ^ (roundExp n d + 24) :=
      Nat.pow_le_pow_right (by decide) (by unfold roundExp; omega)
    rw [Nat.mul_comm]
    exact (Nat.div_lt_iff_lt_mul hd).mp (h1.trans_le h2)
  refine ⟨rndRatio_le .halfEven hpos ?_, ?_⟩
  · calc n ≤ d * 2 ^ (roundExp n d + 24) := hupper.le
      _ = 2 ^ 24 * (d * 2 ^ roundExp n d) := by ring
  · by_cases h0 : roundExp n d = 0
    · exact .inl h0
    · have hlog : Nat.log2 (n / d) = roundExp n d + 23 := by unfold roundExp at h0 ⊢; omega
      have hne : n / d ≠ 0 := fun h => by rw [h] at hlog; simp at hlog
      have hlower : 2 ^ 23 * (d * 2 ^ roundExp n d) ≤ n := by
        have h1 := Nat.log2_self_le hne
        rw [hlog, Nat.le_div_iff_mul_le hd] at h1
        calc 2 ^ 23 * (d * 2 ^ roundExp n d) = 2 ^ (roundExp n d + 23) * d := by ring
          _ ≤ n := h1
      exact .inr ⟨hlower, le_rndRatio .halfEven hpos hlower⟩

theorem patternUnits_round (n : Nat) {d : Nat} (hd : 0 < d) : patternUnits (roundPattern n d) =
    nearestEven n (d * 2 ^ roundExp n d) * 2 ^ roundExp n d := by
  obtain ⟨hle, hge⟩ := roundSteps_bounds n hd
  exact patternUnits_steps hle (hge.imp id And.right)

theorem roundPattern_even {n d : Nat} (h : nearestEven n (d * 2 ^ roundExp n d) % 2 = 0) : roundPattern n d % 2 = 0 := by
  unfold roundPattern
  omega

/-- R131: no pattern is nearer to n/d units, and of two equally near ones the rounded one is even. -/
theorem roundPattern_nearest (n : Nat) {d : Nat} (hd : 0 < d) (m : Nat) :
    |(patternUnits (roundPattern n d) : ℤ) * d - n| ≤ |(patternUnits m : ℤ) * d - n| ∧
      (|(patternUnits (roundPattern n d) : ℤ) * d - n| = |(patternUnits m : ℤ) * d - n| →
        patternUnits m = patternUnits (roundPattern n d) ∨ roundPattern n d % 2 = 0) := by
  obtain ⟨-, hge⟩ := roundSteps_bounds n hd
  have hround := patternUnits_round n hd
  have heven := roundPattern_even (n := n) (d := d)
  generalize roundPattern n d = r at hround heven ⊢
  generalize roundExp n d = k at hge hround heven
  have hpos : 0 < d * 2 ^ k := by positivity
  have hscale : ∀ v : ℤ, v * 2 ^ k * d - n = v * (d * 2 ^ k : Nat) - n := fun v => by push_cast; ring
  obtain ⟨k', j', rfl, hj', hk'⟩ := pattern_steps m
  rw [patternUnits_steps hj'.le hk', hround]
  by_cases hkk : k ≤ k'
  · have hv : j' * 2 ^ k' = j' * 2 ^ (k' - k) * 2 ^ k := by rw [Nat.mul_assoc, ← pow_add, Nat.sub_add_cancel hkk]
    obtain ⟨h1, h2⟩ := rndRatio_nearest .halfEven n hpos (j' * 2 ^ (k' - k) : Nat)
    rw [hv]
    push_cast at h1 h2 ⊢
    rw [hscale, hscale]
    push_cast
    refine ⟨h1, fun heq => (h2 heq).imp (fun h => ?_) fun h => heven (rndRatio_half .halfEven h)⟩
    have h' : j' * 2 ^ (k' - k) = rndRatio .halfEven n (d * 2 ^ k) := by exact_mod_cast h
    rw [h', nearestEven]
  · obtain ⟨hlower, -⟩ := hge.resolve_left (by omega)
    have hu : j' * 2 ^ k' * d < 2 ^ 23 * (d * 2 ^ k) := by
      calc j' * 2 ^ k' * d < 2 ^ 24 * 2 ^ k' * d := by gcongr
        _ = 2 ^ 23 * (d * 2 ^ (k' + 1)) := by ring
        _ ≤ 2 ^ 23 * (d * 2 ^ k) := by gcongr <;> omega
    obtain ⟨h1, -⟩ := rndRatio_nearest .halfEven n hpos (2 ^ 23 : Nat)
    have hu' : ((j' * 2 ^ k' : Nat) : ℤ) * d < (2 ^ 23 : Nat) * (d * 2 ^ k : Nat) := by exact_mod_cast hu
    have hl' : ((2 ^ 23 : Nat) : ℤ) * (d * 2 ^ k : Nat) ≤ n := by exact_mod_cast hlower
    have hlt : |((nearestEven n (d * 2 ^ k) * 2 ^ k : Nat) : ℤ) * d - n| < |((j' * 2 ^ k' : Nat) : ℤ) * d - n| := by
      have e : ((nearestEven n (d * 2 ^ k) * 2 ^ k : Nat) : ℤ) * d - n =
          (nearestEven n (d * 2 ^ k) : ℤ) * (d * 2 ^ k : Nat) - n := by push_cast; ring
      rw [e, nearestEven]
      refine h1.trans_lt ?_
      rw [abs_of_nonpos (by linarith), abs_of_neg (by linarith)]
      linarith
    exact ⟨hlt.le, fun heq => absurd heq hlt.ne⟩

/-- The same against the values of both signs. -/
theorem roundPattern_nearest_signed (n : Nat) {d : Nat} (hd : 0 < d) {m : Nat} {t : ℤ}
    (ht : t = patternUnits m ∨ t = -(patternUnits m : ℤ)) :
    |(patternUnits (roundPattern n d) : ℤ) * d - n| ≤ |t * d - n| ∧
      (|(patternUnits (roundPattern n d) : ℤ) * d - n| = |t * d - n| →
        t = patternUnits (roundPattern n d) ∨ roundPattern n d % 2 = 0) := by
  rcases ht with rfl | rfl
  · obtain ⟨h1, h2⟩ := roundPattern_nearest n hd m
    exact ⟨h1, fun h => (h2 h).imp (fun h => by rw [h]) id⟩
  · obtain ⟨h1, h2⟩ := roundPattern_nearest n hd 0
    rw [patternUnits_zero] at h1 h2
    have hd' : (0 : ℤ) < d := by exact_mod_cast hd
    have hu : (0 : ℤ) ≤ (patternUnits m : ℤ) * d := by positivity
    have habs : |-(patternUnits m : ℤ) * d - n| = (patternUnits m : ℤ) * d + n := by
      rw [abs_of_nonpos (by linarith)]
      ring
    have hzero : |((0 : Nat) : ℤ) * d - n| = n := by simp
    rw [hzero] at h1 h2
    rw [habs]
    refine ⟨by linarith, fun heq => ?_⟩
    have hm : (patternUnits m : ℤ) * d = 0 := by linarith
    have hm0 : (patternUnits m : ℤ) = 0 := (mul_eq_zero.mp hm).resolve_right hd'.ne'
    rw [hm0, neg_zero]
    exact (h2 (by linarith)).imp (fun h => by rw [← h]; rfl) id

/-! ### Overflow -/

/-- The infinity's pattern stands for 2^24 steps of 2^253, the largest finite one for one step less. -/
theorem patternUnits_inf : patternUnits infMagnitude = 2 ^ 24 * 2 ^ 253 ∧
    patternUnits (infMagnitude - 1) = (2 ^ 24 - 1) * 2 ^ 253 :=
  ⟨patternUnits_steps (k := 253) (j := 2 ^ 24) le_rfl (.inr (by decide)),
    patternUnits_steps (k := 253) (j := 2 ^ 24 - 1) (by decide) (.inr (by decide))⟩

/-- R131: the rounding overflows from half way between the largest finite value and 2^128 on. -/
theorem roundPattern_lt_inf_iff (n : Nat) {d : Nat} (hd : 0 < d) :
    roundPattern n d < infMagnitude ↔ 2 * n < (2 ^ 25 - 1) * 2 ^ 253 * d := by
  obtain ⟨hinf, hmax⟩ := patternUnits_inf
  obtain ⟨h1, h2⟩ := roundPattern_nearest n hd infMagnitude
  obtain ⟨h3, -⟩ := roundPattern_nearest n hd (infMagnitude - 1)
  have hlast : infMagnitude = infMagnitude - 1 + 1 := rfl
  have hodd : (infMagnitude - 1) % 2 = 1 := by decide
  generalize infMagnitude - 1 = last at *
  rw [hlast] at hinf h1 h2 ⊢
  rw [hinf] at h1 h2
  rw [hmax] at h3
  have hT : 0 < 2 ^ 253 * d := by positivity
  have hbelow : roundPattern n d ≤ last → patternUnits (roundPattern n d) * d ≤ 16777215 * (2 ^ 253 * d) := fun h => by
    have := Nat.mul_le_mul_right d (patternUnits_strictMono.monotone h)
    rwa [hmax, Nat.mul_assoc] at this
  have habove : last + 1 ≤ roundPattern n d → 16777216 * (2 ^ 253 * d) ≤ patternUnits (roundPattern n d) * d := fun h => by
    have := Nat.mul_le_mul_right d (patternUnits_strictMono.monotone h)
    rwa [hinf, Nat.mul_assoc] at this
  have hlargest : patternUnits (roundPattern n d) * d = 16777215 * (2 ^ 253 * d) → roundPattern n d = last := fun h => by
    rw [← Nat.mul_assoc] at h
    exact patternUnits_strictMono.injective ((Nat.eq_of_mul_eq_mul_right hd h).trans hmax.symm)
  have hnext : 2 ^ 24 * 2 ^ 253 = patternUnits (roundPattern n d) →
      16777216 * (2 ^ 253 * d) = patternUnits (roundPattern n d) * d := fun h => by
    rw [← h, Nat.mul_assoc]
    rfl
  have e1 : ((2 ^ 24 * 2 ^ 253 : Nat) : ℤ) * d = 16777216 * (2 ^ 253 * d : Nat) := by push_cast; ring
  have e2 : (((2 ^ 24 - 1) * 2 ^ 253 : Nat) : ℤ) * d = 16777215 * (2 ^ 253 * d : Nat) := by push_cast; ring
  have e3 : (patternUnits (roundPattern n d) : ℤ) * d = (patternUnits (roundPattern n d) * d : Nat) := by push_cast; rfl
  have e4 : (2 ^ 25 - 1) * 2 ^ 253 * d = 33554431 * (2 ^ 253 * d) := Nat.mul_assoc _ _ _
  rw [e1, e3] at h1 h2
  rw [e2, e3] at h3
  rw [e4]
  simp only [Int.abs_eq_natAbs] at h1 h2 h3
  generalize 2 ^ 253 * d = B at *
  generalize patternUnits (roundPattern n d) * d = A at *
  constructor
  · intro h
    by_contra hlt
    have hA := hbelow (by omega)
    rcases h2 (by omega) with heq | heven
    · have := hnext heq
      omega
    · have := hlargest (by omega)
      omega
  · intro h
    by_contra hlt
    have hA := habove (by omega)
    omega

end Sys2Proof.Machine
end

section
/-! The four operations round their exact result once (R131, R237). -/

namespace Sys2Proof.Machine

open Binary32

/-! ### Patterns from a sign and a magnitude -/

theorem sign_eq (w : Word) : sign w = decide (2 ^ 31 ≤ w.toNat) := BitVec.msb_eq_decide w

theorem ofParts_toNat (s : Bool) {m : Nat} (h : m < 2 ^ 31) : (ofParts s m).toNat = if s then 2 ^ 31 + m else m := by
  rw [ofParts, BitVec.toNat_ofNat]
  split <;> omega

theorem sign_ofParts (s : Bool) {m : Nat} (h : m < 2 ^ 31) : sign (ofParts s m) = s := by
  rw [sign_eq, ofParts_toNat s h]
  cases s
  · rw [if_neg (by decide)]
    exact decide_eq_false (by omega)
  · rw [if_pos rfl]
    exact decide_eq_true (by omega)

theorem magnitude_ofParts (s : Bool) {m : Nat} (h : m < 2 ^ 31) : magnitude (ofParts s m) = m := by
  rw [magnitude, ofParts_toNat s h]
  split <;> omega

theorem ofParts_even (s : Bool) {m : Nat} (h : m < 2 ^ 31) (heven : m % 2 = 0) : (ofParts s m).getLsbD 0 = false := by
  rw [BitVec.getLsbD, ofParts_toNat s h, Nat.testBit_zero]
  refine decide_eq_false ?_
  split <;> omega

theorem eq_of_sign_magnitude {a b : Word} (hs : sign a = sign b) (hm : magnitude a = magnitude b) : a = b := by
  rw [sign_eq, sign_eq] at hs
  have hs' : (2 ^ 31 ≤ a.toNat) ↔ (2 ^ 31 ≤ b.toNat) := decide_eq_decide.mp hs
  have ha := a.isLt
  have hb := b.isLt
  unfold magnitude at hm
  exact BitVec.eq_of_toNat_eq (by omega)

theorem ofParts_sign_magnitude (w : Word) : ofParts (sign w) (magnitude w) = w := by
  have h : magnitude w < 2 ^ 31 := Nat.mod_lt _ (by decide)
  exact eq_of_sign_magnitude (sign_ofParts _ h) (magnitude_ofParts _ h)

theorem infMagnitude_lt : infMagnitude < 2 ^ 31 := by decide

theorem roundUnits_le (n d : Nat) : roundUnits n d ≤ infMagnitude := min_le_right _ _

theorem roundUnits_lt (n d : Nat) : roundUnits n d < 2 ^ 31 := (roundUnits_le n d).trans_lt infMagnitude_lt

theorem roundUnits_of_lt {n d : Nat} (h : roundPattern n d < infMagnitude) : roundUnits n d = roundPattern n d :=
  min_eq_left h.le

theorem roundUnits_of_le {n d : Nat} (h : infMagnitude ≤ roundPattern n d) : roundUnits n d = infMagnitude :=
  min_eq_right h

theorem roundUnits_lt_inf {n d : Nat} (h : roundUnits n d < infMagnitude) : roundPattern n d < infMagnitude := by
  rw [roundUnits_eq] at h
  omega

theorem isFinite_iff (w : Word) : isFinite w = true ↔ magnitude w < infMagnitude := decide_eq_true_iff

theorem isInf_iff (w : Word) : isInf w = true ↔ magnitude w = infMagnitude := beq_iff_eq

/-! ### Values -/

/-- The sign of a value as a number. -/
def signUnit (s : Bool) : ℚ := if s then -1 else 1

theorem signUnit_mul_self (s : Bool) : signUnit s * signUnit s = 1 := by cases s <;> norm_num [signUnit]

theorem abs_signUnit (s : Bool) : |signUnit s| = 1 := by cases s <;> norm_num [signUnit]

theorem signUnit_ne (s : Bool) : signUnit s ≠ 0 := by cases s <;> norm_num [signUnit]

theorem signUnit_bne (s s' : Bool) : signUnit (s != s') = signUnit s * signUnit s' := by
  cases s <;> cases s' <;> norm_num [signUnit]

theorem valueOf_eq (w : Word) : valueOf w = signUnit (sign w) * units w / 2 ^ 149 := by
  rw [valueOf, signedUnits, signUnit]
  cases sign w <;> simp

theorem valueOf_ofParts (s : Bool) {m : Nat} (h : m < 2 ^ 31) :
    valueOf (ofParts s m) = signUnit s * patternUnits m / 2 ^ 149 := by
  rw [valueOf_eq, sign_ofParts s h, units_eq, magnitude_ofParts s h]

/-- A value seen from a sign: a signed number of units. -/
theorem valueOf_signed (s : Bool) (w : Word) : ∃ t : ℤ, (t = patternUnits (magnitude w) ∨
    t = -(patternUnits (magnitude w) : ℤ)) ∧ valueOf w = signUnit s * t / 2 ^ 149 := by
  by_cases h : sign w = s
  · exact ⟨_, .inl rfl, by rw [valueOf_eq, h, units_eq, Int.cast_natCast]⟩
  · refine ⟨_, .inr rfl, ?_⟩
    have hs : signUnit (sign w) = -signUnit s := by
      cases s <;> cases hw : sign w <;> rw [hw] at h <;> first | exact absurd rfl h | norm_num [signUnit]
    rw [valueOf_eq, hs, units_eq]
    push_cast
    ring

/-! ### Rounding of a quotient of units -/

theorem ofParts_half_even {n d : Nat} (s : Bool) (h : roundPattern n d < infMagnitude)
    (heven : roundPattern n d % 2 = 0) : (ofParts s (roundUnits n d)).getLsbD 0 = false :=
  ofParts_even s (roundUnits_lt n d) (roundUnits_of_lt h ▸ heven)

/-- R131: the pattern of the sign and the rounded magnitude is the rounding of ±n/d units. -/
theorem roundsTo_ofParts {x : ℚ} {n d : Nat} (s : Bool) (hd : 0 < d) (hx : x = signUnit s * (n / d) / 2 ^ 149) :
    RoundsTo x (ofParts s (roundUnits n d)) := by
  have hd' : (0 : ℚ) < d := Nat.cast_pos.mpr hd
  have habs : |x| = n / d / 2 ^ 149 := by
    rw [hx, abs_div, abs_mul, abs_signUnit, one_mul, abs_of_nonneg (by positivity), abs_of_nonneg (by positivity)]
  have hthreshold : |x| < 2 ^ 128 - 2 ^ 103 ↔ roundPattern n d < infMagnitude := by
    have e : (((2 ^ 25 - 1) * 2 ^ 253 * d : Nat) : ℚ) = 2 * ((2 ^ 128 - 2 ^ 103) * 2 ^ 149 * d) := by
      rw [show (2 ^ 25 - 1 : Nat) = 33554431 from rfl]
      push_cast
      ring
    rw [habs, roundPattern_lt_inf_iff n hd, div_lt_iff₀ (by positivity), div_lt_iff₀ hd', ← Nat.cast_lt (α := ℚ), e,
      Nat.cast_mul, Nat.cast_ofNat]
    constructor <;> intro h <;> linarith
  have hdist : ∀ t : ℤ, |signUnit s * t / 2 ^ 149 - x| = ((|t * d - n| : ℤ) : ℚ) / (d * 2 ^ 149) := fun t => by
    have e : signUnit s * t / 2 ^ 149 - x = signUnit s * ((t * d - n) / (d * 2 ^ 149)) := by
      rw [hx]
      field_simp
    rw [e, abs_mul, abs_signUnit, one_mul, abs_div, abs_of_pos (by positivity : (0 : ℚ) < d * 2 ^ 149)]
    push_cast
    rfl
  by_cases hfin : roundPattern n d < infMagnitude
  · refine .inl ⟨hthreshold.mpr hfin, ?_, fun w _ => ?_⟩
    · rw [isFinite_iff, magnitude_ofParts s (roundUnits_lt n d), roundUnits_of_lt hfin]
      exact hfin
    · obtain ⟨t, ht, hw⟩ := valueOf_signed s w
      obtain ⟨hle, htie⟩ := roundPattern_nearest_signed n hd ht
      have hr : valueOf (ofParts s (roundUnits n d)) = signUnit s * ((patternUnits (roundPattern n d) : ℤ) : ℚ) / 2 ^ 149 := by
        rw [valueOf_ofParts s (roundUnits_lt n d), roundUnits_of_lt hfin, Int.cast_natCast]
      rw [hr, hw, hdist, hdist]
      refine ⟨by gcongr, fun heq => ?_⟩
      have hpos : (d * 2 ^ 149 : ℚ) ≠ 0 := by positivity
      have heq' := (div_left_inj' hpos).mp heq
      exact (htie (by exact_mod_cast heq')).imp (fun h => by rw [h]) (ofParts_half_even s hfin)
  · refine .inr ⟨not_lt.mp (mt hthreshold.mp hfin), ?_, ?_⟩
    · rw [isInf_iff, magnitude_ofParts s (roundUnits_lt n d), roundUnits_of_le (not_lt.mp hfin)]
    · have hn : (0 : ℚ) < n := by
        refine Nat.cast_pos.mpr (Nat.pos_of_ne_zero fun h0 => hfin ?_)
        rw [roundPattern_lt_inf_iff n hd, h0]
        positivity
      rw [sign_ofParts s (roundUnits_lt n d), hx]
      cases s
      · refine (decide_eq_false (not_lt.mpr ?_)).symm
        rw [signUnit, if_neg (by decide)]
        positivity
      · refine (decide_eq_true ?_).symm
        rw [signUnit, if_pos rfl, neg_one_mul, neg_div]
        exact neg_neg_of_pos (by positivity)

/-- Zero is its own rounding, with either sign. -/
theorem roundsTo_zero (s : Bool) : RoundsTo 0 (ofParts s 0) :=
  roundsTo_ofParts (n := 0) (d := 1) s Nat.one_pos (by rw [Nat.cast_zero]; ring)

/-! ### Finite operands -/

section
variable {a b : Word} (ha : isFinite a = true) (hb : isFinite b = true)

theorem isNaN_of_isFinite {w : Word} (h : isFinite w = true) : isNaN w = false := by
  rw [isFinite_iff] at h
  exact decide_eq_false (by omega)

theorem isInf_of_isFinite {w : Word} (h : isFinite w = true) : isInf w = false := by
  rw [← Bool.not_eq_true, isInf_iff]
  rw [isFinite_iff] at h
  omega

theorem units_eq_zero_iff (w : Word) : units w = 0 ↔ magnitude w = 0 := by
  rw [units_eq, ← patternUnits_zero]
  exact patternUnits_strictMono.injective.eq_iff

theorem valueOf_eq_zero_iff (w : Word) : valueOf w = 0 ↔ magnitude w = 0 := by
  rw [valueOf_eq, div_eq_zero_iff, or_iff_left (by positivity), mul_eq_zero, or_iff_right (signUnit_ne _), Nat.cast_eq_zero,
    units_eq_zero_iff]

include ha hb

/-- R131: the sum of finite values. -/
theorem fadd_finite : fadd a b = if signedUnits a + signedUnits b = 0 then ofParts (sign a && sign b) 0
    else ofParts (decide (signedUnits a + signedUnits b < 0)) (roundUnits (signedUnits a + signedUnits b).natAbs 1) := by
  rw [fadd]
  simp only [isNaN_of_isFinite ha, isNaN_of_isFinite hb, isInf_of_isFinite ha, isInf_of_isFinite hb, Bool.or_self,
    Bool.false_eq_true, if_false]

theorem fmul_finite : fmul a b = ofParts (sign a != sign b) (roundUnits (units a * units b) (2 ^ 149)) := by
  rw [fmul]
  simp only [isNaN_of_isFinite ha, isNaN_of_isFinite hb, isInf_of_isFinite ha, isInf_of_isFinite hb, Bool.or_self,
    Bool.false_eq_true, if_false]

theorem fdiv_finite (h : magnitude b ≠ 0) :
    fdiv a b = ofParts (sign a != sign b) (roundUnits (units a * 2 ^ 149) (units b)) := by
  rw [fdiv]
  simp only [isNaN_of_isFinite ha, isNaN_of_isFinite hb, isInf_of_isFinite ha, isInf_of_isFinite hb, Bool.or_self,
    Bool.false_eq_true, if_false, h]

theorem fdiv_zero (h : magnitude b = 0) (h' : magnitude a ≠ 0) : fdiv a b = ofParts (sign a != sign b) infMagnitude := by
  rw [fdiv]
  simp only [isNaN_of_isFinite ha, isNaN_of_isFinite hb, isInf_of_isFinite ha, isInf_of_isFinite hb, Bool.or_self,
    Bool.false_eq_true, if_false, h, h', if_true]

/-- R131: the sum is the rounded exact sum. -/
theorem roundsTo_fadd : RoundsTo (valueOf a + valueOf b) (fadd a b) := by
  have hsum : valueOf a + valueOf b = ((signedUnits a + signedUnits b : ℤ) : ℚ) / 2 ^ 149 := by
    rw [valueOf, valueOf]
    push_cast
    ring
  rw [fadd_finite ha hb, hsum]
  generalize signedUnits a + signedUnits b = t
  split
  next h0 =>
    rw [h0, Int.cast_zero, zero_div]
    exact roundsTo_zero _
  next h0 =>
    refine roundsTo_ofParts _ Nat.one_pos ?_
    have habs : (t : ℚ) = signUnit (decide (t < 0)) * (t.natAbs : ℕ) := by
      by_cases hneg : t < 0
      · rw [decide_eq_true hneg, signUnit, if_pos rfl, Nat.cast_natAbs, abs_of_neg hneg]
        push_cast
        ring
      · rw [decide_eq_false hneg, signUnit, if_neg (by decide), Nat.cast_natAbs, abs_of_nonneg (not_lt.mp hneg), one_mul]
    rw [Nat.cast_one, div_one, ← habs]

theorem fadd_zero_sum (h : valueOf a + valueOf b = 0) :
    fadd a b = if sign a && sign b then 0x80000000 else 0x00000000 := by
  have hsum : signedUnits a + signedUnits b = 0 := by
    rw [valueOf, valueOf, ← add_div, div_eq_zero_iff, or_iff_left (by positivity)] at h
    exact_mod_cast h
  rw [fadd_finite ha hb, if_pos hsum]
  cases sign a && sign b <;> rfl

theorem roundsTo_fmul : RoundsTo (valueOf a * valueOf b) (fmul a b) := by
  rw [fmul_finite ha hb]
  refine roundsTo_ofParts _ (by positivity) ?_
  rw [valueOf_eq, valueOf_eq, signUnit_bne]
  push_cast
  field_simp
  ring

theorem roundsTo_fdiv (h : valueOf b ≠ 0) : RoundsTo (valueOf a / valueOf b) (fdiv a b) := by
  have hm : magnitude b ≠ 0 := mt (valueOf_eq_zero_iff b).mpr h
  have hu : units b ≠ 0 := mt (units_eq_zero_iff b).mp hm
  have hu' : (units b : ℚ) ≠ 0 := Nat.cast_ne_zero.mpr hu
  rw [fdiv_finite ha hb hm]
  refine roundsTo_ofParts _ (Nat.pos_of_ne_zero hu) ?_
  rw [valueOf_eq, valueOf_eq, signUnit_bne]
  have hs := signUnit_ne (sign b)
  have hss := signUnit_mul_self (sign b)
  push_cast
  field_simp
  rw [pow_two, hss]
  ring

end

/-! ### Change of sign -/

theorem sign_neg (w : Word) : sign (neg w) = !sign w := by
  rw [sign, neg, BitVec.msb_xor, sign]
  exact Bool.xor_true _

theorem magnitude_neg (w : Word) : magnitude (neg w) = magnitude w := by
  rw [magnitude, neg, BitVec.toNat_xor, Nat.xor_mod_two_pow]
  exact Nat.xor_zero _

theorem isFinite_neg {w : Word} (h : isFinite w = true) : isFinite (neg w) = true := by
  rw [isFinite_iff] at h ⊢
  rwa [magnitude_neg]

theorem valueOf_neg (w : Word) : valueOf (neg w) = -valueOf w := by
  rw [valueOf_eq, valueOf_eq, sign_neg, units_eq, magnitude_neg, ← units_eq]
  cases sign w <;> simp [signUnit, neg_div]

/-! ### The first clause: a quotient of units -/

/-- R131: the rounded pattern against the patterns of non-negative values. -/
theorem roundUnits_nearest {n d : Nat} {w : Word} (hd : 0 < d) (hr : roundUnits n d < infMagnitude)
    (hs : sign w = false) :
    |(units (ofParts false (roundUnits n d)) : ℤ) * d - n| ≤ |(units w : ℤ) * d - n| ∧
      (|(units (ofParts false (roundUnits n d)) : ℤ) * d - n| = |(units w : ℤ) * d - n| →
        w = ofParts false (roundUnits n d) ∨ (ofParts false (roundUnits n d)).getLsbD 0 = false) := by
  have hfin := roundUnits_lt_inf hr
  rw [units_eq, units_eq, magnitude_ofParts false (roundUnits_lt n d), roundUnits_of_lt hfin]
  obtain ⟨h1, h2⟩ := roundPattern_nearest n hd (magnitude w)
  refine ⟨h1, fun heq => (h2 heq).imp (fun h => ?_) fun h => ?_⟩
  · refine eq_of_sign_magnitude ?_ ?_
    · rw [hs, sign_ofParts false (hfin.trans infMagnitude_lt)]
    · rw [magnitude_ofParts false (hfin.trans infMagnitude_lt)]
      exact patternUnits_strictMono.injective h
  · exact ofParts_even false (hfin.trans infMagnitude_lt) h

/-- Settles O57: each operation is a sign and `roundUnits` of its exact result, which is the nearest pattern. -/
theorem roundingIsToNearestEven : Obligations.RoundingIsToNearestEven := by
  unfold Obligations.RoundingIsToNearestEven
  refine ⟨fun n d w hd hr _ hs => roundUnits_nearest hd hr hs, fun a b ha hb => ?_⟩
  intro x y
  have hsub : RoundsTo (valueOf a - valueOf b) (fsub a b) := by
    rw [sub_eq_add_neg, ← valueOf_neg]
    exact roundsTo_fadd ha (isFinite_neg hb)
  refine ⟨roundsTo_fadd ha hb, hsub, roundsTo_fmul ha hb, roundsTo_fdiv ha hb, fadd_zero_sum ha hb, fun h => ?_, ?_,
    fun h => ?_, fun hy hx => ?_⟩
  · rw [← sign_neg]
    exact fadd_zero_sum ha (isFinite_neg hb) (by rw [valueOf_neg, ← sub_eq_add_neg]; exact h)
  · exact (congrArg sign (fmul_finite ha hb)).trans (sign_ofParts _ (roundUnits_lt _ _))
  · by_cases hm : magnitude b = 0
    · have hx : magnitude a ≠ 0 := fun h0 => h.elim (fun hy => hy ((valueOf_eq_zero_iff b).mpr hm))
        fun hx => hx ((valueOf_eq_zero_iff a).mpr h0)
      exact (congrArg sign (fdiv_zero ha hb hm hx)).trans (sign_ofParts _ infMagnitude_lt)
    · exact (congrArg sign (fdiv_finite ha hb hm)).trans (sign_ofParts _ (roundUnits_lt _ _))
  · have hdiv := fdiv_zero ha hb ((valueOf_eq_zero_iff b).mp hy) (mt (valueOf_eq_zero_iff a).mpr hx)
    exact (congrArg isInf hdiv).trans ((isInf_iff _).mpr (magnitude_ofParts _ infMagnitude_lt))

end Sys2Proof.Machine
end

section
/-! The numeric primitives (R130 to R140, R202): conversion, order, cosine, magnitude, clamp and the roundings. -/

namespace Sys2Proof.Machine

open Binary32

/-! ### Exact conversions (R133) -/

/-- A quotient that is a finite pattern's value is rounded to it. -/
theorem roundUnits_exact {n d m : Nat} (hd : 0 < d) (hm : m < infMagnitude) (h : patternUnits m * d = n) :
    roundUnits n d = m := by
  subst h
  have hnear := (roundPattern_nearest (patternUnits m * d) hd m).1
  rw [Nat.cast_mul, sub_self, abs_zero, abs_nonpos_iff, sub_eq_zero] at hnear
  have hround : roundPattern (patternUnits m * d) d = m :=
    patternUnits_strictMono.injective (Nat.eq_of_mul_eq_mul_right hd (by exact_mod_cast hnear))
  rw [roundUnits_of_lt (by rwa [hround]), hround]

/-- Every integer below 2^24 is the value of a finite pattern. -/
theorem exists_pattern_of_lt {k : Nat} (hk : k < 2 ^ 24) : ∃ m < infMagnitude, patternUnits m = k * 2 ^ 149 := by
  by_cases h0 : k = 0
  · exact ⟨0, by decide, by rw [h0, Nat.zero_mul, patternUnits_zero]⟩
  · have hlog : Nat.log2 k < 24 := (Nat.log2_lt h0).mpr hk
    obtain ⟨e, he⟩ : ∃ e, Nat.log2 k + e = 23 := ⟨23 - Nat.log2 k, by omega⟩
    have hlow : 2 ^ 23 ≤ k * 2 ^ e := by
      rw [← he, pow_add]
      exact Nat.mul_le_mul_right _ (Nat.log2_self_le h0)
    have hhigh : k * 2 ^ e < 2 ^ 24 := by
      have h1 : k < 2 ^ (Nat.log2 k + 1) := Nat.lt_log2_self
      calc k * 2 ^ e < 2 ^ (Nat.log2 k + 1) * 2 ^ e := by gcongr
        _ = 2 ^ 24 := by rw [← pow_add]; congr 1; omega
    refine ⟨(Nat.log2 k + 126) * 2 ^ 23 + k * 2 ^ e, by unfold infMagnitude; omega, ?_⟩
    rw [patternUnits_steps hhigh.le (.inr hlow), Nat.mul_assoc, ← pow_add]
    congr 2
    omega

theorem i2f_exact {k : Nat} (hk : k < 2 ^ 24) : isFinite (i2f k) = true ∧ valueOf (i2f k) = k := by
  obtain ⟨m, hm, hunits⟩ := exists_pattern_of_lt hk
  have hround : roundUnits (k * 2 ^ 149) 1 = m := roundUnits_exact Nat.one_pos hm (by rw [Nat.mul_one, hunits])
  have hlt := hm.trans infMagnitude_lt
  rw [i2f, ofRatio, hround, isFinite_iff, magnitude_ofParts false hlt, valueOf_ofParts false hlt, hunits, signUnit,
    if_neg (by decide)]
  refine ⟨hm, ?_⟩
  push_cast
  field_simp
  ring

/-! ### PI (R134) -/

/-- The values on either side of pi. -/
theorem pi_neighbours {w : Word} : valueOf w ≤ 13176794 / 2 ^ 22 ∨ 13176795 / 2 ^ 22 ≤ valueOf w := by
  have hpi : patternUnits 0x40490FDB = 13176795 * 2 ^ 127 :=
    patternUnits_steps (k := 127) (j := 13176795) (by decide) (.inr (by decide))
  have hbelow : patternUnits 0x40490FDA = 13176794 * 2 ^ 127 :=
    patternUnits_steps (k := 127) (j := 13176794) (by decide) (.inr (by decide))
  obtain ⟨t, ht, hw⟩ := valueOf_signed false w
  have hcases : t ≤ (13176794 * 2 ^ 127 : Nat) ∨ ((13176795 * 2 ^ 127 : Nat) : ℤ) ≤ t := by
    rcases ht with rfl | rfl
    · rcases Nat.lt_or_ge 0x40490FDA (magnitude w) with h | h
      · exact .inr (by exact_mod_cast hpi ▸ patternUnits_strictMono.monotone h)
      · exact .inl (by exact_mod_cast hbelow ▸ patternUnits_strictMono.monotone h)
    · exact .inl (by omega)
  rw [hw, signUnit, if_neg (by decide), one_mul]
  refine hcases.imp (fun h => ?_) fun h => ?_
  · have h' : (t : ℚ) ≤ (13176794 * 2 ^ 127 : Nat) := by exact_mod_cast h
    rw [div_le_div_iff₀ (by positivity) (by positivity)]
    push_cast at h'
    linarith
  · have h' : ((13176795 * 2 ^ 127 : Nat) : ℚ) ≤ t := by exact_mod_cast h
    rw [div_le_div_iff₀ (by positivity) (by positivity)]
    push_cast at h'
    linarith

theorem valueOf_pi : valueOf 0x40490FDB = 13176795 / 2 ^ 22 := by decide +kernel

theorem pi_nearest (w : Word) : |(valueOf 0x40490FDB : ℝ) - Real.pi| ≤ |(valueOf w : ℝ) - Real.pi| := by
  have hgt := Real.pi_gt_d20
  have hlt := Real.pi_lt_d20
  rw [valueOf_pi]
  push_cast
  rw [abs_of_nonneg (by norm_num at *; linarith)]
  rcases pi_neighbours (w := w) with h | h
  · have h' : (valueOf w : ℝ) ≤ ((13176794 / 2 ^ 22 : ℚ) : ℝ) := Rat.cast_le.mpr h
    push_cast at h'
    rw [abs_of_nonpos (by norm_num at *; linarith)]
    norm_num at *
    linarith
  · have h' : ((13176795 / 2 ^ 22 : ℚ) : ℝ) ≤ valueOf w := Rat.cast_le.mpr h
    push_cast at h'
    rw [abs_of_nonneg (by norm_num at *; linarith)]
    linarith

/-! ### The order (R131) -/

/-- R131: patterns compare as their values do. -/
theorem orderKey_lt_iff (a b : Word) : orderKey a < orderKey b ↔ valueOf a < valueOf b := by
  have hmono := patternUnits_strictMono.lt_iff_lt (a := magnitude a) (b := magnitude b)
  have hmono' := patternUnits_strictMono.lt_iff_lt (a := magnitude b) (b := magnitude a)
  have hza := units_eq_zero_iff a
  have hzb := units_eq_zero_iff b
  rw [units_eq] at hza hzb
  rw [valueOf, valueOf, div_lt_div_iff_of_pos_right (by positivity), Int.cast_lt, orderKey, orderKey, signedUnits,
    signedUnits, units_eq, units_eq]
  generalize patternUnits (magnitude a) = u at *
  generalize patternUnits (magnitude b) = v at *
  cases sign a <;> cases sign b <;> simp only [Bool.false_eq_true, if_false, if_true] <;> omega

theorem flt_finite {a b : Word} (ha : isFinite a = true) (hb : isFinite b = true) :
    flt a b = decide (valueOf a < valueOf b) := by
  rw [flt, isNaN_of_isFinite ha, isNaN_of_isFinite hb]
  exact decide_eq_decide.mpr (orderKey_lt_iff a b)

/-- R131: the infinities are the ends of the order. -/
theorem orderKey_bounds {a : Word} (ha : isFinite a = true) :
    orderKey 0xFF800000 < orderKey a ∧ orderKey a < orderKey 0x7F800000 := by
  have hlow : orderKey 0xFF800000 = -(infMagnitude : ℤ) := by decide
  have hhigh : orderKey 0x7F800000 = infMagnitude := by decide
  rw [isFinite_iff] at ha
  rw [hlow, hhigh, orderKey]
  split <;> omega

theorem flt_of_orderKey {a b : Word} (ha : isNaN a = false) (hb : isNaN b = false) :
    flt a b = decide (orderKey a < orderKey b) := by
  rw [flt, ha, hb]
  rfl

theorem order_infinities {a : Word} (ha : isFinite a = true) : flt a 0x7F800000 = true ∧ fgt a 0x7F800000 = false ∧
    flt a 0xFF800000 = false ∧ fgt a 0xFF800000 = true := by
  have hn := isNaN_of_isFinite ha
  have hinf : isNaN 0x7F800000 = false := by decide
  have hneg : isNaN 0xFF800000 = false := by decide
  obtain ⟨hlow, hhigh⟩ := orderKey_bounds ha
  rw [fgt, fgt, flt_of_orderKey hn hinf, flt_of_orderKey hinf hn, flt_of_orderKey hn hneg, flt_of_orderKey hneg hn]
  exact ⟨decide_eq_true hhigh, decide_eq_false hhigh.le.not_gt, decide_eq_false hlow.le.not_gt, decide_eq_true hlow⟩

/-! ### Cosine, magnitude and clamp (R136, R137) -/

theorem valueOf_one : valueOf 0x3F800000 = 1 := by decide +kernel

theorem valueOf_zero : valueOf 0x00000000 = 0 := (valueOf_eq_zero_iff _).mpr (by decide)

theorem patternUnits_one : patternUnits 0x3F800000 = 2 ^ 149 := by
  have h : patternUnits 0x3F800000 = 2 ^ 23 * 2 ^ 126 :=
    patternUnits_steps (k := 126) (j := 2 ^ 23) (by decide) (.inr le_rfl)
  exact h.trans (by norm_num)

theorem abs_valueOf (w : Word) : |valueOf w| = units w / 2 ^ 149 := by
  rw [valueOf_eq, abs_div, abs_mul, abs_signUnit, one_mul, abs_of_nonneg (by positivity), abs_of_nonneg (by positivity)]

/-- A pattern in the unit range is finite and its value lies in [-1, 1]. -/
theorem inUnitRange_bounds {w : Word} (h : inUnitRange w = true) : isFinite w = true ∧ |valueOf w| ≤ 1 := by
  have hm : magnitude w ≤ 0x3F800000 := of_decide_eq_true h
  refine ⟨(isFinite_iff w).mpr (hm.trans_lt (by decide)), ?_⟩
  have hunits : units w ≤ 2 ^ 149 := by
    rw [units_eq, ← patternUnits_one]
    exact patternUnits_strictMono.monotone hm
  rw [abs_valueOf, div_le_one (by positivity)]
  exact_mod_cast hunits

theorem cosf_of_magnitude_zero {a : Word} (ha : magnitude a = 0) : cosf a = one := by rw [cosf, if_pos ha]

theorem num_cosf_zeros : num.cosf 0x00000000 = 0x3F800000 ∧ num.cosf 0x80000000 = 0x3F800000 :=
  ⟨cosf_of_magnitude_zero (a := 0x00000000) (by decide), cosf_of_magnitude_zero (a := 0x80000000) (by decide)⟩

theorem cosf_bounds {a : Word} (ha : isFinite a = true) : isFinite (cosf a) = true ∧ |valueOf (cosf a)| ≤ 1 := by
  refine inUnitRange_bounds ?_
  have hone : inUnitRange one = true := by decide
  rw [cosf, ha, Bool.true_and]
  split
  next => exact hone
  next =>
    cases h : inUnitRange (Config.cosRaw a) with
    | true => rw [if_neg (by decide), h]
    | false => rw [if_pos (by decide), hone]

theorem fabs_parts (a : Word) : sign (fabs a) = false ∧ magnitude (fabs a) = magnitude a := by
  have h : (fabs a).toNat = a.toNat % 2 ^ 31 := by
    rw [fabs, BitVec.toNat_and]
    exact Nat.and_two_pow_sub_one_eq_mod a.toNat 31
  refine ⟨?_, ?_⟩
  · rw [sign_eq, h]
    exact decide_eq_false (by omega)
  · rw [magnitude, magnitude, h]
    omega

theorem fabs_value {a : Word} (ha : isFinite a = true) :
    isFinite (fabs a) = true ∧ sign (fabs a) = false ∧ valueOf (fabs a) = |valueOf a| := by
  obtain ⟨hs, hm⟩ := fabs_parts a
  rw [isFinite_iff, hm, abs_valueOf, valueOf_eq, hs, units_eq, hm, ← units_eq, signUnit, if_neg (by decide), one_mul]
  exact ⟨(isFinite_iff a).mp ha, rfl, rfl⟩

theorem num_flt_finite {a b : Word} (ha : isFinite a = true) (hb : isFinite b = true) :
    num.flt a b = decide (valueOf a < valueOf b) := flt_finite ha hb

theorem num_fgt_finite {a b : Word} (ha : isFinite a = true) (hb : isFinite b = true) :
    num.fgt a b = decide (valueOf b < valueOf a) := flt_finite hb ha

theorem clamp01_finite {v : Word} (hv : isFinite v = true) :
    num.clamp01 v = if valueOf v < 0 then 0x00000000 else if 1 < valueOf v then 0x3F800000 else v := by
  rw [Numerics.clamp01, num_zero, num_one, num_flt_finite hv (by decide), num_fgt_finite hv (by decide), valueOf_zero,
    valueOf_one]
  simp only [decide_eq_true_eq]

/-! ### The roundings (R138 to R140, R202) -/

/-- A finite value that is not negative, as a quotient. -/
theorem valueOf_nonneg {v : Word} (h : 0 ≤ valueOf v) :
    (!sign v || magnitude v == 0) = true ∧ valueOf v = (units v : ℚ) / (2 ^ 149 : Nat) := by
  rw [valueOf_eq] at h ⊢
  cases hs : sign v with
  | false => exact ⟨rfl, by rw [signUnit, if_neg (by decide), one_mul]; push_cast; rfl⟩
  | true =>
    rw [hs, signUnit, if_pos rfl, neg_one_mul, neg_div] at h
    have hu : (units v : ℚ) / 2 ^ 149 ≤ 0 := by linarith
    have hzero : (units v : ℚ) = 0 := by
      have hle := (div_le_iff₀ (by positivity : (0 : ℚ) < 2 ^ 149)).mp hu
      exact le_antisymm (by linarith) (Nat.cast_nonneg _)
    have hm : magnitude v = 0 := (units_eq_zero_iff v).mp (by exact_mod_cast hzero)
    exact ⟨by simp [hm], by rw [hzero, mul_zero, zero_div, zero_div]⟩

/-- R138: the rounding of a quotient lies within a half of it, and exact halves go by TIE. -/
theorem rndRatio_value (tie : Tie) (n : Nat) {d : Nat} (hd : 0 < d) :
    |(rndRatio tie n d : ℚ) - n / d| ≤ 1 / 2 ∧ (|(rndRatio tie n d : ℚ) - n / d| = 1 / 2 → 2 * (n % d) = d) ∧
      ((n : ℚ) / d < (n / d + 1 : Nat)) := by
  have hd' : (0 : ℚ) < d := Nat.cast_pos.mpr hd
  have hdm : (n : ℚ) = d * (n / d : Nat) + (n % d : Nat) := by exact_mod_cast (Nat.div_add_mod n d).symm
  have hquot : (n : ℚ) / d = (n / d : Nat) + (n % d : Nat) / d := by
    rw [hdm, add_div, mul_div_cancel_left₀ _ hd'.ne']
  have hfrac : ((n % d : Nat) : ℚ) / d < 1 := (div_lt_one hd').mpr (by exact_mod_cast Nat.mod_lt n hd)
  have hnonneg : (0 : ℚ) ≤ ((n % d : Nat) : ℚ) / d := by positivity
  have hhalf : ((n % d : Nat) : ℚ) / d = 1 / 2 → 2 * (n % d) = d := fun h => by
    rw [div_eq_div_iff hd'.ne' two_ne_zero, one_mul, mul_comm] at h
    exact_mod_cast h
  refine ⟨?_, ?_, by rw [hquot]; push_cast; linarith⟩
  · rcases rndRatio_cases tie n d with ⟨hr, hle⟩ | ⟨hr, hle⟩ <;> rw [hr, hquot]
    · have hle' : ((n % d : Nat) : ℚ) / d ≤ 1 / 2 := by
        rw [div_le_div_iff₀ hd' two_pos, one_mul, mul_comm]
        exact_mod_cast hle
      rw [abs_le]
      constructor <;> linarith
    · have hle' : 1 / 2 ≤ ((n % d : Nat) : ℚ) / d := by
        rw [div_le_div_iff₀ two_pos hd', one_mul, mul_comm]
        exact_mod_cast hle
      push_cast
      rw [abs_le]
      constructor <;> linarith
  · rcases rndRatio_cases tie n d with ⟨hr, -⟩ | ⟨hr, -⟩ <;> rw [hr, hquot] <;> intro heq <;> refine hhalf ?_
    · rw [sub_add_cancel_left, abs_neg, abs_of_nonneg hnonneg] at heq
      exact heq
    · rw [abs_of_nonneg (by push_cast; linarith)] at heq
      push_cast at heq
      linarith

theorem num_rnd_nonneg {v : Word} (hv : isFinite v = true) (h : 0 ≤ valueOf v) :
    num.rnd v = rndRatio Config.tie (units v) (2 ^ 149) := by
  have hrnd : num.rnd v = if isFinite v && (!sign v || magnitude v == 0) then rndRatio Config.tie (units v) (2 ^ 149)
      else Config.unstatedInt v := rfl
  rw [hrnd, hv, (valueOf_nonneg h).1, Bool.true_and, if_pos rfl]

/-- R202, R139: the saturated field. -/
theorem num_quant_toNat (bits : Nat) (v : Word) :
    (num.quant bits v).toNat = if num.flt v 0x00000000 = true then 0 else min (num.rnd v) (2 ^ bits - 1) := by
  have hpos : 0 < 2 ^ bits := by positivity
  rw [Numerics.quant, num_zero, BitVec.toNat_ofNat, apply_ite (· % 2 ^ bits), Nat.zero_mod, sat,
    Nat.mod_eq_of_lt (by omega)]

/-- R140: the truncation is the floor. -/
theorem num_truncU8_floor {v : Word} (hv : isFinite v = true) (h0 : 0 ≤ valueOf v) (h255 : valueOf v ≤ 255) :
    ((num.truncU8 v).toNat : ℤ) = ⌊valueOf v⌋ := by
  obtain ⟨hsign, hvalue⟩ := valueOf_nonneg h0
  have hunits : units v ≤ 255 * 2 ^ 149 := by
    rw [hvalue, div_le_iff₀ (by positivity)] at h255
    exact_mod_cast h255
  have htrunc : num.truncU8 v = if isFinite v && (!sign v || magnitude v == 0) && decide (units v ≤ 255 * 2 ^ 149)
      then BitVec.ofNat 8 (units v / 2 ^ 149) else Config.unstatedByte v := rfl
  have hdiv : units v / 2 ^ 149 ≤ 255 := Nat.div_le_of_le_mul (by rwa [Nat.mul_comm])
  rw [htrunc, hv, hsign, decide_eq_true hunits, Bool.true_and, Bool.true_and, if_pos rfl, BitVec.toNat_ofNat,
    Nat.mod_eq_of_lt (by omega), ← Int.natCast_floor_eq_floor h0, hvalue, Nat.floor_div_eq_div]

/-! ### The list -/

theorem num_literals : ∀ p ∈ ([(0, 1), (1, 1), (2, 1), (3, 1), (15, 1), (31, 1), (32, 1), (63, 1), (255, 1), (1, 2),
    (15, 2), (63, 2), (5, 4)] : List (Nat × Nat)),
    isFinite (num.lit p.1 p.2) = true ∧ valueOf (num.lit p.1 p.2) = (p.1 : ℚ) / p.2 := by decide +kernel

/-- R138: `rnd` by the parameter TIE. -/
theorem num_rnd_nearest {v : Word} (hv : isFinite v = true) (h : 0 ≤ valueOf v) :
    |(num.rnd v : ℚ) - valueOf v| ≤ 1 / 2 ∧
      (|(num.rnd v : ℚ) - valueOf v| = 1 / 2 → (Config.tie = .halfEven → num.rnd v % 2 = 0) ∧
        (Config.tie = .halfAway → valueOf v < num.rnd v)) := by
  obtain ⟨h1, h2, h3⟩ := rndRatio_value Config.tie (units v) (d := 2 ^ 149) (by positivity)
  rw [num_rnd_nonneg hv h, (valueOf_nonneg h).2]
  refine ⟨h1, fun heq => ⟨fun htie => ?_, fun htie => ?_⟩⟩
  · rw [htie]
    exact rndRatio_half .halfEven (h2 heq)
  · rw [htie, rndRatio_half .halfAway (h2 heq)]
    exact h3

/-- Settles O58: the primitives one by one. -/
theorem numericPrimitives : Obligations.NumericPrimitives := by
  unfold Obligations.NumericPrimitives
  refine ⟨fun k hk => i2f_exact hk, num_literals, rfl, fun w _ => pi_nearest w, by decide +kernel, by decide +kernel,
    fun a b ha hb => ⟨num_flt_finite ha hb, num_fgt_finite ha hb⟩, fun a ha => order_infinities ha, fun a b => rfl,
    num_cosf_zeros.1, num_cosf_zeros.2, fun a ha => cosf_bounds ha, fun a ha => fabs_value ha, fun v hv => clamp01_finite hv,
    by decide +kernel, by decide +kernel, fun v hv h => ?_, num_quant_toNat, fun bits v hv => ?_,
    fun v hv h0 h255 => num_truncU8_floor hv h0 h255⟩
  · obtain ⟨hnear, htie⟩ := num_rnd_nearest hv h
    refine ⟨hnear, fun heq => ?_⟩
    split
    next heven => exact (htie heq).1 heven
    next haway => exact (htie heq).2 haway
  · rw [num_quant_toNat, num_flt_finite hv (by decide), valueOf_zero]
    simp only [decide_eq_true_eq]

end Sys2Proof.Machine
end
